-- ==== Sys2Proof/Word.lean ====
section
/-! DEFINITION. The bit-vector types of the part: one byte on a port or in the DRAM, and the wider fields that a
packet carries as bits (checks, page tags, title ids). Byte order and the checks themselves are in Machine/Bytes.lean. -/

namespace Sys2Proof

/-- One byte of a packet, of the DRAM or of the waveform memory. -/
abbrev Byte := BitVec 8

/-- The payload check of a packet (CRC-16, R175). -/
abbrev Word16 := BitVec 16

/-- A page tag, a title id or a CRC-32 (chapter 11, section 11.2). -/
abbrev Word32 := BitVec 32

/-- One four-bit pixel, 0 (black) to 15 (white) (R38). -/
abbrev Pixel := BitVec 4

end Sys2Proof
end

