-- ==== Sys2Proof/Config.lean ====
section
/-! DEFINITION. What one part fixes for good (sizes and counts the spec states) and the one free value of the model:
what the converter reads at a conversion sequence that no command supplies readings for. -/

namespace Sys2Proof

/-- The six raw readings the ADC would give at one moment, one for each channel, in the order of section 7.1 (12 bits
each, section 0.5). -/
structure Readings where
  batv  : BitVec 12
  bati  : BitVec 12
  ptemp : BitVec 12
  dtemp : BitVec 12
  amb   : BitVec 12
  panv  : BitVec 12
deriving DecidableEq, Repr, Inhabited

namespace Config

/-- Bytes of one pool block (section 1.1). -/
def blockSize : Nat := 65536
/-- Blocks of the pool (R1). -/
def blockCount : Nat := 1024
/-- Page slots (section 1.4). -/
def slotCount : Nat := 24
/-- Entries of the title table (R80). -/
def titleCount : Nat := 8
/-- Entries of the reading window (R20). -/
def windowMax : Nat := 16
/-- Entries of the pending queue of the update engine (R41). -/
def queueMax : Nat := 8
/-- Lanes of the update engine (section 3.4). -/
def laneCount : Nat := 4
/-- Tiles of the panel (R39). -/
def tileCount : Nat := 64
/-- The outstanding count at which a packet is discarded (R177). -/
def outstandingMax : Nat := 4
/-- The notice share of an outbound queue (R181). -/
def noticeMax : Nat := 8
/-- The end of the range of a saturating 32-bit counter (R102, R186). -/
def max32 : Nat := 4294967295
/-- The length of a power-up interval in milliseconds (R160). -/
def powerUpMs : Nat := 5
/-- The ramp tick in milliseconds (R118). -/
def rampMs : Nat := 16
/-- The hold time of a long press in milliseconds (R168). -/
def holdMs : Nat := 3000

/-- FREE VALUE (log entry 1). The readings that the n-th conversion sequence made inside another step finds, where the
list of readings that State holds is used up. The spec does not say what the sensors read, so this constant has no body
and no proof can rest on it. -/
opaque adcReadings : Nat → Readings

end Config
end Sys2Proof
end

