-- ==== Sys2Proof/Syntax.lean ====
section
/-! DEFINITION. The commands of the part: one constructor for each row of spec/opcode_table.json. A request row carries
the port and the packet's payload with its two check bytes, as the master sent them (chapter 11); an event row carries
what the event brings from outside (an update id, a byte, a header, readings of the sensors). -/

namespace Sys2Proof

/-- The three SPI target ports (section 0.2). -/
inductive Port where
  | main | standby | radio
deriving DecidableEq, Repr

/-- The two light outputs (R120). -/
inductive LightLine where
  | cool | warm
deriving DecidableEq, Repr

/-- What follows the header of a packet: the payload and its two-byte check (section 11.1). With an empty payload no
check is sent and the field is not examined. -/
structure Msg where
  payload : List Byte
  check   : Word16
deriving DecidableEq, Repr

/-- One inbound packet: the kind of its header, and what follows the header. -/
structure Packet where
  kind : Byte
  msg  : Msg
deriving DecidableEq, Repr

/-- The four bytes of a packet header: kind, payload length (low byte first on the wire), header check (section 11.1). -/
structure Header where
  kind   : Byte
  length : Word16
  check  : Byte
deriving DecidableEq, Repr

/-- One byte of the waveform memory that no longer holds what was loaded (section 4.4): its place in the stream and what
the memory holds there now. -/
structure Upset where
  position : Nat
  value    : Byte
deriving DecidableEq, Repr

/-- The commands, in the order of the table. -/
inductive Instr where
  | pageOpen (p : Port) (m : Msg)
  | pageData (p : Port) (m : Msg)
  | pageClose (p : Port) (m : Msg)
  | pageRelease (p : Port) (m : Msg)
  | pagePin (p : Port) (m : Msg)
  | pageUnpin (p : Port) (m : Msg)
  | pageStatus (p : Port) (m : Msg)
  | geometrySet (p : Port) (m : Msg)
  | windowSet (p : Port) (m : Msg)
  | windowAppend (p : Port) (m : Msg)
  | windowPrepend (p : Port) (m : Msg)
  | windowDrop (p : Port) (m : Msg)
  | windowQuery (p : Port) (m : Msg)
  | turnNext (p : Port) (m : Msg)
  | turnPrev (p : Port) (m : Msg)
  | showPage (p : Port) (m : Msg)
  | abort (p : Port) (m : Msg)
  | updateStatus (p : Port) (m : Msg)
  | scanComplete (id : Nat)
  | frameEvent
  | waveformBegin (p : Port) (m : Msg)
  | waveformData (p : Port) (m : Msg)
  | waveformEnd (p : Port) (m : Msg)
  | waveformStatus (p : Port) (m : Msg)
  | scrubTimerExpiry
  | scrubPassEnd (upsets : List Upset)
  | chunkBegin (p : Port) (m : Msg)
  | chunkMore (p : Port) (m : Msg)
  | verificationEnd
  | chunkAgingExpiry
  | titleRead (p : Port) (m : Msg)
  | titleRelease (p : Port) (m : Msg)
  | titleList (p : Port) (m : Msg)
  | titleQuery (p : Port) (m : Msg)
  | spoolStats (p : Port) (m : Msg)
  | spoolStatsClear (p : Port) (m : Msg)
  | lightSet (p : Port) (m : Msg)
  | lightQuery (p : Port) (m : Msg)
  | lightCurve (p : Port) (m : Msg)
  | lightAutoPoints (p : Port) (m : Msg)
  | rampTick
  | monitorTest (p : Port) (m : Msg)
  | monitorConfig (p : Port) (m : Msg)
  | monitorStatus (p : Port) (m : Msg)
  | conversionSequence (readings : Readings)
  | chargeSet (p : Port) (m : Msg)
  | chargeConfig (p : Port) (m : Msg)
  | chargeQuery (p : Port) (m : Msg)
  | doze (p : Port) (m : Msg)
  | sleep (p : Port) (m : Msg)
  | wakeMain (p : Port) (m : Msg)
  | resumeComplete
  | powerOff (p : Port) (m : Msg)
  | restart (p : Port) (m : Msg)
  | haltIntervalComplete
  | powerOn (p : Port) (m : Msg)
  | powerOnReset (keyHeld : Bool) (readings : Readings)
  | idleTimerExpiry
  | keyPress
  | keyRelease
  | keyHoldExpiry
  | radioPowerOn (p : Port) (m : Msg)
  | radioPowerOff (p : Port) (m : Msg)
  | clockSecond
  | clockSet (p : Port) (m : Msg)
  | alarmSet (p : Port) (m : Msg)
  | alarmClear (p : Port) (m : Msg)
  | alarmExpiry (slot : Nat)
  | status (p : Port) (m : Msg)
  | portReset (p : Port) (m : Msg)
  | countersClear (p : Port) (m : Msg)
  | paramSetSpoolLimit (p : Port) (m : Msg)
  | paramSetAheadLow (p : Port) (m : Msg)
  | paramSetBehindLow (p : Port) (m : Msg)
  | paramSetTurnMode (p : Port) (m : Msg)
  | paramSetGhostLimit (p : Port) (m : Msg)
  | paramSetFrameRate (p : Port) (m : Msg)
  | paramSetScrubPeriod (p : Port) (m : Msg)
  | paramSetChunkAge (p : Port) (m : Msg)
  | paramSetTitleWake (p : Port) (m : Msg)
  | paramSetRampStep (p : Port) (m : Msg)
  | paramSetAutoDeadband (p : Port) (m : Msg)
  | paramSetPwmFrequency (p : Port) (m : Msg)
  | paramSetPolarityCool (p : Port) (m : Msg)
  | paramSetPolarityWarm (p : Port) (m : Msg)
  | paramSetSleepDelay (p : Port) (m : Msg)
  | paramSetLinkErrorThreshold (p : Port) (m : Msg)
  | paramGet (p : Port) (m : Msg)
  | unknownRequest (p : Port) (kind : Byte) (m : Msg)
  | selectionByte (p : Port) (byte : Byte)
  | headerFailure (p : Port) (header : Header)
  | packetArrived (p : Port) (packet : Packet)
  | csRise (p : Port) (partialBytes : Nat)
  | packetSent (p : Port)
  | pwmPeriodStart (line : LightLine)
  | headerGood (p : Port) (header : Header)
  | entryFirstByteSent (p : Port)
deriving DecidableEq, Repr

end Sys2Proof
end

