-- ==== Sys2Proof/Decode.lean ====
section
/-! DEFINITION. The command that a word spells by the table's bits. The part has no instruction words: spec/opcode_table.json
gives no row any bits, so no word spells a command (log entry 7). Packets are read field by field in Machine/Operands.lean. -/

namespace Sys2Proof

/-- No row of the table has bits, so no word spells a command. -/
def decodeTableWord (_nbits _w : Nat) : Option Instr := none

end Sys2Proof
end

