-- ==== Sys2Proof/Machine/State.lean ====
section
/-! DEFINITION. The state of the Stipra 7130, block by block, as plain data; the reasons a step can stop; and the state
right after power-on reset, before the monitor's first conversion sequence. Counts, times and charges are natural
numbers or integers; page tags, title ids and checks are bit vectors. INVENTORY.md lists every field with its rule. -/

namespace Sys2Proof.Machine

/-! ## Enumerations (section 11.4) -/

/-- Update mode and turn_mode: FULL, PARTIAL, QUICK. -/
inductive Mode where
  | full | partially | quick
deriving DecidableEq, Repr

/-- Page formats (section 1.5). -/
inductive Format where
  | g4 | g2 | g1 | r4 | r2 | r1
deriving DecidableEq, Repr

/-- Slot roles (R18). -/
inductive Role where
  | sleepPage | shutdownPage
deriving DecidableEq, Repr

/-- States of a page slot (R8). -/
inductive SlotState where
  | empty | filling | ready | showing
deriving DecidableEq, Repr

/-- Who submitted an update (R41). -/
inductive Origin where
  | main | window | sleepPage | shutdownPage
deriving DecidableEq, Repr

/-- Phases of a live update; an ended record is discarded, so ENDED needs no constructor (R40). -/
inductive Phase where
  | pending | scanning | driving
deriving DecidableEq, Repr

/-- Results of an update (section 3.7). -/
inductive UpdateResult where
  | done | noChange | aborted | cancelled | lowCharge | sourceGone | supplyFault | noWaveform
deriving DecidableEq, Repr

/-- States of the waveform table (section 4.2). -/
inductive TableState where
  | absent | loading | valid | faulty
deriving DecidableEq, Repr

/-- States of the background scrub (section 4.4). -/
inductive ScrubState where
  | stopped | waiting | passing | suspended
deriving DecidableEq, Repr

/-- States of a title (section 5.1). -/
inductive TitleState where
  | receiving | verifying | complete | failed
deriving DecidableEq, Repr

/-- Why a title FAILED (section 5.1). -/
inductive FailCause where
  | misfit | crc
deriving DecidableEq, Repr

/-- What a misfit does to a title (R87). -/
inductive Policy where
  | lenient | strict
deriving DecidableEq, Repr

/-- Why an open assembly was dropped (R96, R97). -/
inductive DropCause where
  | aged | abandoned | released
deriving DecidableEq, Repr

/-- The six monitor channels (section 7.1). -/
inductive Channel where
  | batv | bati | ptemp | dtemp | amb | panv
deriving DecidableEq, Repr

/-- The five platform states (R153). -/
inductive PlatformState where
  | active | doze | sleep | halting | off
deriving DecidableEq, Repr

/-- Causes of a STATE_CHANGED (R173). -/
inductive Cause where
  | dozeRequest | mainRequest | wakeNotice | wakeRequest | alarm | key | turn | idle | sleepRequest | level | brownout
  | powerOff | restart | powerOn
deriving DecidableEq, Repr

/-- Halt causes (R162). -/
inductive HaltCause where
  | level | brownout | powerOff | restart | key
deriving DecidableEq, Repr

/-- Causes of a sleep pending (R158). -/
inductive SleepCause where
  | idle | sleepRequest
deriving DecidableEq, Repr

/-- Purposes of a power-up interval (R154). -/
inductive Purpose where
  | resume | halt
deriving DecidableEq, Repr

/-- Alarm actions (R171). -/
inductive AlarmAction where
  | wakeMain | radioOn | notifyStandby
deriving DecidableEq, Repr

/-- Key states (R168). -/
inductive KeyState where
  | released | pressed | consumed
deriving DecidableEq, Repr

/-- Polarities of a light output (R120). -/
inductive Polarity where
  | activeHigh | activeLow
deriving DecidableEq, Repr

/-- Directions of a turn (R31). -/
inductive Direction where
  | next | prev
deriving DecidableEq, Repr

/-- Result codes of a response (section 11.4). -/
inductive Result where
  | ok | queued | unknownRequest | notPermitted | badLength | badValue | checksum | busy | notReady | notNow | noSlot
  | noSpace | queueFull | windowEmpty | edge | windowFull | badImage | lowCharge | held | misfit | noTitle | duplicate
  | titleTableFull | spoolFull | sequence
deriving DecidableEq, Repr

/-! ## Ports (chapter 10) -/

/-- The notices with their fields (section 11.5). -/
inductive Notice where
  | updateDone (id : Nat) (result : UpdateResult) (frames changed : Nat) (promoted clamped : Bool) (tag : Word32)
  | windowLow (aheadFired behindFired : Bool) (ahead behind entries : Nat) (firstTag lastTag : Word32)
  | windowEdge (direction : Direction) (tag : Word32)
  | pageEvicted (slot : Nat) (tag : Word32)
  | lightChanged (level warmth : Nat) (auto : Bool) (writer : Port)
  | titleComplete (id : Word32) (received : Nat)
  | titleFailed (id : Word32) (cause : FailCause) (received : Nat)
  | spoolFull (id : Word32) (needed holding limit free : Nat)
  | radioHold (id : Word32) (cost : Nat)
  | radioResume
  | chunkAged (id : Word32) (cause : DropCause) (received : Nat)
  | chargeLevel (level q : Nat) (a : Int) (perMille : Nat)
  | monitorFault (channel : Channel) (value : Int) (entering test : Bool)
  | waveformFault (reference computed : Word32) (passes : Nat)
  | linkDegraded (port : Port) (headerFailures payloadFailures : Nat)
  | stateChanged (new previous : PlatformState) (cause : Cause) (clock : Nat)
  | alarm (slot : Nat) (action : AlarmAction) (time : Nat)
  | key
deriving DecidableEq, Repr

/-- The error set of a port (section 11.1). -/
structure ErrorSet where
  header     : Bool
  brk        : Bool
  overrun    : Bool
  noticeLost : Bool
deriving DecidableEq, Repr

/-- One entry of an outbound queue: a whole packet, as its fields (R180, R181). -/
inductive Entry where
  | response (kind : Byte) (result : Result) (errors : ErrorSet) (data : List Byte)
  | notice (n : Notice)
deriving DecidableEq, Repr

/-- The five counters of a port (R186). -/
structure Counters where
  admitted        : Nat
  headerFailures  : Nat
  payloadFailures : Nat
  breaks          : Nat
  overruns        : Nat
deriving DecidableEq, Repr

/-- Where a port is in its transfer (R174 to R176, R182, R184): no selection byte yet; the three WRITE states; a READ at a
packet boundary; a READ inside the head entry; a READ sending filler for the rest of an entry that a reset removed. -/
inductive Transfer where
  | idle
  | header
  | body (kind : Byte) (length : Nat)
  | discard
  | readBoundary
  | readEntry
  | readFiller
deriving DecidableEq, Repr

/-- The request in process of a port, and whether a reset has condemned its response (R178, R184). -/
structure InProcess where
  packet  : Packet
  condemned : Bool
deriving DecidableEq, Repr

/-- One port unit (chapter 10). -/
structure PortUnit where
  transfer    : Transfer
  waiting     : List Packet
  inProcess   : Option InProcess
  queue       : List Entry
  headStarted : Bool
  errors      : ErrorSet
  counters    : Counters
  degraded    : Bool
deriving DecidableEq, Repr

/-! ## Memory pool, page store, reading window (chapters 1 and 2) -/

/-- The memory pool: geometry, free list, the panel image's blocks (R1, R3). -/
structure Pool where
  width      : Nat
  height     : Nat
  spoolLimit : Nat
  free       : List Nat
  panel      : List Nat
deriving DecidableEq, Repr

/-- One page slot record (section 1.4). -/
structure Slot where
  state          : SlotState
  showing        : Nat
  blocks         : List Nat
  tag            : Word32
  format         : Option Format
  fill           : Nat
  crc            : Word32
  stamp          : Option Nat
  sleepRole      : Bool
  shutdownRole   : Bool
  releasePending : Bool
deriving DecidableEq, Repr

/-- The page store: its 24 slot records and the use counter (R9). -/
structure PageStore where
  slots      : List Slot
  useCounter : Nat
deriving DecidableEq, Repr

/-- The reading window (section 2.1). -/
structure Window where
  entries     : List Nat
  cursor      : Option Nat
  shown       : Option Nat
  lastTurn    : Option Nat
  aheadArmed  : Bool
  behindArmed : Bool
  aheadLow    : Nat
  behindLow   : Nat
  turnMode    : Mode
deriving DecidableEq, Repr

/-! ## Panel update engine, waveform table (chapters 3 and 4) -/

/-- A set of ports: the requester set of an update (section 3.2). -/
structure PortSet where
  main    : Bool
  standby : Bool
  radio   : Bool
deriving DecidableEq, Repr

/-- A rectangle of the panel in pixels (section 3.2). -/
structure Region where
  x : Nat
  y : Nat
  w : Nat
  h : Nat
deriving DecidableEq, Repr

/-- A live update record (section 3.2); `tiles` are the tiles that held a changed pixel at the scan (R49), `ghostLimit` the
ghost limit in force when the scan started, 0 before (R50, R63). -/
structure Update where
  id         : Nat
  origin     : Origin
  requesters : PortSet
  source     : Nat
  region     : Region
  mode       : Mode
  phase      : Phase
  band       : Option Nat
  clamped    : Bool
  ghostLimit : Nat
  changed    : Nat
  frames     : Nat
  index      : Nat
  estimate   : Nat
  promoted   : Bool
  tiles      : List Nat
deriving DecidableEq, Repr

/-- What one update sends on the panel drive bus in one frame: a two-bit symbol for each pixel of its region, row by row
(R53, section 11.7). -/
structure BusDrive where
  id      : Nat
  region  : Region
  symbols : List (BitVec 2)
deriving DecidableEq, Repr

/-- The update engine: pending queue, lanes in use, next-id counter, ghost counters, frame timer (µs left, none when
stopped), the frame now on the panel drive bus, parameters (chapter 3). -/
structure Engine where
  queue      : List Update
  active     : List Update
  nextId     : Nat
  ghosts     : List Nat
  frameTimer : Option Nat
  bus        : List BusDrive
  ghostLimit : Nat
  frameRate  : Nat
deriving DecidableEq, Repr

/-- The band descriptor: B + 1 bounds, and 3 × B frame counts in the order FULL, PARTIAL, QUICK (R66, R70). -/
structure Descriptor where
  bounds : List Int
  counts : List Nat
deriving DecidableEq, Repr

/-- A scrub pass in progress: its read position and its partial CRC (section 4.4). -/
structure ScrubPass where
  position : Nat
  crc      : Word32
deriving DecidableEq, Repr

/-- The waveform table and its scrub (chapter 4). `bytes` is the waveform memory from its first byte up to the last byte
written; `scrubTimer` counts milliseconds left, none when stopped. -/
structure WaveTable where
  state       : TableState
  descriptor  : Option Descriptor
  declared    : Option Nat
  loadPos     : Option Nat
  crc         : Option Word32
  reference   : Option Word32
  bytes       : List Byte
  scrub       : ScrubState
  scrubTimer  : Option Nat
  pass        : Option ScrubPass
  passCount   : Nat
  lastPass    : Option Nat
  scrubPeriod : Nat
deriving DecidableEq, Repr

/-! ## Download spool (chapter 5) -/

/-- One title (section 5.1). -/
structure Title where
  id        : Word32
  state     : TitleState
  failCause : Option FailCause
  total     : Option Nat
  crc       : Option Word32
  policy    : Policy
  received  : Nat
  blocks    : List Nat
  misfits   : Nat
  lastChunk : Option Nat
deriving DecidableEq, Repr

/-- The open chunk assembly (section 5.2); `ageLeft` is the aging timer in milliseconds, counted from the begin time. -/
structure Assembly where
  entry     : Nat
  offset    : Nat
  declared  : Nat
  collected : Nat
  last      : Bool
  cost      : Nat
  ageLeft   : Nat
deriving DecidableEq, Repr

/-- The nine statistics counters (R102). -/
structure SpoolCounters where
  small     : Nat
  medium    : Nat
  large     : Nat
  misfit    : Nat
  aged      : Nat
  abandoned : Nat
  held      : Nat
  full      : Nat
  length    : Nat
deriving DecidableEq, Repr

/-- The download spool (chapter 5). -/
structure Spool where
  titles    : List (Option Title)
  assembly  : Option Assembly
  held      : Bool
  verifying : List Nat
  bare      : Option Nat
  stats     : SpoolCounters
  chunkAge  : Nat
  titleWake : Bool
deriving DecidableEq, Repr

/-! ## Front light, monitor, charge account (chapters 6 to 8) -/

/-- What one light output does in its period in progress: the duty it applies, and whether it is held at its inactive level
until its next period start (R120). -/
structure LightOut where
  duty : Nat
  held : Bool
deriving DecidableEq, Repr

/-- The front light (chapter 6). `pwmApplied` is the frequency of the periods now running, `pwmFrequency` the parameter;
`pwmPending` is set while an accepted frequency waits for the cool output's next period start (R120). -/
structure Light where
  level        : Nat
  warmth       : Nat
  auto         : Bool
  autoLevel    : Nat
  autoFirst    : Bool
  rampLevel    : Nat
  rampWarmth   : Nat
  chargeCap    : Nat
  thermalCap   : Nat
  writer       : Option Port
  coolDuty     : Nat
  warmDuty     : Nat
  rampStep     : Nat
  autoDeadband : Nat
  pwmFrequency : Nat
  pwmApplied   : Nat
  pwmPending   : Bool
  polarityCool : Polarity
  polarityWarm : Polarity
  curve        : List Nat
  points       : List Nat
  rampTimer    : Option Nat
  coolOut      : LightOut
  warmOut      : LightOut
deriving DecidableEq, Repr

/-- One monitor channel (R122). AMB keeps limits 0 and 0, which nothing compares. -/
structure ChannelState where
  last        : Option Int
  test        : Bool
  raw         : Nat
  fault       : Bool
  run         : Nat
  gain        : Nat
  offset      : Int
  low         : Int
  high        : Int
  pendingTest : Option Int
deriving DecidableEq, Repr

/-- The monitor: six channels, the length of the period in progress and the time elapsed in it, both in milliseconds
(R122, R124). -/
structure Monitor where
  batv    : ChannelState
  bati    : ChannelState
  ptemp   : ChannelState
  dtemp   : ChannelState
  amb     : ChannelState
  panv    : ChannelState
  period  : Nat
  elapsed : Nat
deriving DecidableEq, Repr

/-- The last BATI sample integrated (section 8.1). -/
structure LastSample where
  current  : Int
  interval : Nat
  applied  : Int
deriving DecidableEq, Repr

/-- The parameters that CHARGE_CONFIG sets together (section 8.1). -/
structure ChargeParams where
  capacity   : Nat
  radio      : Nat
  light      : Nat
  turn       : Nat
  shutdown   : Nat
  hysteresis : Nat
  base       : Nat
  perPixel   : Nat
  perKib     : Nat
  ocv        : List Nat
deriving DecidableEq, Repr

/-- The charge account: Q, the reservation list (update id and amount, and the chunk's amount), the level index, the last
sample, the parameters (section 8.1). Q_full, R, A and the floors are computed from these. -/
structure Charge where
  q        : Nat
  updates  : List (Nat × Nat)
  chunk    : Option Nat
  level    : Nat
  last     : LastSample
  params   : ChargeParams
deriving DecidableEq, Repr

/-! ## Platform controller (chapter 9) -/

/-- A power-up interval in progress: its purpose and the milliseconds left (R154, R160). -/
structure PowerUp where
  purpose : Purpose
  left    : Nat
deriving DecidableEq, Repr

/-- What a resume in progress carries: onward target (`toActive` for ACTIVE, else DOZE), onward cause, the main request
flag, and the radio alarms (slot and time) in expiry order (R154). -/
structure Onward where
  toActive    : Bool
  cause       : Cause
  mainRequest : Bool
  radioAlarms : List (Nat × Nat)
deriving DecidableEq, Repr

/-- A set alarm slot (R171). -/
structure Alarm where
  time   : Nat
  action : AlarmAction
deriving DecidableEq, Repr

/-- The platform controller (R154). `idleTimer` and `holdTimer` count milliseconds left; `clockMs` the milliseconds since
the last second was counted. -/
structure Platform where
  state          : PlatformState
  powerUp        : Option PowerUp
  onward         : Option Onward
  sleepPending   : Option SleepCause
  pageSubmitted  : Bool
  idleTimer      : Option Nat
  haltCause      : Option HaltCause
  pageDecided    : Bool
  radioSetting   : Bool
  wakeMain       : Bool
  key            : KeyState
  holdTimer      : Option Nat
  clock          : Nat
  clockMs        : Nat
  alarms         : List (Option Alarm)
  sleepDelay     : Nat
deriving DecidableEq, Repr

/-! ## The whole part -/

/-- The state of the part. `inputs` and `samples` are the model's own: the readings that later conversion sequences made
inside another step will find, and how many such sequences found the list used up (log entry 1). `pending` is the queue of
commands. -/
structure State where
  pool          : Pool
  dram          : List Host.Cell
  store         : PageStore
  window        : Window
  engine        : Engine
  wave          : WaveTable
  spool         : Spool
  light         : Light
  monitor       : Monitor
  charge        : Charge
  platform      : Platform
  portMain      : PortUnit
  portStandby   : PortUnit
  portRadio     : PortUnit
  linkThreshold : Nat
  inputs        : List Readings
  samples       : Nat
  pending       : List Instr
deriving DecidableEq, Repr

/-- Reasons a step faults: none. The spec answers every request with a response and gives every event an effect, and the
pool hands out blocks of the DRAM only, so no access leaves it. -/
inductive Fault where
deriving DecidableEq, Repr

/-- Reasons a command is refused. -/
inductive Refusal where
  /-- Raised by exec's arm for a row of the table that has no meaning yet; no arm is left so. Safe: the model stops where
  the part goes on. -/
  | notModelled (mnemonic : String)
deriving DecidableEq, Repr

/-! ## Reset values -/

def ErrorSet.empty : ErrorSet := ⟨false, false, false, false⟩
def Counters.zero : Counters := ⟨0, 0, 0, 0, 0⟩

/-- A port unit after power-on reset (R185). -/
def PortUnit.reset : PortUnit :=
  { transfer := .idle, waiting := [], inProcess := none, queue := [], headStarted := false, errors := .empty,
    counters := .zero, degraded := false }

/-- An EMPTY slot: every other item absent (R8). -/
def Slot.reset : Slot :=
  { state := .empty, showing := 0, blocks := [], tag := 0, format := none, fill := 0, crc := 0, stamp := none,
    sleepRole := false, shutdownRole := false, releasePending := false }

/-- The pool's initial layout (R4). -/
def Pool.reset : Pool :=
  { width := 1448, height := 1072, spoolLimit := 640, free := (List.range 1012).map (· + 12), panel := List.range 12 }

/-- Every slot EMPTY, the use counter 0 (R4, R9). -/
def PageStore.reset : PageStore :=
  { slots := List.replicate Config.slotCount .reset, useCounter := 0 }

/-- The window's initial values and its parameters' defaults (section 2.1). -/
def Window.reset : Window :=
  { entries := [], cursor := none, shown := none, lastTurn := none, aheadArmed := true, behindArmed := true, aheadLow := 2,
    behindLow := 1, turnMode := .partially }

/-- The engine after power-on reset (R65, section 3.1), the frame timer stopped in OFF (R52). -/
def Engine.reset : Engine :=
  { queue := [], active := [], nextId := 1, ghosts := List.replicate Config.tileCount 6, frameTimer := none, bus := [],
    ghostLimit := 6, frameRate := 85 }

/-- The waveform table after power-on reset (R68, section 4.4). -/
def WaveTable.reset : WaveTable :=
  { state := .absent, descriptor := none, declared := none, loadPos := none, crc := none, reference := none, bytes := [],
    scrub := .stopped, scrubTimer := none, pass := none, passCount := 0, lastPass := none, scrubPeriod := 300 }

def SpoolCounters.zero : SpoolCounters := ⟨0, 0, 0, 0, 0, 0, 0, 0, 0⟩

/-- The spool after power-on reset (R82, section 5.9). -/
def Spool.reset : Spool :=
  { titles := List.replicate Config.titleCount none, assembly := none, held := false, verifying := [], bare := none,
    stats := .zero, chunkAge := 500, titleWake := false }

def LightOut.reset : LightOut := { duty := 0, held := false }

/-- The light after power-on reset (R104, section 6.2). The charge cap is that of level index 4, see `Charge.reset`. -/
def Light.reset : Light :=
  { level := 0, warmth := 0, auto := false, autoLevel := 0, autoFirst := false, rampLevel := 0, rampWarmth := 0,
    chargeCap := 0, thermalCap := 1023, writer := none, coolDuty := 0, warmDuty := 0, rampStep := 16, autoDeadband := 24,
    pwmFrequency := 4000, pwmApplied := 4000, pwmPending := false, polarityCool := .activeHigh,
    polarityWarm := .activeHigh,
    curve := (List.range 33).map (fun j => 4095 * (j * j) / 1024), points := [40, 160, 400, 700, 900], rampTimer := none,
    coolOut := .reset, warmOut := .reset }

/-- A channel before its first sample, with its default calibration and limits (R122, R123, section 7.1). -/
def ChannelState.fresh (gain : Nat) (offset low high : Int) : ChannelState :=
  { last := none, test := false, raw := 0, fault := false, run := 0, gain := gain, offset := offset, low := low,
    high := high, pendingTest := none }

/-- The monitor at the battery connection, in OFF, before its first conversion sequence (R122, R125). -/
def Monitor.reset : Monitor :=
  { batv := .fresh 5000 0 3350 5000, bati := .fresh 6000 (-3000) (-2500) 2500, ptemp := .fresh 1400 (-400) 0 500,
    dtemp := .fresh 1650 (-400) (-400) 1000, amb := .fresh 16384 0 0 0, panv := .fresh 30000 0 14000 16000,
    period := 16000, elapsed := 0 }

/-- The default parameters of the charge account (section 8.1). -/
def ChargeParams.reset : ChargeParams :=
  { capacity := 1500, radio := 150, light := 80, turn := 30, shutdown := 15, hysteresis := 20, base := 120, perPixel := 40,
    perKib := 900, ocv := [3300, 3550, 3650, 3700, 3740, 3780, 3840, 3910, 3990, 4080, 4180] }

/-- The charge account at the battery connection (R134). DESIGN CHOICE (log entry 2): Q stands at 0 and the level index at
its raw index 4 until the start-up estimate of the first conversion sequence sets both. -/
def Charge.reset : Charge :=
  { q := 0, updates := [], chunk := none, level := 4, last := ⟨0, 0, 0⟩, params := .reset }

/-- The platform controller after power-on reset (R154). -/
def Platform.reset : Platform :=
  { state := .off, powerUp := none, onward := none, sleepPending := none, pageSubmitted := false, idleTimer := none,
    haltCause := none, pageDecided := false, radioSetting := false, wakeMain := false, key := .released, holdTimer := none,
    clock := 0, clockMs := 0, alarms := [none, none, none], sleepDelay := 60 }

/-- The part at the battery connection (R167): every item at its power-on value, the platform in OFF, no command waiting.
The first conversion sequence and the start-up estimate need readings from outside and belong to POWER_ON_RESET. -/
def State.reset : State :=
  { pool := .reset, dram := [], store := .reset, window := .reset, engine := .reset, wave := .reset, spool := .reset,
    light := .reset, monitor := .reset, charge := .reset, platform := .reset, portMain := .reset, portStandby := .reset,
    portRadio := .reset, linkThreshold := 64, inputs := [], samples := 0, pending := [] }

/-! ## Updates of one block at a time -/

/-- The port unit of a port. -/
def State.port (s : State) : Port → PortUnit
  | .main => s.portMain
  | .standby => s.portStandby
  | .radio => s.portRadio

def State.withPool (s : State) (b : Pool) : State := { s with pool := b }
def State.withDram (s : State) (b : List Host.Cell) : State := { s with dram := b }
def State.withStore (s : State) (b : PageStore) : State := { s with store := b }
def State.withWindow (s : State) (b : Window) : State := { s with window := b }
def State.withEngine (s : State) (b : Engine) : State := { s with engine := b }
def State.withWave (s : State) (b : WaveTable) : State := { s with wave := b }
def State.withSpool (s : State) (b : Spool) : State := { s with spool := b }
def State.withLight (s : State) (b : Light) : State := { s with light := b }
def State.withMonitor (s : State) (b : Monitor) : State := { s with monitor := b }
def State.withCharge (s : State) (b : Charge) : State := { s with charge := b }
def State.withPlatform (s : State) (b : Platform) : State := { s with platform := b }
def State.withThreshold (s : State) (n : Nat) : State := { s with linkThreshold := n }
def State.withPort (s : State) (p : Port) (u : PortUnit) : State :=
  match p with
  | .main => { s with portMain := u }
  | .standby => { s with portStandby := u }
  | .radio => { s with portRadio := u }

end Sys2Proof.Machine
end

