-- ==== Sys2Proof/Machine/Bytes.lean ====
section
/-! DEFINITION. Byte order and the three cyclic checks: little-endian fields (chapter 11), CRC-8 and CRC-16 of packets
(R175), CRC-32 of page fills, waveform streams and titles (R14). -/

namespace Sys2Proof.Machine

/-- The unsigned value of a little-endian field. -/
def leNat : List Byte → Nat
  | [] => 0
  | b :: bs => b.toNat + 256 * leNat bs

/-- The signed (two's complement) value of a little-endian field. -/
def leInt (bs : List Byte) : Int :=
  if 2 * leNat bs < 256 ^ bs.length then (leNat bs : Int) else (leNat bs : Int) - (256 ^ bs.length : Nat)

/-- A 32-bit word from its four bytes. -/
def leWord (bs : List Byte) : Word32 := BitVec.ofNat 32 (leNat bs)

/-- `n` as a little-endian field of `w` bytes. -/
def leBytes : Nat → Nat → List Byte
  | 0, _ => []
  | w + 1, n => BitVec.ofNat 8 n :: leBytes w (n / 256)

/-- A signed number as a little-endian field of `w` bytes. -/
def leBytesInt (w : Nat) (i : Int) : List Byte := leBytes w (i % (256 ^ w : Nat)).toNat

/-- The list cut into two-byte fields; an odd byte at the end is left out. -/
def fields16 : List Byte → List (List Byte)
  | a :: b :: bs => [a, b] :: fields16 bs
  | _ => []

/-- One bit step of a check register that takes bytes most significant bit first. -/
def crcShiftLeft {w : Nat} (poly : BitVec w) (r : BitVec w) : BitVec w :=
  if r.msb then (r <<< 1) ^^^ poly else r <<< 1

/-- Eight bit steps. -/
def eightTimes {α : Type} (f : α → α) (x : α) : α := f (f (f (f (f (f (f (f x)))))))

/-- The header check: x^8 + x^2 + x + 1 from 00h, most significant bit first, no complement (R175). -/
def crc8 (bs : List Byte) : Byte :=
  bs.foldl (fun r b => eightTimes (crcShiftLeft 0x07#8) (r ^^^ b)) 0x00#8

/-- The payload check: x^16 + x^12 + x^5 + 1 from FFFFh, most significant bit first, no complement (R175). -/
def crc16 (bs : List Byte) : Word16 :=
  bs.foldl (fun (r : Word16) (b : Byte) => eightTimes (crcShiftLeft 0x1021#16) (r ^^^ (b ++ 0x00#8 : BitVec 16))) 0xFFFF#16

/-- One bit step of the CRC-32 register, least significant bit first (the polynomial of R14, its bits reversed). -/
def crc32Shift (r : Word32) : Word32 :=
  if r.getLsbD 0 then (r >>> 1) ^^^ 0xEDB88320#32 else r >>> 1

/-- The CRC-32 that results when `bs` follow the bytes whose CRC-32 is `c` (R14). The register is the complement of the
result, so `c = 0` stands for no byte yet and starts the register from FFFFFFFFh. -/
def crc32From (c : Word32) (bs : List Byte) : Word32 :=
  ~~~ (bs.foldl (fun r b => eightTimes crc32Shift (r ^^^ b.setWidth 32)) (~~~ c))

/-- The CRC-32 of a run of bytes (R14). -/
def crc32 (bs : List Byte) : Word32 := crc32From 0 bs

/-- The bytes of a header (section 11.1): kind, length with its low byte first, header check. -/
def headerBytes (h : Header) : List Byte := [h.kind] ++ leBytes 2 h.length.toNat ++ [h.check]

/-- A header is good when its CRC-8 matches and its length is at most 1024 (R175). -/
def headerGoodCheck (h : Header) : Bool :=
  crc8 ((headerBytes h).take 3) == h.check && h.length.toNat ≤ 1024

/-- A 32-bit counter that stays at the end of its range (R102, R186). -/
def saturatingSucc (n : Nat) : Nat := min (n + 1) Config.max32

/-- Division rounded up. -/
def ceilDiv (a b : Nat) : Nat := (a + b - 1) / b

end Sys2Proof.Machine
end

