-- ==== Sys2Proof/Machine/Memory.lean ====
section
/-! DEFINITION. The DRAM as a list of (address, byte) pairs in one canonical form, and bytes and pixels at a place in an
owner's block list. An address is block × 65,536 + position in the block; an unlisted address reads FFh, which is two
white pixels (log entry 3). -/

namespace Sys2Proof.Machine

/-- What an unlisted address reads as: FFh, so that the panel image of the initial layout, all pixels 15 (R38), is the
empty list (log entry 3). -/
def Mem.blank : Byte := 0xFF#8

/-- Canonical form: addresses strictly rising above `lo`, no entry equal to what an unlisted address reads as. -/
def Mem.wfFrom : Nat → List Host.Cell → Bool
  | _, [] => true
  | lo, (a, b) :: m => decide (lo ≤ a) && (b != Mem.blank) && Mem.wfFrom (a + 1) m

/-- The DRAM is in canonical form. -/
def Mem.wf (m : List Host.Cell) : Bool := Mem.wfFrom 0 m

/-- The byte at an address. -/
def Mem.read : List Host.Cell → Nat → Byte
  | [], _ => Mem.blank
  | (a', b) :: m, a => if a = a' then b else Mem.read m a

/-- Store one byte; storing what an unlisted address reads as removes the entry. -/
def Mem.write : List Host.Cell → Nat → Byte → List Host.Cell
  | [], a, b => if b = Mem.blank then [] else [(a, b)]
  | (a', b') :: m, a, b =>
    if a < a' then (if b = Mem.blank then (a', b') :: m else (a, b) :: (a', b') :: m)
    else if a = a' then (if b = Mem.blank then m else (a, b) :: m)
    else (a', b') :: Mem.write m a b

/-- Every byte of the named blocks made blank: two white pixels each. -/
def Mem.blankBlocks (blocks : List Nat) (m : List Host.Cell) : List Host.Cell :=
  m.filter (fun c => !blocks.contains (c.1 / Config.blockSize))

/-- The DRAM address of byte `b` of an owner's block list (R80; the same layout for a page and the panel image). -/
def blockAddress (blocks : List Nat) (b : Nat) : Nat :=
  blocks.getD (b / Config.blockSize) 0 * Config.blockSize + b % Config.blockSize

/-- Byte `b` of an owner's block list. -/
def ownerByte (m : List Host.Cell) (blocks : List Nat) (b : Nat) : Byte := Mem.read m (blockAddress blocks b)

/-- Store bytes into an owner's block list from byte `b` on. -/
def writeOwner (m : List Host.Cell) (blocks : List Nat) : Nat → List Byte → List Host.Cell
  | _, [] => m
  | b, x :: xs => writeOwner (Mem.write m (blockAddress blocks b) x) blocks (b + 1) xs

/-- Pixel `k` of an owner's block list, two to a byte, the earlier one in the low bits (log entry 4). -/
def ownerPixel (m : List Host.Cell) (blocks : List Nat) (k : Nat) : Pixel :=
  let b := ownerByte m blocks (k / 2)
  if k % 2 = 0 then b.extractLsb' 0 4 else b.extractLsb' 4 4

/-- Store one pixel; the other pixel of the byte keeps its value. -/
def writePixel (m : List Host.Cell) (blocks : List Nat) (k : Nat) (v : Pixel) : List Host.Cell :=
  let a := blockAddress blocks (k / 2)
  let b := Mem.read m a
  let b' : Byte :=
    if k % 2 = 0 then (b.extractLsb' 4 4 ++ v : BitVec 8) else (v ++ b.extractLsb' 0 4 : BitVec 8)
  Mem.write m a b'

/-- Store pixels in row-major order from pixel `k` on. -/
def writePixels (m : List Host.Cell) (blocks : List Nat) : Nat → List Pixel → List Host.Cell
  | _, [] => m
  | k, v :: vs => writePixels (writePixel m blocks k v) blocks (k + 1) vs

end Sys2Proof.Machine
end

