-- ==== Sys2Proof/Machine/Operands.lean ====
section
/-! DEFINITION. The request kinds and their permissions (R179, section 11.3), the codes of section 11.4, and the payload of
every request read into its fields. A reader answers none exactly where check 4 of R178 refuses the payload's length
(R189, R191); codes are left as numbers, since their owners refuse them (R190). -/

namespace Sys2Proof.Machine

/-! ## Request kinds -/

/-- The requests by name (section 11.3). -/
inductive ReqKind where
  | pageOpen | pageData | pageClose | pageRelease | pagePin | pageUnpin | pageStatus | geometrySet
  | windowSet | windowAppend | windowPrepend | windowDrop | windowQuery | turnNext | turnPrev
  | showPage | abort | updateStatus | waveformBegin | waveformData | waveformEnd | waveformStatus
  | chunkBegin | chunkMore | titleRead | titleRelease | titleList | titleQuery | spoolStats | spoolStatsClear
  | lightSet | lightQuery | lightCurve | lightAutoPoints | monitorTest | monitorConfig | monitorStatus
  | chargeSet | chargeConfig | chargeQuery | doze | sleep | wakeMain | powerOff | restart | powerOn
  | radioPower | clockSet | alarmSet | alarmClear | status | portReset | countersClear | paramSet | paramGet
deriving DecidableEq, Repr

/-- The kind byte of a request (section 11.3). -/
def ReqKind.code : ReqKind → Byte
  | .pageOpen => 0x01#8 | .pageData => 0x02#8 | .pageClose => 0x03#8 | .pageRelease => 0x04#8
  | .pagePin => 0x05#8 | .pageUnpin => 0x06#8 | .pageStatus => 0x07#8 | .geometrySet => 0x08#8
  | .windowSet => 0x09#8 | .windowAppend => 0x0A#8 | .windowPrepend => 0x0B#8 | .windowDrop => 0x0C#8
  | .windowQuery => 0x0D#8 | .turnNext => 0x0E#8 | .turnPrev => 0x0F#8 | .showPage => 0x10#8
  | .abort => 0x11#8 | .updateStatus => 0x12#8 | .waveformBegin => 0x13#8 | .waveformData => 0x14#8
  | .waveformEnd => 0x15#8 | .waveformStatus => 0x16#8 | .chunkBegin => 0x20#8 | .chunkMore => 0x21#8
  | .titleRead => 0x22#8 | .titleRelease => 0x23#8 | .titleList => 0x24#8 | .titleQuery => 0x25#8
  | .spoolStats => 0x26#8 | .spoolStatsClear => 0x27#8 | .lightSet => 0x28#8 | .lightQuery => 0x29#8
  | .lightCurve => 0x2A#8 | .lightAutoPoints => 0x2B#8 | .monitorTest => 0x30#8 | .monitorConfig => 0x31#8
  | .monitorStatus => 0x32#8 | .chargeSet => 0x33#8 | .chargeConfig => 0x34#8 | .chargeQuery => 0x35#8
  | .doze => 0x40#8 | .sleep => 0x41#8 | .wakeMain => 0x42#8 | .powerOff => 0x43#8
  | .restart => 0x44#8 | .powerOn => 0x45#8 | .radioPower => 0x46#8 | .clockSet => 0x47#8
  | .alarmSet => 0x48#8 | .alarmClear => 0x49#8 | .status => 0x4A#8 | .portReset => 0x4B#8
  | .countersClear => 0x4C#8 | .paramSet => 0x4D#8 | .paramGet => 0x4E#8

/-- Every request kind. -/
def allKinds : List ReqKind :=
  [.pageOpen, .pageData, .pageClose, .pageRelease, .pagePin, .pageUnpin, .pageStatus, .geometrySet, .windowSet,
   .windowAppend, .windowPrepend, .windowDrop, .windowQuery, .turnNext, .turnPrev, .showPage, .abort, .updateStatus,
   .waveformBegin, .waveformData, .waveformEnd, .waveformStatus, .chunkBegin, .chunkMore, .titleRead, .titleRelease,
   .titleList, .titleQuery, .spoolStats, .spoolStatsClear, .lightSet, .lightQuery, .lightCurve, .lightAutoPoints,
   .monitorTest, .monitorConfig, .monitorStatus, .chargeSet, .chargeConfig, .chargeQuery, .doze, .sleep, .wakeMain,
   .powerOff, .restart, .powerOn, .radioPower, .clockSet, .alarmSet, .alarmClear, .status, .portReset, .countersClear,
   .paramSet, .paramGet]

/-- The request a kind byte names, if any (R178 check 2). -/
def kindOf (b : Byte) : Option ReqKind := allKinds.find? (fun k => k.code == b)

/-- Which requests each port may send (R179). -/
def permitted (p : Port) (k : ReqKind) : Bool :=
  match p with
  | .main => k != .chunkBegin && k != .chunkMore
  | .standby => [ReqKind.turnNext, .turnPrev, .lightSet, .lightQuery, .sleep, .wakeMain, .powerOn, .status, .chargeQuery,
      .portReset].contains k
  | .radio => [ReqKind.chunkBegin, .chunkMore, .titleQuery, .status, .portReset].contains k

/-- The requests the standby port is served in OFF (R178 check 5). -/
def servedInOff (k : ReqKind) : Bool := [ReqKind.powerOn, .status, .chargeQuery, .portReset].contains k

/-! ## Codes (section 11.4) -/

def Mode.code : Mode → Nat
  | .full => 0 | .partially => 1 | .quick => 2
def modeOf : Nat → Option Mode
  | 0 => some .full | 1 => some .partially | 2 => some .quick | _ => none
def Format.code : Format → Nat
  | .g4 => 0 | .g2 => 1 | .g1 => 2 | .r4 => 3 | .r2 => 4 | .r1 => 5
def formatOf : Nat → Option Format
  | 0 => some .g4 | 1 => some .g2 | 2 => some .g1 | 3 => some .r4 | 4 => some .r2 | 5 => some .r1 | _ => none
def roleOf : Nat → Option Role
  | 1 => some .sleepPage | 2 => some .shutdownPage | _ => none
def SlotState.code : SlotState → Nat
  | .empty => 0 | .filling => 1 | .ready => 2 | .showing => 3
def Origin.code : Origin → Nat
  | .main => 0 | .window => 1 | .sleepPage => 2 | .shutdownPage => 3
def Phase.code : Phase → Nat
  | .pending => 0 | .scanning => 1 | .driving => 2
def UpdateResult.code : UpdateResult → Nat
  | .done => 0 | .noChange => 1 | .aborted => 2 | .cancelled => 3 | .lowCharge => 4 | .sourceGone => 5 | .supplyFault => 6
  | .noWaveform => 7
def TableState.code : TableState → Nat
  | .absent => 0 | .loading => 1 | .valid => 2 | .faulty => 3
def ScrubState.code : ScrubState → Nat
  | .stopped => 0 | .waiting => 1 | .passing => 2 | .suspended => 3
def TitleState.code : TitleState → Nat
  | .receiving => 0 | .verifying => 1 | .complete => 2 | .failed => 3
def FailCause.code : FailCause → Nat
  | .misfit => 1 | .crc => 2
def Policy.code : Policy → Nat
  | .lenient => 0 | .strict => 1
def policyOf : Nat → Option Policy
  | 0 => some .lenient | 1 => some .strict | _ => none
def DropCause.code : DropCause → Nat
  | .aged => 0 | .abandoned => 1 | .released => 2
def Channel.code : Channel → Nat
  | .batv => 0 | .bati => 1 | .ptemp => 2 | .dtemp => 3 | .amb => 4 | .panv => 5
def channelOf : Nat → Option Channel
  | 0 => some .batv | 1 => some .bati | 2 => some .ptemp | 3 => some .dtemp | 4 => some .amb | 5 => some .panv | _ => none
def PlatformState.code : PlatformState → Nat
  | .active => 0 | .doze => 1 | .sleep => 2 | .halting => 3 | .off => 4
def Cause.code : Cause → Nat
  | .dozeRequest => 0 | .mainRequest => 1 | .wakeNotice => 2 | .wakeRequest => 3 | .alarm => 4 | .key => 5 | .turn => 6
  | .idle => 7 | .sleepRequest => 8 | .level => 9 | .brownout => 10 | .powerOff => 11 | .restart => 12 | .powerOn => 13
def AlarmAction.code : AlarmAction → Nat
  | .wakeMain => 0 | .radioOn => 1 | .notifyStandby => 2
def alarmActionOf : Nat → Option AlarmAction
  | 0 => some .wakeMain | 1 => some .radioOn | 2 => some .notifyStandby | _ => none
def portCode : Port → Nat
  | .main => 0 | .standby => 1 | .radio => 2
def portOf : Nat → Option Port
  | 0 => some .main | 1 => some .standby | 2 => some .radio | _ => none
def Direction.code : Direction → Nat
  | .next => 0 | .prev => 1
def KeyState.code : KeyState → Nat
  | .released => 0 | .pressed => 1 | .consumed => 2
def Purpose.code : Purpose → Nat
  | .resume => 1 | .halt => 2
def Polarity.code : Polarity → Nat
  | .activeHigh => 0 | .activeLow => 1
def polarityOf : Nat → Option Polarity
  | 0 => some .activeHigh | 1 => some .activeLow | _ => none
def Result.code : Result → Nat
  | .ok => 0x00 | .queued => 0x01 | .unknownRequest => 0x02 | .notPermitted => 0x03 | .badLength => 0x04 | .badValue => 0x05
  | .checksum => 0x06 | .busy => 0x07 | .notReady => 0x08 | .notNow => 0x09 | .noSlot => 0x0A | .noSpace => 0x0B
  | .queueFull => 0x0C | .windowEmpty => 0x0D | .edge => 0x0E | .windowFull => 0x0F | .badImage => 0x10
  | .lowCharge => 0x11 | .held => 0x12 | .misfit => 0x13 | .noTitle => 0x14 | .duplicate => 0x15
  | .titleTableFull => 0x16 | .spoolFull => 0x17 | .sequence => 0x18

/-- The state change cause that reports a halt cause (R173). -/
def HaltCause.cause : HaltCause → Cause
  | .level => .level | .brownout => .brownout | .powerOff => .powerOff | .restart => .restart | .key => .key

/-- The state change cause that reports SLEEP entry (R173). -/
def SleepCause.cause : SleepCause → Cause
  | .idle => .idle | .sleepRequest => .sleepRequest

/-- A flag byte above 1 is taken as set (R190). -/
def flagOf (b : Byte) : Bool := b.toNat != 0

/-! ## Payloads (section 11.3) -/

/-- No payload. -/
def readNothing : List Byte → Option Unit
  | [] => some ()
  | _ => none

/-- One byte. -/
def readOne : List Byte → Option Nat
  | [a] => some a.toNat
  | _ => none

/-- A two-byte field alone. -/
def readTwo : List Byte → Option Nat
  | [a, b] => some (leNat [a, b])
  | _ => none

/-- A four-byte word alone. -/
def readWord : List Byte → Option Word32
  | [a, b, c, d] => some (leWord [a, b, c, d])
  | _ => none

structure PageOpenArgs where
  slot : Nat
  tag : Word32
  format : Nat
deriving DecidableEq, Repr

def readPageOpen : List Byte → Option PageOpenArgs
  | [s, a, b, c, d, f] => some ⟨s.toNat, leWord [a, b, c, d], f.toNat⟩
  | _ => none

structure SlotBytes where
  slot : Nat
  data : List Byte
deriving DecidableEq, Repr

/-- A slot and 0 to 1022 data bytes (R14, R189). -/
def readPageData : List Byte → Option SlotBytes
  | [] => none
  | s :: bs => if bs.length ≤ 1022 then some ⟨s.toNat, bs⟩ else none

structure SlotWord where
  slot : Nat
  word : Word32
deriving DecidableEq, Repr

def readPageClose : List Byte → Option SlotWord
  | [s, a, b, c, d] => some ⟨s.toNat, leWord [a, b, c, d]⟩
  | _ => none

/-- Two one-byte fields: a slot and a role. -/
def readPair : List Byte → Option (Nat × Nat)
  | [a, b] => some (a.toNat, b.toNat)
  | _ => none

/-- W and H, two bytes each. -/
def readGeometry : List Byte → Option (Nat × Nat)
  | [a, b, c, d] => some (leNat [a, b], leNat [c, d])
  | _ => none

structure WindowSetArgs where
  count : Nat
  cursor : Nat
  slots : List Nat
deriving DecidableEq, Repr

/-- A length of exactly 2 + n, with n the first byte (R189). -/
def readWindowSet : List Byte → Option WindowSetArgs
  | n :: c :: bs => if bs.length = n.toNat then some ⟨n.toNat, c.toNat, bs.map BitVec.toNat⟩ else none
  | _ => none

structure ShowArgs where
  slot : Nat
  mode : Nat
  region : Option Region
deriving DecidableEq, Repr

/-- A length of 2 or 10; 2 means that the region is absent (R189). -/
def readShow : List Byte → Option ShowArgs
  | [s, m] => some ⟨s.toNat, m.toNat, none⟩
  | [s, m, a, b, c, d, e, f, g, h] =>
    some ⟨s.toNat, m.toNat, some ⟨leNat [a, b], leNat [c, d], leNat [e, f], leNat [g, h]⟩⟩
  | _ => none

structure WaveformBeginArgs where
  bands : Nat
  bounds : List Int
  counts : List Nat
deriving DecidableEq, Repr

/-- A length of exactly 3 + 5 × B, with B the first byte (R189). -/
def readWaveformBegin : List Byte → Option WaveformBeginArgs
  | [] => none
  | b :: bs =>
    if bs.length = 2 + 5 * b.toNat then
      some ⟨b.toNat, (fields16 (bs.take (2 * (b.toNat + 1)))).map leInt, (bs.drop (2 * (b.toNat + 1))).map BitVec.toNat⟩
    else none

/-- 0 to 1024 stream bytes. -/
def readStream (bs : List Byte) : Option (List Byte) := if bs.length ≤ 1024 then some bs else none

/-- 1 to 1024 data bytes. -/
def readChunkMore (bs : List Byte) : Option (List Byte) := if 1 ≤ bs.length ∧ bs.length ≤ 1024 then some bs else none

/-- The fields of a chunk prefix (section 11.6), absent ones as zero; `form` is bits 0 and 1 of byte 0, `upper` its bits 4
to 7, which the spool refuses unless they are 0 (R191). -/
structure ChunkBeginArgs where
  form : Nat
  last : Bool
  crcPresent : Bool
  upper : Nat
  declared : Nat
  title : Word32
  total : Nat
  crc : Word32
  policy : Nat
  offset : Nat
  data : List Byte
deriving DecidableEq, Repr

/-- The length of a chunk prefix by its byte 0; form 0 is given the BARE length (R191). -/
def prefixLength (b : Byte) : Nat :=
  match b.toNat % 4 with
  | 1 => if b.getLsbD 3 then 20 else 16
  | 2 => 11
  | _ => 3

/-- A length of at least the prefix length plus 1, and at most 1024 (R189). -/
def readChunkBegin : List Byte → Option ChunkBeginArgs
  | [] => none
  | b :: bs =>
    if bs.length + 1 < prefixLength b + 1 ∨ 1024 < bs.length + 1 then none
    else
      let at4 := fun i => (bs.drop i).take 4
      let a : ChunkBeginArgs :=
        { form := b.toNat % 4, last := b.getLsbD 2, crcPresent := b.getLsbD 3, upper := b.toNat / 16,
          declared := leNat (bs.take 2), title := 0, total := 0, crc := 0, policy := 0, offset := 0,
          data := bs.drop (prefixLength b - 1) }
      match b.toNat % 4, b.getLsbD 3 with
      | 1, false => some { a with title := leWord (at4 2), total := leNat (at4 6), policy := leNat ((bs.drop 10).take 1),
                                  offset := leNat (at4 11) }
      | 1, true => some { a with title := leWord (at4 2), total := leNat (at4 6), crc := leWord (at4 10),
                                 policy := leNat ((bs.drop 14).take 1), offset := leNat (at4 15) }
      | 2, _ => some { a with title := leWord (at4 2), offset := leNat (at4 6) }
      | _, _ => some a

structure TitleReadArgs where
  title : Word32
  offset : Nat
  length : Nat
deriving DecidableEq, Repr

def readTitleRead : List Byte → Option TitleReadArgs
  | [a, b, c, d, e, f, g, h, i, j] => some ⟨leWord [a, b, c, d], leNat [e, f, g, h], leNat [i, j]⟩
  | _ => none

structure LightSetArgs where
  level : Nat
  warmth : Nat
  auto : Bool
deriving DecidableEq, Repr

/-- Level and warmth, two bytes each, and the auto flag (section 11.3). -/
def readLightSet : List Byte → Option LightSetArgs
  | [a, b, c, d, e] => some ⟨leNat [a, b], leNat [c, d], flagOf e⟩
  | _ => none

/-- `n` two-byte fields. -/
def readWords (n : Nat) (bs : List Byte) : Option (List Nat) :=
  if bs.length = 2 * n then some ((fields16 bs).map leNat) else none

structure MonitorTestArgs where
  channel : Nat
  value : Int
deriving DecidableEq, Repr

def readMonitorTest : List Byte → Option MonitorTestArgs
  | [c, a, b, d, e] => some ⟨c.toNat, leInt [a, b, d, e]⟩
  | _ => none

structure MonitorConfigArgs where
  channel : Nat
  gain : Nat
  offset : Int
  low : Int
  high : Int
deriving DecidableEq, Repr

def readMonitorConfig : List Byte → Option MonitorConfigArgs
  | [c, g0, g1, o0, o1, o2, o3, l0, l1, l2, l3, h0, h1, h2, h3] =>
    some ⟨c.toNat, leNat [g0, g1], leInt [o0, o1, o2, o3], leInt [l0, l1, l2, l3], leInt [h0, h1, h2, h3]⟩
  | _ => none

/-- An eight-byte unsigned charge. -/
def readCharge (bs : List Byte) : Option Nat := if bs.length = 8 then some (leNat bs) else none

/-- The twenty two-byte fields of CHARGE_CONFIG. -/
def readChargeConfig (bs : List Byte) : Option ChargeParams :=
  match readWords 20 bs with
  | some (c :: r :: l :: t :: s :: h :: b :: p :: k :: ocv) => some ⟨c, r, l, t, s, h, b, p, k, ocv⟩
  | _ => none

/-- A four-byte number. -/
def readLong : List Byte → Option Nat
  | [a, b, c, d] => some (leNat [a, b, c, d])
  | _ => none

structure AlarmSetArgs where
  slot : Nat
  time : Nat
  action : Nat
deriving DecidableEq, Repr

def readAlarmSet : List Byte → Option AlarmSetArgs
  | [s, a, b, c, d, x] => some ⟨s.toNat, leNat [a, b, c, d], x.toNat⟩
  | _ => none

structure ParamArgs where
  id : Nat
  value : Nat
deriving DecidableEq, Repr

def readParamSet : List Byte → Option ParamArgs
  | [i, a, b, c, d] => some ⟨i.toNat, leNat [a, b, c, d]⟩
  | _ => none

/-! ## Parameters (section 11.8) -/

/-- The parameters that PARAM_SET and PARAM_GET reach. -/
inductive Param where
  | spoolLimit | aheadLow | behindLow | turnMode | ghostLimit | frameRate | scrubPeriod | chunkAge | titleWake | rampStep
  | autoDeadband | pwmFrequency | polarityCool | polarityWarm | sleepDelay | linkErrorThreshold
deriving DecidableEq, Repr

/-- The identifier of a parameter. -/
def Param.code : Param → Nat
  | .spoolLimit => 0x01 | .aheadLow => 0x02 | .behindLow => 0x03 | .turnMode => 0x04 | .ghostLimit => 0x05
  | .frameRate => 0x06 | .scrubPeriod => 0x07 | .chunkAge => 0x08 | .titleWake => 0x09 | .rampStep => 0x0A
  | .autoDeadband => 0x0B | .pwmFrequency => 0x0C | .polarityCool => 0x0D | .polarityWarm => 0x0E | .sleepDelay => 0x0F
  | .linkErrorThreshold => 0x10

/-- Every parameter. -/
def allParams : List Param :=
  [.spoolLimit, .aheadLow, .behindLow, .turnMode, .ghostLimit, .frameRate, .scrubPeriod, .chunkAge, .titleWake, .rampStep,
   .autoDeadband, .pwmFrequency, .polarityCool, .polarityWarm, .sleepDelay, .linkErrorThreshold]

/-- The parameter an identifier names, if any (R192). -/
def paramOf (i : Nat) : Option Param := allParams.find? (fun q => q.code == i)

/-! ## Building a packet's payload and check, for tests and statements -/

/-- A message with the check that belongs to its payload. -/
def mkMsg (payload : List Byte) : Msg := ⟨payload, crc16 payload⟩

end Sys2Proof.Machine
end

