-- ==== Sys2Proof/Machine/Encode.lean ====
section
/-! DEFINITION. The bytes of what the part sends: the fields of section 11.2, notices (section 11.5), responses, and whole
packets with their header check and payload check (section 11.1). -/

namespace Sys2Proof.Machine

/-! ## Field encodings (section 11.2) -/

def encU8 (n : Nat) : List Byte := leBytes 1 n
def encU16 (n : Nat) : List Byte := leBytes 2 n
def encU32 (n : Nat) : List Byte := leBytes 4 n
def encS16 (i : Int) : List Byte := leBytesInt 2 i
def encS32 (i : Int) : List Byte := leBytesInt 4 i
/-- A charge in µC: eight bytes, signed. -/
def encCharge (i : Int) : List Byte := leBytesInt 8 i
def encWord (w : Word32) : List Byte := leBytes 4 w.toNat
def encFlag (b : Bool) : List Byte := encU8 (if b then 1 else 0)
/-- A field whose absence the rule reports: the field, zero when absent, and then a flag byte, 1 for absent. -/
def encOptional (enc : Nat → List Byte) : Option Nat → List Byte
  | some n => enc n ++ encFlag false
  | none => enc 0 ++ encFlag true
/-- The same for a signed 32-bit field. -/
def encOptionalS32 : Option Int → List Byte
  | some i => encS32 i ++ encFlag false
  | none => encS32 0 ++ encFlag true
/-- A bit set, first flag in bit 0. -/
def encBits (bits : List Bool) : List Byte :=
  encU8 (bits.foldr (fun b n => (if b then 1 else 0) + 2 * n) 0)
def encPortSet (r : PortSet) : List Byte := encBits [r.main, r.standby, r.radio]
def encErrors (e : ErrorSet) : List Byte := encBits [e.header, e.brk, e.overrun, e.noticeLost]
/-- A writer: a port code, FFh for none. -/
def encWriter : Option Port → List Byte
  | some p => encU8 (portCode p)
  | none => encU8 0xFF

/-! ## Notices (section 11.5) -/

/-- The notice type, which decides replacement in a full notice share (R181). -/
def Notice.type : Notice → Nat
  | .updateDone .. => 0x01 | .windowLow .. => 0x02 | .windowEdge .. => 0x03 | .pageEvicted .. => 0x04
  | .lightChanged .. => 0x05 | .titleComplete .. => 0x06 | .titleFailed .. => 0x07 | .spoolFull .. => 0x08
  | .radioHold .. => 0x09 | .radioResume => 0x0A | .chunkAged .. => 0x0B | .chargeLevel .. => 0x0C
  | .monitorFault .. => 0x0D | .waveformFault .. => 0x0E | .linkDegraded .. => 0x0F | .stateChanged .. => 0x10
  | .alarm .. => 0x11 | .key => 0x12

/-- The fields of a notice after its type byte. -/
def Notice.fields : Notice → List Byte
  | .updateDone id result frames changed promoted clamped tag =>
    encU16 id ++ encU8 result.code ++ encU8 frames ++ encU32 changed ++ encFlag promoted ++ encFlag clamped ++ encWord tag
  | .windowLow a b ahead behind entries t1 t2 =>
    encBits [a, b] ++ encU8 ahead ++ encU8 behind ++ encU8 entries ++ encWord t1 ++ encWord t2
  | .windowEdge d tag => encU8 d.code ++ encWord tag
  | .pageEvicted slot tag => encU8 slot ++ encWord tag
  | .lightChanged level warmth auto writer => encU16 level ++ encU16 warmth ++ encFlag auto ++ encU8 (portCode writer)
  | .titleComplete id received => encWord id ++ encU32 received
  | .titleFailed id cause received => encWord id ++ encU8 cause.code ++ encU32 received
  | .spoolFull id needed holding limit free =>
    encWord id ++ encU32 needed ++ encU32 holding ++ encU32 limit ++ encU32 free
  | .radioHold id cost => encWord id ++ encCharge cost
  | .radioResume => []
  | .chunkAged id cause received => encWord id ++ encU8 cause.code ++ encU32 received
  | .chargeLevel level q a perMille => encU8 level ++ encCharge q ++ encCharge a ++ encU16 perMille
  | .monitorFault ch value entering test =>
    encU8 ch.code ++ encS32 value ++ encU8 (if entering then 1 else 0) ++ encFlag test
  | .waveformFault reference computed passes => encWord reference ++ encWord computed ++ encU32 passes
  | .linkDegraded p hdr payload => encU8 (portCode p) ++ encU32 hdr ++ encU32 payload
  | .stateChanged new previous cause clock =>
    encU8 new.code ++ encU8 previous.code ++ encU8 cause.code ++ encU32 clock
  | .alarm slot action time => encU8 slot ++ encU8 action.code ++ encU32 time
  | .key => encU8 0

/-! ## Packets (section 11.1) -/

/-- The payload of an outbound entry. -/
def Entry.payload : Entry → List Byte
  | .response kind result errors data => [kind] ++ encU8 result.code ++ encErrors errors ++ encU8 0 ++ data
  | .notice n => encU8 n.type ++ n.fields

/-- The kind byte of an outbound entry: 80h RESPONSE, 81h NOTICE. -/
def Entry.kindByte : Entry → Byte
  | .response .. => 0x80#8
  | .notice _ => 0x81#8

/-- A whole packet: header with its CRC-8, payload, and with a payload its CRC-16, low byte first. -/
def packetBytes (kind : Byte) (payload : List Byte) : List Byte :=
  let head := [kind] ++ encU16 payload.length
  head ++ [crc8 head] ++ payload ++ (if payload = [] then [] else leBytes 2 (crc16 payload).toNat)

/-- The bytes a READ transfer sends for an entry. -/
def Entry.bytes (e : Entry) : List Byte := packetBytes e.kindByte e.payload

/-- The bytes a READ transfer sends at a boundary with the queue empty. -/
def emptyPacket : List Byte := packetBytes 0x00#8 []

/-- The filler byte that the part sends on SDO where it sends no packet (R174, R184 step 3). -/
def fillerByte : Byte := 0x00#8

/-- The entry is a notice. -/
def Entry.isNotice : Entry → Bool
  | .notice _ => true
  | .response .. => false

end Sys2Proof.Machine
end

