-- ==== Sys2Proof/Machine/Flags.lean ====
section
/-! DEFINITION. The lines and figures that are computed from the state and not stored: who is powered, the attention lines,
PWR_MAIN, PWR_RADIO, PANEL_BUSY, FAULT_OUT, the light outputs, the outstanding count, the footprint, and the figures of the
charge account. -/

namespace Sys2Proof.Machine

/-! ## Ports -/

/-- PWR_MAIN: on in every state but OFF (R153). -/
def pwrMain (s : State) : Bool := s.platform.state != .off

/-- PWR_RADIO: on while the setting is on and the platform is ACTIVE or DOZE (R169). -/
def pwrRadio (s : State) : Bool :=
  s.platform.radioSetting && (s.platform.state == .active || s.platform.state == .doze)

/-- The far side of a port is powered (R174). -/
def powered (p : Port) (s : State) : Bool :=
  match p with
  | .main => pwrMain s
  | .standby => true
  | .radio => pwrRadio s

/-- The notices in an outbound queue. -/
def noticeCount (u : PortUnit) : Nat := (u.queue.filter Entry.isNotice).length

/-- The outstanding count: requests waiting, the request in process, responses not yet read (R177). -/
def outstanding (u : PortUnit) : Nat :=
  u.waiting.length + (if u.inProcess.isSome then 1 else 0) + (u.queue.filter (fun e => !e.isNotice)).length

/-- ATTN_M, ATTN_S and ATTN_R: the queue holds an entry and the far side is powered (R183). -/
def attention (p : Port) (s : State) : Bool := !(s.port p).queue.isEmpty && powered p s

/-- The packet that a READ sends from a packet boundary: the head entry, or EMPTY with the queue empty (R182). -/
def readPacket (u : PortUnit) : List Byte :=
  match u.queue with
  | e :: _ => e.bytes
  | [] => emptyPacket

/-- The byte that the part sends on SDO as byte `n` of the packet in the transfer, from 0: in a READ, of the head entry once its
first byte is sent, and from a boundary of the packet chosen there, whose later bytes are an EMPTY packet's while the boundary
lasts (R182); filler during the selection byte, through a WRITE and its DISCARD, and for the rest of an entry that a reset has
removed (R174, R184 step 3). Filler in a DISCARD that an unknown selection byte began is the model's reading (log entry 32). -/
def sdoByte (u : PortUnit) (n : Nat) : Byte :=
  match u.transfer with
  | .readEntry => (readPacket u).getD n fillerByte
  | .readBoundary => if n = 0 then (readPacket u).headD fillerByte else emptyPacket.getD n fillerByte
  | .readFiller => fillerByte
  | .idle => fillerByte
  | .header => fillerByte
  | .body _ _ => fillerByte
  | .discard => fillerByte

/-! ## Pool -/

/-- The footprint: blocks of one page at the current geometry (R3). -/
def footprint (b : Pool) : Nat := ceilDiv (b.width * b.height / 2) Config.blockSize

/-- Pixels of one page. -/
def pageSize (b : Pool) : Nat := b.width * b.height

/-- The blocks all titles hold together (R81). -/
def spoolHolding (sp : Spool) : Nat := (sp.titles.map (fun t => (t.map (fun x => x.blocks.length)).getD 0)).sum

/-- A slot record; a number above 23 names an EMPTY record. -/
def slotAt (i : Nat) (s : State) : Slot := s.store.slots.getD i .reset

/-- The title of an entry, if it holds one. -/
def titleAt (i : Nat) (s : State) : Option Title := s.spool.titles.getD i none

/-- The DRAM is in self-refresh, or still leaving it in a power-up interval (R4, R160, R163). -/
def dramAsleep (s : State) : Bool := s.platform.state == .sleep || s.platform.powerUp.isSome

/-! ## Engine and monitor -/

/-- PANEL_BUSY: an update is SCANNING or DRIVING (R62). -/
def panelBusy (s : State) : Bool := !s.engine.active.isEmpty

/-- The state of a channel. -/
def Monitor.get (m : Monitor) : Channel → ChannelState
  | .batv => m.batv | .bati => m.bati | .ptemp => m.ptemp | .dtemp => m.dtemp | .amb => m.amb | .panv => m.panv

def Monitor.set (m : Monitor) (c : Channel) (x : ChannelState) : Monitor :=
  match c with
  | .batv => { m with batv := x } | .bati => { m with bati := x } | .ptemp => { m with ptemp := x }
  | .dtemp => { m with dtemp := x } | .amb => { m with amb := x } | .panv => { m with panv := x }

/-- The six channels in the order of section 7.1. -/
def allChannels : List Channel := [.batv, .bati, .ptemp, .dtemp, .amb, .panv]

/-- The monitor asks for FAULT_OUT while a channel is in fault (R127). -/
def monitorAsks (m : Monitor) : Bool := allChannels.any (fun c => (m.get c).fault)

/-- FAULT_OUT: the table is FAULTY or a channel is in fault (R76). -/
def faultOut (s : State) : Bool := s.wave.state == .faulty || monitorAsks s.monitor

/-- The table's band count. -/
def Descriptor.bands (d : Descriptor) : Nat := d.bounds.length - 1

/-- The frame count of a mode and a band, bands numbered from 1 (R66). -/
def Descriptor.frames (d : Descriptor) (m : Mode) (band : Nat) : Nat :=
  d.counts.getD (m.code * d.bands + (band - 1)) 0

/-- The declared size: 64 times the sum of the frame counts (R67). -/
def declaredSize (counts : List Nat) : Nat := 64 * counts.sum

/-! ## Charge account -/

/-- Q_full in µC (R133). -/
def qFull (c : Charge) : Nat := c.params.capacity * 3600000

/-- A floor or the hysteresis in µC (R142). -/
def floorOf (c : Charge) (perMille : Nat) : Nat := qFull c * perMille / 1000
def floorRadio (c : Charge) : Nat := floorOf c c.params.radio
def floorLight (c : Charge) : Nat := floorOf c c.params.light
def floorTurn (c : Charge) : Nat := floorOf c c.params.turn
def floorShutdown (c : Charge) : Nat := floorOf c c.params.shutdown
def hysteresisOf (c : Charge) : Nat := floorOf c c.params.hysteresis

/-- R, the sum of the reservation list (R136). -/
def reserved (c : Charge) : Nat := (c.updates.map (·.2)).sum + c.chunk.getD 0

/-- The available charge A, signed (R137). -/
def available (c : Charge) : Int := (c.q : Int) - reserved c

/-- The raw index (R143). -/
def rawIndex (c : Charge) : Nat :=
  if c.q < floorShutdown c then 4
  else if available c < floorTurn c then 3
  else if available c < floorLight c then 2
  else if available c < floorRadio c then 1
  else 0

/-- The per-mille of Q (R145). -/
def perMilleOf (c : Charge) : Nat := c.q * 1000 / qFull c

/-! ## Light -/

/-- The effective cap (R114). -/
def effectiveCap (l : Light) : Nat := min l.chargeCap l.thermalCap

/-- The asked level (section 6.1). -/
def askedLevel (l : Light) : Nat := if l.auto then l.autoLevel else l.level

/-- The effective target e (R116). -/
def effectiveTarget (s : State) : Nat :=
  match s.platform.state with
  | .active => min (askedLevel s.light) (effectiveCap s.light)
  | .doze => if s.platform.sleepPending.isSome then 0 else min (askedLevel s.light) (effectiveCap s.light)
  | _ => 0

/-- The total duty of a ramp level by the curve (R119 step 1). -/
def totalDuty (curve : List Nat) (r : Nat) : Nat :=
  let j := min (r / 32) 31
  let lo := curve.getD j 0
  lo + (curve.getD (j + 1) 0 - lo) * (r - 32 * j) / 32

/-- The frequency in hertz of the periods that both light outputs are in (R120). -/
def lineFrequency (s : State) : Nat := s.light.pwmApplied

/-- An output is at its active level at `phase` parts in 4096 of its period (R120): dark in SLEEP and OFF, and while held. -/
def lineActive (s : State) (line : LightLine) (phase : Nat) : Bool :=
  let out := match line with | .cool => s.light.coolOut | .warm => s.light.warmOut
  s.platform.state != .sleep && s.platform.state != .off && !out.held && decide (phase < out.duty)

/-- The level of LIGHT_COOL or LIGHT_WARM, true for high (R120). -/
def lineHigh (s : State) (line : LightLine) (phase : Nat) : Bool :=
  let pol := match line with | .cool => s.light.polarityCool | .warm => s.light.polarityWarm
  match pol with
  | .activeHigh => lineActive s line phase
  | .activeLow => !lineActive s line phase

end Sys2Proof.Machine
end

