-- ==== Sys2Proof/Machine/Ops.lean ====
section
/-! DEFINITION. The operations every block shares: notices and responses on the outbound queues (R180, R181), the platform
controller's wake (R156, R160) and idle timer (R157), admission and taking of requests (R177, R178). The part has no
exception entry: what a processor does by an exception it does by a refusal, a notice or a line. -/

namespace Sys2Proof.Machine

/-! ## Updating a part of the state -/

def onPort (p : Port) (f : PortUnit → PortUnit) (s : State) : State := s.withPort p (f (s.port p))
def onPlatform (f : Platform → Platform) (s : State) : State := s.withPlatform (f s.platform)
def onEngine (f : Engine → Engine) (s : State) : State := s.withEngine (f s.engine)
def onWindow (f : Window → Window) (s : State) : State := s.withWindow (f s.window)
def onSpool (f : Spool → Spool) (s : State) : State := s.withSpool (f s.spool)
def onLight (f : Light → Light) (s : State) : State := s.withLight (f s.light)
def onCharge (f : Charge → Charge) (s : State) : State := s.withCharge (f s.charge)
def onWave (f : WaveTable → WaveTable) (s : State) : State := s.withWave (f s.wave)
def onPool (f : Pool → Pool) (s : State) : State := s.withPool (f s.pool)
def onMonitor (f : Monitor → Monitor) (s : State) : State := s.withMonitor (f s.monitor)

/-! ## Notices (R181) -/

/-- The queue without its oldest notice of a type, if it holds one. -/
def removeOldest (type : Nat) : List Entry → Option (List Entry)
  | [] => none
  | .notice n :: q => if n.type = type then some q else (removeOldest type q).map (.notice n :: ·)
  | e :: q => (removeOldest type q).map (e :: ·)

/-- The same, the head excluded once a READ has sent its first byte (R181 case 3, R182). -/
def removeOldestOf (headStarted : Bool) (type : Nat) (q : List Entry) : Option (List Entry) :=
  match headStarted, q with
  | true, e :: q' => (removeOldest type q').map (e :: ·)
  | _, _ => removeOldest type q

/-- A notice decided by the notice share (R181 cases 2 to 4). -/
def offerUnit (n : Notice) (u : PortUnit) : PortUnit :=
  if noticeCount u < Config.noticeMax then { u with queue := u.queue ++ [.notice n] }
  else
    match removeOldestOf u.headStarted n.type u.queue with
    | some q => { u with queue := q ++ [.notice n] }
    | none => { u with errors := { u.errors with noticeLost := true } }

/-- A notice offered to a port; the main port held reset in OFF discards it (R181 case 1). -/
def offerTo (p : Port) (n : Notice) (s : State) : State :=
  if p = .main ∧ s.platform.state = .off then s else onPort p (offerUnit n) s

/-- STATE_CHANGED to the standby port (R173). -/
def reportState (new previous : PlatformState) (c : Cause) (s : State) : State :=
  offerTo .standby (.stateChanged new previous c s.platform.clock) s

/-! ## Idle timer, wake and resume (R156, R157, R160) -/

/-- A full sleep_delay in milliseconds. -/
def idleFull (f : Platform) : Option Nat := some (f.sleepDelay * 1000)

/-- A restarting event: only a running idle timer restarts (R157). -/
def restartIdle (s : State) : State :=
  onPlatform (fun f => if f.idleTimer.isSome then { f with idleTimer := idleFull f } else f) s

/-- The move from DOZE to ACTIVE (R156 steps 1 to 4). -/
def enterActive (raise : Bool) (c : Cause) (s : State) : State :=
  s |> onPlatform (fun f => { f with
        state := .active, sleepPending := none, pageSubmitted := false, idleTimer := none,
        wakeMain := f.wakeMain || raise })
    |> reportState .active .doze c

/-- A cause of a resume taken in SLEEP: it starts the power-up interval, or it meets the one in progress (R160). -/
def startResume (toActive : Bool) (c : Cause) (mainRequest : Bool) (s : State) : State :=
  onPlatform (fun f =>
    match f.onward with
    | none =>
      { f with powerUp := some ⟨.resume, Config.powerUpMs⟩, onward := some ⟨toActive, c, mainRequest, []⟩ }
    | some o =>
      if toActive then
        { f with onward := some { o with toActive := true, cause := c, mainRequest := o.mainRequest || mainRequest } }
      else { f with onward := some { o with mainRequest := o.mainRequest || mainRequest } }) s

/-- What a wake-class notice for the main port does to the platform (R156, R160). -/
def wakeByNotice (s : State) : State :=
  match s.platform.state with
  | .doze => enterActive true .wakeNotice s
  | .sleep => startResume true .wakeNotice false s
  | _ => s

/-- A notice offered to the main port; a wake-class one is reported to the platform controller whether it was queued or
dropped, but not when the port is held reset (R181). -/
def offerMain (wakeClass : Bool) (n : Notice) (s : State) : State :=
  if s.platform.state = .off then s
  else
    let s1 := offerTo .main n s
    if wakeClass then wakeByNotice s1 else s1

/-- The platform controller is told that a request was taken on a port (R178, R156, R157, R160). -/
def requestTaken (p : Port) (s : State) : State :=
  match p with
  | .main =>
    let s1 := onPlatform (fun f => { f with wakeMain := false }) s
    match s1.platform.state with
    | .doze => enterActive false .mainRequest s1
    | .sleep => startResume true .mainRequest true s1
    | _ => s1
  | _ => restartIdle s

/-! ## Responses (R180) -/

/-- Append a response with the port's error set, which is cleared. -/
def queueResponse (p : Port) (kind : Byte) (r : Result) (data : List Byte) (s : State) : State :=
  onPort p (fun u => { u with queue := u.queue ++ [.response kind r u.errors data], errors := .empty }) s

/-- The request in process completes: its response is queued, or discarded where a reset has condemned it (R180, R184). -/
def respond (p : Port) (r : Result) (data : List Byte) (s : State) : State :=
  match (s.port p).inProcess with
  | none => s
  | some q =>
    let s1 := onPort p (fun u => { u with inProcess := none }) s
    if q.condemned then s1 else queueResponse p q.packet.kind r data s1

/-- A refusal carries no data (section 11.1). -/
def refuse (p : Port) (r : Result) (s : State) : State := respond p r [] s

/-! ## Link health (R187) -/

/-- The link test of a port: at the threshold an undegraded port becomes degraded and LINK_DEGRADED is offered to main. -/
def linkTest (p : Port) (s : State) : State :=
  let u := s.port p
  if s.linkThreshold ≤ u.counters.headerFailures + u.counters.payloadFailures ∧ u.degraded = false then
    s |> onPort p (fun v => { v with degraded := true })
      |> offerMain false (.linkDegraded p u.counters.headerFailures u.counters.payloadFailures)
  else s

/-- A header failure: HEADER set, counted, tested, and every byte dropped until CS rises (R174, R175). -/
def headerFails (p : Port) (s : State) : State :=
  s |> onPort p (fun u => { u with
        transfer := .discard, errors := { u.errors with header := true },
        counters := { u.counters with headerFailures := saturatingSucc u.counters.headerFailures } })
    |> linkTest p

/-- A CHECKSUM refusal: refused, counted, tested (R178 check 1, R187). -/
def refuseChecksum (p : Port) (s : State) : State :=
  s |> refuse p .checksum
    |> onPort p (fun u => { u with
        counters := { u.counters with payloadFailures := saturatingSucc u.counters.payloadFailures } })
    |> linkTest p

/-! ## Reset of a port unit (R184, R185) -/

/-- Where a transfer stands after a PORT_RESET on its port (R184 steps 1 and 3). -/
def transferAfterReset : Transfer → Transfer
  | .idle => .idle
  | .readBoundary => .readBoundary
  | .readEntry => .readFiller
  | .readFiller => .readFiller
  | _ => .header

/-- Steps 1 to 5 of R184 on a port unit: the counters and the degraded flag are kept. -/
def resetUnit (t : Transfer) (u : PortUnit) : PortUnit :=
  { u with transfer := t, waiting := [], inProcess := u.inProcess.map (fun q => { q with condemned := true }), queue := [],
           headStarted := false, errors := .empty }

/-! ## Admission and taking (R177, R178) -/

/-- A packet that is not a PORT_RESET arrives at a powered port: it waits if the outstanding count is below 4, else it is
discarded with OVERRUN (R177). -/
def takeIn (pkt : Packet) (u : PortUnit) : PortUnit :=
  if outstanding u < Config.outstandingMax then
    { u with waiting := u.waiting ++ [pkt],
             counters := { u.counters with admitted := saturatingSucc u.counters.admitted } }
  else
    { u with errors := { u.errors with overrun := true },
             counters := { u.counters with overruns := saturatingSucc u.counters.overruns } }

/-- The payload check of a request fails; a request without a payload has none (R178 check 1). -/
def checkFails (m : Msg) : Bool := !m.payload.isEmpty && crc16 m.payload != m.check

/-- The head of the waiting list becomes the request in process and the platform controller is told (R178). -/
def beginTaking (p : Port) (pkt : Packet) (s : State) : State :=
  s |> onPort p (fun u => { u with waiting := u.waiting.tail, inProcess := some ⟨pkt, false⟩ })
    |> requestTaken p

/-- The checks of R178 on the request in process, and its owner where all pass. -/
def decideRequest {α : Type} (p : Port) (k : ReqKind) (m : Msg) (read : List Byte → Option α)
    (owner : α → State → State) (s : State) : State :=
  if checkFails m then refuseChecksum p s
  else if permitted p k = false then refuse p .notPermitted s
  else
    match read m.payload with
    | none => refuse p .badLength s
    | some a =>
      if p = .standby ∧ s.platform.state = .off ∧ servedInOff k = false then refuse p .notNow s
      else owner a s

/-- The request can be taken now: nothing is in process and it heads the waiting list (R178). -/
def takable (p : Port) (pkt : Packet) (s : State) : Bool :=
  (s.port p).inProcess.isNone && (s.port p).waiting.head? == some pkt

/-- The state in which a request's taking is decided: a request that does not already head the waiting list arrives at
this moment and is admitted by R177 (log entry 5). -/
def arrived (p : Port) (pkt : Packet) (s : State) : State :=
  if (s.port p).waiting.head? = some pkt then s else onPort p (takeIn pkt) s

/-- A request row: the taking of this request on this port (R178). A port whose far side is unpowered ignores it (R174); a
request that must still wait stays in the waiting list. -/
def takeRequest {α : Type} (p : Port) (k : ReqKind) (m : Msg) (read : List Byte → Option α)
    (owner : α → State → State) (s : State) : State :=
  if powered p s = false then s
  else
    let s1 := arrived p ⟨k.code, m⟩ s
    if takable p ⟨k.code, m⟩ s1 then decideRequest p k m read owner (beginTaking p ⟨k.code, m⟩ s1)
    else s1

end Sys2Proof.Machine
end

