-- ==== Sys2Proof/Machine/LightOps.lean ====
section
/-! DEFINITION. The shared operations of the front light (chapter 6) and of the charge account (chapter 8). Both report to
the platform controller; what it then does is handed in as `Hooks`, so that the operations stand below the platform's
transitions, which use them in turn. -/

namespace Sys2Proof.Machine

/-- What the platform controller does on a report: enter HALTING for a cause (R162), and recheck its conditions for SLEEP
and OFF (R159, R164, R165). -/
structure Hooks where
  halt    : HaltCause → State → State
  recheck : State → State

/-- The hooks where no transition can follow: the platform is HALTING with its own check still to come, or OFF. -/
def Hooks.quiet : Hooks := ⟨fun _ s => s, fun s => s⟩

/-! ## Duties and caps -/

/-- The duties from r and w (R119). -/
def withDuties (l : Light) : Light :=
  let t := totalDuty l.curve l.rampLevel
  let warm := t * l.rampWarmth / 255
  { l with warmDuty := warm, coolDuty := t - warm }

/-- The charge cap of a level index (R113). -/
def chargeCapOf (level : Nat) : Nat := if level ≤ 1 then 1023 else if level = 2 then 256 else 0

/-- A cut of r to the effective cap at a change of cap (R115); a cut that brings r to 0 is reported (R118). -/
def capCut (k : Hooks) (s : State) : State :=
  let cap := effectiveCap s.light
  if cap < s.light.rampLevel then
    let s1 := onLight (fun l => withDuties { l with rampLevel := cap }) s
    if cap = 0 then k.recheck s1 else s1
  else s

/-- The light is told the level index (R113, R145 step 3). -/
def setChargeCap (k : Hooks) (s : State) : State :=
  s |> onLight (fun l => { l with chargeCap := chargeCapOf s.charge.level }) |> capCut k

/-- The light is told the fault state of DTEMP (R114). -/
def setThermalCap (k : Hooks) (fault : Bool) (s : State) : State :=
  s |> onLight (fun l => { l with thermalCap := if fault then 256 else 1023 }) |> capCut k

/-! ## Auto mode (R111, R112) -/

/-- The auto candidate of an illuminance (R111). -/
def autoCandidate (a : List Nat) (x : Nat) : Nat :=
  let at' := fun i => a.getD i 0
  if x < 10 then at' 0 + (at' 1 - at' 0) * x / 10
  else if x < 100 then at' 1 + (at' 2 - at' 1) * (x - 10) / 90
  else if x < 1000 then at' 2 + (at' 3 - at' 2) * (x - 100) / 900
  else if x < 10000 then at' 3 + (at' 4 - at' 3) * (x - 1000) / 9000
  else at' 4

/-- The distance of two levels. -/
def levelGap (a b : Nat) : Nat := max a b - min a b

/-- An AMB sample handed to the light (R112). -/
def ambSample (x : Nat) (l : Light) : Light :=
  if l.auto then
    let c := autoCandidate l.points x
    if l.autoFirst || decide (l.autoDeadband < levelGap c l.autoLevel) then { l with autoLevel := c, autoFirst := false }
    else { l with autoFirst := false }
  else l

/-! ## Evaluation of the level index (R144 to R146) -/

/-- Whether the improvement condition of an index holds (R144). -/
def improves (c : Charge) (j : Nat) : Bool :=
  match j with
  | 0 => decide (((floorRadio c + hysteresisOf c : Nat) : Int) ≤ available c)
  | 1 => decide (((floorLight c + hysteresisOf c : Nat) : Int) ≤ available c)
  | 2 => decide (((floorTurn c + hysteresisOf c : Nat) : Int) ≤ available c)
  | 3 => decide (floorShutdown c + hysteresisOf c ≤ c.q)
  | _ => false

/-- The level index after an evaluation: worse at once, better only past the hysteresis (R144). -/
def nextLevel (c : Charge) : Nat :=
  if c.level < rawIndex c then rawIndex c
  else if rawIndex c < c.level then ((List.range c.level).find? (improves c)).getD c.level
  else c.level

/-- CHARGE_LEVEL as the account stands (R145 step 2). -/
def chargeLevelNotice (c : Charge) : Notice := .chargeLevel c.level c.q (available c) (perMilleOf c)

/-- A change of the level index (R145 steps 1 to 4). A worsening in DOZE wakes the platform within step 2, by the offer to the main
port: that its STATE_CHANGED stands before CHARGE_LEVEL in the standby queue is the model's choice (log entry 30). -/
def changeLevel (k : Hooks) (j : Nat) (s : State) : State :=
  let worsened := decide (s.charge.level < j)
  let s1 := onCharge (fun c => { c with level := j }) s
  let s2 := s1 |> offerMain worsened (chargeLevelNotice s1.charge) |> offerTo .standby (chargeLevelNotice s1.charge)
  let s3 := setChargeCap k s2
  if j = 4 then k.halt .level s3 else s3

/-- The spool leaves HELD at an evaluation clearly above the radio floor (R98, R146). -/
def spoolEvaluated (s : State) : State :=
  if s.spool.held = true ∧ s.charge.level = 0 ∧ improves s.charge 0 = true then
    s |> onSpool (fun sp => { sp with held := false }) |> offerTo .radio .radioResume
  else s

/-- An evaluation (R144): the change of index, if any, and the report to the spool. -/
def evaluate (k : Hooks) (s : State) : State :=
  let j := nextLevel s.charge
  spoolEvaluated (if j = s.charge.level then s else changeLevel k j s)

/-! ## Reservations (R136, R138 to R140) -/

/-- The estimate E of an update (R138). -/
def updateEstimate (c : ChargeParams) (frames changed : Nat) : Nat :=
  frames * (c.base + ceilDiv (c.perPixel * changed) 65536)

/-- The cost of a chunk (R90, R140). -/
def chunkCost (c : ChargeParams) (declared : Nat) : Nat := ceilDiv (declared * c.perKib) 1024

/-- The grant test of an update (R139). -/
def grantsUpdate (c : Charge) (o : Origin) (e : Nat) : Bool :=
  o == .shutdownPage || decide ((floorTurn c : Int) ≤ available c - e)

/-- The grant test of a chunk (R140). -/
def grantsChunk (c : Charge) (cost : Nat) : Bool := decide ((floorRadio c : Int) ≤ available c - cost)

/-- An update reservation is placed, and the account evaluates (R136, R139). -/
def placeUpdate (k : Hooks) (id e : Nat) (s : State) : State :=
  s |> onCharge (fun c => { c with updates := c.updates ++ [(id, e)] }) |> evaluate k

/-- An update's reservation, if it holds one, is released, and the account evaluates (R136, R54 step 3). -/
def releaseUpdate (k : Hooks) (id : Nat) (s : State) : State :=
  if s.charge.updates.any (fun r => r.1 == id) then
    s |> onCharge (fun c => { c with updates := c.updates.filter (fun r => r.1 != id) }) |> evaluate k
  else s

/-- The chunk reservation is placed, and the account evaluates (R136, R140). -/
def placeChunk (k : Hooks) (cost : Nat) (s : State) : State :=
  s |> onCharge (fun c => { c with chunk := some cost }) |> evaluate k

/-- The chunk reservation is released, and the account evaluates (R136). -/
def releaseChunk (k : Hooks) (s : State) : State :=
  if s.charge.chunk.isSome then s |> onCharge (fun c => { c with chunk := none }) |> evaluate k else s

/-! ## Samples of the battery (R135, R148) -/

/-- A BATI sample handed to the account: a converted one is integrated, a test one set aside; either is followed by an
evaluation (R135). -/
def batiSample (k : Hooks) (current : Int) (interval : Nat) (test : Bool) (s : State) : State :=
  if test then evaluate k s
  else
    s |> onCharge (fun c =>
          let q' := (max 0 (min ((c.q : Int) + current * interval) (qFull c))).toNat
          { c with q := q', last := ⟨current, interval, (q' : Int) - c.q⟩ })
      |> evaluate k

/-- The per-mille of full charge at a resting voltage by the OCV table (R148). -/
def ocvPerMille (ocv : List Nat) (v : Int) : Nat :=
  let at' := fun i => ocv.getD i 0
  if v ≤ at' 0 then 0
  else if (at' 10 : Int) ≤ v then 1000
  else
    match (List.range 10).find? (fun i => decide ((at' i : Int) ≤ v ∧ v < at' (i + 1))) with
    | some i => 100 * i + 100 * (v.toNat - at' i) / (at' (i + 1) - at' i)
    | none => 0

/-- The start-up estimate: Q from the first BATV value, and the raw index as the level index (R148). -/
def startUpEstimate (v : Int) (c : Charge) : Charge :=
  let c1 := { c with q := qFull c * ocvPerMille c.params.ocv v / 1000 }
  { c1 with level := rawIndex c1 }

end Sys2Proof.Machine
end

