-- ==== Sys2Proof/Machine/WindowOps.lean ====
section
/-! DEFINITION. The reading window's shared operations: the removal rule (R27), the turn-failure rule (R35) and the
low-water evaluation (R36), with what the page store tells the window (R29). -/

namespace Sys2Proof.Machine

/-- The pages ahead of the cursor. -/
def aheadOf (w : Window) : Nat :=
  match w.cursor with
  | some c => w.entries.length - (c + 1)
  | none => 0

/-- The pages behind the cursor. -/
def behindOf (w : Window) : Nat := w.cursor.getD 0

/-- The page tag of an entry, 0 where there is none. -/
def entryTag (e : Option Nat) (s : State) : Word32 :=
  match e with
  | some i => (slotAt i s).tag
  | none => 0

/-- A low-water evaluation (R36, R37). -/
def lowWater (s : State) : State :=
  let w := s.window
  let aheadShort := decide (aheadOf w < w.aheadLow)
  let behindShort := decide (behindOf w < w.behindLow)
  let fireA := aheadShort && w.aheadArmed
  let fireB := behindShort && w.behindArmed
  let s1 := s.withWindow { w with aheadArmed := !aheadShort, behindArmed := !behindShort }
  if fireA || fireB then
    offerMain true (.windowLow fireA fireB (aheadOf w) (behindOf w) w.entries.length (entryTag w.entries.head? s)
      (entryTag w.entries.getLast? s)) s1
  else s1

/-- The removal rule: the entry at index `i` leaves a non-empty window (R27). -/
def removeAt (i : Nat) (w : Window) : Window :=
  let es := w.entries.eraseIdx i
  let c := w.cursor.getD 0
  { w with
    entries := es
    cursor := if es = [] then none
      else if i < c then some (c - 1)
      else if i = c ∧ c = es.length then some (c - 1)
      else some c }

/-- Remove a slot's entry if the window holds it. -/
def removeSlot (slot : Nat) (w : Window) : Window :=
  if w.entries.contains slot then removeAt (w.entries.idxOf slot) w else w

/-- The shown slot becomes absent at its release, eviction or reopen (R29). -/
def forgetShown (slot : Nat) (w : Window) : Window :=
  if w.shown = some slot then { w with shown := none } else w

/-- The release of a slot as the window sees it: its entry leaves, with an evaluation (R29, R36). -/
def windowRelease (slot : Nat) (s : State) : State :=
  let s1 := onWindow (fun w => forgetShown slot (removeSlot slot w)) s
  if s.window.entries.contains slot then lowWater s1 else s1

/-- The turn-failure rule, with the evaluation that follows its cursor move (R35, R36). -/
def turnFailure (s : State) : State :=
  match s.window.shown with
  | some x =>
    if s.window.entries.contains x then
      s |> onWindow (fun w => { w with cursor := some (w.entries.idxOf x) }) |> lowWater
    else s
  | none => s

/-- The end of a window-origin update (R34, R35). -/
def windowUpdateEnded (result : UpdateResult) (source : Nat) (s : State) : State :=
  if result = .done ∨ result = .noChange then
    let gone := (slotAt source s).releasePending || (slotAt source s).state == .empty
    onWindow (fun w => { w with shown := if gone then none else some source }) s
  else turnFailure s

/-- A slot is eligible to enter the window (R23). -/
def eligible (slot : Nat) (s : State) : Bool :=
  decide (slot < Config.slotCount) &&
    ((slotAt slot s).state == .ready || ((slotAt slot s).state == .showing && !(slotAt slot s).releasePending))

/-- A turn is reported to the platform controller: it clears a sleep pending, restarts the idle timer, or starts a resume
(R33, R157, R160). -/
def turnReport (s : State) : State :=
  match s.platform.state with
  | .doze =>
    onPlatform (fun f =>
      if f.sleepPending.isSome then { f with sleepPending := none, pageSubmitted := false, idleTimer := idleFull f }
      else if f.idleTimer.isSome then { f with idleTimer := idleFull f } else f) s
  | .sleep => startResume false .turn false s
  | _ => s

end Sys2Proof.Machine
end

