-- ==== Sys2Proof/Machine/PoolOps.lean ====
section
/-! DEFINITION. The shared operations of the memory pool (R2), the page store's slot records (R8, R9, R17) and the pixel
formats (R10, R11). -/

namespace Sys2Proof.Machine

/-! ## Pool (R2) -/

/-- The `k` blocks at the head of the free list (R2). -/
def headBlocks (k : Nat) (s : State) : List Nat := s.pool.free.take k

/-- The free list without its `k` head blocks: they have been handed to a requester (R2). -/
def takeFree (k : Nat) (s : State) : State := onPool (fun b => { b with free := b.free.drop k }) s

/-- Return of blocks to the tail of the free list, in list order (R2). -/
def returnBlocks (blocks : List Nat) (s : State) : State := onPool (fun b => { b with free := b.free ++ blocks }) s

/-! ## Slots (R8) -/

def setSlot (i : Nat) (x : Slot) (s : State) : State :=
  s.withStore { s.store with slots := s.store.slots.set i x }

/-- A slot becomes EMPTY and its blocks go to the tail of the free list (R8, R2). -/
def emptySlot (i : Nat) (s : State) : State :=
  s |> returnBlocks (slotAt i s).blocks |> setSlot i .reset

/-- The slot that holds a role (R8). -/
def roleSlot (r : Role) (s : State) : Option Nat :=
  (List.range Config.slotCount).find? (fun i =>
    match r with
    | .sleepPage => (slotAt i s).sleepRole
    | .shutdownPage => (slotAt i s).shutdownRole)

/-- A slot holds a role. -/
def hasRole (x : Slot) : Bool := x.sleepRole || x.shutdownRole

/-! ## Use stamps (R9) -/

/-- Insert a slot number into a list ordered by stamp, smallest first. -/
def insertByStamp (s : State) (i : Nat) : List Nat → List Nat
  | [] => [i]
  | j :: js =>
    if ((slotAt i s).stamp.getD 0) < ((slotAt j s).stamp.getD 0) then i :: j :: js else j :: insertByStamp s i js

/-- Slot numbers ordered by stamp, oldest first. -/
def orderByStamp (s : State) : List Nat → List Nat
  | [] => []
  | i :: is => insertByStamp s i (orderByStamp s is)

/-- The slots that hold a stamp, oldest first. -/
def stampedSlots (s : State) : List Nat :=
  orderByStamp s ((List.range Config.slotCount).filter (fun i => (slotAt i s).stamp.isSome))

/-- Renumbering at the wrap of the use counter (R9 steps 1 to 3). -/
def renumber (s : State) : State :=
  let order := stampedSlots s
  s.withStore { s.store with
    slots := s.store.slots.mapIdx (fun i x => if x.stamp.isSome then { x with stamp := some (order.idxOf i) } else x)
    useCounter := order.length }

/-- A slot takes a use stamp (R9). -/
def takeStamp (i : Nat) (s : State) : State :=
  let s1 := if s.store.useCounter = Config.max32 then renumber s else s
  let s2 := setSlot i { slotAt i s1 with stamp := some s1.store.useCounter } s1
  s2.withStore { s2.store with useCounter := s2.store.useCounter + 1 }

/-! ## Showing count (R17) -/

/-- An update from the slot starts its scan (R17). -/
def raiseShowing (i : Nat) (s : State) : State :=
  let x := slotAt i s
  setSlot i { x with showing := x.showing + 1, state := if x.state = .ready then .showing else x.state } s

/-- An update from the slot, whose scan had started, ends (R17). -/
def lowerShowing (i : Nat) (s : State) : State :=
  let x := slotAt i s
  if x.showing ≤ 1 then
    if x.releasePending then emptySlot i s
    else setSlot i { x with showing := 0, state := if x.state = .showing then .ready else x.state } s
  else setSlot i { x with showing := x.showing - 1 } s

/-! ## Formats (R10, R11) -/

/-- The bits of a pixel in a packed format. -/
def packedBits : Format → Nat
  | .g4 => 4 | .g2 => 2 | .g1 => 1 | .r4 => 4 | .r2 => 2 | .r1 => 1

/-- The format is run-length. -/
def isRunLength : Format → Bool
  | .r4 => true | .r2 => true | .r1 => true | _ => false

/-- The stored value of a sent value, clamped to the format's maximum (section 1.5, R11). -/
def expandValue (f : Format) (v : Nat) : Pixel :=
  match packedBits f with
  | 4 => BitVec.ofNat 4 (min v 15)
  | 2 => BitVec.ofNat 4 (min v 3 * 5)
  | _ => BitVec.ofNat 4 (min v 1 * 15)

/-- The pixels of one byte of a packed format, the earlier in the lower bits (section 11.7). -/
def unpackByte (f : Format) (b : Byte) : List Pixel :=
  (List.range (8 / packedBits f)).map (fun i => expandValue f (b.toNat / 2 ^ (packedBits f * i) % 2 ^ packedBits f))

/-- The pixels of the pairs of a run-length format (R11). -/
def unpackRuns (f : Format) : List Byte → List Pixel
  | r :: v :: bs => List.replicate (r.toNat + 1) (expandValue f v.toNat) ++ unpackRuns f bs
  | _ => []

/-- The pixels that the data bytes of one packet describe. -/
def unpack (f : Format) (bs : List Byte) : List Pixel :=
  if isRunLength f then unpackRuns f bs else bs.flatMap (unpackByte f)

/-- The run lengths of the pairs, added up (R11). -/
def runSum : List Byte → Nat
  | r :: _ :: bs => r.toNat + 1 + runSum bs
  | _ => 0

/-- How many pixels the data bytes describe (R10, R11). -/
def pixelCount (f : Format) (bs : List Byte) : Nat :=
  if isRunLength f then runSum bs else bs.length * (8 / packedBits f)

end Sys2Proof.Machine
end

