-- ==== Sys2Proof/Machine/PanelOps.lean ====
section
/-! DEFINITION. The update engine's shared operations: regions and tiles (R39, R43), the drive strings and the band rule of
the waveform table (R67, R78), submission (R40, R41), the end of an update (R54 to R57) and the consideration pass (R45 to
R48). -/

namespace Sys2Proof.Machine

/-! ## Regions and tiles -/

/-- A SHOW region normalised to multiples of 8 and clipped to the panel (R43). -/
def normalise (b : Pool) (r : Region) : Region :=
  let x := r.x / 8 * 8
  let right := min (ceilDiv (r.x + r.w) 8 * 8) b.width
  let bottom := min (r.y + r.h) b.height
  { x := x, y := r.y, w := right - x, h := bottom - r.y }

/-- A region with no pixel. -/
def isEmptyRegion (r : Region) : Bool := r.w == 0 || r.h == 0

/-- The whole panel (R41). -/
def wholePanel (b : Pool) : Region := ⟨0, 0, b.width, b.height⟩

/-- Two regions share a pixel (R46). -/
def overlaps (a b : Region) : Bool :=
  decide (a.x < b.x + b.w) && decide (b.x < a.x + a.w) && decide (a.y < b.y + b.h) && decide (b.y < a.y + a.h)
    && !isEmptyRegion a && !isEmptyRegion b

/-- A tile as a region (R39). -/
def tileRegion (b : Pool) (t : Nat) : Region :=
  ⟨t % 8 * (b.width / 8), t / 8 * (b.height / 8), b.width / 8, b.height / 8⟩

/-- A region touches a tile (R39). -/
def touchesTile (b : Pool) (r : Region) (t : Nat) : Bool := overlaps r (tileRegion b t)

/-- A region covers a tile wholly (R39). -/
def coversTile (b : Pool) (r : Region) (t : Nat) : Bool :=
  let q := tileRegion b t
  decide (r.x ≤ q.x) && decide (q.x + q.w ≤ r.x + r.w) && decide (r.y ≤ q.y) && decide (q.y + q.h ≤ r.y + r.h)

/-- The tile of a pixel (R39). -/
def tileOf (b : Pool) (x y : Nat) : Nat := 8 * (y / (b.height / 8)) + x / (b.width / 8)

/-- The pixels of a region, row by row. -/
def regionPixels (r : Region) : List (Nat × Nat) :=
  (List.range r.h).flatMap (fun j => (List.range r.w).map (fun i => (r.x + i, r.y + j)))

/-! ## Pixels (R38, R49) -/

/-- The panel image value of a pixel. -/
def panelPixel (s : State) (x y : Nat) : Pixel := ownerPixel s.dram s.pool.panel (y * s.pool.width + x)

/-- The value of a pixel in a page slot. -/
def slotPixel (s : State) (slot x y : Nat) : Pixel := ownerPixel s.dram (slotAt slot s).blocks (y * s.pool.width + x)

/-- The target of a pixel: the source value, mapped to 0 or 15 in QUICK (R49). -/
def targetPixel (s : State) (mode : Mode) (slot x y : Nat) : Pixel :=
  let v := slotPixel s slot x y
  match mode with
  | .quick => if v.toNat ≤ 7 then 0#4 else 15#4
  | _ => v

/-- The pixels of a region whose panel image value differs from their target. -/
def changedPixels (s : State) (mode : Mode) (slot : Nat) (r : Region) : List (Nat × Nat) :=
  (regionPixels r).filter (fun q => panelPixel s q.1 q.2 != targetPixel s mode slot q.1 q.2)

/-- The tiles that hold at least one of these pixels. -/
def tilesOf (b : Pool) (pixels : List (Nat × Nat)) : List Nat :=
  (List.range Config.tileCount).filter (fun t => pixels.any (fun q => tileOf b q.1 q.2 == t))

/-- The panel image takes the targets of a region (R55). -/
def paintTargets (mode : Mode) (slot : Nat) (r : Region) (s : State) : State :=
  s.withDram ((regionPixels r).foldl
    (fun m q => writePixel m s.pool.panel (q.2 * s.pool.width + q.1) (targetPixel s mode slot q.1 q.2)) s.dram)

/-! ## Waveform table (R66, R67, R78) -/

/-- The frame count of a mode and band in the table, 0 with no descriptor. -/
def tableFrames (w : WaveTable) (m : Mode) (band : Nat) : Nat :=
  match w.descriptor with
  | some d => d.frames m band
  | none => 0

/-- The first symbol of a mode-band group in the stream (R67). -/
def groupStart (d : Descriptor) (m : Mode) (band : Nat) : Nat :=
  256 * (d.counts.take (m.code * d.bands + (band - 1))).sum

/-- Symbol `f` of the drive string of a pair (from, to), as the memory holds it (R66, R67). -/
def stringSymbol (w : WaveTable) (m : Mode) (band : Nat) (src dst : Pixel) (f : Nat) : BitVec 2 :=
  match w.descriptor with
  | some d =>
    let i := groupStart d m band + (16 * src.toNat + dst.toNat) * d.frames m band + f
    BitVec.ofNat 2 ((w.bytes.getD (i / 4) 0).toNat / 4 ^ (i % 4))
  | none => 0#2

/-- The band rule: a band and the clamped flag from the last PTEMP value (R78). -/
def bandRule (d : Descriptor) (temp : Option Int) : Nat × Bool :=
  match temp with
  | none => (1, true)
  | some t =>
    if t < d.bounds.getD 0 0 then (1, true)
    else if t < d.bounds.getD d.bands 0 then (((d.bounds.take d.bands).filter (fun b => decide (b ≤ t))).length, false)
    else (d.bands, true)

/-- The band rule as it stands now: band 0 and a clear flag while the table holds no descriptor. -/
def bandNow (s : State) : Nat × Bool :=
  match s.wave.descriptor with
  | some d => bandRule d s.monitor.ptemp.last
  | none => (0, false)

/-! ## Records and submission (R40, R41) -/

/-- The ids of the live records. -/
def liveIds (e : Engine) : List Nat := e.queue.map (·.id) ++ e.active.map (·.id)

/-- The value of the next-id counter after `n` (R40). -/
def idAfter (n : Nat) : Nat := if 65535 ≤ n then 1 else n + 1

/-- The first value from `n` on that is no live record's id; at most 12 are live, so `fuel` 13 finds it (R40). -/
def freshId : Nat → Nat → List Nat → Nat
  | 0, n, _ => n
  | fuel + 1, n, live => if live.contains n then freshId fuel (idAfter n) live else n

/-- The id the next accepted submission takes (R40). -/
def newId (e : Engine) : Nat := freshId 13 e.nextId (liveIds e)

/-- A new PENDING record (section 3.2). -/
def newUpdate (id : Nat) (o : Origin) (req : PortSet) (slot : Nat) (r : Region) (m : Mode) : Update :=
  { id := id, origin := o, requesters := req, source := slot, region := r, mode := m, phase := .pending, band := none,
    clamped := false, ghostLimit := 0, changed := 0, frames := 0, index := 0, estimate := 0, promoted := false, tiles := [] }

/-- The pending queue has room (R41). -/
def queueHasRoom (e : Engine) : Bool := decide (e.queue.length < Config.queueMax)

/-- An accepted submission joins the tail of the pending queue and takes its id (R40, R41); the consideration pass follows
where the submitter has answered. -/
def submit (o : Origin) (req : PortSet) (slot : Nat) (r : Region) (m : Mode) (s : State) : State :=
  onEngine (fun e => { e with
    queue := e.queue ++ [newUpdate (newId e) o req slot r m], nextId := idAfter (newId e) }) s

/-- A requester set of one port. -/
def onlyPort (p : Port) : PortSet := ⟨p == .main, p == .standby, p == .radio⟩

/-- A requester set with a port added (R44). -/
def addPort (p : Port) (r : PortSet) : PortSet :=
  ⟨r.main || p == .main, r.standby || p == .standby, r.radio || p == .radio⟩

/-! ## The end of an update (R54 to R57) -/

/-- The ghost counters after an end (R56). -/
def ghostsAfter (b : Pool) (limit : Nat) (u : Update) (result : UpdateResult) (ghosts : List Nat) : List Nat :=
  ghosts.mapIdx (fun t g =>
    match result with
    | .done =>
      match u.mode with
      | .full => if coversTile b u.region t then 0 else if touchesTile b u.region t then min (g + 1) 63 else g
      | _ => if u.tiles.contains t then min (g + 1) 63 else g
    | .supplyFault => if touchesTile b u.region t then limit else g
    | _ => g)

/-- Step 5 of R54: panel image and ghost counters (R55, R56). -/
def applyTargets (u : Update) (result : UpdateResult) (s : State) : State :=
  if result = .done ∨ result = .supplyFault then
    s |> paintTargets u.mode u.source u.region
      |> onEngine (fun e => { e with ghosts := ghostsAfter s.pool e.ghostLimit u result e.ghosts })
  else s

/-- UPDATE_DONE (R57). -/
def updateDoneNotice (u : Update) (result : UpdateResult) (tag : Word32) : Notice :=
  .updateDone u.id result u.frames u.changed u.promoted u.clamped tag

/-- UPDATE_DONE to each port of the requester set, in the order main, standby, radio (R57). -/
def notifyRequesters (u : Update) (n : Notice) (s : State) : State :=
  let s1 := if u.requesters.main then offerMain false n s else s
  let s2 := if u.requesters.standby then offerTo .standby n s1 else s1
  if u.requesters.radio then offerTo .radio n s2 else s2

/-- The end of an update, steps 1 to 8 of R54. Step 5 precedes the lowering of the showing count of step 4, since the source's
blocks are still the slot's there; the two touch nothing in common (log entry 9). The recheck of step 8 is made by the
command, after the consideration pass. -/
def endUpdate (k : Hooks) (u : Update) (result : UpdateResult) (tag : Word32) (s : State) : State :=
  let s1 := onEngine (fun e => { e with
    queue := e.queue.filter (fun v => v.id != u.id), active := e.active.filter (fun v => v.id != u.id) }) s
  let s2 := releaseUpdate k u.id s1
  let s3 := applyTargets u result s2
  let s4 := if u.phase = .pending then s3 else lowerShowing u.source s3
  let s5 := notifyRequesters u (updateDoneNotice u result tag) s4
  let s6 := if u.origin = .window then windowUpdateEnded result u.source s5 else s5
  if s6.platform.state = .doze then restartIdle s6 else s6

/-- The tag of the update's source at the moment of the end (R57). -/
def endWithTag (k : Hooks) (u : Update) (result : UpdateResult) (s : State) : State :=
  endUpdate k u result (slotAt u.source s).tag s

/-- Every PENDING record of a lost source ends SOURCE_GONE, oldest first, with the tag the slot held (R57, R59). -/
def sourceGone (k : Hooks) (slot : Nat) (tag : Word32) (s : State) : State :=
  (s.engine.queue.filter (fun u => u.source == slot)).foldl (fun t u => endUpdate k u .sourceGone tag t) s

/-- Every PENDING record ends CANCELLED, oldest first (R61). -/
def cancelPending (k : Hooks) (s : State) : State :=
  s.engine.queue.foldl (fun t u => endWithTag k u .cancelled t) s

/-! ## The consideration pass (R45 to R48) -/

/-- A slot can be the source of a scan (R46 condition 1). -/
def sourceReady (x : Slot) : Bool := x.state == .ready || (x.state == .showing && !x.releasePending)

/-- The platform lets an entry start (R46 condition 7). -/
def platformLets (f : Platform) (o : Origin) : Bool :=
  match f.state with
  | .active => true
  | .doze => true
  | .halting => o == .shutdownPage
  | _ => false

/-- The entries still pending that are older than one. -/
def olderThan (id : Nat) (q : List Update) : List Update := q.takeWhile (fun v => v.id != id)

/-- A pending entry meets the start rule (R46 conditions 1 to 7). -/
def canStart (u : Update) (s : State) : Bool :=
  sourceReady (slotAt u.source s)
    && s.engine.active.all (fun v => !overlaps u.region v.region)
    && (olderThan u.id s.engine.queue).all (fun v => !overlaps u.region v.region)
    && decide (s.engine.active.length < Config.laneCount)
    && s.wave.state == .valid
    && !s.monitor.panv.fault
    && platformLets s.platform u.origin

/-- The start of a scan; the ghost limit of this moment is the scan's (R48, R63). -/
def startScan (u : Update) (s : State) : State :=
  let b := bandNow s
  s |> onEngine (fun e => { e with
        queue := e.queue.filter (fun v => v.id != u.id)
        active := e.active ++
          [{ u with phase := .scanning, band := some b.1, clamped := b.2, ghostLimit := e.ghostLimit }] })
    |> raiseShowing u.source
    |> takeStamp u.source

/-- One entry taken by a pass (R46, R47). -/
def decideEntry (k : Hooks) (u : Update) (s : State) : State :=
  match s.wave.state with
  | .absent => endWithTag k u .noWaveform s
  | .faulty => endWithTag k u .noWaveform s
  | .loading => s
  | .valid =>
    if (u.origin = .sleepPage ∨ u.origin = .shutdownPage) ∧ s.monitor.panv.fault = true then endWithTag k u .cancelled s
    else if canStart u s then startScan u s
    else s

/-- The entry a pass takes, if it is still pending when its turn comes. -/
def considerEntry (k : Hooks) (id : Nat) (s : State) : State :=
  match s.engine.queue.find? (fun v => v.id == id) with
  | some u => decideEntry k u s
  | none => s

/-- A consideration pass: the pending entries in queue order, each against the state the ones before it leave (R45). -/
def considerationPass (k : Hooks) (s : State) : State :=
  (s.engine.queue.map (·.id)).foldl (fun t id => considerEntry k id t) s

end Sys2Proof.Machine
end

