-- ==== Sys2Proof/Machine/SpoolOps.lean ====
section
/-! DEFINITION. The download spool's shared operations: title blocks (R80, R81), the drop of an assembly (R96, R97), the end
of a chunk (R93) and completion (R94), verification (R95), release, and the reset of the radio port (R184 step 6, R185). -/

namespace Sys2Proof.Machine

def setTitle (i : Nat) (t : Option Title) (s : State) : State :=
  onSpool (fun sp => { sp with titles := sp.titles.set i t }) s

/-- The entry of the title with an id (R80). -/
def findTitle (id : Word32) (s : State) : Option Nat :=
  (List.range Config.titleCount).find? (fun i =>
    match titleAt i s with
    | some t => t.id == id
    | none => false)

/-- The lowest free entry (R80). -/
def freeEntry (s : State) : Option Nat :=
  (List.range Config.titleCount).find? (fun i => (titleAt i s).isNone)

/-- Blocks that carry a number of bytes (R81). -/
def blocksFor (n : Nat) : Nat := ceilDiv n Config.blockSize

def countStat (f : SpoolCounters → SpoolCounters) (s : State) : State :=
  onSpool (fun sp => { sp with stats := f sp.stats }) s

/-- The blocks beyond those of the received bytes leave the end of a title's list and return to the free list (R81). -/
def trimTitle (i : Nat) (s : State) : State :=
  match titleAt i s with
  | some t =>
    s |> setTitle i (some { t with blocks := t.blocks.take (blocksFor t.received) })
      |> returnBlocks (t.blocks.drop (blocksFor t.received))
  | none => s

/-- The bytes 0..received − 1 of a title (R80). -/
def titleBytes (s : State) (t : Title) (start count : Nat) : List Byte :=
  (List.range count).map (fun i => ownerByte s.dram t.blocks (start + i))

/-- A drop of the open assembly: extra blocks returned, closed, reservation released with its evaluation (R96, R97). -/
def closeAssembly (k : Hooks) (s : State) : State :=
  match s.spool.assembly with
  | some a =>
    s |> trimTitle a.entry
      |> onSpool (fun sp => { sp with assembly := none })
      |> releaseChunk k
  | none => s

/-- CHUNK_AGED for the title of the open assembly, if one is open. -/
def chunkAgedNotice (cause : DropCause) (s : State) : Option Notice :=
  match s.spool.assembly with
  | some a => (titleAt a.entry s).map (fun t => .chunkAged t.id cause t.received)
  | none => none

/-- A drop with its counter and, where the rule asks for it, CHUNK_AGED to the radio port (R96, R97). -/
def dropAssembly (k : Hooks) (cause : DropCause) (notify : Bool) (s : State) : State :=
  if s.spool.assembly.isSome then
    let n := chunkAgedNotice cause s
    let s1 := s |> closeAssembly k
      |> countStat (fun c =>
          match cause with
          | .aged => { c with aged := saturatingSucc c.aged }
          | _ => { c with abandoned := saturatingSucc c.abandoned })
    match n with
    | some x => if notify then offerTo .radio x s1 else s1
    | none => s1
  else s

/-- The radio port reset by PORT_RESET or by the platform: the assembly is dropped ABANDONED without notice, the bare target
becomes none, and the port unit is reset (R83, R97, R184, R185). -/
def resetRadioPort (k : Hooks) (t : Transfer) (s : State) : State :=
  s |> dropAssembly k .abandoned false
    |> onSpool (fun sp => { sp with bare := none })
    |> onPort .radio (resetUnit t)

/-- A title notice to the main port, wake-class when title_wake is on, then to the radio port (R94, R95). -/
def notifyTitle (n : Notice) (s : State) : State :=
  s |> offerMain s.spool.titleWake n |> offerTo .radio n

/-- A title COMPLETE, with its notices (R94, R95). -/
def completeTitle (i : Nat) (s : State) : State :=
  match titleAt i s with
  | some t => s |> setTitle i (some { t with state := .complete }) |> notifyTitle (.titleComplete t.id t.received)
  | none => s

/-- A title FAILED, with its notices (R87, R95). -/
def failTitle (i : Nat) (cause : FailCause) (s : State) : State :=
  match titleAt i s with
  | some t =>
    s |> setTitle i (some { t with state := .failed, failCause := some cause })
      |> notifyTitle (.titleFailed t.id cause t.received)
  | none => s

/-- The title completes at the end of this chunk (R94). -/
def completesAt (t : Title) (last : Bool) : Bool := last || t.total == some t.received

/-- The size bin of an ended chunk (R93 step 2). -/
def countAccepted (declared : Nat) (c : SpoolCounters) : SpoolCounters :=
  if declared ≤ 512 then { c with small := saturatingSucc c.small }
  else if declared ≤ 2048 then { c with medium := saturatingSucc c.medium }
  else { c with large := saturatingSucc c.large }

/-- The title record after a chunk's end: received bytes, last chunk time, and on completion the total length fixed and, with
a title CRC, VERIFYING; a title without one becomes COMPLETE at step 7 of R93 (R93, R94). -/
def titleAfterChunk (t : Title) (a : Assembly) (clock : Nat) : Title :=
  let t1 := { t with received := t.received + a.declared, lastChunk := some clock }
  if completesAt t1 a.last then
    { t1 with
      total := some (t1.total.getD t1.received)
      state := if t1.crc.isSome then .verifying else t1.state }
  else t1

/-- A chunk's end completes a title that has no CRC (R94). -/
def completesPlain (t : Title) (a : Assembly) : Bool :=
  completesAt { t with received := t.received + a.declared } a.last && t.crc.isNone

/-- The state of a title after completion is decided, which the chunk-end response carries (R93, R94). -/
def stateAfterChunk (t : Title) (a : Assembly) (clock : Nat) : TitleState :=
  if completesPlain t a then .complete else (titleAfterChunk t a clock).state

/-- A title that has become VERIFYING joins the tail of the verification list (R94). -/
def joinVerifying (i : Nat) (t : Title) (s : State) : State :=
  if t.state = .verifying then onSpool (fun sp => { sp with verifying := sp.verifying ++ [i] }) s else s

/-- The end of a chunk (R93) and completion (R94): the records of steps 1 to 5, the report of step 6 to the platform controller
with its check, and completion. A title with a CRC is VERIFYING before that check, since no title is VERIFYING in SLEEP (R82).
The response goes out before the check and the notices of completion; at a SLEEP entry by the check it leaves with the reset of
the radio port, wherever it stands (log entry 16). -/
def endChunk (k : Hooks) (p : Port) (a : Assembly) (s : State) : State :=
  match titleAt a.entry s with
  | none => s
  | some t =>
    let t1 := titleAfterChunk t a s.platform.clock
    let s1 := s |> setTitle a.entry (some t1)
      |> countStat (countAccepted a.declared)
      |> onSpool (fun sp => { sp with assembly := none })
      |> releaseChunk k
      |> joinVerifying a.entry t1
    let s2 := if s1.platform.state = .doze then restartIdle s1 else s1
    let s3 := s2
      |> respond p .ok
          (encWord t1.id ++ encU32 t1.received ++ encU8 (stateAfterChunk t a s.platform.clock).code)
      |> k.recheck
    if completesPlain t a then completeTitle a.entry s3 else s3

end Sys2Proof.Machine
end

