-- ==== Sys2Proof/Machine/MonitorOps.lean ====
section
/-! DEFINITION. The monitor's shared operations: conversion (R123), limits and debounce (R126), change of fault state with
its notice and effect (R127, R129), hand-over (R128), and the conversion sequence (R124, R125). -/

namespace Sys2Proof.Machine

/-- The range of values a channel can report (section 7.1). -/
def channelRange : Channel → Int × Int
  | .batv => (0, 5000) | .bati => (-3000, 3000) | .ptemp => (-400, 1000) | .dtemp => (-400, 1250) | .amb => (0, 65535)
  | .panv => (0, 30000)

/-- The debounce count of a channel; AMB has none (section 7.1). -/
def debounce : Channel → Nat
  | .batv => 3 | .bati => 3 | .ptemp => 2 | .dtemp => 2 | .amb => 0 | .panv => 1

/-- The channel is compared with limits (R126). -/
def hasLimits (c : Channel) : Bool := c != .amb

/-- A value clamped into a range. -/
def clampTo (r : Int × Int) (v : Int) : Int := max r.1 (min v r.2)

/-- The value of a conversion (R123). -/
def convert (c : Channel) (x : ChannelState) (raw : Nat) : Int :=
  clampTo (channelRange c) (x.offset + (raw * x.gain / 4096 : Nat))

/-- A value is outside the limits (R126). -/
def outsideLimits (x : ChannelState) (v : Int) : Bool := decide (v < x.low) || decide (x.high < v)

/-- The sample of a channel: the pending test value in place of a conversion, or the conversion (R130, R123). -/
def sampleValue (c : Channel) (x : ChannelState) (raw : Nat) : Int :=
  match x.pendingTest with
  | some t => t
  | none => convert c x raw

/-- The channel's record after its sample, before the limit check (R122, R130). -/
def recordSample (c : Channel) (x : ChannelState) (raw : Nat) : ChannelState :=
  { x with
    last := some (sampleValue c x raw), test := x.pendingTest.isSome, raw := if x.pendingTest.isSome then x.raw else raw,
    pendingTest := none }

/-- The run points the other way from the fault flag at this sample (R126). -/
def runPoints (x : ChannelState) (v : Int) : Bool := outsideLimits x v != x.fault

/-- The limit check's verdict: the fault state changes at this sample (R126). -/
def faultChanges (c : Channel) (x : ChannelState) (v : Int) : Bool :=
  hasLimits c && runPoints x v && decide (debounce c ≤ x.run + 1)

/-- The record after the limit check and a change of fault state (R126, R127 step 1). -/
def checkLimits (c : Channel) (x : ChannelState) (v : Int) : ChannelState :=
  if hasLimits c then
    if faultChanges c x v then { x with fault := !x.fault, run := 0 }
    else if runPoints x v then { x with run := x.run + 1 }
    else { x with run := 0 }
  else x

def setChannel (c : Channel) (x : ChannelState) (s : State) : State := onMonitor (fun m => m.set c x) s

/-- A BATV fault entry (R129, R162): HALTING from ACTIVE, DOZE or SLEEP; in HALTING the halt is marked a brownout while the
shutdown page is not yet decided, and keeps its cause after that. -/
def brownout (k : Hooks) (s : State) : State :=
  match s.platform.state with
  | .halting => onPlatform (fun f => { f with haltCause := if f.pageDecided then f.haltCause else some .brownout }) s
  | .off => s
  | _ => k.halt .brownout s

/-- The effect of a change of fault state (R129). -/
def faultEffect (k : Hooks) (c : Channel) (entering : Bool) (s : State) : State :=
  match c with
  | .batv => if entering then brownout k s else s
  | .dtemp => setThermalCap k entering s
  | .panv => if entering then s else k.recheck (considerationPass k s)
  | _ => s

/-- The hand-over of a sample (R128); BATV is kept as the channel's last value, which STATUS reads. -/
def handOver (k : Hooks) (c : Channel) (v : Int) (interval : Nat) (test : Bool) (s : State) : State :=
  match c with
  | .bati => batiSample k v interval test s
  | .amb => onLight (ambSample v.toNat) s
  | _ => s

/-- One channel's sample carried out whole (R124): value, limit check, change of fault state with notice and effect,
hand-over. -/
def sampleChannel (k : Hooks) (c : Channel) (raw interval : Nat) (s : State) : State :=
  let x := s.monitor.get c
  let v := sampleValue c x raw
  let test := x.pendingTest.isSome
  let x1 := recordSample c x raw
  let s1 := setChannel c (checkLimits c x1 v) s
  let s2 :=
    if faultChanges c x1 v then
      s1 |> offerMain (!x.fault) (.monitorFault c v (!x.fault) test) |> faultEffect k c (!x.fault)
    else s1
  handOver k c v interval test s2

/-- PANV is converted only with the panel supply up (R124). -/
def panvConverted (s : State) : Bool :=
  (s.platform.state == .active || s.platform.state == .doze || s.platform.state == .halting) && s.platform.powerUp.isNone

/-- The monitor period of a platform state in milliseconds (R124). -/
def monitorPeriod : PlatformState → Nat
  | .sleep => 4000 | .off => 16000 | _ => 250

/-- The next period starts, its length fixed by the platform state (R124). -/
def startPeriod (s : State) : State :=
  onMonitor (fun m => { m with period := monitorPeriod s.platform.state, elapsed := 0 }) s

/-- One conversion sequence with its readings and its interval (R124). A power-on sequence sets the start-up estimate from
its BATV value before BATI is sampled (R148). -/
def sequenceWith (k : Hooks) (r : Readings) (interval : Nat) (first : Bool) (s : State) : State :=
  let s1 := s |> startPeriod |> sampleChannel k .batv r.batv.toNat interval
  let s2 := if first then onCharge (startUpEstimate (s1.monitor.batv.last.getD 0)) s1 else s1
  let s3 := s2 |> sampleChannel k .bati r.bati.toNat interval
    |> sampleChannel k .ptemp r.ptemp.toNat interval
    |> sampleChannel k .dtemp r.dtemp.toNat interval
    |> sampleChannel k .amb r.amb.toNat interval
  if panvConverted s3 then sampleChannel k .panv r.panv.toNat interval s3 else s3

/-- What the converter reads at a sequence made inside another step: the next readings that State lists, or the free value
(log entry 1). -/
def nextReadings (s : State) : Readings :=
  match s.inputs with
  | r :: _ => r
  | [] => Config.adcReadings s.samples

/-- The state with those readings used. -/
def useReadings (s : State) : State :=
  match s.inputs with
  | _ :: rs => { s with inputs := rs }
  | [] => { s with samples := s.samples + 1 }

/-- The sequence of a change of period, made at once in the new state with the time elapsed as its interval (R125). -/
def changePeriod (k : Hooks) (s : State) : State :=
  sequenceWith k (nextReadings s) s.monitor.elapsed false (useReadings s)

end Sys2Proof.Machine
end

