-- ==== Sys2Proof/Machine/Transitions.lean ====
section
/-! DEFINITION. The platform controller's transitions (chapter 9): HALTING entry (R163), the shutdown page and OFF entry (R164,
R165), restart (R166), the sleep check and SLEEP entry (R159), and the hooks that close the circle: what a report to the
platform controller does. The layers stand one on the other: OFF makes no transition, a restart may halt again and go OFF
(never to restart a second time, since its halt cause is then LEVEL or BROWNOUT), and everything else may do all of it. -/

namespace Sys2Proof.Machine

/-! ## Scrub and timers -/

/-- A VALID table's scrub is suspended; a pass is abandoned and the timer stops (R75). -/
def suspendScrub (s : State) : State :=
  onWave (fun w =>
    if w.state = .valid then { w with scrub := .suspended, scrubTimer := none, pass := none } else w) s

/-- A pass from the first byte, and the timer restarted with a full scrub_period (R73, R75). -/
def startPass (w : WaveTable) : WaveTable :=
  { w with scrub := .passing, pass := some ⟨0, 0⟩, scrubTimer := some (w.scrubPeriod * 1000) }

/-- The frame period in microseconds (R52). -/
def framePeriod (rate : Nat) : Nat := 1000000 / rate

/-- The panel frame timer and the ramp tick timer start, each with a full period (R52, R118). -/
def startTimers (s : State) : State :=
  s |> onEngine (fun e => { e with frameTimer := some (framePeriod e.frameRate) })
    |> onLight (fun l => { l with rampTimer := some Config.rampMs })

/-- Both timers stop, the panel drive bus is idle, and both light outputs stand at their inactive levels (R52, R118, R62,
R120). -/
def stopTimers (s : State) : State :=
  s |> onEngine (fun e => { e with frameTimer := none, bus := [] })
    |> onLight (fun l => { l with rampTimer := none, coolOut := .reset, warmOut := .reset })

/-! ## HALTING (R162, R163) -/

/-- The steps of R163 from ACTIVE, DOZE or SLEEP; from SLEEP the power-up interval runs on, or starts, with purpose HALT, and
the monitor makes the sequence of a change of period. In HALTING and OFF there is no transition (R162). -/
def haltingEntry (c : HaltCause) (s : State) : State :=
  let old := s.platform.state
  if old = .halting ∨ old = .off then s
  else
    let s1 := s
      |> onPlatform (fun f => { f with
          state := .halting, haltCause := some c, sleepPending := none, pageSubmitted := false, pageDecided := false,
          idleTimer := none, onward := none,
          powerUp := if old = .sleep then some ⟨.halt, (f.powerUp.map (·.left)).getD Config.powerUpMs⟩ else f.powerUp })
      |> cancelPending .quiet
      |> dropAssembly .quiet .abandoned false
      |> onPlatform (fun f => { f with alarms := f.alarms.map (fun _ => none), radioSetting := false })
      |> resetRadioPort .quiet .idle
      |> suspendScrub
      |> reportState .halting old c.cause
      |> considerationPass .quiet
    if old = .sleep then changePeriod .quiet s1 else s1

/-! ## OFF (R164, R165) -/

/-- The engine holds no live record (R159, R165). -/
def engineIdle (s : State) : Bool := s.engine.queue.isEmpty && s.engine.active.isEmpty

/-- The blocks that keep state in the DRAM take their OFF-entry values: pool, page store, window, engine, spool, light
(R4, R9, R21, R65, R82, R104). Parameters that are not the pool's keep their values until restart. -/
def loseDram (s : State) : State :=
  { s with
    pool := .reset
    dram := []
    store := .reset
    window := { s.window with entries := [], cursor := none, shown := none, lastTurn := none, aheadArmed := true,
                              behindArmed := true }
    engine := { s.engine with queue := [], active := [], nextId := 1, bus := [],
                              ghosts := List.replicate Config.tileCount s.engine.ghostLimit }
    spool := { Spool.reset with chunkAge := s.spool.chunkAge, titleWake := s.spool.titleWake }
    light := { s.light with level := 0, warmth := 0, auto := false, autoLevel := 0, autoFirst := false, rampLevel := 0,
                            rampWarmth := 0, writer := none, coolDuty := 0, warmDuty := 0, coolOut := .reset,
                            warmOut := .reset, chargeCap := chargeCapOf s.charge.level,
                            thermalCap := if s.monitor.dtemp.fault then 256 else 1023 }
    charge := { s.charge with updates := [], chunk := none } }

/-- The table becomes ABSENT (R68). -/
def loseTable (s : State) : State :=
  onWave (fun w => { WaveTable.reset with scrubPeriod := w.scrubPeriod }) s

/-- Pending test values are cleared (R122, R130). -/
def clearTests (s : State) : State :=
  onMonitor (fun m => allChannels.foldl (fun n c => n.set c { n.get c with pendingTest := none }) m) s

/-- Entry to OFF (R165). That pending test values are cleared before the sequence of the change of period, which then converts, is
the model's reading (log entry 14). -/
def enterOff (s : State) : State :=
  let cause := (s.platform.haltCause.map HaltCause.cause).getD .powerOff
  s |> onPort .main (resetUnit .idle)
    |> onPlatform (fun f => { f with
        state := .off, wakeMain := false, haltCause := none, pageDecided := false })
    |> loseDram
    |> loseTable
    |> stopTimers
    |> clearTests
    |> reportState .off .halting cause
    |> changePeriod .quiet

/-- The decision on the shutdown page (R164); the pending queue always has room for it, since HALTING entry emptied it. -/
def decideShutdownPage (s : State) : State :=
  let s1 := onPlatform (fun f => { f with pageDecided := true }) s
  let shown := s.platform.haltCause = some .level ∨ s.platform.haltCause = some .powerOff ∨ s.platform.haltCause = some .key
  match roleSlot .shutdownPage s with
  | some i =>
    if shown ∧ s.wave.state = .valid ∧ queueHasRoom s.engine = true then
      s1 |> submit .shutdownPage ⟨false, false, false⟩ i (wholePanel s.pool) .full |> considerationPass .quiet
    else s1
  | none => s1

/-- The check of R164: the page is decided at the first moment no interval runs and no update is SCANNING or DRIVING. -/
def pageCheck (s : State) : State :=
  if s.platform.state = .halting ∧ s.platform.powerUp = none ∧ s.platform.pageDecided = false ∧
      s.engine.active.isEmpty = true then decideShutdownPage s
  else s

/-- The platform can leave HALTING for OFF (R165). -/
def canGoOff (s : State) : Bool :=
  s.platform.state == .halting && s.platform.pageDecided && engineIdle s && s.light.rampLevel == 0

/-- The check of R164 and R165 where no restart can follow. -/
def haltCheckNoRestart (s : State) : State :=
  let s1 := pageCheck s
  if canGoOff s1 then enterOff s1 else s1

/-! ## Restart (R166) -/

/-- The hooks of the sequence that a restart or SLEEP entry makes: it may halt the reader, and a HALTING then checks for OFF. -/
def Hooks.haltOnly : Hooks := ⟨fun c s => haltCheckNoRestart (haltingEntry c s), haltCheckNoRestart⟩

/-- The restart conditions (R166). -/
def restartAllowed (s : State) : Bool := decide (floorTurn s.charge ≤ s.charge.q) && !s.monitor.batv.fault

/-- Counters 0 and degraded flag clear (R185). -/
def clearCounters (u : PortUnit) : PortUnit := { u with counters := .zero, degraded := false }

/-- The restart evaluation (R147): the raw index directly; a change is told to the standby port and to the light. -/
def restartEvaluation (s : State) : State :=
  let j := rawIndex s.charge
  if j = s.charge.level then s
  else
    let s1 := onCharge (fun c => { c with level := j }) s
    s1 |> offerTo .standby (chargeLevelNotice s1.charge) |> setChargeCap .quiet

/-- Steps 1 and 2 of the restart: every block and port unit at its restart values (R166, R185). That the default pwm_frequency
reaches the light outputs at the restart itself is the model's choice (log entry 34). -/
def restartValues (s : State) : State :=
  { loseDram s with
    window := .reset
    engine := .reset
    wave := .reset
    spool := .reset
    light := { Light.reset with chargeCap := chargeCapOf s.charge.level,
                                thermalCap := if s.monitor.dtemp.fault then 256 else 1023 }
    platform := { Platform.reset with state := .active, key := s.platform.key, holdTimer := s.platform.holdTimer,
                                      clock := s.platform.clock, clockMs := s.platform.clockMs }
    portMain := clearCounters (resetUnit .idle s.portMain)
    portStandby := clearCounters s.portStandby
    portRadio := clearCounters (resetUnit .idle s.portRadio)
    linkThreshold := 64 }

/-- The restart (R166 steps 1 to 8), reported with its cause (R173). -/
def restartNow (c : Cause) (s : State) : State :=
  let s1 := s |> restartValues |> clearTests |> restartEvaluation |> startTimers |> reportState .active .off c
  s1 |> offerMain false (.stateChanged .active .off c s1.platform.clock) |> changePeriod .haltOnly

/-- A restart attempt in OFF without a response: a short press, or after RESTART (R165, R166). -/
def tryRestart (c : Cause) (s : State) : State := if restartAllowed s then restartNow c s else s

/-- Entry to OFF and, after halt cause RESTART, the restart attempt (R165). -/
def offEntry (s : State) : State :=
  if s.platform.haltCause = some .restart then tryRestart .restart (enterOff s) else enterOff s

/-- The platform controller's check of R164 and R165. -/
def haltCheck (s : State) : State :=
  let s1 := pageCheck s
  if canGoOff s1 then offEntry s1 else s1

/-! ## SLEEP (R159) -/

/-- The reader is quiet (R159). -/
def isQuiet (s : State) : Bool :=
  engineIdle s && s.spool.assembly.isNone && s.spool.verifying.isEmpty && s.light.rampLevel == 0

/-- Entry to SLEEP (R159). -/
def enterSleep (s : State) : State :=
  let cause := (s.platform.sleepPending.map SleepCause.cause).getD .sleepRequest
  s |> onPlatform (fun f => { f with
        state := .sleep, sleepPending := none, pageSubmitted := false, idleTimer := none, radioSetting := false })
    |> resetRadioPort .quiet .idle
    |> stopTimers
    |> suspendScrub
    |> reportState .sleep .doze cause
    |> changePeriod .haltOnly

/-- Step 2 of the check: the sleep page submitted once, if a slot holds the role (R159). -/
def submitSleepPage (s : State) : State :=
  let s1 := onPlatform (fun f => { f with pageSubmitted := true }) s
  match roleSlot .sleepPage s with
  | some i =>
    if queueHasRoom s.engine then
      s1 |> submit .sleepPage ⟨false, false, false⟩ i (wholePanel s.pool) .full |> considerationPass .quiet
    else s1
  | none => s1

/-- DOZE with sleep pending set and the reader quiet (R159). -/
def sleepDue (s : State) : Bool := s.platform.state == .doze && s.platform.sleepPending.isSome && isQuiet s

/-- The sleep check (R159 steps 1 to 3). -/
def sleepCheck (s : State) : State :=
  let s1 := if sleepDue s && !s.platform.pageSubmitted then submitSleepPage s else s
  if sleepDue s1 then enterSleep s1 else s1

/-! ## Reports -/

/-- The platform controller rechecks its conditions for SLEEP entry and for OFF (R54 step 8, R118, R159, R164). -/
def recheckNow (s : State) : State :=
  match s.platform.state with
  | .doze => sleepCheck s
  | .halting => haltCheck s
  | _ => s

/-- HALTING entry followed by the platform controller's own check, which may be at the entry itself (R164). -/
def haltNow (c : HaltCause) (s : State) : State :=
  if s.platform.state = .halting ∨ s.platform.state = .off then s else haltCheck (haltingEntry c s)

/-- The platform controller's reactions, as every command uses them. -/
def Hooks.full : Hooks := ⟨haltNow, recheckNow⟩

end Sys2Proof.Machine
end

