-- ==== Sys2Proof/Machine/ChargeRequests.lean ====
section
/-! DEFINITION. The charge account's requests (chapter 8): CHARGE_SET, CHARGE_CONFIG and CHARGE_QUERY. -/

namespace Sys2Proof.Machine

/-- Q takes a value, clamped to Q_full (R149). -/
def setCharge (v : Nat) (c : Charge) : Charge := { c with q := min v (qFull c) }

/-- CHARGE_SET: the evaluation's steps precede the response (R149). -/
def chargeSet (p : Port) (v : Nat) (s : State) : State :=
  let s1 := s |> onCharge (setCharge v) |> evaluate .full
  respond p .ok (encCharge s1.charge.q ++ encCharge (available s1.charge) ++ encU8 s1.charge.level) s1

/-- CHARGE_SET (R149). -/
def execChargeSet (p : Port) (m : Msg) (s : State) : Host.Outcome State Fault Refusal :=
  .next (takeRequest p .chargeSet m readCharge (fun v t => recheckNow (chargeSet p v t)) s)

/-- A floor's per-mille lies in its range (R150). -/
def goodFloor (n : Nat) : Bool := decide (1 ≤ n ∧ n ≤ 999)

/-- Every value is above the one before it. -/
def ascendingNats : List Nat → Bool
  | a :: b :: r => decide (a < b) && ascendingNats (b :: r)
  | _ => true

/-- Parameters that CHARGE_CONFIG accepts (R150). -/
def goodChargeParams (a : ChargeParams) : Bool :=
  decide (500 ≤ a.capacity ∧ a.capacity ≤ 6000) && goodFloor a.radio && goodFloor a.light && goodFloor a.turn
    && goodFloor a.shutdown && decide (a.light ≤ a.radio ∧ a.turn ≤ a.light ∧ a.shutdown ≤ a.turn)
    && decide (a.hysteresis ≤ 200) && a.ocv.all (fun v => decide (v ≤ 5000)) && ascendingNats a.ocv

/-- Steps 1 to 3 of an accepted CHARGE_CONFIG (R151). -/
def applyChargeParams (a : ChargeParams) (c : Charge) : Charge :=
  { c with
    q := if a.capacity = c.params.capacity then c.q else c.q * a.capacity / c.params.capacity
    params := a }

/-- CHARGE_CONFIG (R150, R151). The eight bytes of Q_full in its response are the model's choice (log entry 11). -/
def chargeConfig (p : Port) (a : ChargeParams) (s : State) : State :=
  if goodChargeParams a then
    let s1 := s |> onCharge (applyChargeParams a) |> evaluate .full
    respond p .ok (encCharge s1.charge.q ++ encCharge (qFull s1.charge) ++ encCharge (available s1.charge)
      ++ encU8 s1.charge.level) s1
  else refuse p .badValue s

/-- CHARGE_CONFIG (R150, R151). -/
def execChargeConfig (p : Port) (m : Msg) (s : State) : Host.Outcome State Fault Refusal :=
  .next (takeRequest p .chargeConfig m readChargeConfig (fun a t => recheckNow (chargeConfig p a t)) s)

/-- The reservation list, each entry with its key (R152). That the updates stand in the order in which they were placed, the chunk
last, and the chunk's key 0, which no update has, are the model's choices (log entry 11). -/
def reservationReport (c : Charge) : List Byte :=
  c.updates.flatMap (fun r => encU16 r.1 ++ encCharge r.2)
    ++ (match c.chunk with | some n => encU16 0 ++ encCharge n | none => [])

/-- The floors and H, each in per-mille and in µC (R152). -/
def floorReport (c : Charge) : List Byte :=
  [c.params.radio, c.params.light, c.params.turn, c.params.shutdown, c.params.hysteresis].flatMap
    (fun n => encU16 n ++ encCharge (floorOf c n))

/-- The report of CHARGE_QUERY (R152). The eight bytes of Q_full, the two of the capacity, the four of the last sample's interval and
the eight of the applied change, which section 11.2 does not list by name, are the model's choice (log entry 11). -/
def chargeQueryData (c : Charge) : List Byte :=
  encCharge c.q ++ encCharge (qFull c) ++ encCharge (reserved c) ++ encCharge (available c) ++ encU8 c.level
    ++ encU8 (rawIndex c) ++ encU16 (perMilleOf c) ++ reservationReport c ++ floorReport c ++ encU16 c.params.capacity
    ++ encU16 c.params.base ++ encU16 c.params.perPixel ++ encU16 c.params.perKib ++ c.params.ocv.flatMap encU16
    ++ encS32 c.last.current ++ encU32 c.last.interval ++ encCharge c.last.applied

/-- CHARGE_QUERY (R152). -/
def execChargeQuery (p : Port) (m : Msg) (s : State) : Host.Outcome State Fault Refusal :=
  .next (takeRequest p .chargeQuery m readNothing (fun _ t => respond p .ok (chargeQueryData t.charge) t) s)

end Sys2Proof.Machine
end

