-- ==== Sys2Proof/Machine/FrontLight.lean ====
section
/-! DEFINITION. The front light's requests and events (chapter 6): LIGHT_SET, LIGHT_QUERY, LIGHT_CURVE, LIGHT_AUTO_POINTS, the
ramp tick and the period starts of the two outputs. -/

namespace Sys2Proof.Machine

/-! ## LIGHT_SET (R108, R109, R112) -/

/-- The switch to auto: L_a takes the candidate of the last AMB value, or waits for the first one (R112). -/
def switchToAuto (amb : Option Int) (l : Light) : Light :=
  match amb with
  | some x => { l with auto := true, autoLevel := autoCandidate l.points x.toNat, autoFirst := false }
  | none => { l with auto := true, autoFirst := true }

/-- The light after an accepted LIGHT_SET (R108). -/
def setTargets (p : Port) (a : LightSetArgs) (amb : Option Int) (l : Light) : Light :=
  let l1 := { l with warmth := a.warmth, writer := some p }
  if a.auto = false then { l1 with level := min a.level 1023, auto := false, autoFirst := false }
  else if l.auto then l1
  else switchToAuto amb l1

/-- The other of the two writers (R109). -/
def otherWriter : Port → Port
  | .main => .standby
  | _ => .main

/-- LIGHT_CHANGED as the light stands (R109). -/
def lightChanged (p : Port) (l : Light) : Notice := .lightChanged l.level l.warmth l.auto p

/-- LIGHT_SET (R108, R109): the response, then the notice to the other writer. -/
def lightSet (p : Port) (a : LightSetArgs) (s : State) : State :=
  if 255 < a.warmth then refuse p .badValue s
  else if s.platform.state = .halting then refuse p .notNow s
  else
    let l := setTargets p a s.monitor.amb.last s.light
    s.withLight l |> respond p .ok (encU16 l.level ++ encU16 l.warmth ++ encFlag l.auto)
      |> (if otherWriter p = .main then offerMain false (lightChanged p l) else offerTo .standby (lightChanged p l))

/-- LIGHT_SET (R108, R109). -/
def execLightSet (p : Port) (m : Msg) (s : State) : Host.Outcome State Fault Refusal :=
  .next (takeRequest p .lightSet m readLightSet (lightSet p) s)

/-! ## LIGHT_QUERY (R110) -/

/-- The report of LIGHT_QUERY (R110). -/
def lightQueryData (s : State) : List Byte :=
  let l := s.light
  encU16 l.level ++ encU16 l.warmth ++ encFlag l.auto ++ encU16 l.autoLevel ++ encU16 l.rampLevel ++ encU16 l.rampWarmth
    ++ encU16 (effectiveTarget s) ++ encU16 l.chargeCap ++ encU16 l.thermalCap ++ encU16 (effectiveCap l)
    ++ encU16 l.coolDuty ++ encU16 l.warmDuty ++ encWriter l.writer ++ encU32 l.rampStep ++ encU32 l.autoDeadband
    ++ encU32 l.pwmFrequency ++ encU8 l.polarityCool.code ++ encU8 l.polarityWarm.code
    ++ l.points.flatMap encU16 ++ l.curve.flatMap encU16

/-- LIGHT_QUERY (R110). -/
def execLightQuery (p : Port) (m : Msg) (s : State) : Host.Outcome State Fault Refusal :=
  .next (takeRequest p .lightQuery m readNothing (fun _ t => respond p .ok (lightQueryData t) t) s)

/-! ## LIGHT_CURVE and LIGHT_AUTO_POINTS (R106, R107) -/

/-- No value is below the one before it. -/
def nonDecreasing : List Nat → Bool
  | a :: b :: r => decide (a ≤ b) && nonDecreasing (b :: r)
  | _ => true

/-- A curve that LIGHT_CURVE accepts (R106). -/
def goodCurve (d : List Nat) : Bool := d.all (fun v => decide (v ≤ 4095)) && d.head? == some 0 && nonDecreasing d

/-- LIGHT_CURVE (R106). -/
def lightCurve (p : Port) (d : List Nat) (s : State) : State :=
  if goodCurve d then s |> onLight (fun l => withDuties { l with curve := d }) |> respond p .ok []
  else refuse p .badValue s

/-- LIGHT_CURVE (R106). -/
def execLightCurve (p : Port) (m : Msg) (s : State) : Host.Outcome State Fault Refusal :=
  .next (takeRequest p .lightCurve m (readWords 33) (lightCurve p) s)

/-- Breakpoint levels that LIGHT_AUTO_POINTS accepts (R107). -/
def goodPoints (a : List Nat) : Bool := a.all (fun v => decide (v ≤ 1023)) && nonDecreasing a

/-- LIGHT_AUTO_POINTS (R107). -/
def lightAutoPoints (p : Port) (a : List Nat) (s : State) : State :=
  if goodPoints a then s |> onLight (fun l => { l with points := a }) |> respond p .ok [] else refuse p .badValue s

/-- LIGHT_AUTO_POINTS (R107). -/
def execLightAutoPoints (p : Port) (m : Msg) (s : State) : Host.Outcome State Fault Refusal :=
  .next (takeRequest p .lightAutoPoints m (readWords 5) (lightAutoPoints p) s)

/-! ## The ramp tick (R117, R118, R121) -/

/-- A value one step nearer a target, not beyond it. -/
def approach (d goal v : Nat) : Nat := if v < goal then min (v + d) goal else max (v - d) goal

/-- The step of the ramp (R121). -/
def rampStepNow (s : State) : Nat := if s.platform.state = .halting then 64 else s.light.rampStep

/-- The light after a tick (R117). -/
def rampedLight (s : State) : Light :=
  let l := s.light
  let r := approach (rampStepNow s) (effectiveTarget s) l.rampLevel
  let w := approach 4 l.warmth l.rampWarmth
  let l1 := { l with rampLevel := r, rampWarmth := w, rampTimer := some Config.rampMs }
  if r = l.rampLevel ∧ w = l.rampWarmth then l1 else withDuties l1

/-- A ramp tick; the timer gives none while it is stopped. A tick that brings r to 0 is reported (R117, R118). -/
def execRampTick (s : State) : Host.Outcome State Fault Refusal :=
  .next (if s.light.rampTimer.isSome then
      let t := s.withLight (rampedLight s)
      if s.light.rampLevel ≠ 0 ∧ t.light.rampLevel = 0 then recheckNow t else t
    else s)

/-! ## The outputs (R120) -/

/-- A period start of the cool output: its newest duty, and an accepted frequency applied, equal to the one before or not,
which cuts the warm output's period. -/
def coolPeriod (l : Light) : Light :=
  { l with
    coolOut := ⟨l.coolDuty, false⟩, pwmApplied := l.pwmFrequency, pwmPending := false,
    warmOut := if l.pwmPending then { l.warmOut with held := true } else l.warmOut }

/-- A period start of the warm output: its newest duty. -/
def warmPeriod (l : Light) : Light := { l with warmOut := ⟨l.warmDuty, false⟩ }

/-- A period start of LIGHT_COOL or LIGHT_WARM (R120). -/
def execPwmPeriodStart (line : LightLine) (s : State) : Host.Outcome State Fault Refusal :=
  .next (match line with
    | .cool => onLight coolPeriod s
    | .warm => onLight warmPeriod s)

end Sys2Proof.Machine
end

