-- ==== Sys2Proof/Machine/Keys.lean ====
section
/-! DEFINITION. The power key, the radio supply, the platform clock and the alarms (sections 9.8 to 9.10). -/

namespace Sys2Proof.Machine

/-! ## The power key (R168) -/

/-- A debounced press (R168). -/
def execKeyPress (s : State) : Host.Outcome State Fault Refusal :=
  .next (if s.platform.key = .released then
      onPlatform (fun f => { f with key := .pressed, holdTimer := some Config.holdMs }) s
    else s)

/-- A short press, by the platform state (R168). -/
def shortPress (s : State) : State :=
  match s.platform.state with
  | .active => offerMain false .key s
  | .doze => s |> enterActive true .key |> offerMain false .key
  | .sleep => s |> startResume true .key false |> offerMain false .key
  | .halting => s
  | .off => tryRestart .key s

/-- The key is let go. -/
def releaseKey (s : State) : State := onPlatform (fun f => { f with key := .released, holdTimer := none }) s

/-- A debounced release: from PRESSED it is a short press (R168). -/
def execKeyRelease (s : State) : Host.Outcome State Fault Refusal :=
  .next (match s.platform.key with
    | .pressed => recheckNow (shortPress (releaseKey s))
    | .consumed => releaseKey s
    | .released => s)

/-- Three seconds held since the press: a long press, which in HALTING and OFF is ignored (R168). -/
def execKeyHoldExpiry (s : State) : Host.Outcome State Fault Refusal :=
  .next (if s.platform.key = .pressed then
      haltNow .key (onPlatform (fun f => { f with key := .consumed, holdTimer := none }) s)
    else s)

/-! ## RADIO_POWER (R169) -/

/-- The codes of RADIO_POWER (section 11.4). -/
def radioOffCode : Nat := 0
def radioOnCode : Nat := 1

/-- RADIO_POWER OFF with the setting on (R169 steps 1 to 3). -/
def radioOff (s : State) : State :=
  s |> onPlatform (fun f => { f with radioSetting := false }) |> resetRadioPort .full .idle

/-- RADIO_POWER by its code and the platform state (R169). That the three steps of OFF, with a CHARGE_LEVEL they may raise, precede
its response is the model's reading (log entry 10). -/
def radioPower (p : Port) (code : Nat) (s : State) : State :=
  if radioOnCode < code then refuse p .badValue s
  else if s.platform.state ≠ .active then refuse p .notNow s
  else if code = radioOnCode then
    s |> onPlatform (fun f => { f with radioSetting := true }) |> respond p .ok []
  else if s.platform.radioSetting then s |> radioOff |> respond p .ok []
  else respond p .ok [] s

/-- A RADIO_POWER packet is an event of the row whose code it carries; one of the other row's code leaves this row without an
event (log entry 12). -/
def radioRow (p : Port) (other : Nat) (m : Msg) (s : State) : State :=
  if readOne m.payload = some other then s
  else takeRequest p .radioPower m readOne (fun c t => recheckNow (radioPower p c t)) s

/-- RADIO_POWER ON (R169). -/
def execRadioPowerOn (p : Port) (m : Msg) (s : State) : Host.Outcome State Fault Refusal :=
  .next (radioRow p radioOffCode m s)

/-- RADIO_POWER OFF (R169). -/
def execRadioPowerOff (p : Port) (m : Msg) (s : State) : Host.Outcome State Fault Refusal :=
  .next (radioRow p radioOnCode m s)

/-! ## Alarms (R171, R172) -/

/-- The alarm of a slot. -/
def alarmAt (i : Nat) (s : State) : Option Alarm := s.platform.alarms.getD i none

def setAlarm (i : Nat) (a : Option Alarm) (s : State) : State :=
  onPlatform (fun f => { f with alarms := f.alarms.set i a }) s

/-- The action of an expired alarm, by the platform state (R172); alarms are empty in HALTING and OFF. -/
def alarmAction (i : Nat) (a : Alarm) (s : State) : State :=
  let note : Notice := .alarm i a.action a.time
  match a.action, s.platform.state with
  | .wakeMain, .active => offerMain false note s
  | .wakeMain, .doze => s |> enterActive true .alarm |> offerMain false note
  | .wakeMain, .sleep => s |> startResume true .alarm false |> offerMain false note
  | .radioOn, .active => s |> onPlatform (fun f => { f with radioSetting := true }) |> offerTo .radio note
  | .radioOn, .doze => s |> onPlatform (fun f => { f with radioSetting := true }) |> offerTo .radio note
  | .radioOn, .sleep =>
    s |> startResume false .alarm false
      |> onPlatform (fun f => { f with
          onward := f.onward.map (fun o => { o with radioAlarms := o.radioAlarms ++ [(i, a.time)] }) })
  | .notifyStandby, .active => offerTo .standby note s
  | .notifyStandby, .doze => offerTo .standby note s
  | .notifyStandby, .sleep => s |> startResume false .alarm false |> offerTo .standby note
  | _, .halting => s
  | _, .off => s

/-- The expiry of a slot's alarm: the slot empties and the action is carried out (R172). -/
def expireAlarm (i : Nat) (s : State) : State :=
  match alarmAt i s with
  | some a => alarmAction i a (setAlarm i none s)
  | none => s

/-- The expiry of an alarm (R172). -/
def execAlarmExpiry (slot : Nat) (s : State) : Host.Outcome State Fault Refusal := .next (expireAlarm slot s)

/-- A slot's alarm expires where `due` holds of its time. -/
def expireIf (due : Nat → Bool) (i : Nat) (s : State) : State :=
  match alarmAt i s with
  | some a => if due a.time then expireAlarm i s else s
  | none => s

/-- The three slots in order. -/
def expireAll (due : Nat → Bool) (s : State) : State := s |> expireIf due 0 |> expireIf due 1 |> expireIf due 2

/-- ALARM_SET (R171). -/
def alarmSet (p : Port) (a : AlarmSetArgs) (s : State) : State :=
  match alarmActionOf a.action with
  | none => refuse p .badValue s
  | some x =>
    if 2 < a.slot then refuse p .badValue s
    else if s.platform.state = .halting then refuse p .notNow s
    else
      s |> setAlarm a.slot (some ⟨a.time, x⟩) |> respond p .ok []
        |> expireIf (fun t => decide (t ≤ s.platform.clock)) a.slot

/-- ALARM_SET (R171). -/
def execAlarmSet (p : Port) (m : Msg) (s : State) : Host.Outcome State Fault Refusal :=
  .next (takeRequest p .alarmSet m readAlarmSet (alarmSet p) s)

/-- ALARM_CLEAR (R171). -/
def alarmClear (p : Port) (i : Nat) (s : State) : State :=
  if 2 < i then refuse p .badValue s else s |> setAlarm i none |> respond p .ok []

/-- ALARM_CLEAR (R171). -/
def execAlarmClear (p : Port) (m : Msg) (s : State) : Host.Outcome State Fault Refusal :=
  .next (takeRequest p .alarmClear m readOne (alarmClear p) s)

/-! ## The platform clock (R170) -/

/-- The clock one second on (R170). -/
def nextSecond (n : Nat) : Nat := (n + 1) % 4294967296

/-- One second: the clock advances, and the alarms whose time it reaches expire (R170, R172). -/
def execClockSecond (s : State) : Host.Outcome State Fault Refusal :=
  .next (let s1 := onPlatform (fun f => { f with clock := nextSecond f.clock, clockMs := 0 }) s
    expireAll (fun t => t == s1.platform.clock) s1)

/-- CLOCK_SET: the alarms at or below the new value expire at once, after the response (R170). -/
def clockSet (p : Port) (v : Nat) (s : State) : State :=
  s |> onPlatform (fun f => { f with clock := v, clockMs := 0 }) |> respond p .ok []
    |> expireAll (fun t => decide (t ≤ v))

/-- CLOCK_SET (R170). -/
def execClockSet (p : Port) (m : Msg) (s : State) : Host.Outcome State Fault Refusal :=
  .next (takeRequest p .clockSet m readLong (clockSet p) s)

end Sys2Proof.Machine
end

