-- ==== Sys2Proof/Machine/Links.lean ====
section
/-! DEFINITION. The port units' own requests and the events of their links (chapter 10): PORT_RESET, COUNTERS_CLEAR, unknown
requests, selection bytes, headers, the arrival of packets, the end of a transfer, and what a READ transfer sends. -/

namespace Sys2Proof.Machine

/-! ## PORT_RESET (R184) -/

/-- PORT_RESET counted as an admitted packet (R177, R186). -/
def countAdmitted (u : PortUnit) : PortUnit :=
  { u with counters := { u.counters with admitted := saturatingSucc u.counters.admitted } }

/-- Step 6 of R184: on the radio port an open assembly is dropped and the bare target becomes none. -/
def resetSpoolSide (p : Port) (s : State) : State :=
  if p = .radio then
    s |> dropAssembly .full .abandoned false |> onSpool (fun sp => { sp with bare := none })
  else s

/-- A PORT_RESET at its arrival (R177, R184). -/
def portResetNow (p : Port) (s : State) : State :=
  s |> requestTaken p
    |> onPort p (fun u => countAdmitted (resetUnit (transferAfterReset u.transfer) u))
    |> resetSpoolSide p
    |> queueResponse p ReqKind.portReset.code .ok []
    |> recheckNow

/-- A PORT_RESET with a payload is an ordinary packet, refused BAD_LENGTH when taken; one without is carried out at once
(R177, R184). -/
def execPortReset (p : Port) (m : Msg) (s : State) : Host.Outcome State Fault Refusal :=
  .next (if m.payload = [] then (if powered p s then portResetNow p s else s)
    else takeRequest p .portReset m readNothing (fun _ t => respond p .ok [] t) s)

/-! ## COUNTERS_CLEAR (R186) -/

/-- COUNTERS_CLEAR (R186, R187). -/
def countersClear (p : Port) (code : Nat) (s : State) : State :=
  match portOf code with
  | none => refuse p .badValue s
  | some q => s |> onPort q clearCounters |> respond p .ok []

/-- COUNTERS_CLEAR (R186). -/
def execCountersClear (p : Port) (m : Msg) (s : State) : Host.Outcome State Fault Refusal :=
  .next (takeRequest p .countersClear m readOne (countersClear p) s)

/-! ## Requests of no kind (R178 check 2) -/

/-- Checks 1 and 2 of R178 on a packet whose kind names no request. -/
def decideUnknown (p : Port) (m : Msg) (s : State) : State :=
  if checkFails m then refuseChecksum p s else refuse p .unknownRequest s

/-- The taking of a packet whose kind names no request; a kind that names one is not this row's (R178, R190). -/
def execUnknownRequest (p : Port) (kind : Byte) (m : Msg) (s : State) : Host.Outcome State Fault Refusal :=
  .next (if (kindOf kind).isSome || !powered p s then s
    else
      let s1 := arrived p ⟨kind, m⟩ s
      if takable p ⟨kind, m⟩ s1 then decideUnknown p m (beginTaking p ⟨kind, m⟩ s1) else s1)

/-! ## WRITE transfers (R174, R175, R177) -/

/-- The selection bytes (section 11.1). -/
def writeSelection : Byte := 0x5A#8
def readSelection : Byte := 0xA5#8

def setTransfer (p : Port) (t : Transfer) (s : State) : State := onPort p (fun u => { u with transfer := t }) s

/-- The selection byte of a transfer (R174). -/
def execSelectionByte (p : Port) (byte : Byte) (s : State) : Host.Outcome State Fault Refusal :=
  .next (if powered p s && (s.port p).transfer == .idle then
      if byte = writeSelection then setTransfer p .header s
      else if byte = readSelection then setTransfer p .readBoundary s
      else headerFails p s
    else s)

/-- A bad header in HEADER (R175). -/
def execHeaderFailure (p : Port) (header : Header) (s : State) : Host.Outcome State Fault Refusal :=
  .next (if powered p s && (s.port p).transfer == .header && !headerGoodCheck header then headerFails p s else s)

/-- A good header of a packet with a payload: the port enters BODY (R175). -/
def execHeaderGood (p : Port) (header : Header) (s : State) : Host.Outcome State Fault Refusal :=
  .next (if powered p s && (s.port p).transfer == .header && headerGoodCheck header && header.length.toNat != 0 then
      setTransfer p (.body header.kind header.length.toNat) s
    else s)

/-- The transfer is where this packet can have arrived: its header alone in HEADER, or its BODY complete (R175). -/
def completesPacket (t : Transfer) (q : Packet) : Bool :=
  match t with
  | .header => q.msg.payload.isEmpty
  | .body kind n => kind == q.kind && n == q.msg.payload.length && !q.msg.payload.isEmpty
  | _ => false

/-- The admission of an arrived packet (R177). -/
def arrive (p : Port) (q : Packet) (s : State) : State :=
  if q.kind = ReqKind.portReset.code ∧ q.msg.payload = [] then portResetNow p s else onPort p (takeIn q) s

/-- The arrival of a whole packet (R175, R177). -/
def execPacketArrived (p : Port) (packet : Packet) (s : State) : Host.Outcome State Fault Refusal :=
  .next (if powered p s && completesPacket (s.port p).transfer packet then
      arrive p packet (setTransfer p .header s)
    else s)

/-! ## The end of a transfer (R176) -/

/-- A break: BREAK set and counted, the transfer over (R176). -/
def breakTransfer (u : PortUnit) : PortUnit :=
  { u with
    transfer := .idle, errors := { u.errors with brk := true },
    counters := { u.counters with breaks := saturatingSucc u.counters.breaks } }

/-- A rise of CS is a break in this transfer state, with this many bytes of a header or an EMPTY packet done (R176). -/
def breaksTransfer (t : Transfer) (partialBytes : Nat) : Bool :=
  match t with
  | .header => partialBytes != 0
  | .body _ _ => true
  | .readBoundary => partialBytes != 0
  | .readEntry => true
  | .readFiller => true
  | _ => false

/-- A rise of CS (R176). -/
def execCsRise (p : Port) (partialBytes : Nat) (s : State) : Host.Outcome State Fault Refusal :=
  .next (if powered p s then
      if breaksTransfer (s.port p).transfer partialBytes then onPort p breakTransfer s else setTransfer p .idle s
    else s)

/-! ## READ transfers (R182) -/

/-- The first byte of the head entry is sent: the entry is chosen, and excluded from replacement (R181, R182). -/
def execEntryFirstByteSent (p : Port) (s : State) : Host.Outcome State Fault Refusal :=
  .next (if powered p s && (s.port p).transfer == .readBoundary && !(s.port p).queue.isEmpty then
      onPort p (fun u => { u with transfer := .readEntry, headStarted := true }) s
    else s)

/-- The last byte of an entry is sent: the entry leaves the queue; the filler of a removed entry only ends (R182, R184). -/
def execPacketSent (p : Port) (s : State) : Host.Outcome State Fault Refusal :=
  .next (if powered p s then
      match (s.port p).transfer with
      | .readEntry =>
        onPort p (fun u => { u with transfer := .readBoundary, queue := u.queue.tail, headStarted := false }) s
      | .readFiller => setTransfer p .readBoundary s
      | _ => s
    else s)

end Sys2Proof.Machine
end

