-- ==== Sys2Proof/Machine/Measure.lean ====
section
/-! DEFINITION. The monitor's requests and its sequence (chapter 7): MONITOR_TEST, MONITOR_CONFIG, MONITOR_STATUS and the
conversion sequence at the end of a period. -/

namespace Sys2Proof.Machine

/-! ## MONITOR_TEST and MONITOR_CONFIG (R130, R131) -/

/-- A value lies in a range. -/
def inRange (r : Int × Int) (v : Int) : Bool := decide (r.1 ≤ v ∧ v ≤ r.2)

/-- MONITOR_TEST (R130). -/
def monitorTest (p : Port) (a : MonitorTestArgs) (s : State) : State :=
  match channelOf a.channel with
  | none => refuse p .badValue s
  | some c =>
    if inRange (channelRange c) a.value then
      s |> setChannel c { s.monitor.get c with pendingTest := some a.value } |> respond p .ok []
    else refuse p .badValue s

/-- MONITOR_TEST (R130). -/
def execMonitorTest (p : Port) (m : Msg) (s : State) : Host.Outcome State Fault Refusal :=
  .next (takeRequest p .monitorTest m readMonitorTest (monitorTest p) s)

/-- Limits that MONITOR_CONFIG accepts; those of AMB are not examined (R131). -/
def goodLimits (c : Channel) (a : MonitorConfigArgs) : Bool :=
  !hasLimits c || (inRange (channelRange c) a.low && inRange (channelRange c) a.high && decide (a.low ≤ a.high))

/-- The channel after an accepted MONITOR_CONFIG (R131). -/
def configured (c : Channel) (a : MonitorConfigArgs) (x : ChannelState) : ChannelState :=
  let x1 := { x with gain := a.gain, offset := a.offset }
  if hasLimits c then
    { x1 with low := a.low, high := a.high, run := if a.low = x.low ∧ a.high = x.high then x.run else 0 }
  else x1

/-- MONITOR_CONFIG (R131). -/
def monitorConfig (p : Port) (a : MonitorConfigArgs) (s : State) : State :=
  match channelOf a.channel with
  | none => refuse p .badValue s
  | some c =>
    if goodLimits c a then s |> setChannel c (configured c a (s.monitor.get c)) |> respond p .ok []
    else refuse p .badValue s

/-- MONITOR_CONFIG (R131). -/
def execMonitorConfig (p : Port) (m : Msg) (s : State) : Host.Outcome State Fault Refusal :=
  .next (takeRequest p .monitorConfig m readMonitorConfig (monitorConfig p) s)

/-! ## MONITOR_STATUS (R132) -/

/-- One channel's part of the report (R132). -/
def channelReport (x : ChannelState) : List Byte :=
  encOptionalS32 x.last ++ encFlag x.test ++ encU16 x.raw ++ encFlag x.fault ++ encU8 x.run ++ encU16 x.gain
    ++ encS32 x.offset ++ encS32 x.low ++ encS32 x.high ++ encOptionalS32 x.pendingTest

/-- The report of MONITOR_STATUS (R132). -/
def monitorStatusData (m : Monitor) : List Byte :=
  encU32 m.period ++ encU32 m.elapsed ++ allChannels.flatMap (fun c => channelReport (m.get c)) ++ encFlag (monitorAsks m)

/-- MONITOR_STATUS (R132). -/
def execMonitorStatus (p : Port) (m : Msg) (s : State) : Host.Outcome State Fault Refusal :=
  .next (takeRequest p .monitorStatus m readNothing (fun _ t => respond p .ok (monitorStatusData t.monitor) t) s)

/-! ## The conversion sequence (R124) -/

/-- The sequence at the expiry of the monitor period, its interval the length of the period that ended (R124). -/
def execConversionSequence (readings : Readings) (s : State) : Host.Outcome State Fault Refusal :=
  .next (recheckNow (sequenceWith .full readings s.monitor.period false s))

end Sys2Proof.Machine
end

