-- ==== Sys2Proof/Machine/Panel.lean ====
section
/-! DEFINITION. The panel update engine's requests and events (chapter 3): SHOW, ABORT, UPDATE_STATUS, the completion of a scan
and the frame event. -/

namespace Sys2Proof.Machine

/-! ## SHOW (R42) -/

/-- The region of a SHOW: the whole panel, or the one named, normalised (R42 check 2, R43). -/
def showRegion (b : Pool) : Option Region → Region
  | none => wholePanel b
  | some r => normalise b r

/-- A slot that SHOW accepts as its source (R42 check 4). -/
def showable (x : Slot) : Bool := x.state != .empty && !(x.state == .showing && x.releasePending)

/-- SHOW (R42). The response precedes the consideration pass (R41). -/
def showPage (p : Port) (a : ShowArgs) (s : State) : State :=
  let r := showRegion s.pool a.region
  if Config.slotCount ≤ a.slot then refuse p .badValue s
  else
    match modeOf a.mode with
    | none => refuse p .badValue s
    | some m =>
      if isEmptyRegion r then refuse p .badValue s
      else if s.platform.state = .halting then refuse p .notNow s
      else if showable (slotAt a.slot s) = false then refuse p .notReady s
      else if queueHasRoom s.engine = false then refuse p .queueFull s
      else
        s |> submit .main (onlyPort p) a.slot r m |> respond p .queued (encU16 (newId s.engine))
          |> considerationPass .full

/-- SHOW (R41 to R43). -/
def execShow (p : Port) (m : Msg) (s : State) : Host.Outcome State Fault Refusal :=
  .next (takeRequest p .showPage m readShow (fun a t => recheckNow (showPage p a t)) s)

/-! ## ABORT (R58) -/

/-- The live record with an id. -/
def liveRecord (id : Nat) (e : Engine) : Option Update := (e.queue ++ e.active).find? (fun u => u.id == id)

/-- ABORT: the response precedes the end's notices (R58). -/
def abort (p : Port) (id : Nat) (s : State) : State :=
  match liveRecord id s.engine with
  | none => refuse p .badValue s
  | some u =>
    match u.phase with
    | .pending => s |> respond p .ok [] |> endWithTag .full u .aborted
    | .scanning => s |> respond p .ok [] |> endWithTag .full u .aborted |> considerationPass .full
    | .driving => refuse p .busy s

/-- ABORT (R58). -/
def execAbort (p : Port) (m : Msg) (s : State) : Host.Outcome State Fault Refusal :=
  .next (takeRequest p .abort m readTwo (fun id t => recheckNow (abort p id t)) s)

/-! ## UPDATE_STATUS (R64) -/

/-- Insert a record in ascending id. -/
def insertById (u : Update) : List Update → List Update
  | [] => [u]
  | v :: vs => if u.id < v.id then u :: v :: vs else v :: insertById u vs

/-- One record's part of the report (R64). -/
def updateReport (u : Update) : List Byte :=
  encU16 u.id ++ encU8 u.origin.code ++ encPortSet u.requesters ++ encU8 u.source ++ encU16 u.region.x ++ encU16 u.region.y
    ++ encU16 u.region.w ++ encU16 u.region.h ++ encU8 u.mode.code ++ encU8 u.phase.code ++ encU8 (u.band.getD 0)
    ++ encFlag u.clamped ++ encU32 u.changed ++ encU8 u.frames ++ encU8 u.index ++ encCharge u.estimate
    ++ encFlag u.promoted

/-- The report of UPDATE_STATUS (R64). -/
def updateStatusData (e : Engine) : List Byte :=
  encU16 e.nextId ++ encU8 (Config.laneCount - e.active.length)
    ++ (e.queue ++ e.active.foldr insertById []).flatMap updateReport ++ e.ghosts.flatMap encU8
    ++ encU32 e.ghostLimit ++ encU32 e.frameRate

/-- UPDATE_STATUS (R64). -/
def execUpdateStatus (p : Port) (m : Msg) (s : State) : Host.Outcome State Fault Refusal :=
  .next (takeRequest p .updateStatus m readNothing (fun _ t => respond p .ok (updateStatusData t.engine) t) s)

/-! ## The end of a scan (R49 to R51) -/

/-- The record with its changed pixels counted, and promoted where R50 says so by the limit the scan started with (R49, R50,
R63). -/
def scanned (u : Update) (s : State) : Update :=
  match u.mode with
  | .full =>
    { u with
      changed := u.region.w * u.region.h
      tiles := (List.range Config.tileCount).filter (touchesTile s.pool u.region) }
  | m =>
    let pixels := changedPixels s m u.source u.region
    let tiles := tilesOf s.pool pixels
    if m = .partially ∧ tiles.any (fun t => decide (u.ghostLimit ≤ s.engine.ghosts.getD t 0)) = true then
      { u with mode := .full, promoted := true, changed := u.region.w * u.region.h, tiles := tiles }
    else { u with changed := pixels.length, tiles := tiles }

/-- The record with its frame count and estimate (R51 steps 1 and 2). -/
def estimated (u : Update) (s : State) : Update :=
  let n := tableFrames s.wave u.mode (u.band.getD 0)
  { u with frames := n, estimate := updateEstimate s.charge.params n u.changed }

/-- The active record with an id replaced. -/
def replaceActive (u : Update) (e : Engine) : Engine :=
  { e with active := e.active.map (fun v => if v.id == u.id then u else v) }

/-- An active update ends and the pass that its lane brings follows (R54, R45). -/
def endActive (u : Update) (r : UpdateResult) (s : State) : State :=
  s |> endWithTag .full u r |> considerationPass .full

/-- The grant (R51 step 3). -/
def grantScan (u : Update) (s : State) : State :=
  if grantsUpdate s.charge u.origin u.estimate then
    s |> onEngine (replaceActive { u with phase := .driving, index := 0 }) |> placeUpdate .full u.id u.estimate
  else endActive u .lowCharge s

/-- The scan of a SCANNING record completes (R49 to R51). -/
def finishScan (u : Update) (s : State) : State :=
  let v := scanned u s
  if v.mode ≠ .full ∧ v.changed = 0 then endActive v .noChange s else grantScan (estimated v s) s

/-- The completion of the scan of the update with this id; an id that is not SCANNING has no scan to complete. -/
def execScanComplete (id : Nat) (s : State) : Host.Outcome State Fault Refusal :=
  .next (match s.engine.active.find? (fun u => u.id == id && u.phase == .scanning) with
    | some u => recheckNow (finishScan u s)
    | none => s)

/-! ## The frame event (R52, R53, R60) -/

/-- The updates that drive. -/
def drivingUpdates (e : Engine) : List Update := e.active.filter (fun u => u.phase == .driving)

/-- What one update sends in a frame (R53 step 1). -/
def driveOf (u : Update) (s : State) : BusDrive :=
  { id := u.id, region := u.region,
    symbols := (regionPixels u.region).map (fun q =>
      stringSymbol s.wave u.mode (u.band.getD 0) (panelPixel s q.1 q.2) (targetPixel s u.mode u.source q.1 q.2) u.index) }

/-- One frame driven: the bus carries it and every DRIVING record's f advances (R53 steps 1 and 2). -/
def driveFrame (s : State) : State :=
  onEngine (fun e => { e with
    bus := (drivingUpdates e).map (fun u => driveOf u s)
    active := e.active.map (fun u => if u.phase == .driving then { u with index := u.index + 1 } else u) }) s

/-- Several active updates end at one frame event, and one pass follows if any did (R53, R60, R45). -/
def endAll (us : List Update) (r : UpdateResult) (s : State) : State :=
  if us.isEmpty then s else considerationPass .full (us.foldl (fun t u => endWithTag .full u r t) s)

/-- The next frame period starts (R52). -/
def restartFrameTimer (s : State) : State :=
  onEngine (fun e => { e with frameTimer := some (framePeriod e.frameRate) }) s

/-- A frame event with the timer running (R53, R60). -/
def frameEvent (s : State) : State :=
  let s1 := restartFrameTimer s
  if s.monitor.panv.fault then
    s1 |> onEngine (fun e => { e with bus := [] }) |> endAll (drivingUpdates s1.engine) .supplyFault
  else
    let s2 := driveFrame s1
    endAll ((drivingUpdates s2.engine).filter (fun u => decide (u.frames ≤ u.index))) .done s2

/-- The frame event; the panel frame timer gives none while it is stopped (R52). -/
def execFrameEvent (s : State) : Host.Outcome State Fault Refusal :=
  .next (if s.engine.frameTimer.isSome then recheckNow (frameEvent s) else s)

end Sys2Proof.Machine
end

