-- ==== Sys2Proof/Machine/Params.lean ====
section
/-! DEFINITION. PARAM_SET, one meaning for each parameter, and PARAM_GET (R192, section 11.8). -/

namespace Sys2Proof.Machine

/-- A PARAM_SET whose identifier is in the table is an event of that parameter's row; one that names another parameter leaves
this row without an event. An identifier outside the table is refused BAD_VALUE (R192, log entry 12). -/
def paramSet (q : Param) (p : Port) (m : Msg) (owner : Nat → State → State) (s : State) : State :=
  if ((readParamSet m.payload).bind (fun a => paramOf a.id)).any (fun r => r != q) then s
  else
    takeRequest p .paramSet m readParamSet
      (fun a t => if paramOf a.id = some q then owner a.value t else refuse p .badValue t) s

/-- An accepted value stored, the response queued; else BAD_VALUE. -/
def storeIf (p : Port) (ok : Bool) (f : State → State) (s : State) : State :=
  if ok then s |> f |> respond p .ok [] else refuse p .badValue s

/-- A value lies in a range. -/
def within (lo hi v : Nat) : Bool := decide (lo ≤ v ∧ v ≤ hi)

/-- spool_limit's checks (R7). -/
def goodSpoolLimit (v : Nat) (s : State) : Bool :=
  decide (v ≤ 939) && decide (5 * footprint s.pool + v ≤ Config.blockCount) && decide (spoolHolding s.spool ≤ v)

/-- PARAM_SET spool_limit (R7). -/
def execParamSetSpoolLimit (p : Port) (m : Msg) (s : State) : Host.Outcome State Fault Refusal :=
  .next (paramSet .spoolLimit p m
    (fun v t => storeIf p (goodSpoolLimit v t) (onPool (fun b => { b with spoolLimit := v })) t) s)

/-- A window threshold stored and answered, then a low-water evaluation (R22, R36). -/
def storeLow (p : Port) (v : Nat) (f : Window → Window) (s : State) : State :=
  if within 0 15 v then s |> onWindow f |> respond p .ok [] |> lowWater else refuse p .badValue s

/-- PARAM_SET ahead_low (R22). -/
def execParamSetAheadLow (p : Port) (m : Msg) (s : State) : Host.Outcome State Fault Refusal :=
  .next (paramSet .aheadLow p m (fun v => storeLow p v (fun w => { w with aheadLow := v })) s)

/-- PARAM_SET behind_low (R22). -/
def execParamSetBehindLow (p : Port) (m : Msg) (s : State) : Host.Outcome State Fault Refusal :=
  .next (paramSet .behindLow p m (fun v => storeLow p v (fun w => { w with behindLow := v })) s)

/-- PARAM_SET turn_mode (R22). -/
def execParamSetTurnMode (p : Port) (m : Msg) (s : State) : Host.Outcome State Fault Refusal :=
  .next (paramSet .turnMode p m
    (fun v => storeIf p (modeOf v).isSome (onWindow (fun w => { w with turnMode := (modeOf v).getD w.turnMode }))) s)

/-- PARAM_SET ghost_limit, for the scans that start after it (R63). -/
def execParamSetGhostLimit (p : Port) (m : Msg) (s : State) : Host.Outcome State Fault Refusal :=
  .next (paramSet .ghostLimit p m (fun v => storeIf p (within 1 63 v) (onEngine (fun e => { e with ghostLimit := v }))) s)

/-- PARAM_SET frame_rate, applied from the next frame event on (R63, R52). -/
def execParamSetFrameRate (p : Port) (m : Msg) (s : State) : Host.Outcome State Fault Refusal :=
  .next (paramSet .frameRate p m (fun v => storeIf p (within 50 85 v) (onEngine (fun e => { e with frameRate := v }))) s)

/-- The table with a new scrub period: a timer in WAITING restarts with it (R77). -/
def withScrubPeriod (v : Nat) (w : WaveTable) : WaveTable :=
  { w with scrubPeriod := v, scrubTimer := if w.scrub = .waiting then some (v * 1000) else w.scrubTimer }

/-- PARAM_SET scrub_period (R77). -/
def execParamSetScrubPeriod (p : Port) (m : Msg) (s : State) : Host.Outcome State Fault Refusal :=
  .next (paramSet .scrubPeriod p m (fun v => storeIf p (within 10 3600 v) (onWave (withScrubPeriod v))) s)

/-- PARAM_SET chunk_age (R103). -/
def execParamSetChunkAge (p : Port) (m : Msg) (s : State) : Host.Outcome State Fault Refusal :=
  .next (paramSet .chunkAge p m (fun v => storeIf p (within 50 5000 v) (onSpool (fun sp => { sp with chunkAge := v }))) s)

/-- PARAM_SET title_wake (R103). -/
def execParamSetTitleWake (p : Port) (m : Msg) (s : State) : Host.Outcome State Fault Refusal :=
  .next (paramSet .titleWake p m
    (fun v => storeIf p (within 0 1 v) (onSpool (fun sp => { sp with titleWake := v == 1 }))) s)

/-- PARAM_SET ramp_step: 0 is stored as 1 (R105). -/
def execParamSetRampStep (p : Port) (m : Msg) (s : State) : Host.Outcome State Fault Refusal :=
  .next (paramSet .rampStep p m
    (fun v => storeIf p (within 0 1023 v) (onLight (fun l => { l with rampStep := max v 1 }))) s)

/-- PARAM_SET auto_deadband (R105). -/
def execParamSetAutoDeadband (p : Port) (m : Msg) (s : State) : Host.Outcome State Fault Refusal :=
  .next (paramSet .autoDeadband p m
    (fun v => storeIf p (within 0 1023 v) (onLight (fun l => { l with autoDeadband := v }))) s)

/-- PARAM_SET pwm_frequency, applied at the cool output's next period start (R105, R120). -/
def execParamSetPwmFrequency (p : Port) (m : Msg) (s : State) : Host.Outcome State Fault Refusal :=
  .next (paramSet .pwmFrequency p m
    (fun v => storeIf p (within 1000 20000 v) (onLight (fun l => { l with pwmFrequency := v, pwmPending := true }))) s)

/-- PARAM_SET polarity_cool, in effect at once (R105, R120). -/
def execParamSetPolarityCool (p : Port) (m : Msg) (s : State) : Host.Outcome State Fault Refusal :=
  .next (paramSet .polarityCool p m
    (fun v => storeIf p (polarityOf v).isSome
      (onLight (fun l => { l with polarityCool := (polarityOf v).getD l.polarityCool }))) s)

/-- PARAM_SET polarity_warm, in effect at once (R105, R120). -/
def execParamSetPolarityWarm (p : Port) (m : Msg) (s : State) : Host.Outcome State Fault Refusal :=
  .next (paramSet .polarityWarm p m
    (fun v => storeIf p (polarityOf v).isSome
      (onLight (fun l => { l with polarityWarm := (polarityOf v).getD l.polarityWarm }))) s)

/-- PARAM_SET sleep_delay, for the idle timer's next start (R157). -/
def execParamSetSleepDelay (p : Port) (m : Msg) (s : State) : Host.Outcome State Fault Refusal :=
  .next (paramSet .sleepDelay p m
    (fun v => storeIf p (within 5 3600 v) (onPlatform (fun f => { f with sleepDelay := v }))) s)

/-- link_error_threshold stored and answered, then the link test of each port (R187); the order main, standby, radio is the model's
choice (log entry 31). -/
def storeThreshold (p : Port) (v : Nat) (s : State) : State :=
  if within 1 65535 v then
    s.withThreshold v |> respond p .ok [] |> linkTest .main |> linkTest .standby |> linkTest .radio
  else refuse p .badValue s

/-- PARAM_SET link_error_threshold (R187). -/
def execParamSetLinkErrorThreshold (p : Port) (m : Msg) (s : State) : Host.Outcome State Fault Refusal :=
  .next (paramSet .linkErrorThreshold p m (storeThreshold p) s)

/-- The value PARAM_GET reports (R192). -/
def paramValue (s : State) : Param → Nat
  | .spoolLimit => s.pool.spoolLimit
  | .aheadLow => s.window.aheadLow
  | .behindLow => s.window.behindLow
  | .turnMode => s.window.turnMode.code
  | .ghostLimit => s.engine.ghostLimit
  | .frameRate => s.engine.frameRate
  | .scrubPeriod => s.wave.scrubPeriod
  | .chunkAge => s.spool.chunkAge
  | .titleWake => if s.spool.titleWake then 1 else 0
  | .rampStep => s.light.rampStep
  | .autoDeadband => s.light.autoDeadband
  | .pwmFrequency => s.light.pwmFrequency
  | .polarityCool => s.light.polarityCool.code
  | .polarityWarm => s.light.polarityWarm.code
  | .sleepDelay => s.platform.sleepDelay
  | .linkErrorThreshold => s.linkThreshold

/-- PARAM_GET (R192). -/
def paramGet (p : Port) (i : Nat) (s : State) : State :=
  match paramOf i with
  | none => refuse p .badValue s
  | some q => respond p .ok (encU8 i ++ encU32 (paramValue s q)) s

/-- PARAM_GET (R192). -/
def execParamGet (p : Port) (m : Msg) (s : State) : Host.Outcome State Fault Refusal :=
  .next (takeRequest p .paramGet m readOne (paramGet p) s)

end Sys2Proof.Machine
end

