-- ==== Sys2Proof/Machine/Download.lean ====
section
/-! DEFINITION. The download spool's requests and events (chapter 5): CHUNK_BEGIN and CHUNK_MORE, the end of a verification,
the expiry of the chunk aging timer, and the title and statistics requests. -/

namespace Sys2Proof.Machine

/-! ## The prefix step (R85, R86, R191) -/

/-- The form codes of a prefix (section 11.6). -/
def openingForm : Nat := 1
def resumingForm : Nat := 2
def bareForm : Nat := 3

/-- A prefix that the spool cannot decode (R191). -/
def badPrefix (a : ChunkBeginArgs) : Bool :=
  a.form == 0 || (a.crcPresent && a.form != openingForm) || a.upper != 0

/-- A fresh RECEIVING title with the values of an OPENING prefix (R85). -/
def freshTitle (a : ChunkBeginArgs) (policy : Policy) : Title :=
  { id := a.title, state := .receiving, failCause := none, total := if a.total = 0 then none else some a.total,
    crc := if a.crcPresent then some a.crc else none, policy := policy, received := 0, blocks := [], misfits := 0,
    lastChunk := none }

/-- A restart of a title in its own entry (R85 step 3). -/
def restartTitle (i : Nat) (a : ChunkBeginArgs) (policy : Policy) (t : Title) (s : State) : State :=
  s |> returnBlocks t.blocks |> setTitle i (some (freshTitle a policy))
    |> onSpool (fun sp => { sp with bare := if sp.bare = some i then none else sp.bare })

/-- What the prefix step answers: the refusal, or the chunk's title entry. -/
inductive PrefixVerdict where
  | refused (r : Result)
  | title (entry : Nat)
deriving DecidableEq, Repr

/-- An OPENING prefix (R85). -/
def openingStep (a : ChunkBeginArgs) (s : State) : State × PrefixVerdict :=
  match policyOf a.policy with
  | none => (s, .refused .badValue)
  | some policy =>
    if a.title = 0 ∨ a.offset ≠ 0 ∨ s.pool.spoolLimit * Config.blockSize < a.total then (s, .refused .badValue)
    else
      match findTitle a.title s with
      | some i =>
        match titleAt i s with
        | some t =>
          if t.state = .verifying ∨ t.state = .complete then (s, .refused .duplicate)
          else (restartTitle i a policy t s, .title i)
        | none => (s, .refused .noTitle)
      | none =>
        match freeEntry s with
        | none => (s, .refused .titleTableFull)
        | some i => (setTitle i (some (freshTitle a policy)) s, .title i)

/-- The entry holds a RECEIVING title. -/
def isReceiving (i : Nat) (s : State) : Bool := (titleAt i s).any (fun t => t.state == .receiving)

/-- A RESUMING prefix (R86). -/
def resumingStep (a : ChunkBeginArgs) (s : State) : PrefixVerdict :=
  if a.title = 0 then .refused .badValue
  else
    match findTitle a.title s with
    | some i => if isReceiving i s then .title i else .refused .noTitle
    | none => .refused .noTitle

/-- A BARE prefix (R86). -/
def bareStep (s : State) : PrefixVerdict :=
  match s.spool.bare with
  | some i => if isReceiving i s then .title i else .refused .noTitle
  | none => .refused .noTitle

/-- The prefix step (R85, R86, R191). -/
def prefixStep (a : ChunkBeginArgs) (s : State) : State × PrefixVerdict :=
  if badPrefix a then (s, .refused .badValue)
  else if a.form = openingForm then openingStep a s
  else if a.form = resumingForm then (s, resumingStep a s)
  else (s, bareStep s)

/-! ## The later steps of CHUNK_BEGIN (R87 to R91) -/

/-- A misfit: the counts, the response, and under STRICT the failed title with its notices (R87). -/
def misfit (p : Port) (i : Nat) (t : Title) (s : State) : State :=
  let s1 := s |> setTitle i (some { t with misfits := min (t.misfits + 1) 65535 })
    |> countStat (fun c => { c with misfit := saturatingSucc c.misfit })
    |> respond p .misfit (encWord t.id ++ encU32 t.received)
  match t.policy with
  | .lenient => s1
  | .strict => failTitle i .misfit s1

/-- The length step refuses (R88). -/
def badChunkLength (a : ChunkBeginArgs) (t : Title) : Bool :=
  decide (a.declared < 1 ∨ 4096 < a.declared) || decide (a.declared < a.data.length)
    || (match t.total with
        | some total => decide (total < t.received + a.declared) || (a.last && t.received + a.declared != total)
        | none => false)

/-- The blocks a chunk needs (R89). -/
def neededBlocks (a : ChunkBeginArgs) (t : Title) : Nat := blocksFor (t.received + a.declared) - t.blocks.length

/-- The blocks step passes (R89). -/
def blocksPass (n : Nat) (s : State) : Bool :=
  decide (spoolHolding s.spool + n ≤ s.pool.spoolLimit) && decide (n ≤ s.pool.free.length)

/-- The refusal SPOOL_FULL, then its notices (R89). -/
def refuseFull (p : Port) (t : Title) (n : Nat) (s : State) : State :=
  let note : Notice := .spoolFull t.id n (spoolHolding s.spool) s.pool.spoolLimit s.pool.free.length
  s |> countStat (fun c => { c with full := saturatingSucc c.full }) |> refuse p .spoolFull |> offerTo .radio note
    |> offerMain false note

/-- The needed blocks go to the end of the title's list (R89). -/
def takeTitleBlocks (i : Nat) (t : Title) (n : Nat) (s : State) : State :=
  s |> takeFree n |> setTitle i (some { t with blocks := t.blocks ++ headBlocks n s })

/-- A refusal HELD: the blocks taken for the chunk go back (R90). -/
def refuseHeld (p : Port) (i : Nat) (s : State) : State :=
  s |> trimTitle i |> countStat (fun c => { c with held := saturatingSucc c.held }) |> refuse p .held

/-- The assembly that a chunk opens (R91). -/
def openedAssembly (a : ChunkBeginArgs) (i : Nat) (t : Title) (cost age : Nat) : Assembly :=
  { entry := i, offset := t.received, declared := a.declared, collected := a.data.length, last := a.last, cost := cost,
    ageLeft := age }

/-- Data bytes written into a title's blocks (R83). -/
def writeTitle (i : Nat) (start : Nat) (bs : List Byte) (s : State) : State :=
  match titleAt i s with
  | some t => s.withDram (writeOwner s.dram t.blocks start bs)
  | none => s

/-- The open assembly has collected its declared length: the chunk ends; else the response `data` (R91, R92). -/
def endIfCollected (p : Port) (data : Assembly → List Byte) (s : State) : State :=
  match s.spool.assembly with
  | some a => if a.collected = a.declared then endChunk .full p a s else respond p .ok (data a) s
  | none => s

/-- The opening of the assembly (R91). -/
def openAssembly (p : Port) (a : ChunkBeginArgs) (i : Nat) (t : Title) (s : State) : State :=
  let cost := chunkCost s.charge.params a.declared
  s |> onSpool (fun sp => { sp with assembly := some (openedAssembly a i t cost sp.chunkAge), bare := some i })
    |> writeTitle i t.received a.data
    |> placeChunk .full cost
    |> endIfCollected p (fun x => encWord t.id ++ encU32 x.offset ++ encU32 x.collected)

/-- The hold and charge step, and the opening (R90, R91). -/
def chargeStep (p : Port) (a : ChunkBeginArgs) (i : Nat) (t : Title) (s : State) : State :=
  let cost := chunkCost s.charge.params a.declared
  if s.spool.held then refuseHeld p i s
  else if grantsChunk s.charge cost then openAssembly p a i t s
  else
    s |> refuseHeld p i |> onSpool (fun sp => { sp with held := true }) |> offerTo .radio (.radioHold t.id cost)

/-- The misfit, length and blocks steps (R87 to R89). -/
def chunkSteps (p : Port) (a : ChunkBeginArgs) (i : Nat) (t : Title) (s : State) : State :=
  if a.form = resumingForm ∧ a.offset ≠ t.received then misfit p i t s
  else if badChunkLength a t then
    s |> countStat (fun c => { c with length := saturatingSucc c.length }) |> refuse p .badLength
  else if blocksPass (neededBlocks a t) s = false then refuseFull p t (neededBlocks a t) s
  else s |> takeTitleBlocks i t (neededBlocks a t) |> chargeStep p a i t

/-- CHUNK_BEGIN (R84 to R91). -/
def chunkBegin (p : Port) (a : ChunkBeginArgs) (s : State) : State :=
  let s1 := dropAssembly .full .abandoned true s
  if s1.platform.sleepPending.isSome ∨ s1.platform.state = .halting then refuse p .notNow s1
  else
    match prefixStep a s1 with
    | (s2, .refused r) => refuse p r s2
    | (s2, .title i) =>
      match titleAt i s2 with
      | some t => chunkSteps p a i t s2
      | none => refuse p .noTitle s2

/-- CHUNK_BEGIN (R84 to R91). -/
def execChunkBegin (p : Port) (m : Msg) (s : State) : Host.Outcome State Fault Refusal :=
  .next (takeRequest p .chunkBegin m readChunkBegin (fun a t => recheckNow (chunkBegin p a t)) s)

/-! ## CHUNK_MORE (R92) -/

/-- CHUNK_MORE (R92). -/
def chunkMore (p : Port) (bs : List Byte) (s : State) : State :=
  match s.spool.assembly with
  | none => refuse p .sequence s
  | some a =>
    if a.declared < a.collected + bs.length then
      s |> closeAssembly .full |> countStat (fun c => { c with length := saturatingSucc c.length }) |> refuse p .badLength
    else
      s |> writeTitle a.entry (a.offset + a.collected) bs
        |> onSpool (fun sp => { sp with assembly := some { a with collected := a.collected + bs.length } })
        |> endIfCollected p (fun x => encU32 x.collected)

/-- CHUNK_MORE (R92, R93). R159 makes the sleep check at the drop of an assembly and cites other rules than R92; that the drop by an
over-length CHUNK_MORE makes it too is the model's reading (log entry 16). -/
def execChunkMore (p : Port) (m : Msg) (s : State) : Host.Outcome State Fault Refusal :=
  .next (takeRequest p .chunkMore m readChunkMore (fun bs t => recheckNow (chunkMore p bs t)) s)

/-! ## Verification and aging (R95, R96) -/

/-- The end of the verification of the head of the list (R95). -/
def verificationEnd (i : Nat) (s : State) : State :=
  let s1 := onSpool (fun sp => { sp with verifying := sp.verifying.tail }) s
  match titleAt i s with
  | some t =>
    if t.crc = some (crc32 (titleBytes s t 0 t.received)) then completeTitle i s1 else failTitle i .crc s1
  | none => s1

/-- The end of a verification; an empty list has none in progress (R95). -/
def execVerificationEnd (s : State) : Host.Outcome State Fault Refusal :=
  .next (match s.spool.verifying with
    | i :: _ => recheckNow (verificationEnd i s)
    | [] => s)

/-- The expiry of the chunk aging timer, which runs while an assembly is open (R96). -/
def execChunkAgingExpiry (s : State) : Host.Outcome State Fault Refusal :=
  .next (if s.spool.assembly.isSome then recheckNow (dropAssembly .full .aged true s) else s)

/-! ## Title requests (R99 to R101) -/

/-- TITLE_READ with the DRAM out of self-refresh (R99). -/
def titleReadNow (p : Port) (a : TitleReadArgs) (s : State) : State :=
  if a.title = 0 ∨ a.length < 1 ∨ 1020 < a.length then refuse p .badValue s
  else
    match (findTitle a.title s).bind (fun i => titleAt i s) with
    | none => refuse p .noTitle s
    | some t =>
      if t.received < a.offset + a.length then refuse p .badValue s
      else respond p .ok (titleBytes s t a.offset a.length) s

/-- TITLE_READ: while the DRAM has not left self-refresh it stays in process (R4, R99). -/
def titleRead (p : Port) (a : TitleReadArgs) (s : State) : State := if dramAsleep s then s else titleReadNow p a s

/-- TITLE_READ (R99). -/
def execTitleRead (p : Port) (m : Msg) (s : State) : Host.Outcome State Fault Refusal :=
  .next (takeRequest p .titleRead m readTitleRead (titleRead p) s)

/-- Step 1 of TITLE_RELEASE: an open assembly on the title is dropped (R100). -/
def dropOnTitle (i : Nat) (s : State) : State :=
  if s.spool.assembly.any (fun a => a.entry == i) then dropAssembly .full .released true s else s

/-- Steps 2 to 5 of TITLE_RELEASE (R100). -/
def freeTitle (i : Nat) (s : State) : State :=
  s |> onSpool (fun sp => { sp with verifying := sp.verifying.filter (fun j => j != i) })
    |> returnBlocks (((titleAt i s).map (·.blocks)).getD [])
    |> setTitle i none
    |> onSpool (fun sp => { sp with bare := if sp.bare = some i then none else sp.bare })

/-- TITLE_RELEASE (R100). -/
def titleRelease (p : Port) (id : Word32) (s : State) : State :=
  if id = 0 then refuse p .badValue s
  else
    match findTitle id s with
    | none => refuse p .noTitle s
    | some i => s |> dropOnTitle i |> freeTitle i |> respond p .ok []

/-- TITLE_RELEASE (R100). -/
def execTitleRelease (p : Port) (m : Msg) (s : State) : Host.Outcome State Fault Refusal :=
  .next (takeRequest p .titleRelease m readWord (fun id t => recheckNow (titleRelease p id t)) s)

/-- A title's fields in TITLE_LIST; a free entry reports them as zero (R101). -/
def titleReport : Option Title → List Byte
  | none => encFlag false ++ List.replicate 32 0#8
  | some t =>
    encFlag true ++ encWord t.id ++ encU8 t.state.code ++ encU8 ((t.failCause.map FailCause.code).getD 0)
      ++ encU32 (t.total.getD 0) ++ encWord (t.crc.getD 0) ++ encFlag t.crc.isSome ++ encU8 t.policy.code
      ++ encU32 t.received ++ encU32 t.blocks.length ++ encU32 t.misfits ++ encU32 (t.lastChunk.getD 0)

/-- The open assembly's fields in TITLE_LIST (R101). -/
def assemblyReport (s : State) : List Byte :=
  match s.spool.assembly with
  | some a =>
    encWord (((titleAt a.entry s).map (·.id)).getD 0) ++ encU32 a.offset ++ encU32 a.declared ++ encU32 a.collected
      ++ encFlag a.last ++ encCharge a.cost
  | none => List.replicate 25 0#8

/-- The report of TITLE_LIST (R101). Section 11.2 gives a title table entry number no size: one byte for each member of the
verification list is the model's choice (log entry 11). -/
def titleListData (s : State) : List Byte :=
  s.spool.titles.flatMap titleReport ++ assemblyReport s ++ encFlag s.spool.held ++ s.spool.verifying.flatMap encU8
    ++ encU32 (spoolHolding s.spool) ++ encU32 s.pool.spoolLimit

/-- TITLE_LIST (R101). -/
def execTitleList (p : Port) (m : Msg) (s : State) : Host.Outcome State Fault Refusal :=
  .next (takeRequest p .titleList m readNothing (fun _ t => respond p .ok (titleListData t) t) s)

/-- The report of TITLE_QUERY (R101). -/
def titleQueryData (t : Title) (held : Bool) : List Byte :=
  encU8 t.state.code ++ encU8 ((t.failCause.map FailCause.code).getD 0) ++ encU32 t.received ++ encFlag held

/-- TITLE_QUERY (R101). -/
def titleQuery (p : Port) (id : Word32) (s : State) : State :=
  if id = 0 then refuse p .badValue s
  else
    match (findTitle id s).bind (fun i => titleAt i s) with
    | none => refuse p .noTitle s
    | some t => respond p .ok (titleQueryData t s.spool.held) s

/-- TITLE_QUERY (R101). -/
def execTitleQuery (p : Port) (m : Msg) (s : State) : Host.Outcome State Fault Refusal :=
  .next (takeRequest p .titleQuery m readWord (titleQuery p) s)

/-! ## Statistics (R102) -/

/-- The nine counters in the order of R102's table. -/
def spoolStatsData (c : SpoolCounters) : List Byte :=
  [c.small, c.medium, c.large, c.misfit, c.aged, c.abandoned, c.held, c.full, c.length].flatMap encU32

/-- SPOOL_STATS (R102). -/
def execSpoolStats (p : Port) (m : Msg) (s : State) : Host.Outcome State Fault Refusal :=
  .next (takeRequest p .spoolStats m readNothing (fun _ t => respond p .ok (spoolStatsData t.spool.stats) t) s)

/-- SPOOL_STATS_CLEAR (R102). -/
def execSpoolStatsClear (p : Port) (m : Msg) (s : State) : Host.Outcome State Fault Refusal :=
  .next (takeRequest p .spoolStatsClear m readNothing
    (fun _ t => t |> countStat (fun _ => .zero) |> respond p .ok []) s)

end Sys2Proof.Machine
end

