-- ==== Sys2Proof/Machine/PageStore.lean ====
section
/-! DEFINITION. The page requests and GEOMETRY_SET (chapter 1): PAGE_OPEN with eviction, PAGE_DATA, PAGE_CLOSE, PAGE_RELEASE,
PAGE_PIN, PAGE_UNPIN, PAGE_STATUS. Each request is an owner's decision on its fields, and one meaning over `takeRequest`. -/

namespace Sys2Proof.Machine

/-! ## PAGE_OPEN (R12, R13) -/

/-- The slot number that stands for ANY (section 11.2). -/
def anySlot : Nat := 0xFF

/-- The lowest-numbered EMPTY slot (R12). -/
def lowestEmpty (s : State) : Option Nat :=
  (List.range Config.slotCount).find? (fun i => (slotAt i s).state == .empty)

/-- A slot that an eviction may take (R13). -/
def evictable (i : Nat) (s : State) : Bool :=
  (slotAt i s).state == .ready && !s.window.entries.contains i && !hasRole (slotAt i s)

/-- The slots an eviction would take, oldest first; none where it cannot make room (R13 steps 1 to 3). -/
def evictionOf (s : State) : Option (List Nat) :=
  let order := (stampedSlots s).filter (fun i => evictable i s)
  let f := footprint s.pool
  ((List.range (order.length + 1)).find? (fun n => decide (f ≤ s.pool.free.length + f * n))).map order.take

/-- Step 4 of R13 for one slot: EMPTY, its blocks returned, the window told (R29). -/
def evictOne (i : Nat) (s : State) : State := s |> emptySlot i |> onWindow (forgetShown i)

/-- Steps 4 to 6 of R13: every chosen slot evicted, then the notices, then the entries that lost their source. -/
def evict (k : Hooks) (slots : List Nat) (s : State) : State :=
  let tagged := slots.map (fun i => (i, (slotAt i s).tag))
  let s1 := slots.foldl (fun t i => evictOne i t) s
  let s2 := tagged.foldl (fun t q => offerMain false (.pageEvicted q.1 q.2) t) s1
  tagged.foldl (fun t q => sourceGone k q.1 q.2 t) s2

/-- A slot as a fill begins (R12 steps 3 and 4). -/
def fillSlot (blocks : List Nat) (tag : Word32) (f : Format) : Slot :=
  { Slot.reset with state := .filling, blocks := blocks, tag := tag, format := some f }

/-- Blocks from the head of the free list, and the slot FILLING (R12 step 4). -/
def beginFill (i : Nat) (tag : Word32) (f : Format) (s : State) : State :=
  let n := footprint s.pool
  s |> takeFree n |> setSlot i (fillSlot (headBlocks n s) tag f)

/-- A new fill, with eviction where the free blocks are too few (R12 step 4). -/
def newFill (p : Port) (i : Nat) (tag : Word32) (f : Format) (s : State) : State :=
  if footprint s.pool ≤ s.pool.free.length then s |> beginFill i tag f |> respond p .ok (encU8 i)
  else
    match evictionOf s with
    | none => refuse p .noSpace s
    | some slots => s |> evict .full slots |> beginFill i tag f |> respond p .ok (encU8 i)

/-- A reopened slot keeps its blocks (R12 step 3); the window forgets it as the shown slot (R29). -/
def reopen (p : Port) (i : Nat) (tag : Word32) (f : Format) (s : State) : State :=
  s |> setSlot i (fillSlot (slotAt i s).blocks tag f) |> onWindow (forgetShown i) |> respond p .ok (encU8 i)

/-- PAGE_OPEN (R12). -/
def pageOpen (p : Port) (a : PageOpenArgs) (s : State) : State :=
  match formatOf a.format with
  | none => refuse p .badValue s
  | some f =>
    if a.slot = anySlot then
      match lowestEmpty s with
      | none => refuse p .noSlot s
      | some i => newFill p i a.tag f s
    else if Config.slotCount ≤ a.slot then refuse p .badValue s
    else
      match (slotAt a.slot s).state with
      | .empty => newFill p a.slot a.tag f s
      | .ready =>
        if s.window.entries.contains a.slot || hasRole (slotAt a.slot s) then refuse p .busy s
        else reopen p a.slot a.tag f s
      | _ => refuse p .busy s

/-- PAGE_OPEN (R12, R13). -/
def execPageOpen (p : Port) (m : Msg) (s : State) : Host.Outcome State Fault Refusal :=
  .next (takeRequest p .pageOpen m readPageOpen (fun a t => recheckNow (pageOpen p a t)) s)

/-! ## PAGE_DATA (R14) -/

/-- The slot after an accepted PAGE_DATA (R14). -/
def filledSlot (x : Slot) (f : Format) (data : List Byte) : Slot :=
  { x with fill := x.fill + pixelCount f data, crc := crc32From x.crc data }

/-- PAGE_DATA with the DRAM out of self-refresh (R14). -/
def pageDataNow (p : Port) (a : SlotBytes) (s : State) : State :=
  let x := slotAt a.slot s
  if Config.slotCount ≤ a.slot then refuse p .badValue s
  else
    match x.state, x.format with
    | .filling, some f =>
      if isRunLength f && a.data.length % 2 == 1 then refuse p .badLength s
      else if pageSize s.pool < x.fill + pixelCount f a.data then refuse p .badLength s
      else
        s |> setSlot a.slot (filledSlot x f a.data)
          |> (fun t => t.withDram (writePixels t.dram x.blocks x.fill (unpack f a.data)))
          |> respond p .ok (encU32 (x.fill + pixelCount f a.data))
    | _, _ => refuse p .notReady s

/-- PAGE_DATA: while the DRAM has not left self-refresh it stays in process (R4). -/
def pageData (p : Port) (a : SlotBytes) (s : State) : State := if dramAsleep s then s else pageDataNow p a s

/-- PAGE_DATA (R14, R4). -/
def execPageData (p : Port) (m : Msg) (s : State) : Host.Outcome State Fault Refusal :=
  .next (takeRequest p .pageData m readPageData (pageData p) s)

/-! ## PAGE_CLOSE (R15) -/

/-- The fill is complete and its CRC matches (R15). -/
def closesWell (x : Slot) (crc : Word32) (b : Pool) : Bool := x.fill == pageSize b && x.crc == crc

/-- A slot made READY by PAGE_CLOSE (R15). -/
def readySlot (x : Slot) : Slot := { x with state := .ready, format := none, fill := 0, crc := 0 }

/-- PAGE_CLOSE (R15). -/
def pageClose (p : Port) (a : SlotWord) (s : State) : State :=
  let x := slotAt a.slot s
  if Config.slotCount ≤ a.slot then refuse p .badValue s
  else if x.state ≠ .filling then refuse p .notReady s
  else if closesWell x a.word s.pool then
    s |> setSlot a.slot (readySlot x) |> takeStamp a.slot |> respond p .ok [] |> considerationPass .full
  else s |> emptySlot a.slot |> refuse p .badImage |> sourceGone .full a.slot x.tag

/-- PAGE_CLOSE (R15). -/
def execPageClose (p : Port) (m : Msg) (s : State) : Host.Outcome State Fault Refusal :=
  .next (takeRequest p .pageClose m readPageClose (fun a t => recheckNow (pageClose p a t)) s)

/-! ## PAGE_RELEASE (R16) -/

/-- A release that changes a slot: the window is told, `f` changes the slot, then every PENDING entry of the slot ends
SOURCE_GONE (R16, R29, R59). R29 allows a cursor entry's removal and the end of its own pending turn in either order; that the
removal and its low-water evaluation come first, and the evaluation of the turn-failure rule after it, is the model's choice (log
entry 10). -/
def releaseSlot (i : Nat) (f : State → State) (s : State) : State :=
  s |> windowRelease i |> f |> sourceGone .full i (slotAt i s).tag

/-- PAGE_RELEASE (R16). -/
def pageRelease (p : Port) (i : Nat) (s : State) : State :=
  let x := slotAt i s
  if Config.slotCount ≤ i then refuse p .badValue s
  else if x.state = .empty then respond p .ok [] s
  else if hasRole x then refuse p .busy s
  else
    match x.state with
    | .showing =>
      if x.releasePending then respond p .ok [] s
      else s |> releaseSlot i (setSlot i { x with releasePending := true }) |> respond p .ok []
    | _ => s |> releaseSlot i (emptySlot i) |> respond p .ok []

/-- PAGE_RELEASE (R16). -/
def execPageRelease (p : Port) (m : Msg) (s : State) : Host.Outcome State Fault Refusal :=
  .next (takeRequest p .pageRelease m readOne (fun i t => recheckNow (pageRelease p i t)) s)

/-! ## PAGE_PIN and PAGE_UNPIN (R18) -/

/-- A slot record with a role set or cleared. -/
def withRole (r : Role) (v : Bool) (x : Slot) : Slot :=
  match r with
  | .sleepPage => { x with sleepRole := v }
  | .shutdownPage => { x with shutdownRole := v }

/-- A slot can be pinned and unpinned (R18). -/
def pinnable (x : Slot) : Bool := (x.state == .ready || x.state == .showing) && !x.releasePending

/-- The checks that PAGE_PIN and PAGE_UNPIN share, then `f` (R18). -/
def pinRequest (p : Port) (a : Nat × Nat) (f : Role → State → State) (s : State) : State :=
  if Config.slotCount ≤ a.1 then refuse p .badValue s
  else
    match roleOf a.2 with
    | none => refuse p .badValue s
    | some r => if pinnable (slotAt a.1 s) then s |> f r |> respond p .ok [] else refuse p .notReady s

/-- The role moves to a slot from wherever it was (R18). -/
def moveRole (i : Nat) (r : Role) (s : State) : State :=
  s.withStore { s.store with slots := s.store.slots.mapIdx (fun j x => withRole r (j == i) x) }

/-- The role leaves a slot (R18). -/
def dropRole (i : Nat) (r : Role) (s : State) : State := setSlot i (withRole r false (slotAt i s)) s

/-- PAGE_PIN (R18). -/
def execPagePin (p : Port) (m : Msg) (s : State) : Host.Outcome State Fault Refusal :=
  .next (takeRequest p .pagePin m readPair (fun a => pinRequest p a (moveRole a.1)) s)

/-- PAGE_UNPIN (R18). -/
def execPageUnpin (p : Port) (m : Msg) (s : State) : Host.Outcome State Fault Refusal :=
  .next (takeRequest p .pageUnpin m readPair (fun a => pinRequest p a (dropRole a.1)) s)

/-! ## PAGE_STATUS (R19) -/

/-- One slot's part of the report (R19). -/
def slotReport (x : Slot) : List Byte :=
  encU8 x.state.code ++ encU8 x.showing ++ encWord x.tag ++ encU8 ((x.format.map Format.code).getD 0) ++ encU32 x.fill
    ++ encU32 (x.stamp.getD 0) ++ encBits [x.sleepRole, x.shutdownRole] ++ encFlag x.releasePending

/-- The report of PAGE_STATUS (R19). -/
def pageStatusData (s : State) : List Byte :=
  encU16 s.pool.width ++ encU16 s.pool.height ++ encU32 (footprint s.pool) ++ encU32 s.pool.free.length
    ++ encU32 s.pool.spoolLimit ++ encU32 (spoolHolding s.spool) ++ s.store.slots.flatMap slotReport

/-- PAGE_STATUS (R19). -/
def execPageStatus (p : Port) (m : Msg) (s : State) : Host.Outcome State Fault Refusal :=
  .next (takeRequest p .pageStatus m readNothing (fun _ t => respond p .ok (pageStatusData t) t) s)

/-! ## GEOMETRY_SET (R5, R6) -/

/-- The values lie in the geometry's ranges (R5 check 1). -/
def goodGeometry (w h : Nat) : Bool :=
  decide (256 ≤ w ∧ w ≤ 1680 ∧ 256 ≤ h ∧ h ≤ 1264 ∧ w % 8 = 0 ∧ h % 8 = 0)

/-- No page and no update uses the old geometry (R5 check 2). -/
def geometryFree (s : State) : Bool := s.store.slots.all (fun x => x.state == .empty) && engineIdle s

/-- The pool after steps 1 to 3 of R6. -/
def poolWithGeometry (w h : Nat) (b : Pool) : Pool :=
  let b1 := { b with width := w, height := h }
  let all := b.free ++ b.panel
  { b1 with free := all.drop (footprint b1), panel := all.take (footprint b1) }

/-- A GEOMETRY_SET that has passed its checks (R6). R6 sets the pixels; that the bytes of the last block past W × H / 2 become white
too is the model's choice (log entry 33). -/
def applyGeometry (w h : Nat) (s : State) : State :=
  let b := poolWithGeometry w h s.pool
  s |> (fun t => t.withPool b)
    |> (fun t => t.withDram (Mem.blankBlocks b.panel t.dram))
    |> onEngine (fun e => { e with ghosts := List.replicate Config.tileCount e.ghostLimit })

/-- GEOMETRY_SET with the DRAM out of self-refresh (R5, R6). -/
def geometrySetNow (p : Port) (a : Nat × Nat) (s : State) : State :=
  let f := footprint { s.pool with width := a.1, height := a.2 }
  if goodGeometry a.1 a.2 = false then refuse p .badValue s
  else if geometryFree s = false then refuse p .busy s
  else if Config.blockCount < 5 * f + s.pool.spoolLimit then refuse p .badValue s
  else if s.pool.free.length + s.pool.panel.length < f then refuse p .badValue s
  else s |> applyGeometry a.1 a.2 |> respond p .ok []

/-- GEOMETRY_SET: while the DRAM has not left self-refresh it stays in process (R4). -/
def geometrySet (p : Port) (a : Nat × Nat) (s : State) : State := if dramAsleep s then s else geometrySetNow p a s

/-- GEOMETRY_SET (R5, R6, R4). -/
def execGeometrySet (p : Port) (m : Msg) (s : State) : Host.Outcome State Fault Refusal :=
  .next (takeRequest p .geometrySet m readGeometry (geometrySet p) s)

end Sys2Proof.Machine
end

