-- ==== Sys2Proof/Machine/Power.lean ====
section
/-! DEFINITION. The platform controller's requests and events (sections 9.2 to 9.7): DOZE, SLEEP, WAKE_MAIN, POWER_OFF, RESTART,
POWER_ON, the completions of power-up intervals, power-on reset, the idle timer's expiry and STATUS. -/

namespace Sys2Proof.Machine

/-! ## DOZE, SLEEP, WAKE_MAIN (R155, R156, R158) -/

/-- Entry to DOZE from ACTIVE (R155). -/
def enterDoze (s : State) : State :=
  s |> onPlatform (fun f => { f with state := .doze, idleTimer := idleFull f }) |> reportState .doze .active .dozeRequest

/-- DOZE during a resume: the onward target becomes DOZE (R155). -/
def onwardDoze (s : State) : State :=
  onPlatform (fun f => { f with
    onward := f.onward.map (fun o => { o with toActive := false, cause := .dozeRequest }) }) s

/-- DOZE (R155). A main-port request never meets DOZE itself, nor OFF; there the request is refused as in HALTING. -/
def doze (p : Port) (s : State) : State :=
  match s.platform.state with
  | .active => s |> enterDoze |> respond p .ok []
  | .sleep => s |> onwardDoze |> respond p .ok []
  | _ => refuse p .notNow s

/-- DOZE (R155). -/
def execDoze (p : Port) (m : Msg) (s : State) : Host.Outcome State Fault Refusal :=
  .next (takeRequest p .doze m readNothing (fun _ t => doze p t) s)

/-- Sleep pending is set (R158). -/
def setSleepPending (c : SleepCause) (s : State) : State :=
  onPlatform (fun f => { f with sleepPending := some c, idleTimer := none }) s

/-- SLEEP: the response precedes a STATE_CHANGED of the sleep check (R158, R173). -/
def sleepRequest (p : Port) (s : State) : State :=
  match s.platform.state with
  | .doze =>
    if s.platform.sleepPending.isSome then respond p .ok [] s
    else s |> setSleepPending .sleepRequest |> respond p .ok [] |> recheckNow
  | .sleep => if s.platform.powerUp.isSome then refuse p .notNow s else respond p .ok [] s
  | _ => refuse p .notNow s

/-- SLEEP (R158). -/
def execSleep (p : Port) (m : Msg) (s : State) : Host.Outcome State Fault Refusal :=
  .next (takeRequest p .sleep m readNothing (fun _ t => sleepRequest p t) s)

/-- WAKE_MAIN; from the main port it changes no state during a resume (R156, R160, R179). -/
def wakeRequest (p : Port) (s : State) : State :=
  match s.platform.state with
  | .active => respond p .ok [] s
  | .doze => s |> respond p .ok [] |> enterActive true .wakeRequest
  | .sleep =>
    if p = .main then respond p .ok [] s else s |> respond p .ok [] |> startResume true .wakeRequest false
  | _ => refuse p .notNow s

/-- WAKE_MAIN (R156). -/
def execWakeMain (p : Port) (m : Msg) (s : State) : Host.Outcome State Fault Refusal :=
  .next (takeRequest p .wakeMain m readNothing (fun _ t => wakeRequest p t) s)

/-! ## Power-up intervals (R161, R163, R4) -/

/-- The owner's decision on a request that waited for the DRAM, by its kind (R4, R14, R6, R99). -/
def decideDeferred (q : Packet) (s : State) : State :=
  match kindOf q.kind with
  | some .pageData => (readPageData q.msg.payload).elim s (fun a => pageDataNow .main a s)
  | some .geometrySet => (readGeometry q.msg.payload).elim s (fun a => geometrySetNow .main a s)
  | some .titleRead => (readTitleRead q.msg.payload).elim s (fun a => titleReadNow .main a s)
  | _ => s

/-- A request that the main port handed over while the DRAM was asleep is carried out once the DRAM is awake (R4); where
the part has gone OFF meanwhile, the request is discarded with the reset of the port (R165). -/
def carryDeferred (s : State) : State :=
  match s.portMain.inProcess with
  | some q =>
    if dramAsleep s then s
    else if s.platform.state = .off then onPort .main (fun u => { u with inProcess := none }) s
    else decideDeferred q.packet s
  | none => s

/-- The platform still is where the resume brought it, after the sequence of step 3 (R161, log entry 20). -/
def stillResumed (s : State) : Bool := s.platform.state == .active || s.platform.state == .doze

/-- Step 4 of R161: a SUSPENDED scrub starts a pass (R75). -/
def resumeScrub (s : State) : State :=
  onWave (fun w => if w.scrub = .suspended then startPass w else w) s

/-- Step 6 of R161. -/
def resumeTimer (o : Onward) (s : State) : State :=
  onPlatform (fun f =>
    if o.toActive then { f with wakeMain := f.wakeMain || !o.mainRequest }
    else if f.state = .doze then { f with idleTimer := idleFull f }
    else f) s

/-- Step 8 of R161 for one radio alarm. -/
def radioAlarm (a : Nat × Nat) (s : State) : State :=
  s |> onPlatform (fun f => { f with radioSetting := true }) |> offerTo .radio (.alarm a.1 .radioOn a.2)

/-- Steps 1 to 3 of R161. -/
def resumeStart (o : Onward) (s : State) : State :=
  s |> onPlatform (fun f => { f with state := if o.toActive then .active else .doze, powerUp := none, onward := none })
    |> startTimers |> changePeriod .full

/-- The completion of a resume (R161). -/
def completeResume (o : Onward) (s : State) : State :=
  let s1 := resumeStart o s
  let s2 := if stillResumed s1 then s1 |> resumeScrub |> considerationPass .full |> resumeTimer o else s1
  let s3 := reportState (if o.toActive then .active else .doze) .sleep o.cause s2
  let s4 := if stillResumed s3 then o.radioAlarms.foldl (fun t a => radioAlarm a t) s3 else s3
  carryDeferred s4

/-- The completion of the power-up interval with purpose RESUME; no such interval, no completion (R161). -/
def execResumeComplete (s : State) : Host.Outcome State Fault Refusal :=
  .next (match s.platform.powerUp, s.platform.onward with
    | some ⟨.resume, _⟩, some o => recheckNow (completeResume o s)
    | _, _ => s)

/-- The completion of the interval with purpose HALT (R163, R164). -/
def completeHaltInterval (s : State) : State :=
  s |> onPlatform (fun f => { f with powerUp := none }) |> startTimers |> considerationPass .full |> carryDeferred

/-- The completion of the power-up interval with purpose HALT; no such interval, no completion (R163). -/
def execHaltIntervalComplete (s : State) : Host.Outcome State Fault Refusal :=
  .next (match s.platform.powerUp with
    | some ⟨.halt, _⟩ => recheckNow (completeHaltInterval s)
    | _ => s)

/-! ## POWER_OFF, RESTART, POWER_ON (R162, R166) -/

/-- POWER_OFF and RESTART: answered OK, and HALTING entered (R162). -/
def haltRequest (p : Port) (c : HaltCause) (s : State) : State :=
  if s.platform.state = .halting then refuse p .notNow s else s |> respond p .ok [] |> haltNow c

/-- POWER_OFF (R162). -/
def execPowerOff (p : Port) (m : Msg) (s : State) : Host.Outcome State Fault Refusal :=
  .next (takeRequest p .powerOff m readNothing (fun _ t => haltRequest p .powerOff t) s)

/-- RESTART (R162). -/
def execRestart (p : Port) (m : Msg) (s : State) : Host.Outcome State Fault Refusal :=
  .next (takeRequest p .restart m readNothing (fun _ t => haltRequest p .restart t) s)

/-- POWER_ON: in OFF its response precedes what the restart queues (R166). -/
def powerOn (p : Port) (s : State) : State :=
  match s.platform.state with
  | .halting => refuse p .notNow s
  | .off => if restartAllowed s then s |> respond p .ok [] |> restartNow .powerOn else refuse p .lowCharge s
  | _ => respond p .ok [] s

/-- POWER_ON (R166). -/
def execPowerOn (p : Port) (m : Msg) (s : State) : Host.Outcome State Fault Refusal :=
  .next (takeRequest p .powerOn m readNothing (fun _ t => powerOn p t) s)

/-! ## Power-on reset (R167) -/

/-- Every item at its power-on value; what is the model's own stays. A key held at the connection counts as a press (R167,
R168). -/
def powerOnValues (keyHeld : Bool) (s : State) : State :=
  let s1 : State := { State.reset with inputs := s.inputs, samples := s.samples, pending := s.pending }
  if keyHeld then onPlatform (fun f => { f with key := .pressed, holdTimer := some Config.holdMs }) s1 else s1

/-- The connection of the battery: the power-on values, the first conversion sequence with its start-up estimate, and the
charge cap from the level index it gives (R167, R148, R104). -/
def powerOnReset (keyHeld : Bool) (r : Readings) (s : State) : State :=
  s |> powerOnValues keyHeld |> sequenceWith .quiet r 0 true |> setChargeCap .quiet

/-- Power-on reset (R167). -/
def execPowerOnReset (keyHeld : Bool) (readings : Readings) (s : State) : Host.Outcome State Fault Refusal :=
  .next (powerOnReset keyHeld readings s)

/-! ## The idle timer (R157, R158) -/

/-- The expiry of the idle timer; a stopped timer has none (R157). -/
def execIdleTimerExpiry (s : State) : Host.Outcome State Fault Refusal :=
  .next (if s.platform.idleTimer.isSome then recheckNow (setSleepPending .idle s) else s)

/-! ## STATUS (R173, R188) -/

/-- One alarm slot's part of the report; an empty slot is reported as zero. -/
def alarmReport : Option Alarm → List Byte
  | some a => encU32 a.time ++ encU8 a.action.code
  | none => encU32 0 ++ encU8 0

/-- The platform part of STATUS (R173). Section 11.4 has no codes of halt causes: the halt cause is sent as the code of its state
change cause. A line level is one flag, set for asserted, sleep pending one flag, and the power-up interval is sent as the code of its
purpose. These are the model's choices (log entry 11). -/
def platformReport (s : State) : List Byte :=
  let f := s.platform
  encU8 f.state.code ++ encU8 ((f.powerUp.map (fun i => i.purpose.code)).getD 0)
    ++ encOptional encU8 (f.onward.map (fun o => if o.toActive then PlatformState.code .active else PlatformState.code .doze))
    ++ encFlag f.sleepPending.isSome ++ encFlag f.pageSubmitted ++ encOptional encU32 f.idleTimer
    ++ encU8 ((f.haltCause.map (fun c => c.cause.code)).getD 0) ++ encFlag f.pageDecided ++ encFlag f.radioSetting
    ++ encFlag (pwrMain s) ++ encFlag (pwrRadio s) ++ encFlag f.wakeMain ++ encU8 f.key.code
    ++ encS32 (s.monitor.batv.last.getD 0) ++ encU32 f.clock ++ f.alarms.flatMap alarmReport ++ encU32 f.sleepDelay

/-- One port's part of STATUS (R188). -/
def portReport (s : State) (p : Port) : List Byte :=
  let u := s.port p
  encU32 u.counters.admitted ++ encU32 u.counters.headerFailures ++ encU32 u.counters.payloadFailures
    ++ encU32 u.counters.breaks ++ encU32 u.counters.overruns ++ encFlag u.degraded ++ encU8 (outstanding u)
    ++ encU8 u.queue.length ++ encU8 (noticeCount u) ++ encFlag (powered p s)

/-- The report of STATUS (R188). That the levels of PANEL_BUSY and FAULT_OUT are one flag each, set for asserted, is the model's choice
(log entry 11). -/
def statusData (s : State) : List Byte :=
  platformReport s ++ portReport s .main ++ portReport s .standby ++ portReport s .radio ++ encU32 s.linkThreshold
    ++ encU8 s.charge.level ++ encU8 s.wave.state.code ++ encFlag (panelBusy s) ++ encFlag (faultOut s)

/-- STATUS (R188). -/
def execStatus (p : Port) (m : Msg) (s : State) : Host.Outcome State Fault Refusal :=
  .next (takeRequest p .status m readNothing (fun _ t => respond p .ok (statusData t) t) s)

end Sys2Proof.Machine
end

