-- ==== Sys2Proof/Machine/Waveform.lean ====
section
/-! DEFINITION. The waveform table's requests and events (chapter 4): the load sequence WAVEFORM_BEGIN, WAVEFORM_DATA,
WAVEFORM_END, WAVEFORM_STATUS, the scrub timer's expiry and the end of a scrub pass. -/

namespace Sys2Proof.Machine

/-! ## WAVEFORM_BEGIN (R70) -/

/-- Every bound is above the one before it. -/
def strictlyAscending : List Int → Bool
  | a :: b :: r => decide (a < b) && strictlyAscending (b :: r)
  | _ => true

/-- The values of a descriptor (R70 check 3). -/
def goodDescriptor (a : WaveformBeginArgs) : Bool :=
  decide (1 ≤ a.bands ∧ a.bands ≤ 8) && a.bounds.all (fun b => decide (-400 ≤ b ∧ b ≤ 1000)) && strictlyAscending a.bounds
    && a.counts.all (fun n => decide (1 ≤ n ∧ n ≤ 127))

/-- The table as a load begins (R70 check 5). -/
def beginLoad (a : WaveformBeginArgs) (w : WaveTable) : WaveTable :=
  { w with
    state := .loading, descriptor := some ⟨a.bounds, a.counts⟩, declared := some (declaredSize a.counts),
    loadPos := some 0, crc := some 0, reference := none, bytes := [], scrub := .stopped, scrubTimer := none, pass := none }

/-- WAVEFORM_BEGIN (R70). -/
def waveformBegin (p : Port) (a : WaveformBeginArgs) (s : State) : State :=
  if s.platform.state = .halting then refuse p .notNow s
  else if s.engine.active.isEmpty = false then refuse p .busy s
  else if goodDescriptor a = false then refuse p .badValue s
  else
    s |> onWave (beginLoad a) |> respond p .ok (encU32 (declaredSize a.counts)) |> considerationPass .full

/-- WAVEFORM_BEGIN (R70). -/
def execWaveformBegin (p : Port) (m : Msg) (s : State) : Host.Outcome State Fault Refusal :=
  .next (takeRequest p .waveformBegin m readWaveformBegin (fun a t => recheckNow (waveformBegin p a t)) s)

/-! ## WAVEFORM_DATA (R71) -/

/-- A byte holds the code that names no symbol (section 11.7). -/
def namesNoSymbol (b : Byte) : Bool := (List.range 4).any (fun i => b.toNat / 4 ^ i % 4 == 3)

/-- The table after accepted stream bytes (R71). -/
def loadBytes (bs : List Byte) (w : WaveTable) : WaveTable :=
  { w with
    bytes := w.bytes ++ bs, loadPos := some (w.loadPos.getD 0 + bs.length),
    crc := some (crc32From (w.crc.getD 0) bs) }

/-- WAVEFORM_DATA (R71). -/
def waveformData (p : Port) (bs : List Byte) (s : State) : State :=
  let w := s.wave
  if w.state ≠ .loading then refuse p .notReady s
  else if w.declared.getD 0 < w.loadPos.getD 0 + bs.length then refuse p .badLength s
  else if bs.any namesNoSymbol then refuse p .badValue s
  else s |> onWave (loadBytes bs) |> respond p .ok (encU32 (w.loadPos.getD 0 + bs.length))

/-- WAVEFORM_DATA (R71). -/
def execWaveformData (p : Port) (m : Msg) (s : State) : Host.Outcome State Fault Refusal :=
  .next (takeRequest p .waveformData m readStream (waveformData p) s)

/-! ## WAVEFORM_END (R72) -/

/-- The scrub as a table becomes VALID: WAITING with its timer, or SUSPENDED in SLEEP and HALTING (R73). -/
def startScrub (f : PlatformState) (w : WaveTable) : WaveTable :=
  if f = .active ∨ f = .doze then { w with scrub := .waiting, scrubTimer := some (w.scrubPeriod * 1000), pass := none }
  else { w with scrub := .suspended, scrubTimer := none, pass := none }

/-- The table after a matching end (R72). -/
def validTable (f : PlatformState) (crc : Word32) (w : WaveTable) : WaveTable :=
  startScrub f { w with state := .valid, reference := some crc, loadPos := none, crc := none, passCount := 0 }

/-- The load is complete and its CRC matches (R72). -/
def loadComplete (crc : Word32) (w : WaveTable) : Bool := w.loadPos == w.declared && w.crc == some crc

/-- WAVEFORM_END (R72). -/
def waveformEnd (p : Port) (crc : Word32) (s : State) : State :=
  if s.wave.state ≠ .loading then refuse p .notReady s
  else if loadComplete crc s.wave then
    s |> onWave (validTable s.platform.state crc) |> respond p .ok [] |> considerationPass .full
  else
    s |> onWave (fun w => { w with state := .faulty }) |> refuse p .badImage |> considerationPass .full

/-- WAVEFORM_END (R72). -/
def execWaveformEnd (p : Port) (m : Msg) (s : State) : Host.Outcome State Fault Refusal :=
  .next (takeRequest p .waveformEnd m readWord (fun a t => recheckNow (waveformEnd p a t)) s)

/-! ## WAVEFORM_STATUS (R79) -/

/-- The band descriptor as the report carries it; an absent one is a band count of 0. -/
def descriptorReport : Option Descriptor → List Byte
  | none => encU8 0
  | some d => encU8 d.bands ++ d.bounds.flatMap encS16 ++ d.counts.flatMap encU8

/-- The report of WAVEFORM_STATUS (R79). While the table is not VALID the band rule uses no PTEMP value; that the report then carries
the last one too is the model's choice (log entry 11). -/
def waveformStatusData (s : State) : List Byte :=
  let w := s.wave
  let b := if w.state = .valid then bandNow s else (0, false)
  encU8 w.state.code ++ descriptorReport w.descriptor ++ encU32 (w.declared.getD 0) ++ encU32 (w.loadPos.getD 0)
    ++ encWord (w.reference.getD 0) ++ encU8 w.scrub.code ++ encU32 w.passCount ++ encU32 (w.lastPass.getD 0)
    ++ encU32 w.scrubPeriod ++ encU8 b.1 ++ encFlag b.2 ++ encS32 (s.monitor.ptemp.last.getD 0)

/-- WAVEFORM_STATUS (R79). -/
def execWaveformStatus (p : Port) (m : Msg) (s : State) : Host.Outcome State Fault Refusal :=
  .next (takeRequest p .waveformStatus m readNothing (fun _ t => respond p .ok (waveformStatusData t) t) s)

/-! ## The scrub (R73, R74) -/

/-- An expiry of the scrub timer: a pass starts, or the one in progress goes on (R73). -/
def scrubExpiry (w : WaveTable) : WaveTable :=
  match w.scrub with
  | .waiting => startPass w
  | .passing => { w with scrubTimer := some (w.scrubPeriod * 1000) }
  | _ => w

/-- The expiry of the scrub timer; a stopped timer has none (R73). -/
def execScrubTimerExpiry (s : State) : Host.Outcome State Fault Refusal :=
  .next (if s.wave.scrubTimer.isSome then onWave scrubExpiry s else s)

/-- The waveform memory with bytes that no longer hold what was loaded (section 4.4). -/
def upsetBytes (us : List Upset) (bs : List Byte) : List Byte := us.foldl (fun m u => m.set u.position u.value) bs

/-- The table after a completed pass, before the comparison (R74). -/
def passEnded (clock : Nat) (w : WaveTable) : WaveTable :=
  { w with passCount := saturatingSucc w.passCount, lastPass := some clock, pass := none }

/-- The end of a pass that found these bytes in the memory (R74). -/
def scrubPassEnd (us : List Upset) (s : State) : State :=
  let s1 := onWave (fun w => passEnded s.platform.clock { w with bytes := upsetBytes us w.bytes }) s
  let w := s1.wave
  if some (crc32 w.bytes) = w.reference then onWave (fun v => { v with scrub := .waiting }) s1
  else
    s1 |> onWave (fun v => { v with state := .faulty, scrub := .stopped, scrubTimer := none })
      |> offerMain true (.waveformFault (w.reference.getD 0) (crc32 w.bytes) w.passCount)
      |> considerationPass .full

/-- The completion of a scrub pass; there is one only while the scrub is PASSING (R74). -/
def execScrubPassEnd (upsets : List Upset) (s : State) : Host.Outcome State Fault Refusal :=
  .next (if s.wave.scrub = .passing then recheckNow (scrubPassEnd upsets s) else s)

end Sys2Proof.Machine
end

