-- ==== Sys2Proof/Machine/Window.lean ====
section
/-! DEFINITION. The reading window's requests (chapter 2): WINDOW_SET, WINDOW_APPEND, WINDOW_PREPEND, WINDOW_DROP,
WINDOW_QUERY, and the turns TURN_NEXT and TURN_PREV. -/

namespace Sys2Proof.Machine

/-! ## Changing the window (R24 to R28) -/

/-- No slot appears twice. -/
def allDistinct : List Nat → Bool
  | [] => true
  | x :: xs => !xs.contains x && allDistinct xs

/-- WINDOW_SET's checks (R24). -/
def goodWindow (a : WindowSetArgs) (s : State) : Bool :=
  decide (a.slots.length ≤ Config.windowMax) && a.slots.all (fun i => eligible i s) && allDistinct a.slots
    && (a.slots.isEmpty || decide (a.cursor < a.slots.length))

/-- The whole list and the cursor replaced (R24). -/
def replaceWindow (a : WindowSetArgs) (w : Window) : Window :=
  { w with entries := a.slots, cursor := if a.slots.isEmpty then none else some a.cursor }

/-- A window request: its decision and response, then a low-water evaluation whether accepted or refused (R36). -/
def windowRequest (p : Port) (r : Result) (f : Window → Window) (s : State) : State :=
  s |> onWindow f |> respond p r [] |> lowWater

/-- WINDOW_SET (R24). -/
def windowSet (p : Port) (a : WindowSetArgs) (s : State) : State :=
  if goodWindow a s then windowRequest p .ok (replaceWindow a) s else windowRequest p .badValue id s

/-- WINDOW_SET (R24). -/
def execWindowSet (p : Port) (m : Msg) (s : State) : Host.Outcome State Fault Refusal :=
  .next (takeRequest p .windowSet m readWindowSet (windowSet p) s)

/-- A slot can be added: eligible and not yet in the window (R25, R26 step 1). -/
def addable (slot : Nat) (s : State) : Bool := eligible slot s && !s.window.entries.contains slot

/-- The window after an append, or none where it is full (R25 steps 2 to 5). -/
def appended (slot : Nat) (w : Window) : Option Window :=
  if w.entries = [] then some { w with entries := [slot], cursor := some 0 }
  else if w.entries.length < Config.windowMax then some { w with entries := w.entries ++ [slot] }
  else if 0 < w.cursor.getD 0 then
    some { w with entries := w.entries.tail ++ [slot], cursor := some (w.cursor.getD 0 - 1) }
  else none

/-- The window after a prepend, or none where it is full (R26 steps 2 to 5). -/
def prepended (slot : Nat) (w : Window) : Option Window :=
  if w.entries = [] then some { w with entries := [slot], cursor := some 0 }
  else if w.entries.length < Config.windowMax then
    some { w with entries := slot :: w.entries, cursor := some (w.cursor.getD 0 + 1) }
  else if w.cursor.getD 0 < Config.windowMax - 1 then
    some { w with entries := slot :: w.entries.dropLast, cursor := some (w.cursor.getD 0 + 1) }
  else none

/-- An addition at either end (R25, R26). -/
def windowAdd (p : Port) (slot : Nat) (f : Nat → Window → Option Window) (s : State) : State :=
  if addable slot s then
    match f slot s.window with
    | some w => windowRequest p .ok (fun _ => w) s
    | none => windowRequest p .windowFull id s
  else windowRequest p .badValue id s

/-- WINDOW_APPEND (R25). -/
def execWindowAppend (p : Port) (m : Msg) (s : State) : Host.Outcome State Fault Refusal :=
  .next (takeRequest p .windowAppend m readOne (fun i => windowAdd p i appended) s)

/-- WINDOW_PREPEND (R26). -/
def execWindowPrepend (p : Port) (m : Msg) (s : State) : Host.Outcome State Fault Refusal :=
  .next (takeRequest p .windowPrepend m readOne (fun i => windowAdd p i prepended) s)

/-- WINDOW_DROP (R28). -/
def windowDrop (p : Port) (slot : Nat) (s : State) : State :=
  if Config.slotCount ≤ slot then windowRequest p .badValue id s else windowRequest p .ok (removeSlot slot) s

/-- WINDOW_DROP (R28). -/
def execWindowDrop (p : Port) (m : Msg) (s : State) : Host.Outcome State Fault Refusal :=
  .next (takeRequest p .windowDrop m readOne (windowDrop p) s)

/-! ## WINDOW_QUERY (R30) -/

/-- The last turn update's id while the update engine holds it PENDING (R32, R44). -/
def pendingTurn (s : State) : Option Nat :=
  match s.window.lastTurn with
  | some id => if s.engine.queue.any (fun u => u.id == id && u.origin == .window) then some id else none
  | none => none

/-- The report of WINDOW_QUERY (R30). -/
def windowQueryData (s : State) : List Byte :=
  let w := s.window
  encU8 w.entries.length ++ w.entries.flatMap (fun i => encU8 i ++ encWord (slotAt i s).tag) ++ encOptional encU8 w.cursor
    ++ encOptional encU8 w.shown ++ encOptional encU16 w.lastTurn ++ encFlag (pendingTurn s).isSome
    ++ encFlag w.aheadArmed ++ encFlag w.behindArmed ++ encU32 w.aheadLow ++ encU32 w.behindLow ++ encU8 w.turnMode.code

/-- WINDOW_QUERY (R30). -/
def execWindowQuery (p : Port) (m : Msg) (s : State) : Host.Outcome State Fault Refusal :=
  .next (takeRequest p .windowQuery m readNothing (fun _ t => respond p .ok (windowQueryData t) t) s)

/-! ## Turns (R31 to R33) -/

/-- The cursor is at the end that a turn points to (R31 check 3). -/
def atEdge (d : Direction) (w : Window) : Bool :=
  match d with
  | .next => decide (w.entries.length ≤ w.cursor.getD 0 + 1)
  | .prev => w.cursor.getD 0 == 0

/-- The cursor one entry further in a direction. -/
def cursorAfter (d : Direction) (w : Window) : Nat :=
  match d with
  | .next => w.cursor.getD 0 + 1
  | .prev => w.cursor.getD 0 - 1

/-- The pending turn update takes a new source and one more requester (R44). -/
def replaceSource (id slot : Nat) (p : Port) (e : Engine) : Engine :=
  { e with queue := e.queue.map (fun u =>
      if u.id == id then { u with source := slot, requesters := addPort p u.requesters } else u) }

/-- What follows a turn's response: the report to the platform, the pass where the engine was asked, the evaluation (R33,
R45, R36). -/
def afterTurn (asked : Bool) (s : State) : State :=
  let s1 := turnReport s
  lowWater (if asked then considerationPass .full s1 else s1)

/-- A turn that passes R31 (R32). -/
def moveTurn (p : Port) (d : Direction) (s : State) : State :=
  let c := cursorAfter d s.window
  let slot := s.window.entries.getD c 0
  match pendingTurn s with
  | some id =>
    s |> onWindow (fun w => { w with cursor := some c }) |> onEngine (replaceSource id slot p)
      |> respond p .queued (encU16 id) |> afterTurn true
  | none =>
    if queueHasRoom s.engine then
      s |> onWindow (fun w => { w with cursor := some c, lastTurn := some (newId s.engine) })
        |> submit .window (onlyPort p) slot (wholePanel s.pool) s.window.turnMode
        |> respond p .queued (encU16 (newId s.engine)) |> afterTurn true
    else s |> refuse p .queueFull |> afterTurn false

/-- WINDOW_EDGE for the cursor's page (R31). -/
def edgeNotice (d : Direction) (s : State) : Notice :=
  .windowEdge d (entryTag (s.window.entries[s.window.cursor.getD 0]?) s)

/-- A turn (R31 to R33). -/
def turn (p : Port) (d : Direction) (s : State) : State :=
  if s.platform.state = .halting then s |> refuse p .notNow |> afterTurn false
  else if s.window.entries = [] then s |> refuse p .windowEmpty |> afterTurn false
  else if atEdge d s.window then s |> refuse p .edge |> offerMain true (edgeNotice d s) |> afterTurn false
  else moveTurn p d s

/-- TURN_NEXT (R31 to R33). -/
def execTurnNext (p : Port) (m : Msg) (s : State) : Host.Outcome State Fault Refusal :=
  .next (takeRequest p .turnNext m readNothing (fun _ t => recheckNow (turn p .next t)) s)

/-- TURN_PREV (R31 to R33). -/
def execTurnPrev (p : Port) (m : Msg) (s : State) : Host.Outcome State Fault Refusal :=
  .next (takeRequest p .turnPrev m readNothing (fun _ t => recheckNow (turn p .prev t)) s)

end Sys2Proof.Machine
end

