-- ==== Sys2Proof/Machine/Dispatch.lean ====
section
/-! DEFINITION. The effect of each command: one arm for each constructor, each a direct call of its meaning. -/

namespace Sys2Proof.Machine

def exec (i : Instr) (s : State) : Host.Outcome State Fault Refusal :=
  match i with
  | .pageOpen p m => Sys2Proof.Machine.execPageOpen p m s
  | .pageData p m => Sys2Proof.Machine.execPageData p m s
  | .pageClose p m => Sys2Proof.Machine.execPageClose p m s
  | .pageRelease p m => Sys2Proof.Machine.execPageRelease p m s
  | .pagePin p m => Sys2Proof.Machine.execPagePin p m s
  | .pageUnpin p m => Sys2Proof.Machine.execPageUnpin p m s
  | .pageStatus p m => Sys2Proof.Machine.execPageStatus p m s
  | .geometrySet p m => Sys2Proof.Machine.execGeometrySet p m s
  | .windowSet p m => Sys2Proof.Machine.execWindowSet p m s
  | .windowAppend p m => Sys2Proof.Machine.execWindowAppend p m s
  | .windowPrepend p m => Sys2Proof.Machine.execWindowPrepend p m s
  | .windowDrop p m => Sys2Proof.Machine.execWindowDrop p m s
  | .windowQuery p m => Sys2Proof.Machine.execWindowQuery p m s
  | .turnNext p m => Sys2Proof.Machine.execTurnNext p m s
  | .turnPrev p m => Sys2Proof.Machine.execTurnPrev p m s
  | .showPage p m => Sys2Proof.Machine.execShow p m s
  | .abort p m => Sys2Proof.Machine.execAbort p m s
  | .updateStatus p m => Sys2Proof.Machine.execUpdateStatus p m s
  | .scanComplete id => Sys2Proof.Machine.execScanComplete id s
  | .frameEvent => Sys2Proof.Machine.execFrameEvent s
  | .waveformBegin p m => Sys2Proof.Machine.execWaveformBegin p m s
  | .waveformData p m => Sys2Proof.Machine.execWaveformData p m s
  | .waveformEnd p m => Sys2Proof.Machine.execWaveformEnd p m s
  | .waveformStatus p m => Sys2Proof.Machine.execWaveformStatus p m s
  | .scrubTimerExpiry => Sys2Proof.Machine.execScrubTimerExpiry s
  | .scrubPassEnd upsets => Sys2Proof.Machine.execScrubPassEnd upsets s
  | .chunkBegin p m => Sys2Proof.Machine.execChunkBegin p m s
  | .chunkMore p m => Sys2Proof.Machine.execChunkMore p m s
  | .verificationEnd => Sys2Proof.Machine.execVerificationEnd s
  | .chunkAgingExpiry => Sys2Proof.Machine.execChunkAgingExpiry s
  | .titleRead p m => Sys2Proof.Machine.execTitleRead p m s
  | .titleRelease p m => Sys2Proof.Machine.execTitleRelease p m s
  | .titleList p m => Sys2Proof.Machine.execTitleList p m s
  | .titleQuery p m => Sys2Proof.Machine.execTitleQuery p m s
  | .spoolStats p m => Sys2Proof.Machine.execSpoolStats p m s
  | .spoolStatsClear p m => Sys2Proof.Machine.execSpoolStatsClear p m s
  | .lightSet p m => Sys2Proof.Machine.execLightSet p m s
  | .lightQuery p m => Sys2Proof.Machine.execLightQuery p m s
  | .lightCurve p m => Sys2Proof.Machine.execLightCurve p m s
  | .lightAutoPoints p m => Sys2Proof.Machine.execLightAutoPoints p m s
  | .rampTick => Sys2Proof.Machine.execRampTick s
  | .monitorTest p m => Sys2Proof.Machine.execMonitorTest p m s
  | .monitorConfig p m => Sys2Proof.Machine.execMonitorConfig p m s
  | .monitorStatus p m => Sys2Proof.Machine.execMonitorStatus p m s
  | .conversionSequence readings => Sys2Proof.Machine.execConversionSequence readings s
  | .chargeSet p m => Sys2Proof.Machine.execChargeSet p m s
  | .chargeConfig p m => Sys2Proof.Machine.execChargeConfig p m s
  | .chargeQuery p m => Sys2Proof.Machine.execChargeQuery p m s
  | .doze p m => Sys2Proof.Machine.execDoze p m s
  | .sleep p m => Sys2Proof.Machine.execSleep p m s
  | .wakeMain p m => Sys2Proof.Machine.execWakeMain p m s
  | .resumeComplete => Sys2Proof.Machine.execResumeComplete s
  | .powerOff p m => Sys2Proof.Machine.execPowerOff p m s
  | .restart p m => Sys2Proof.Machine.execRestart p m s
  | .haltIntervalComplete => Sys2Proof.Machine.execHaltIntervalComplete s
  | .powerOn p m => Sys2Proof.Machine.execPowerOn p m s
  | .powerOnReset keyHeld readings => Sys2Proof.Machine.execPowerOnReset keyHeld readings s
  | .idleTimerExpiry => Sys2Proof.Machine.execIdleTimerExpiry s
  | .keyPress => Sys2Proof.Machine.execKeyPress s
  | .keyRelease => Sys2Proof.Machine.execKeyRelease s
  | .keyHoldExpiry => Sys2Proof.Machine.execKeyHoldExpiry s
  | .radioPowerOn p m => Sys2Proof.Machine.execRadioPowerOn p m s
  | .radioPowerOff p m => Sys2Proof.Machine.execRadioPowerOff p m s
  | .clockSecond => Sys2Proof.Machine.execClockSecond s
  | .clockSet p m => Sys2Proof.Machine.execClockSet p m s
  | .alarmSet p m => Sys2Proof.Machine.execAlarmSet p m s
  | .alarmClear p m => Sys2Proof.Machine.execAlarmClear p m s
  | .alarmExpiry slot => Sys2Proof.Machine.execAlarmExpiry slot s
  | .status p m => Sys2Proof.Machine.execStatus p m s
  | .portReset p m => Sys2Proof.Machine.execPortReset p m s
  | .countersClear p m => Sys2Proof.Machine.execCountersClear p m s
  | .paramSetSpoolLimit p m => Sys2Proof.Machine.execParamSetSpoolLimit p m s
  | .paramSetAheadLow p m => Sys2Proof.Machine.execParamSetAheadLow p m s
  | .paramSetBehindLow p m => Sys2Proof.Machine.execParamSetBehindLow p m s
  | .paramSetTurnMode p m => Sys2Proof.Machine.execParamSetTurnMode p m s
  | .paramSetGhostLimit p m => Sys2Proof.Machine.execParamSetGhostLimit p m s
  | .paramSetFrameRate p m => Sys2Proof.Machine.execParamSetFrameRate p m s
  | .paramSetScrubPeriod p m => Sys2Proof.Machine.execParamSetScrubPeriod p m s
  | .paramSetChunkAge p m => Sys2Proof.Machine.execParamSetChunkAge p m s
  | .paramSetTitleWake p m => Sys2Proof.Machine.execParamSetTitleWake p m s
  | .paramSetRampStep p m => Sys2Proof.Machine.execParamSetRampStep p m s
  | .paramSetAutoDeadband p m => Sys2Proof.Machine.execParamSetAutoDeadband p m s
  | .paramSetPwmFrequency p m => Sys2Proof.Machine.execParamSetPwmFrequency p m s
  | .paramSetPolarityCool p m => Sys2Proof.Machine.execParamSetPolarityCool p m s
  | .paramSetPolarityWarm p m => Sys2Proof.Machine.execParamSetPolarityWarm p m s
  | .paramSetSleepDelay p m => Sys2Proof.Machine.execParamSetSleepDelay p m s
  | .paramSetLinkErrorThreshold p m => Sys2Proof.Machine.execParamSetLinkErrorThreshold p m s
  | .paramGet p m => Sys2Proof.Machine.execParamGet p m s
  | .unknownRequest p kind m => Sys2Proof.Machine.execUnknownRequest p kind m s
  | .selectionByte p byte => Sys2Proof.Machine.execSelectionByte p byte s
  | .headerFailure p header => Sys2Proof.Machine.execHeaderFailure p header s
  | .packetArrived p packet => Sys2Proof.Machine.execPacketArrived p packet s
  | .csRise p partialBytes => Sys2Proof.Machine.execCsRise p partialBytes s
  | .packetSent p => Sys2Proof.Machine.execPacketSent p s
  | .pwmPeriodStart line => Sys2Proof.Machine.execPwmPeriodStart line s
  | .headerGood p header => Sys2Proof.Machine.execHeaderGood p header s
  | .entryFirstByteSent p => Sys2Proof.Machine.execEntryFirstByteSent p s

end Sys2Proof.Machine
end

