-- ==== Sys2Proof/Machine/Time.lean ====
section
/-! DEFINITION. Time while no command waits: one millisecond on every running timer (log entry 6). An expiry is a command of its
own, so a timer that has run down stands at 0 until that command is taken. -/

namespace Sys2Proof.Machine

/-- One millisecond less on a timer that counts down. -/
def less (n : Nat) : Option Nat → Option Nat := Option.map (· - n)

/-- One millisecond on the platform controller's timers. -/
def tickPlatform (f : Platform) : Platform :=
  { f with
    powerUp := f.powerUp.map (fun i => { i with left := i.left - 1 })
    idleTimer := less 1 f.idleTimer
    holdTimer := less 1 f.holdTimer
    clockMs := min (f.clockMs + 1) 1000 }

/-- One millisecond on the aging timer of an open assembly. -/
def tickSpool (sp : Spool) : Spool :=
  { sp with assembly := sp.assembly.map (fun a => { a with ageLeft := a.ageLeft - 1 }) }

/-- One millisecond of the part's time. -/
def tick (s : State) : State :=
  s |> onPlatform tickPlatform
    |> onEngine (fun e => { e with frameTimer := less 1000 e.frameTimer })
    |> onWave (fun w => { w with scrubTimer := less 1 w.scrubTimer })
    |> onSpool tickSpool
    |> onLight (fun l => { l with rampTimer := less 1 l.rampTimer })
    |> onMonitor (fun m => { m with elapsed := saturatingSucc m.elapsed })

end Sys2Proof.Machine
end

