-- ==== Sys2Proof/WellFormed.lean ====
section
/-! DEFINITION. Which commands can come about at all: a payload fits a packet, a header is good or bad as its row says, a slot,
an id, a place in memory or a byte count lies in its range, and a packet of a PARAM_SET or RADIO_POWER row carries that row's
identifier or code. The meanings answer for every command, well-formed or not. -/

namespace Sys2Proof

open Machine

/-- The port, the request and the message of a request row; none for the rows that are no request of section 11.3. -/
def Instr.request? : Instr → Option (Port × ReqKind × Msg)
  | .pageOpen p m => some (p, .pageOpen, m)
  | .pageData p m => some (p, .pageData, m)
  | .pageClose p m => some (p, .pageClose, m)
  | .pageRelease p m => some (p, .pageRelease, m)
  | .pagePin p m => some (p, .pagePin, m)
  | .pageUnpin p m => some (p, .pageUnpin, m)
  | .pageStatus p m => some (p, .pageStatus, m)
  | .geometrySet p m => some (p, .geometrySet, m)
  | .windowSet p m => some (p, .windowSet, m)
  | .windowAppend p m => some (p, .windowAppend, m)
  | .windowPrepend p m => some (p, .windowPrepend, m)
  | .windowDrop p m => some (p, .windowDrop, m)
  | .windowQuery p m => some (p, .windowQuery, m)
  | .turnNext p m => some (p, .turnNext, m)
  | .turnPrev p m => some (p, .turnPrev, m)
  | .showPage p m => some (p, .showPage, m)
  | .abort p m => some (p, .abort, m)
  | .updateStatus p m => some (p, .updateStatus, m)
  | .scanComplete _ => none
  | .frameEvent => none
  | .waveformBegin p m => some (p, .waveformBegin, m)
  | .waveformData p m => some (p, .waveformData, m)
  | .waveformEnd p m => some (p, .waveformEnd, m)
  | .waveformStatus p m => some (p, .waveformStatus, m)
  | .scrubTimerExpiry => none
  | .scrubPassEnd _ => none
  | .chunkBegin p m => some (p, .chunkBegin, m)
  | .chunkMore p m => some (p, .chunkMore, m)
  | .verificationEnd => none
  | .chunkAgingExpiry => none
  | .titleRead p m => some (p, .titleRead, m)
  | .titleRelease p m => some (p, .titleRelease, m)
  | .titleList p m => some (p, .titleList, m)
  | .titleQuery p m => some (p, .titleQuery, m)
  | .spoolStats p m => some (p, .spoolStats, m)
  | .spoolStatsClear p m => some (p, .spoolStatsClear, m)
  | .lightSet p m => some (p, .lightSet, m)
  | .lightQuery p m => some (p, .lightQuery, m)
  | .lightCurve p m => some (p, .lightCurve, m)
  | .lightAutoPoints p m => some (p, .lightAutoPoints, m)
  | .rampTick => none
  | .monitorTest p m => some (p, .monitorTest, m)
  | .monitorConfig p m => some (p, .monitorConfig, m)
  | .monitorStatus p m => some (p, .monitorStatus, m)
  | .conversionSequence _ => none
  | .chargeSet p m => some (p, .chargeSet, m)
  | .chargeConfig p m => some (p, .chargeConfig, m)
  | .chargeQuery p m => some (p, .chargeQuery, m)
  | .doze p m => some (p, .doze, m)
  | .sleep p m => some (p, .sleep, m)
  | .wakeMain p m => some (p, .wakeMain, m)
  | .resumeComplete => none
  | .powerOff p m => some (p, .powerOff, m)
  | .restart p m => some (p, .restart, m)
  | .haltIntervalComplete => none
  | .powerOn p m => some (p, .powerOn, m)
  | .powerOnReset _ _ => none
  | .idleTimerExpiry => none
  | .keyPress => none
  | .keyRelease => none
  | .keyHoldExpiry => none
  | .radioPowerOn p m => some (p, .radioPower, m)
  | .radioPowerOff p m => some (p, .radioPower, m)
  | .clockSecond => none
  | .clockSet p m => some (p, .clockSet, m)
  | .alarmSet p m => some (p, .alarmSet, m)
  | .alarmClear p m => some (p, .alarmClear, m)
  | .alarmExpiry _ => none
  | .status p m => some (p, .status, m)
  | .portReset p m => some (p, .portReset, m)
  | .countersClear p m => some (p, .countersClear, m)
  | .paramSetSpoolLimit p m => some (p, .paramSet, m)
  | .paramSetAheadLow p m => some (p, .paramSet, m)
  | .paramSetBehindLow p m => some (p, .paramSet, m)
  | .paramSetTurnMode p m => some (p, .paramSet, m)
  | .paramSetGhostLimit p m => some (p, .paramSet, m)
  | .paramSetFrameRate p m => some (p, .paramSet, m)
  | .paramSetScrubPeriod p m => some (p, .paramSet, m)
  | .paramSetChunkAge p m => some (p, .paramSet, m)
  | .paramSetTitleWake p m => some (p, .paramSet, m)
  | .paramSetRampStep p m => some (p, .paramSet, m)
  | .paramSetAutoDeadband p m => some (p, .paramSet, m)
  | .paramSetPwmFrequency p m => some (p, .paramSet, m)
  | .paramSetPolarityCool p m => some (p, .paramSet, m)
  | .paramSetPolarityWarm p m => some (p, .paramSet, m)
  | .paramSetSleepDelay p m => some (p, .paramSet, m)
  | .paramSetLinkErrorThreshold p m => some (p, .paramSet, m)
  | .paramGet p m => some (p, .paramGet, m)
  | .unknownRequest _ _ _ => none
  | .selectionByte _ _ => none
  | .headerFailure _ _ => none
  | .packetArrived _ _ => none
  | .csRise _ _ => none
  | .packetSent _ => none
  | .pwmPeriodStart _ => none
  | .headerGood _ _ => none
  | .entryFirstByteSent _ => none

/-- The parameter of a PARAM_SET row (R192). -/
def Instr.param? : Instr → Option Param
  | .pageOpen _ _ => none
  | .pageData _ _ => none
  | .pageClose _ _ => none
  | .pageRelease _ _ => none
  | .pagePin _ _ => none
  | .pageUnpin _ _ => none
  | .pageStatus _ _ => none
  | .geometrySet _ _ => none
  | .windowSet _ _ => none
  | .windowAppend _ _ => none
  | .windowPrepend _ _ => none
  | .windowDrop _ _ => none
  | .windowQuery _ _ => none
  | .turnNext _ _ => none
  | .turnPrev _ _ => none
  | .showPage _ _ => none
  | .abort _ _ => none
  | .updateStatus _ _ => none
  | .scanComplete _ => none
  | .frameEvent => none
  | .waveformBegin _ _ => none
  | .waveformData _ _ => none
  | .waveformEnd _ _ => none
  | .waveformStatus _ _ => none
  | .scrubTimerExpiry => none
  | .scrubPassEnd _ => none
  | .chunkBegin _ _ => none
  | .chunkMore _ _ => none
  | .verificationEnd => none
  | .chunkAgingExpiry => none
  | .titleRead _ _ => none
  | .titleRelease _ _ => none
  | .titleList _ _ => none
  | .titleQuery _ _ => none
  | .spoolStats _ _ => none
  | .spoolStatsClear _ _ => none
  | .lightSet _ _ => none
  | .lightQuery _ _ => none
  | .lightCurve _ _ => none
  | .lightAutoPoints _ _ => none
  | .rampTick => none
  | .monitorTest _ _ => none
  | .monitorConfig _ _ => none
  | .monitorStatus _ _ => none
  | .conversionSequence _ => none
  | .chargeSet _ _ => none
  | .chargeConfig _ _ => none
  | .chargeQuery _ _ => none
  | .doze _ _ => none
  | .sleep _ _ => none
  | .wakeMain _ _ => none
  | .resumeComplete => none
  | .powerOff _ _ => none
  | .restart _ _ => none
  | .haltIntervalComplete => none
  | .powerOn _ _ => none
  | .powerOnReset _ _ => none
  | .idleTimerExpiry => none
  | .keyPress => none
  | .keyRelease => none
  | .keyHoldExpiry => none
  | .radioPowerOn _ _ => none
  | .radioPowerOff _ _ => none
  | .clockSecond => none
  | .clockSet _ _ => none
  | .alarmSet _ _ => none
  | .alarmClear _ _ => none
  | .alarmExpiry _ => none
  | .status _ _ => none
  | .portReset _ _ => none
  | .countersClear _ _ => none
  | .paramSetSpoolLimit _ _ => some .spoolLimit
  | .paramSetAheadLow _ _ => some .aheadLow
  | .paramSetBehindLow _ _ => some .behindLow
  | .paramSetTurnMode _ _ => some .turnMode
  | .paramSetGhostLimit _ _ => some .ghostLimit
  | .paramSetFrameRate _ _ => some .frameRate
  | .paramSetScrubPeriod _ _ => some .scrubPeriod
  | .paramSetChunkAge _ _ => some .chunkAge
  | .paramSetTitleWake _ _ => some .titleWake
  | .paramSetRampStep _ _ => some .rampStep
  | .paramSetAutoDeadband _ _ => some .autoDeadband
  | .paramSetPwmFrequency _ _ => some .pwmFrequency
  | .paramSetPolarityCool _ _ => some .polarityCool
  | .paramSetPolarityWarm _ _ => some .polarityWarm
  | .paramSetSleepDelay _ _ => some .sleepDelay
  | .paramSetLinkErrorThreshold _ _ => some .linkErrorThreshold
  | .paramGet _ _ => none
  | .unknownRequest _ _ _ => none
  | .selectionByte _ _ => none
  | .headerFailure _ _ => none
  | .packetArrived _ _ => none
  | .csRise _ _ => none
  | .packetSent _ => none
  | .pwmPeriodStart _ => none
  | .headerGood _ _ => none
  | .entryFirstByteSent _ => none

/-- A payload fits a packet (R175). -/
def Msg.fits (m : Msg) : Bool := decide (m.payload.length ≤ 1024)

/-- The message fits, where the command carries a request. -/
def Instr.messageFits (i : Instr) : Bool :=
  match i.request? with
  | some q => q.2.2.fits
  | none => true

/-- The parameter identifier of a PARAM_SET's payload names no other row's parameter (R192). -/
def Instr.namesItsParam (i : Instr) : Bool :=
  match i.param?, i.request? with
  | some q, some r => !((readParamSet r.2.2.payload).bind (fun a => paramOf a.id)).any (fun x => x != q)
  | _, _ => true

/-- A place in the waveform memory of 196,608 bytes (chapter 4). -/
def Upset.inMemory (u : Upset) : Bool := decide (u.position < 196608)

/-- What an event row's operands can be. -/
def Instr.operandsFit : Instr → Bool
  | .pageOpen _ _ => true
  | .pageData _ _ => true
  | .pageClose _ _ => true
  | .pageRelease _ _ => true
  | .pagePin _ _ => true
  | .pageUnpin _ _ => true
  | .pageStatus _ _ => true
  | .geometrySet _ _ => true
  | .windowSet _ _ => true
  | .windowAppend _ _ => true
  | .windowPrepend _ _ => true
  | .windowDrop _ _ => true
  | .windowQuery _ _ => true
  | .turnNext _ _ => true
  | .turnPrev _ _ => true
  | .showPage _ _ => true
  | .abort _ _ => true
  | .updateStatus _ _ => true
  | .scanComplete id => decide (1 ≤ id ∧ id ≤ 65535)
  | .frameEvent => true
  | .waveformBegin _ _ => true
  | .waveformData _ _ => true
  | .waveformEnd _ _ => true
  | .waveformStatus _ _ => true
  | .scrubTimerExpiry => true
  | .scrubPassEnd upsets => upsets.all Upset.inMemory
  | .chunkBegin _ _ => true
  | .chunkMore _ _ => true
  | .verificationEnd => true
  | .chunkAgingExpiry => true
  | .titleRead _ _ => true
  | .titleRelease _ _ => true
  | .titleList _ _ => true
  | .titleQuery _ _ => true
  | .spoolStats _ _ => true
  | .spoolStatsClear _ _ => true
  | .lightSet _ _ => true
  | .lightQuery _ _ => true
  | .lightCurve _ _ => true
  | .lightAutoPoints _ _ => true
  | .rampTick => true
  | .monitorTest _ _ => true
  | .monitorConfig _ _ => true
  | .monitorStatus _ _ => true
  | .conversionSequence _ => true
  | .chargeSet _ _ => true
  | .chargeConfig _ _ => true
  | .chargeQuery _ _ => true
  | .doze _ _ => true
  | .sleep _ _ => true
  | .wakeMain _ _ => true
  | .resumeComplete => true
  | .powerOff _ _ => true
  | .restart _ _ => true
  | .haltIntervalComplete => true
  | .powerOn _ _ => true
  | .powerOnReset _ _ => true
  | .idleTimerExpiry => true
  | .keyPress => true
  | .keyRelease => true
  | .keyHoldExpiry => true
  | .radioPowerOn _ m => readOne m.payload != some 0
  | .radioPowerOff _ m => readOne m.payload != some 1
  | .clockSecond => true
  | .clockSet _ _ => true
  | .alarmSet _ _ => true
  | .alarmClear _ _ => true
  | .alarmExpiry slot => decide (slot ≤ 2)
  | .status _ _ => true
  | .portReset _ _ => true
  | .countersClear _ _ => true
  | .paramSetSpoolLimit _ _ => true
  | .paramSetAheadLow _ _ => true
  | .paramSetBehindLow _ _ => true
  | .paramSetTurnMode _ _ => true
  | .paramSetGhostLimit _ _ => true
  | .paramSetFrameRate _ _ => true
  | .paramSetScrubPeriod _ _ => true
  | .paramSetChunkAge _ _ => true
  | .paramSetTitleWake _ _ => true
  | .paramSetRampStep _ _ => true
  | .paramSetAutoDeadband _ _ => true
  | .paramSetPwmFrequency _ _ => true
  | .paramSetPolarityCool _ _ => true
  | .paramSetPolarityWarm _ _ => true
  | .paramSetSleepDelay _ _ => true
  | .paramSetLinkErrorThreshold _ _ => true
  | .paramGet _ _ => true
  | .unknownRequest _ kind m => (kindOf kind).isNone && m.fits
  | .selectionByte _ _ => true
  | .headerFailure _ header => !headerGoodCheck header
  | .packetArrived _ packet => packet.msg.fits
  | .csRise _ partialBytes => decide (partialBytes ≤ 3)
  | .packetSent _ => true
  | .pwmPeriodStart _ => true
  | .headerGood _ header => headerGoodCheck header && decide (1 ≤ header.length.toNat)
  | .entryFirstByteSent _ => true

/-- A command that can come about. -/
def Instr.wellFormed (i : Instr) : Bool := i.messageFits && i.namesItsParam && i.operandsFit

end Sys2Proof
end

