-- ==== Sys2Proof/Safety.lean ====
section
/-! DEFINITION. What a sound state of the part is, in the terms the claims use: the DRAM in canonical form, every pool block with
one owner, the reading window as R20 describes it, the update engine within its lanes and queue, reservations that match the work
in progress, the charge within its range, the outbound queues within their shares. And the words the claims on single commands
share: a port that can take a request, and a port unit after its answer. -/

namespace Sys2Proof.Machine

/-! ## Sound states -/

/-- The blocks of every owner, free ones first (R1). -/
def ownedBlocks (s : State) : List Nat :=
  s.pool.free ++ s.pool.panel ++ s.store.slots.flatMap (·.blocks)
    ++ s.spool.titles.flatMap (fun t => (t.map (·.blocks)).getD [])

/-- Every block of the pool has exactly one owner (R1), with 24 slots and 8 titles, and no blocks in an EMPTY slot (R8). -/
structure BlocksSound (s : State) : Prop where
  slots : s.store.slots.length = Config.slotCount
  titles : s.spool.titles.length = Config.titleCount
  emptyHoldsNone : ∀ x ∈ s.store.slots, x.state = .empty → x.blocks = []
  oneOwner : (ownedBlocks s).Perm (List.range Config.blockCount)

/-- The reading window as R20 describes it; release pending stands on SHOWING slots only (R8). -/
structure WindowSound (s : State) : Prop where
  size : s.window.entries.length ≤ Config.windowMax
  distinct : s.window.entries.Nodup
  cursorWithin : ∀ c, s.window.cursor = some c → c < s.window.entries.length
  cursorPresent : s.window.entries ≠ [] → s.window.cursor ≠ none
  eligibleEntries : ∀ i ∈ s.window.entries, eligible i s = true
  pendingShows : ∀ x ∈ s.store.slots, x.releasePending = true → x.state = .showing

/-- At most 8 pending and 4 active updates, ids of live records distinct, regions of active updates apart (R40, R41, R46). -/
structure EngineSound (s : State) : Prop where
  pendingRoom : s.engine.queue.length ≤ Config.queueMax
  lanes : s.engine.active.length ≤ Config.laneCount
  ids : (liveIds s.engine).Nodup
  apart : s.engine.active.Pairwise (fun u v => overlaps u.region v.region = false)

/-- The estimates of the updates that drive, by id. -/
def drivingCosts (e : Engine) : List (Nat × Nat) := (drivingUpdates e).map (fun u => (u.id, u.estimate))

/-- The reservation list holds the estimates of the DRIVING updates and the cost of the open assembly, no more (R136). -/
structure ReservationsSound (s : State) : Prop where
  engine : EngineSound s
  updates : s.charge.updates.Perm (drivingCosts s.engine)
  chunk : s.charge.chunk = s.spool.assembly.map (·.cost)

/-- Q lies within 0..Q_full and the level index within 0..4 (R133, section 8.1). -/
structure ChargeSound (s : State) : Prop where
  withinFull : s.charge.q ≤ qFull s.charge
  index : s.charge.level ≤ 4

/-- A port unit's outstanding count is at most 4 and its queue holds at most 8 notices (R177, R181). -/
def unitSound (u : PortUnit) : Prop := outstanding u ≤ Config.outstandingMax ∧ noticeCount u ≤ Config.noticeMax

/-- Every port unit is within its shares. -/
def PortsSound (s : State) : Prop := ∀ p, unitSound (s.port p)

/-! ## A request that is taken at once -/

/-- The port can take a request that arrives: powered, nothing waiting or in process, room in its count (R177, R178). -/
structure Ready (p : Port) (s : State) : Prop where
  powered : powered p s = true
  nothingWaits : (s.port p).waiting = []
  nothingInProcess : (s.port p).inProcess = none
  room : outstanding (s.port p) < Config.outstandingMax

/-- A port unit in which a request has been admitted and answered: the packet counted, the response queued with the error set,
which is cleared (R177, R180, R186). -/
def answered (k : ReqKind) (r : Result) (data : List Byte) (u : PortUnit) : PortUnit :=
  { u with
    queue := u.queue ++ [.response k.code r u.errors data], errors := .empty,
    counters := { u.counters with admitted := saturatingSucc u.counters.admitted } }

/-- The state in which a main-port request taken in ACTIVE has been answered and nothing else has changed: the taking has
deasserted WAKE_MAIN (R156, R178). -/
def mainAnswered (k : ReqKind) (r : Result) (data : List Byte) (s : State) : State :=
  { s with platform := { s.platform with wakeMain := false }, portMain := answered k r data s.portMain }

/-- A port unit in which this request has been admitted and taken (R177, R178). -/
def takenUnit (k : ReqKind) (m : Msg) (u : PortUnit) : PortUnit :=
  { u with waiting := [], inProcess := some ⟨⟨k.code, m⟩, false⟩,
           counters := { u.counters with admitted := saturatingSucc u.counters.admitted } }

/-- The state in which a main-port request has just been taken in ACTIVE. -/
def mainTaken (k : ReqKind) (m : Msg) (s : State) : State :=
  { s with platform := { s.platform with wakeMain := false }, portMain := takenUnit k m s.portMain }

/-- A main-port request that passes the port unit's checks in ACTIVE, with its fields (R178). -/
structure MainTakes {α : Type} (k : ReqKind) (m : Msg) (read : List Byte → Option α) (a : α) (s : State) : Prop where
  ready : Ready .main s
  active : s.platform.state = .active
  checked : checkFails m = false
  allowed : permitted .main k = true
  fields : read m.payload = some a

/-- The state in which a standby or radio request has just been taken: a running idle timer has restarted (R157, R178). -/
def otherTaken (p : Port) (k : ReqKind) (m : Msg) (s : State) : State :=
  (restartIdle s).withPort p (takenUnit k m (s.port p))

/-- The state in which a standby or radio request has been answered and nothing else has changed. -/
def otherAnswered (p : Port) (k : ReqKind) (r : Result) (data : List Byte) (s : State) : State :=
  (restartIdle s).withPort p (answered k r data (s.port p))

/-- A standby or radio request that passes the port unit's checks, with its fields (R178). -/
structure OtherTakes {α : Type} (p : Port) (k : ReqKind) (m : Msg) (read : List Byte → Option α) (a : α) (s : State) :
    Prop where
  other : p ≠ .main
  ready : Ready p s
  checked : checkFails m = false
  allowed : permitted p k = true
  served : s.platform.state ≠ .off ∨ servedInOff k = true
  fields : read m.payload = some a

/-! ## The end of a turn that fails (section 2.4) -/

/-- The cursor goes back to the entry that holds the shown slot, with a low-water evaluation; where the window does not hold the
shown slot nothing changes (R35, R36). -/
def turnTakenBack (s : State) : State :=
  match s.window.shown with
  | some x =>
    if x ∈ s.window.entries then
      lowWater { s with window := { s.window with cursor := some (s.window.entries.idxOf x) } }
    else s
  | none => s

/-! ## Conversion sequences in which nothing changes state (section 7.2) -/

/-- A channel record after a conversion within its limits with no test value pending (R122, R123, R126). -/
def steadySample (c : Channel) (x : ChannelState) (raw : BitVec 12) : ChannelState :=
  { x with last := some (convert c x raw.toNat), test := false, raw := raw.toNat }

/-- A channel whose conversion of this reading changes no fault state and no run: no test value, no fault, no run, and a value
within the limits where the channel has any (R126, R130). -/
structure Steady (c : Channel) (x : ChannelState) (raw : BitVec 12) : Prop where
  noTest : x.pendingTest = none
  sound : x.fault = false
  noRun : x.run = 0
  low : c ≠ .amb → x.low ≤ convert c x raw.toNat
  high : c ≠ .amb → convert c x raw.toNat ≤ x.high

/-- The six channels after their conversions, a new period of 250 ms begun (R124). -/
def steadyMonitor (r : Readings) (m : Monitor) : Monitor :=
  { batv := steadySample .batv m.batv r.batv, bati := steadySample .bati m.bati r.bati,
    ptemp := steadySample .ptemp m.ptemp r.ptemp, dtemp := steadySample .dtemp m.dtemp r.dtemp,
    amb := steadySample .amb m.amb r.amb, panv := steadySample .panv m.panv r.panv, period := 250, elapsed := 0 }

/-- The charge account after a BATI conversion: Q moves by current times interval within 0..Q_full (R133, R135). -/
def integrated (current : Int) (interval : Nat) (c : Charge) : Charge :=
  let q := (max 0 (min (c.q + current * interval) (qFull c))).toNat
  { c with q := q, last := ⟨current, interval, q - c.q⟩ }

/-- The light after an AMB sample: in auto mode L_a takes a candidate that differs by more than the deadband (R112). -/
def lightAfterAmb (x : Int) (l : Light) : Light :=
  let a := autoCandidate l.points x.toNat
  { l with autoLevel := if l.auto = true ∧ l.autoDeadband < max a l.autoLevel - min a l.autoLevel then a else l.autoLevel }

/-- The state after a steady sequence made with the panel supply up (R124, R128). -/
def steadyAfter (r : Readings) (interval : Nat) (s : State) : State :=
  { s with
    monitor := steadyMonitor r s.monitor
    charge := integrated (convert .bati s.monitor.bati r.bati.toNat) interval s.charge
    light := lightAfterAmb (convert .amb s.monitor.amb r.amb.toNat) s.light }

/-- A sequence with these readings changes no fault state and no level index. -/
structure SteadyReadings (r : Readings) (interval : Nat) (s : State) : Prop where
  batv : Steady .batv s.monitor.batv r.batv
  bati : Steady .bati s.monitor.bati r.bati
  ptemp : Steady .ptemp s.monitor.ptemp r.ptemp
  dtemp : Steady .dtemp s.monitor.dtemp r.dtemp
  amb : Steady .amb s.monitor.amb r.amb
  panv : Steady .panv s.monitor.panv r.panv
  level : nextLevel (integrated (convert .bati s.monitor.bati r.bati.toNat) interval s.charge) = s.charge.level
  notHeld : s.spool.held = false
  candidateTaken : s.light.autoFirst = false

/-- The reading of a channel. -/
def readingOf (r : Readings) : Channel → BitVec 12
  | .batv => r.batv | .bati => r.bati | .ptemp => r.ptemp | .dtemp => r.dtemp | .amb => r.amb | .panv => r.panv

/-- A sequence with these readings, its interval the period that ended, changes no fault state but that of one channel, and no
level index. -/
structure OthersSteady (c : Channel) (r : Readings) (s : State) : Prop where
  steady : ∀ d, d ≠ c → Steady d (s.monitor.get d) (readingOf r d)
  level : nextLevel (integrated (convert .bati s.monitor.bati r.bati.toNat) s.monitor.period s.charge) = s.charge.level
  notHeld : s.spool.held = false
  candidateTaken : s.light.autoFirst = false

/-! ## PARAM_SET (section 11.8) -/

/-- The row of the table that sets a parameter. -/
def paramRow : Param → Port → Msg → Instr
  | .spoolLimit, p, m => .paramSetSpoolLimit p m
  | .aheadLow, p, m => .paramSetAheadLow p m
  | .behindLow, p, m => .paramSetBehindLow p m
  | .turnMode, p, m => .paramSetTurnMode p m
  | .ghostLimit, p, m => .paramSetGhostLimit p m
  | .frameRate, p, m => .paramSetFrameRate p m
  | .scrubPeriod, p, m => .paramSetScrubPeriod p m
  | .chunkAge, p, m => .paramSetChunkAge p m
  | .titleWake, p, m => .paramSetTitleWake p m
  | .rampStep, p, m => .paramSetRampStep p m
  | .autoDeadband, p, m => .paramSetAutoDeadband p m
  | .pwmFrequency, p, m => .paramSetPwmFrequency p m
  | .polarityCool, p, m => .paramSetPolarityCool p m
  | .polarityWarm, p, m => .paramSetPolarityWarm p m
  | .sleepDelay, p, m => .paramSetSleepDelay p m
  | .linkErrorThreshold, p, m => .paramSetLinkErrorThreshold p m

/-- The values a parameter accepts (section 11.8; the checks of R7 for spool_limit). -/
def paramAccepts (q : Param) (v : Nat) (s : State) : Prop :=
  match q with
  | .spoolLimit => v ≤ 939 ∧ 5 * footprint s.pool + v ≤ 1024 ∧ spoolHolding s.spool ≤ v
  | .aheadLow => v ≤ 15
  | .behindLow => v ≤ 15
  | .turnMode => v ≤ 2
  | .ghostLimit => 1 ≤ v ∧ v ≤ 63
  | .frameRate => 50 ≤ v ∧ v ≤ 85
  | .scrubPeriod => 10 ≤ v ∧ v ≤ 3600
  | .chunkAge => 50 ≤ v ∧ v ≤ 5000
  | .titleWake => v ≤ 1
  | .rampStep => v ≤ 1023
  | .autoDeadband => v ≤ 1023
  | .pwmFrequency => 1000 ≤ v ∧ v ≤ 20000
  | .polarityCool => v ≤ 1
  | .polarityWarm => v ≤ 1
  | .sleepDelay => 5 ≤ v ∧ v ≤ 3600
  | .linkErrorThreshold => 1 ≤ v ∧ v ≤ 65535

/-- The state with a parameter's new value: that field and, for scrub_period, the timer of a WAITING scrub (R77); a ramp_step of
0 is stored as 1 (R105); a pwm_frequency waits for the cool output's next period start (R120). -/
def withParam (q : Param) (v : Nat) (s : State) : State :=
  match q with
  | .spoolLimit => { s with pool := { s.pool with spoolLimit := v } }
  | .aheadLow => { s with window := { s.window with aheadLow := v } }
  | .behindLow => { s with window := { s.window with behindLow := v } }
  | .turnMode => { s with window := { s.window with turnMode := if v = 0 then .full else if v = 1 then .partially else .quick } }
  | .ghostLimit => { s with engine := { s.engine with ghostLimit := v } }
  | .frameRate => { s with engine := { s.engine with frameRate := v } }
  | .scrubPeriod =>
    { s with wave := { s.wave with
        scrubPeriod := v, scrubTimer := if s.wave.scrub = .waiting then some (1000 * v) else s.wave.scrubTimer } }
  | .chunkAge => { s with spool := { s.spool with chunkAge := v } }
  | .titleWake => { s with spool := { s.spool with titleWake := decide (v = 1) } }
  | .rampStep => { s with light := { s.light with rampStep := if v = 0 then 1 else v } }
  | .autoDeadband => { s with light := { s.light with autoDeadband := v } }
  | .pwmFrequency => { s with light := { s.light with pwmFrequency := v, pwmPending := true } }
  | .polarityCool => { s with light := { s.light with polarityCool := if v = 0 then .activeHigh else .activeLow } }
  | .polarityWarm => { s with light := { s.light with polarityWarm := if v = 0 then .activeHigh else .activeLow } }
  | .sleepDelay => { s with platform := { s.platform with sleepDelay := v } }
  | .linkErrorThreshold => { s with linkThreshold := v }

/-- What follows the response of an accepted PARAM_SET: a low-water evaluation (R36), or the link test of each port (R187). -/
def afterParam (q : Param) (s : State) : State :=
  match q with
  | .aheadLow => lowWater s
  | .behindLow => lowWater s
  | .linkErrorThreshold => linkTest .radio (linkTest .standby (linkTest .main s))
  | _ => s

end Sys2Proof.Machine
end

