-- ==== Sys2Proof/Certificates/Slice0/Obligations.lean ====
section
/-! DEFINITION. The statements about the part, for the provers. A statement on one command gives its whole next state as an update
of the state before it, so that what is not named is unchanged. -/

open Sys2Proof Sys2Proof.Machine

/-! ## The machine -/

/-- One step takes the command at the front of the queue, with the rest of the queue left. -/
def Obligations.StepTakesTheFrontCommand : Prop :=
  ∀ (c : Instr) (rest : List Instr) (s : State),
    step { s with pending := c :: rest } = exec c { s with pending := rest }

/-- The model's choice for an empty queue (log entry 6): a step is one millisecond on every running timer and nothing else. -/
def Obligations.EmptyQueueLetsAMillisecondPass : Prop :=
  ∀ s : State, s.pending = [] →
    step s = .next { s with
      platform := { s.platform with
        powerUp := s.platform.powerUp.map (fun i => { i with left := i.left - 1 })
        idleTimer := s.platform.idleTimer.map (· - 1)
        holdTimer := s.platform.holdTimer.map (· - 1)
        clockMs := min (s.platform.clockMs + 1) 1000 }
      engine := { s.engine with frameTimer := s.engine.frameTimer.map (· - 1000) }
      wave := { s.wave with scrubTimer := s.wave.scrubTimer.map (· - 1) }
      spool := { s.spool with assembly := s.spool.assembly.map (fun a => { a with ageLeft := a.ageLeft - 1 }) }
      light := { s.light with rampTimer := s.light.rampTimer.map (· - 1) }
      monitor := { s.monitor with elapsed := min (s.monitor.elapsed + 1) 4294967295 } }

/-- No step faults or refuses, and no command touches the commands that wait behind it. The spec answers every request with a
response; that an event the state does not allow changes nothing (log entry 8), that an empty queue lets a millisecond pass (log
entry 6) and that POWER_ON_RESET keeps the queue (log entry 28) are the model's choices. -/
def Obligations.EveryCommandCompletesAndLeavesTheQueue : Prop :=
  (∀ s : State, ∃ t, step s = .next t) ∧ ∀ (c : Instr) (s : State), ∃ t, exec c s = .next t ∧ t.pending = s.pending

/-! ## Reset -/

/-- The values the spec gives the items at power-on reset (R4, R9, R21, R65, R68, R82, R104, R154, R185). -/
def Obligations.ResetHoldsThePowerOnValues : Prop :=
  let s := State.reset
  (s.pool.width = 1448 ∧ s.pool.height = 1072 ∧ footprint s.pool = 12 ∧ s.pool.spoolLimit = 640
    ∧ s.pool.panel = List.range 12 ∧ s.pool.free = (List.range 1024).drop 12)
  ∧ (s.store.useCounter = 0 ∧ ∀ i, (slotAt i s).state = .empty)
  ∧ (s.window.entries = [] ∧ s.window.cursor = none ∧ s.window.shown = none ∧ s.window.lastTurn = none
    ∧ s.window.aheadArmed = true ∧ s.window.behindArmed = true)
  ∧ (s.engine.queue = [] ∧ s.engine.active = [] ∧ s.engine.nextId = 1 ∧ (∀ g ∈ s.engine.ghosts, g = 6)
    ∧ ∀ k, ownerPixel s.dram s.pool.panel k = 15#4)
  ∧ (s.wave.state = .absent ∧ s.wave.scrub = .stopped ∧ s.wave.passCount = 0)
  ∧ ((∀ i, titleAt i s = none) ∧ s.spool.assembly = none ∧ s.spool.held = false ∧ s.spool.stats = .zero)
  ∧ (s.light.level = 0 ∧ s.light.warmth = 0 ∧ s.light.auto = false ∧ s.light.rampLevel = 0 ∧ s.light.writer = none)
  ∧ (s.platform.state = .off ∧ s.platform.clock = 0 ∧ s.platform.wakeMain = false ∧ s.platform.radioSetting = false
    ∧ s.platform.alarms = [none, none, none])
  ∧ ∀ p, (s.port p).queue = [] ∧ (s.port p).errors = .empty ∧ (s.port p).counters = .zero ∧ (s.port p).degraded = false

/-- The state after reset is sound: that of the model, which holds Q at 0 and the level index at 4 until the first conversion
sequence (log entry 2) and reads an unlisted byte of the DRAM as FFh (log entry 3). -/
def Obligations.ResetIsSound : Prop :=
  Mem.wf State.reset.dram = true ∧ BlocksSound State.reset ∧ WindowSound State.reset ∧ ReservationsSound State.reset
    ∧ ChargeSound State.reset ∧ PortsSound State.reset

/-! ## Invariants of every step -/

/-- Every step keeps the DRAM in canonical form. -/
def Obligations.EveryStepKeepsTheDramCanonical : Prop :=
  ∀ s t : State, Mem.wf s.dram = true → step s = .next t → Mem.wf t.dram = true

/-- Every step leaves every pool block with exactly one owner (R1). -/
def Obligations.EveryStepKeepsOneOwnerPerBlock : Prop :=
  ∀ s t : State, BlocksSound s → step s = .next t → BlocksSound t

/-- Every step keeps the reading window as R20 describes it. -/
def Obligations.EveryStepKeepsTheWindowSound : Prop :=
  ∀ s t : State, WindowSound s → step s = .next t → WindowSound t

/-- Every step keeps the reservation list equal to the work in progress (R136), with the update engine within its queue and
lanes, distinct ids and regions apart (R40, R41, R46). -/
def Obligations.EveryStepKeepsReservationsSound : Prop :=
  ∀ s t : State, ReservationsSound s → step s = .next t → ReservationsSound t

/-- Every step keeps Q within 0..Q_full (R133) and the level index within 0..4. -/
def Obligations.EveryStepKeepsTheChargeInRange : Prop :=
  ∀ s t : State, ChargeSound s → step s = .next t → ChargeSound t

/-- Every step keeps every port within its outstanding count of 4 and its notice share of 8 (R177, R181). -/
def Obligations.EveryStepKeepsThePortShares : Prop :=
  ∀ s t : State, PortsSound s → step s = .next t → PortsSound t

/-! ## Requests at the port units (chapter 10) -/

/-- A port whose far side is unpowered ignores every request and every event of its link (R174). -/
def Obligations.AnUnpoweredPortIgnoresItsLink : Prop :=
  ∀ (p : Port) (s : State), powered p s = false →
    (∀ (i : Instr) (k : ReqKind) (m : Msg), i.request? = some (p, k, m) → exec i s = .next s)
    ∧ (∀ k m, exec (.unknownRequest p k m) s = .next s) ∧ (∀ b, exec (.selectionByte p b) s = .next s)
    ∧ (∀ h, exec (.headerFailure p h) s = .next s) ∧ (∀ h, exec (.headerGood p h) s = .next s)
    ∧ (∀ q, exec (.packetArrived p q) s = .next s) ∧ (∀ n, exec (.csRise p n) s = .next s)
    ∧ exec (.packetSent p) s = .next s ∧ exec (.entryFirstByteSent p) s = .next s

/-- A well-formed request that its port may not send is refused NOT_PERMITTED, and nothing else happens (R178, R179). A well-formed
main-port request whose payload check fails is refused CHECKSUM and counted, and nothing of it is carried out; below the link
threshold no LINK_DEGRADED follows (R178, R187). -/
def Obligations.BadChecksAndPermissionsAreRefused : Prop :=
  (∀ (i : Instr) (p : Port) (k : ReqKind) (m : Msg) (s : State),
     i.wellFormed = true → i.request? = some (p, k, m) → Ready p s → checkFails m = false → permitted p k = false →
     (p ≠ .main → exec i s = .next (otherAnswered p k .notPermitted [] s))
     ∧ (p = .main → s.platform.state = .active → exec i s = .next (mainAnswered k .notPermitted [] s)))
  ∧ (∀ (i : Instr) (k : ReqKind) (m : Msg) (s : State),
        i.wellFormed = true → i.request? = some (.main, k, m) → Ready .main s → s.platform.state = .active →
        checkFails m = true →
        s.portMain.counters.headerFailures + saturatingSucc s.portMain.counters.payloadFailures < s.linkThreshold →
        let u := answered k .checksum [] s.portMain
        exec i s = .next { s with
          platform := { s.platform with wakeMain := false }
          portMain := { u with counters := { u.counters with
            payloadFailures := saturatingSucc s.portMain.counters.payloadFailures } } })

/-- A packet of a kind that names no request is refused UNKNOWN_REQUEST with its kind echoed (R178 check 2); a main-port request that
has no payload fields and carries a payload is refused BAD_LENGTH (R178, R189). -/
def Obligations.UnknownKindsAndBadLengthsAreRefused : Prop :=
  (∀ (kind : Byte) (m : Msg) (s : State),
     kindOf kind = none → Ready .main s → s.platform.state = .active → checkFails m = false →
     exec (.unknownRequest .main kind m) s = .next { s with
       platform := { s.platform with wakeMain := false }
       portMain := { s.portMain with
         queue := s.portMain.queue ++ [.response kind .unknownRequest s.portMain.errors []], errors := .empty
         counters := { s.portMain.counters with admitted := saturatingSucc s.portMain.counters.admitted } } })
  ∧ (∀ (i : Instr) (k : ReqKind) (m : Msg) (s : State),
        i.request? = some (.main, k, m) → Ready .main s → s.platform.state = .active → checkFails m = false →
        m.payload ≠ [] →
        k ∈ [ReqKind.pageStatus, .windowQuery, .turnNext, .turnPrev, .updateStatus, .waveformStatus, .titleList, .spoolStats,
          .spoolStatsClear, .lightQuery, .monitorStatus, .chargeQuery, .doze, .sleep, .wakeMain, .powerOff, .restart, .powerOn,
          .status, .portReset] →
        exec i s = .next (mainAnswered k .badLength [] s))

/-- What the taking of a main-port request does to the platform: WAKE_MAIN is deasserted, DOZE becomes ACTIVE with MAIN_REQUEST
reported to the standby port, and SLEEP starts a resume to ACTIVE (R156, R160, R178). -/
def Obligations.TakingAMainRequestWakesThePlatform : Prop :=
  ∀ s : State,
    (s.platform.state = .doze →
      requestTaken .main s = offerTo .standby (.stateChanged .active .doze .mainRequest s.platform.clock)
        { s with platform := { s.platform with
            state := .active, wakeMain := false, sleepPending := none, pageSubmitted := false, idleTimer := none } })
    ∧ (s.platform.state = .sleep → s.platform.onward = none →
      requestTaken .main s = { s with platform := { s.platform with
        wakeMain := false, powerUp := some ⟨.resume, 5⟩, onward := some ⟨true, .mainRequest, true, []⟩ } })
    ∧ (s.platform.state ≠ .doze → s.platform.state ≠ .sleep →
      requestTaken .main s = { s with platform := { s.platform with wakeMain := false } })

/-- A notice offered to a port: room, the oldest of its type replaced, or dropped with NOTICE_LOST (R181 cases 2 to 4); once a READ
has sent the head's first byte, the head is excluded, and the oldest other notice of the type is replaced. -/
def Obligations.TheNoticeShareDecidesANotice : Prop :=
  ∀ (n : Notice) (u : PortUnit),
    (noticeCount u < 8 → offerUnit n u = { u with queue := u.queue ++ [.notice n] })
    ∧ (∀ (before after : List Entry) (o : Notice), 8 ≤ noticeCount u → u.headStarted = false →
        u.queue = before ++ [.notice o] ++ after → o.type = n.type → (∀ x, .notice x ∈ before → x.type ≠ n.type) →
        offerUnit n u = { u with queue := before ++ after ++ [.notice n] })
    ∧ (8 ≤ noticeCount u → (∀ x, .notice x ∈ u.queue → x.type ≠ n.type) →
        offerUnit n u = { u with errors := { u.errors with noticeLost := true } })
    ∧ (∀ (e : Entry) (before after : List Entry) (o : Notice), 8 ≤ noticeCount u → u.headStarted = true →
        u.queue = e :: before ++ [.notice o] ++ after → o.type = n.type → (∀ x, .notice x ∈ before → x.type ≠ n.type) →
        offerUnit n u = { u with queue := e :: before ++ after ++ [.notice n] })
    ∧ (∀ (e : Entry) (rest : List Entry), 8 ≤ noticeCount u → u.headStarted = true → u.queue = e :: rest →
        (∀ x, .notice x ∈ rest → x.type ≠ n.type) →
        offerUnit n u = { u with errors := { u.errors with noticeLost := true } })

/-- A selection byte chooses a WRITE or a READ; any other is a header failure, counted, with LINK_DEGRADED not yet due (R174). The
fourth byte of a header: a bad one is a header failure, counted, and with LINK_DEGRADED to the main port when the failures reach
the threshold; a good one with a payload moves the port into BODY (R175, R187). -/
def Obligations.SelectionBytesAndHeadersAreChecked : Prop :=
  (∀ (p : Port) (b : Byte) (s : State), powered p s = true → (s.port p).transfer = .idle →
     (b = 0x5A#8 → exec (.selectionByte p b) s = .next (s.withPort p { s.port p with transfer := .header }))
     ∧ (b = 0xA5#8 → exec (.selectionByte p b) s = .next (s.withPort p { s.port p with transfer := .readBoundary }))
     ∧ (b ≠ 0x5A#8 → b ≠ 0xA5#8 →
         saturatingSucc (s.port p).counters.headerFailures + (s.port p).counters.payloadFailures < s.linkThreshold →
         exec (.selectionByte p b) s = .next (s.withPort p { s.port p with
           transfer := .discard, errors := { (s.port p).errors with header := true }
           counters := { (s.port p).counters with
             headerFailures := saturatingSucc (s.port p).counters.headerFailures } })))
  ∧ (∀ (p : Port) (h : Header) (s : State), powered p s = true → (s.port p).transfer = .header →
        let u := s.port p
        let failed : PortUnit := { u with
          transfer := .discard, errors := { u.errors with header := true }
          counters := { u.counters with headerFailures := saturatingSucc u.counters.headerFailures } }
        (headerGoodCheck h = false → failed.counters.headerFailures + u.counters.payloadFailures < s.linkThreshold →
          exec (.headerFailure p h) s = .next (s.withPort p failed))
        ∧ (headerGoodCheck h = false → s.linkThreshold ≤ failed.counters.headerFailures + u.counters.payloadFailures →
          u.degraded = false →
          exec (.headerFailure p h) s = .next (offerMain false
            (.linkDegraded p failed.counters.headerFailures u.counters.payloadFailures)
            (s.withPort p { failed with degraded := true })))
        ∧ (headerGoodCheck h = true → h.length ≠ 0 →
          exec (.headerGood p h) s = .next (s.withPort p { u with transfer := .body h.kind h.length.toNat })))

/-- The arrival of a packet: a PORT_RESET without payload is carried out at once; any other packet is admitted and counted while the
outstanding count is below 4, else discarded with OVERRUN and counted (R177). -/
def Obligations.AnArrivedPacketIsAdmittedByRoom : Prop :=
  ∀ (p : Port) (q : Packet) (s : State), powered p s = true → completesPacket (s.port p).transfer q = true →
    let u := s.port p
    let isReset := q.kind = 0x4B#8 ∧ q.msg.payload = []
    (isReset → exec (.packetArrived p q) s = exec (.portReset p q.msg) (s.withPort p { u with transfer := .header }))
    ∧ (¬ isReset → outstanding u < 4 → exec (.packetArrived p q) s = .next (s.withPort p { u with
      transfer := .header, waiting := u.waiting ++ [q]
      counters := { u.counters with admitted := saturatingSucc u.counters.admitted } }))
    ∧ (¬ isReset → 4 ≤ outstanding u → exec (.packetArrived p q) s = .next (s.withPort p { u with
      transfer := .header, errors := { u.errors with overrun := true }
      counters := { u.counters with overruns := saturatingSucc u.counters.overruns } }))

/-- A rise of CS ends the transfer: a pause or a break, the break counted (R176); that a rise inside an EMPTY packet or inside the
filler of an entry that a reset removed is a break is the model's choice (log entry 17). A READ at a boundary starts the head
entry, which is then marked as started, and the last byte of an entry removes it from the queue (R182). -/
def Obligations.TransfersEndAndReadsRemoveEntries : Prop :=
  (∀ (p : Port) (n : Nat) (s : State), powered p s = true →
     let u := s.port p
     let isBreak := (u.transfer = .header ∧ n ≠ 0) ∨ (∃ k l, u.transfer = .body k l) ∨ u.transfer = .readEntry
       ∨ (u.transfer = .readBoundary ∧ n ≠ 0) ∨ u.transfer = .readFiller
     (isBreak → exec (.csRise p n) s = .next (s.withPort p { u with
       transfer := .idle, errors := { u.errors with brk := true }
       counters := { u.counters with breaks := saturatingSucc u.counters.breaks } }))
     ∧ (¬ isBreak → exec (.csRise p n) s = .next (s.withPort p { u with transfer := .idle })))
  ∧ (∀ (p : Port) (e : Entry) (rest : List Entry) (s : State), powered p s = true → (s.port p).queue = e :: rest →
        ((s.port p).transfer = .readBoundary → exec (.entryFirstByteSent p) s =
          .next (s.withPort p { s.port p with transfer := .readEntry, headStarted := true }))
        ∧ ((s.port p).transfer = .readEntry → exec (.packetSent p) s =
          .next (s.withPort p { s.port p with transfer := .readBoundary, headStarted := false, queue := rest })))

/-- A PORT_RESET without payload is carried out at once: on the main port in ACTIVE, on the standby port, and on the radio port with
no assembly open, the waiting requests and the queue go, a request in process is condemned, and OK is queued (R184); PORT_RESET
outside ACTIVE, and on the radio port with an assembly open, is left out here. Where the transfer then stands (HEADER in a WRITE,
filler or a boundary in a READ, none where none was) is the model's reading (log entry 19). COUNTERS_CLEAR clears the counters and
the degraded flag of the port it names, its own admission counted before; a value that
names no port is refused BAD_VALUE (R186). -/
def Obligations.PortResetAndCountersClear : Prop :=
  (∀ (p : Port) (m : Msg) (s : State), m.payload = [] → powered p s = true → s.platform.state = .active →
     s.platform.idleTimer = none → s.spool.assembly = none →
     let u := s.port p
     let v : PortUnit := { u with
       transfer := transferAfterReset u.transfer, waiting := []
       inProcess := u.inProcess.map (fun q => { q with condemned := true })
       queue := [.response 0x4B#8 .ok .empty []], headStarted := false, errors := .empty
       counters := { u.counters with admitted := saturatingSucc u.counters.admitted } }
     let w : State := { s with
       platform := { s.platform with wakeMain := if p = Port.main then false else s.platform.wakeMain }
       spool := { s.spool with bare := if p = Port.radio then none else s.spool.bare } }
     exec (.portReset p m) s = .next (w.withPort p v))
  ∧ (∀ (m : Msg) (code : Nat) (s : State), MainTakes .countersClear m readOne code s →
        (code = 0 → exec (.countersClear .main m) s = .next
          (let t := mainAnswered .countersClear .ok [] s
           { t with portMain := { t.portMain with counters := .zero, degraded := false } }))
        ∧ (code = 1 → exec (.countersClear .main m) s = .next { mainAnswered .countersClear .ok [] s with
            portStandby := { s.portStandby with counters := .zero, degraded := false } })
        ∧ (code = 2 → exec (.countersClear .main m) s = .next { mainAnswered .countersClear .ok [] s with
            portRadio := { s.portRadio with counters := .zero, degraded := false } })
        ∧ (2 < code → exec (.countersClear .main m) s = .next (mainAnswered .countersClear .badValue [] s)))

/-! ## Parameters and reports -/

/-- PARAM_SET with a value in range: the parameter takes it, the response is OK, and a window threshold or the link threshold is
followed by its evaluation; nothing else changes. A value out of range, or an identifier outside the table, is refused BAD_VALUE
and changes no parameter (R192 and the owners' rules). That a row is the PARAM_SET of its own identifier (log entry 12), that the
response to ahead_low and behind_low stands before the WINDOW_LOW of their evaluation (log entry 10) and that the link tests go
main, standby, radio (log entry 31) are the model's choices. -/
def Obligations.ParamSetStoresOrRefuses : Prop :=
  (∀ (q : Param) (v : Nat) (m : Msg) (s : State),
     MainTakes .paramSet m readParamSet ⟨q.code, v⟩ s → paramAccepts q v s →
     exec (paramRow q .main m) s = .next (afterParam q (withParam q v (mainAnswered .paramSet .ok [] s))))
  ∧ (∀ (q : Param) (i v : Nat) (m : Msg) (s : State),
        MainTakes .paramSet m readParamSet ⟨i, v⟩ s → (i = q.code ∧ ¬ paramAccepts q v s) ∨ paramOf i = none →
        exec (paramRow q .main m) s = .next (mainAnswered .paramSet .badValue [] s))

/-- The requests for reports answer OK with the report of the state the taking leaves, and change nothing; where the spec leaves a
field's size or an absent field open, the report is the model's (log entry 11). PARAM_GET answers the
identifier and the value in four bytes, or BAD_VALUE (R192). -/
def Obligations.ReportsAnswerAndChangeNothing : Prop :=
  (∀ (m : Msg) (s : State), Ready .main s → s.platform.state = .active → m.payload = [] →
     exec (.pageStatus .main m) s = .next (mainAnswered .pageStatus .ok (pageStatusData s) s)
     ∧ exec (.windowQuery .main m) s = .next (mainAnswered .windowQuery .ok (windowQueryData s) s)
     ∧ exec (.updateStatus .main m) s = .next (mainAnswered .updateStatus .ok (updateStatusData s.engine) s)
     ∧ exec (.waveformStatus .main m) s = .next (mainAnswered .waveformStatus .ok (waveformStatusData s) s)
     ∧ exec (.titleList .main m) s = .next (mainAnswered .titleList .ok (titleListData s) s)
     ∧ exec (.spoolStats .main m) s = .next (mainAnswered .spoolStats .ok (spoolStatsData s.spool.stats) s)
     ∧ exec (.lightQuery .main m) s = .next (mainAnswered .lightQuery .ok (lightQueryData s) s)
     ∧ exec (.monitorStatus .main m) s = .next (mainAnswered .monitorStatus .ok (monitorStatusData s.monitor) s)
     ∧ exec (.chargeQuery .main m) s = .next (mainAnswered .chargeQuery .ok (chargeQueryData s.charge) s)
     ∧ exec (.status .main m) s = .next (mainAnswered .status .ok (statusData (mainTaken .status m s)) s))
  ∧ (∀ (i : Nat) (m : Msg) (s : State), MainTakes .paramGet m readOne i s →
        (∀ q, paramOf i = some q → exec (.paramGet .main m) s =
          .next (mainAnswered .paramGet .ok (encU8 i ++ encU32 (paramValue s q)) s))
        ∧ (paramOf i = none → exec (.paramGet .main m) s = .next (mainAnswered .paramGet .badValue [] s)))

/-! ## Page store (chapter 1) -/

/-- PAGE_OPEN of an EMPTY slot, named or the lowest-numbered for ANY, with enough free blocks: footprint blocks leave the head of the
free list and the slot is FILLING; nothing else changes but the answer (R12 steps 2 and 4, R2). A READY slot outside the window
and without a role is reopened: its blocks stay, and it is no longer the shown slot (R12 step 3, R29). Other named slots are
refused BUSY, ANY with no EMPTY slot NO_SLOT, a bad format or number BAD_VALUE. -/
def Obligations.PageOpenFillsReopensOrRefuses : Prop :=
  (∀ (m : Msg) (a : PageOpenArgs) (f : Format) (i : Nat) (s : State),
     MainTakes .pageOpen m readPageOpen a s → formatOf a.format = some f →
     i < 24 → (slotAt i s).state = .empty →
     (a.slot = i ∨ (a.slot = 255 ∧ ∀ j, j < i → (slotAt j s).state ≠ .empty)) →
     footprint s.pool ≤ s.pool.free.length →
     let x : Slot :=
       { state := .filling, showing := 0, blocks := s.pool.free.take (footprint s.pool), tag := a.tag, format := some f,
         fill := 0, crc := 0, stamp := none, sleepRole := false, shutdownRole := false, releasePending := false }
     exec (.pageOpen .main m) s = .next { mainAnswered .pageOpen .ok (encU8 i) s with
       pool := { s.pool with free := s.pool.free.drop (footprint s.pool) }
       store := { s.store with slots := s.store.slots.set i x } })
  ∧ (∀ (m : Msg) (a : PageOpenArgs) (s : State), MainTakes .pageOpen m readPageOpen a s →
        let x := slotAt a.slot s
        let y : Format → Slot := fun f =>
          { state := .filling, showing := 0, blocks := x.blocks, tag := a.tag, format := some f, fill := 0, crc := 0,
            stamp := none, sleepRole := false, shutdownRole := false, releasePending := false }
        (∀ f, formatOf a.format = some f → a.slot < 24 → x.state = .ready → s.window.entries.contains a.slot = false →
          x.sleepRole = false → x.shutdownRole = false →
          exec (.pageOpen .main m) s = .next { mainAnswered .pageOpen .ok (encU8 a.slot) s with
            store := { s.store with slots := s.store.slots.set a.slot (y f) }
            window := { s.window with shown := if s.window.shown = some a.slot then none else s.window.shown } })
        ∧ ((formatOf a.format).isSome = true → a.slot < 24 →
            (x.state = .filling ∨ x.state = .showing ∨ (x.state = .ready ∧
              (s.window.entries.contains a.slot = true ∨ x.sleepRole = true ∨ x.shutdownRole = true))) →
            exec (.pageOpen .main m) s = .next (mainAnswered .pageOpen .busy [] s))
        ∧ ((formatOf a.format).isSome = true → a.slot = 255 → (∀ j, j < 24 → (slotAt j s).state ≠ .empty) →
            exec (.pageOpen .main m) s = .next (mainAnswered .pageOpen .noSlot [] s))
        ∧ ((formatOf a.format = none ∨ (24 ≤ a.slot ∧ a.slot ≠ 255)) →
            exec (.pageOpen .main m) s = .next (mainAnswered .pageOpen .badValue [] s)))

/-- PAGE_OPEN with too few free blocks evicts one page that makes the room: the oldest READY slot outside the window and without
a role. It becomes EMPTY with its blocks at the tail of the free list, the main port is told, and the fill takes blocks from the
head (R13); with no such page the request is refused NO_SPACE. That PAGE_EVICTED stands before the response is the model's
reading (log entry 10). A named slot with no update pending only: ANY, and pending updates that end SOURCE_GONE, are left out. -/
def Obligations.PageOpenEvictsTheOldestPage : Prop :=
  ∀ (m : Msg) (a : PageOpenArgs) (f : Format) (s : State),
    MainTakes .pageOpen m readPageOpen a s → formatOf a.format = some f → a.slot < 24 →
    (slotAt a.slot s).state = .empty → s.pool.free.length < footprint s.pool → s.engine.queue = [] →
    let free := fun j => j < 24 ∧ (slotAt j s).state = .ready ∧ s.window.entries.contains j = false ∧
      (slotAt j s).sleepRole = false ∧ (slotAt j s).shutdownRole = false
    (∀ v, free v → (slotAt v s).blocks.length = footprint s.pool → (slotAt v s).stamp.isSome = true →
      (∀ j, free j → j ≠ v → (slotAt j s).stamp.isSome = true ∧
        (slotAt v s).stamp.getD 0 < (slotAt j s).stamp.getD 0) →
      let all := s.pool.free ++ (slotAt v s).blocks
      let y : Slot := { Slot.reset with
        state := .filling, blocks := all.take (footprint s.pool), tag := a.tag, format := some f }
      exec (.pageOpen .main m) s = .next (respond .main .ok (encU8 a.slot)
        (offerMain false (.pageEvicted v (slotAt v s).tag) { mainTaken .pageOpen m s with
          pool := { s.pool with free := all.drop (footprint s.pool) }
          store := { s.store with slots := (s.store.slots.set v Slot.reset).set a.slot y }
          window := { s.window with shown := if s.window.shown = some v then none else s.window.shown } })))
    ∧ ((∀ j, ¬ free j) → exec (.pageOpen .main m) s = .next (mainAnswered .pageOpen .noSpace [] s))

/-- PAGE_DATA writes the pixels its bytes describe at the fill position of a FILLING slot and nowhere else: the fill advances,
the running CRC takes the bytes, each pixel reads its expanded value in a canonical DRAM, every other pixel of the slot and every
byte of the DRAM that holds no described pixel reads as before (R10, R11, R14). -/
def Obligations.PageDataWritesItsPixelsOnly : Prop :=
  ∀ (m : Msg) (a : SlotBytes) (f : Format) (s : State), MainTakes .pageData m readPageData a s →
    let x := slotAt a.slot s
    let n := pixelCount f a.data
    a.slot < 24 → x.state = .filling → x.format = some f → s.platform.powerUp = none →
    (isRunLength f = true → a.data.length % 2 = 0) → x.fill + n ≤ pageSize s.pool →
    let y := { x with fill := x.fill + n, crc := crc32From x.crc a.data }
    ∃ t, exec (.pageData .main m) s = .next t
      ∧ t = { mainAnswered .pageData .ok (encU32 (x.fill + n)) s with
          store := { s.store with slots := s.store.slots.set a.slot y }
          dram := t.dram }
      ∧ (∀ address, (∀ k, x.fill ≤ k → k < x.fill + n → address ≠ blockAddress x.blocks (k / 2)) →
          Mem.read t.dram address = Mem.read s.dram address)
      ∧ (Mem.wf s.dram = true → x.blocks.Nodup → x.fill + n ≤ 131072 * x.blocks.length →
          (∀ j, j < n → ownerPixel t.dram x.blocks (x.fill + j) = (unpack f a.data).getD j 0)
          ∧ ∀ k, k < 131072 * x.blocks.length → (k < x.fill ∨ x.fill + n ≤ k) →
              ownerPixel t.dram x.blocks k = ownerPixel s.dram x.blocks k)

/-- The pixels that data bytes describe: two, four or eight to a byte of a packed format with the first in the lowest bits, a
whole run for a pair of a run-length format, each value expanded to 0..15 and clamped to its format (section 1.5, R10, R11). -/
def Obligations.DataBytesDescribeTheirPixels : Prop :=
  (∀ (b : Byte) (bs : List Byte),
    unpack .g4 (b :: bs) = b.extractLsb' 0 4 :: b.extractLsb' 4 4 :: unpack .g4 bs
    ∧ unpack .g2 (b :: bs) = (List.range 4).map (fun i => BitVec.ofNat 4 (5 * (b.toNat / 4 ^ i % 4))) ++ unpack .g2 bs
    ∧ unpack .g1 (b :: bs) = (List.range 8).map (fun i => if b.getLsbD i then 15#4 else 0#4) ++ unpack .g1 bs)
  ∧ (∀ (r v : Byte) (bs : List Byte),
    unpack .r4 (r :: v :: bs) = List.replicate (r.toNat + 1) (BitVec.ofNat 4 (min v.toNat 15)) ++ unpack .r4 bs
    ∧ unpack .r2 (r :: v :: bs) = List.replicate (r.toNat + 1) (BitVec.ofNat 4 (5 * min v.toNat 3)) ++ unpack .r2 bs
    ∧ unpack .r1 (r :: v :: bs) = List.replicate (r.toNat + 1) (if v = 0#8 then 0#4 else 15#4) ++ unpack .r1 bs)
  ∧ ∀ (f : Format) (bs : List Byte), (unpack f bs).length = pixelCount f bs

/-- PAGE_CLOSE of a FILLING slot: a complete fill with a matching CRC becomes READY with the use counter's value as its stamp;
any other empties the slot, its blocks to the tail of the free list, and is refused BAD_IMAGE. A slot that is not FILLING is
refused NOT_READY, a number above 23 BAD_VALUE (R9, R15). -/
def Obligations.PageCloseMakesReadyOrEmpties : Prop :=
  ∀ (m : Msg) (a : SlotWord) (s : State), MainTakes .pageClose m readPageClose a s → s.engine.queue = [] →
    let x := slotAt a.slot s
    let y := { x with state := .ready, format := none, fill := 0, crc := 0, stamp := some s.store.useCounter }
    (a.slot < 24 → x.state = .filling → x.fill = s.pool.width * s.pool.height → x.crc = a.word →
      s.store.useCounter < 4294967295 →
      exec (.pageClose .main m) s = .next { mainAnswered .pageClose .ok [] s with
        store := { s.store with slots := s.store.slots.set a.slot y, useCounter := s.store.useCounter + 1 } })
    ∧ (a.slot < 24 → x.state = .filling → (x.fill ≠ s.pool.width * s.pool.height ∨ x.crc ≠ a.word) →
        exec (.pageClose .main m) s = .next { mainAnswered .pageClose .badImage [] s with
          pool := { s.pool with free := s.pool.free ++ x.blocks }
          store := { s.store with slots := s.store.slots.set a.slot Slot.reset } })
    ∧ (a.slot < 24 → x.state ≠ .filling → exec (.pageClose .main m) s = .next (mainAnswered .pageClose .notReady [] s))
    ∧ (24 ≤ a.slot → exec (.pageClose .main m) s = .next (mainAnswered .pageClose .badValue [] s))

/-- PAGE_RELEASE of a slot without a role outside the window, with no update waiting: FILLING and READY slots become EMPTY, their
blocks go to the tail of the free list, and the window forgets a shown slot; a SHOWING slot keeps its blocks with release pending
set; an EMPTY one answers OK; one with a role is refused BUSY (R16, R29). -/
def Obligations.PageReleaseEmptiesOrMarksTheSlot : Prop :=
  ∀ (m : Msg) (i : Nat) (s : State), MainTakes .pageRelease m readOne i s → s.engine.queue = [] → i < 24 →
    s.window.entries.contains i = false →
    let x := slotAt i s
    let forgotten := { s.window with shown := if s.window.shown = some i then none else s.window.shown }
    let noRole := x.sleepRole = false ∧ x.shutdownRole = false
    (x.state = .empty → exec (.pageRelease .main m) s = .next (mainAnswered .pageRelease .ok [] s))
    ∧ ((x.state = .ready ∨ x.state = .filling) → noRole →
        exec (.pageRelease .main m) s = .next { mainAnswered .pageRelease .ok [] s with
          pool := { s.pool with free := s.pool.free ++ x.blocks }
          store := { s.store with slots := s.store.slots.set i Slot.reset }, window := forgotten })
    ∧ (x.state = .showing → noRole → x.releasePending = false →
        exec (.pageRelease .main m) s = .next { mainAnswered .pageRelease .ok [] s with
          store := { s.store with slots := s.store.slots.set i { x with releasePending := true } }, window := forgotten })
    ∧ (x.state = .showing → noRole → x.releasePending = true →
        exec (.pageRelease .main m) s = .next (mainAnswered .pageRelease .ok [] s))
    ∧ (x.state ≠ .empty → ¬ noRole → exec (.pageRelease .main m) s = .next (mainAnswered .pageRelease .busy [] s))

/-- PAGE_PIN moves a role to a READY or SHOWING slot from wherever it was; PAGE_UNPIN takes it from the slot; a slot in another
state or with release pending is refused NOT_READY, an unknown role or number BAD_VALUE (R8, R18). -/
def Obligations.PinsMoveRoles : Prop :=
  ∀ (m : Msg) (i role : Nat) (s : State),
    let x := slotAt i s
    let can := (x.state = .ready ∨ x.state = .showing) ∧ x.releasePending = false
    (MainTakes .pagePin m readPair (i, role) s →
      (i < 24 → can → role = 1 → exec (.pagePin .main m) s = .next { mainAnswered .pagePin .ok [] s with
        store := { s.store with slots := s.store.slots.mapIdx (fun j y => { y with sleepRole := j == i }) } })
      ∧ (i < 24 → can → role = 2 → exec (.pagePin .main m) s = .next { mainAnswered .pagePin .ok [] s with
        store := { s.store with slots := s.store.slots.mapIdx (fun j y => { y with shutdownRole := j == i }) } })
      ∧ (i < 24 → ¬ can → role = 1 ∨ role = 2 → exec (.pagePin .main m) s = .next (mainAnswered .pagePin .notReady [] s))
      ∧ (24 ≤ i ∨ role = 0 ∨ 2 < role → exec (.pagePin .main m) s = .next (mainAnswered .pagePin .badValue [] s)))
    ∧ (MainTakes .pageUnpin m readPair (i, role) s →
      (i < 24 → can → role = 1 → exec (.pageUnpin .main m) s = .next { mainAnswered .pageUnpin .ok [] s with
        store := { s.store with slots := s.store.slots.set i { x with sleepRole := false } } })
      ∧ (i < 24 → can → role = 2 → exec (.pageUnpin .main m) s = .next { mainAnswered .pageUnpin .ok [] s with
        store := { s.store with slots := s.store.slots.set i { x with shutdownRole := false } } })
      ∧ (i < 24 → ¬ can → role = 1 ∨ role = 2 →
        exec (.pageUnpin .main m) s = .next (mainAnswered .pageUnpin .notReady [] s))
      ∧ (24 ≤ i ∨ role = 0 ∨ 2 < role → exec (.pageUnpin .main m) s = .next (mainAnswered .pageUnpin .badValue [] s)))

/-- GEOMETRY_SET with every slot EMPTY and no update: the panel image's blocks go to the tail of the free list, the new footprint
comes from its head and is white, and every ghost counter stands at the limit; other bytes of the DRAM read as before. A value
out of range is refused BAD_VALUE, a page or an update in use BUSY (R3, R5, R6). That the whole of its blocks becomes white, the
bytes past its pixels too, is the model's choice (log entry 33). -/
def Obligations.GeometrySetLaysOutThePanel : Prop :=
  ∀ (m : Msg) (w h : Nat) (s : State), MainTakes .geometrySet m readGeometry (w, h) s → s.platform.powerUp = none →
    let good := 256 ≤ w ∧ w ≤ 1680 ∧ 256 ≤ h ∧ h ≤ 1264 ∧ w % 8 = 0 ∧ h % 8 = 0
    let unused := (∀ x ∈ s.store.slots, x.state = .empty) ∧ s.engine.queue = [] ∧ s.engine.active = []
    let f := (w * h / 2 + 65535) / 65536
    let all := s.pool.free ++ s.pool.panel
    (good → unused → 5 * f + s.pool.spoolLimit ≤ 1024 → f ≤ all.length →
      ∃ t, exec (.geometrySet .main m) s = .next t
        ∧ t = { mainAnswered .geometrySet .ok [] s with
            pool := { s.pool with width := w, height := h, free := all.drop f, panel := all.take f }
            engine := { s.engine with ghosts := List.replicate 64 s.engine.ghostLimit }
            dram := t.dram }
        ∧ ∀ address, Mem.read t.dram address =
            if address / 65536 ∈ all.take f then 0xFF#8 else Mem.read s.dram address)
    ∧ (¬ good → exec (.geometrySet .main m) s = .next (mainAnswered .geometrySet .badValue [] s))
    ∧ (good → ¬ unused → exec (.geometrySet .main m) s = .next (mainAnswered .geometrySet .busy [] s))
    ∧ (good → unused → (1024 < 5 * f + s.pool.spoolLimit ∨ all.length < f) →
        exec (.geometrySet .main m) s = .next (mainAnswered .geometrySet .badValue [] s))

/-! ## Reading window (chapter 2) -/

/-- WINDOW_SET replaces the list and the cursor where every slot is eligible and named once and the cursor indexes the list; anything
else is refused BAD_VALUE (R23, R24). WINDOW_DROP takes an entry out by the removal rule: a cursor behind it moves down by one, a
cursor on it stays on the next entry or moves to the new last one, an emptied window has no cursor; a slot that is no entry
changes nothing (R27, R28). A low-water evaluation follows either way (R36). That its notice goes out after the response is the
model's reading (log entry 10). -/
def Obligations.WindowSetAndDropChangeTheWindow : Prop :=
  (∀ (m : Msg) (a : WindowSetArgs) (s : State), MainTakes .windowSet m readWindowSet a s →
     let can := fun i => i < 24 ∧ ((slotAt i s).state = .ready ∨
       ((slotAt i s).state = .showing ∧ (slotAt i s).releasePending = false))
     let good := a.slots.length ≤ 16 ∧ (∀ i ∈ a.slots, can i) ∧ a.slots.Nodup ∧ (a.slots = [] ∨ a.cursor < a.slots.length)
     (good → exec (.windowSet .main m) s = .next (lowWater { mainAnswered .windowSet .ok [] s with
       window := { s.window with entries := a.slots, cursor := if a.slots = [] then none else some a.cursor } }))
     ∧ (¬ good → exec (.windowSet .main m) s = .next (lowWater (mainAnswered .windowSet .badValue [] s))))
  ∧ (∀ (m : Msg) (i : Nat) (s : State), MainTakes .windowDrop m readOne i s → WindowSound s →
        (∀ (before after : List Nat) (c : Nat), s.window.entries = before ++ i :: after → s.window.cursor = some c →
          exec (.windowDrop .main m) s = .next (lowWater { mainAnswered .windowDrop .ok [] s with
            window := { s.window with
              entries := before ++ after
              cursor := if before ++ after = [] then none
                else if before.length < c then some (c - 1)
                else if c = before.length ∧ after = [] then some (c - 1)
                else some c } }))
        ∧ (i < 24 → i ∉ s.window.entries →
            exec (.windowDrop .main m) s = .next (lowWater (mainAnswered .windowDrop .ok [] s)))
        ∧ (24 ≤ i → exec (.windowDrop .main m) s = .next (lowWater (mainAnswered .windowDrop .badValue [] s))))

/-- WINDOW_APPEND and WINDOW_PREPEND of an eligible slot that the window does not hold: into an empty window, into one with room,
and, full, in place of the entry at the other end unless the cursor stands on it (WINDOW_FULL); other slots are refused BAD_VALUE;
an evaluation follows (R25, R26, R36), its notice after the response by the model's reading (log entry 10). -/
def Obligations.AdditionsAtEitherEnd : Prop :=
  ∀ (m : Msg) (i : Nat) (s : State), WindowSound s →
    let es := s.window.entries
    let can := i < 24 ∧ ((slotAt i s).state = .ready ∨
      ((slotAt i s).state = .showing ∧ (slotAt i s).releasePending = false)) ∧ i ∉ es
    (MainTakes .windowAppend m readOne i s →
      (can → es = [] → exec (.windowAppend .main m) s = .next (lowWater { mainAnswered .windowAppend .ok [] s with
        window := { s.window with entries := [i], cursor := some 0 } }))
      ∧ (can → es ≠ [] → es.length < 16 → exec (.windowAppend .main m) s =
          .next (lowWater { mainAnswered .windowAppend .ok [] s with window := { s.window with entries := es ++ [i] } }))
      ∧ (∀ c, can → es.length = 16 → s.window.cursor = some (c + 1) → exec (.windowAppend .main m) s =
          .next (lowWater { mainAnswered .windowAppend .ok [] s with
            window := { s.window with entries := es.drop 1 ++ [i], cursor := some c } }))
      ∧ (can → es.length = 16 → s.window.cursor = some 0 →
          exec (.windowAppend .main m) s = .next (lowWater (mainAnswered .windowAppend .windowFull [] s)))
      ∧ (¬ can → exec (.windowAppend .main m) s = .next (lowWater (mainAnswered .windowAppend .badValue [] s))))
    ∧ (MainTakes .windowPrepend m readOne i s →
      (can → es = [] → exec (.windowPrepend .main m) s = .next (lowWater { mainAnswered .windowPrepend .ok [] s with
        window := { s.window with entries := [i], cursor := some 0 } }))
      ∧ (∀ c, can → es ≠ [] → es.length < 16 → s.window.cursor = some c → exec (.windowPrepend .main m) s =
          .next (lowWater { mainAnswered .windowPrepend .ok [] s with
            window := { s.window with entries := i :: es, cursor := some (c + 1) } }))
      ∧ (∀ c, can → es.length = 16 → s.window.cursor = some c → c < 15 → exec (.windowPrepend .main m) s =
          .next (lowWater { mainAnswered .windowPrepend .ok [] s with
            window := { s.window with entries := i :: es.take 15, cursor := some (c + 1) } }))
      ∧ (can → es.length = 16 → s.window.cursor = some 15 →
          exec (.windowPrepend .main m) s = .next (lowWater (mainAnswered .windowPrepend .windowFull [] s)))
      ∧ (¬ can → exec (.windowPrepend .main m) s = .next (lowWater (mainAnswered .windowPrepend .badValue [] s))))

/-- A low-water evaluation: a short, armed direction fires and is disarmed, a direction at or above its threshold is armed; one
WINDOW_LOW for the directions that fire goes to the main port, which in DOZE wakes the platform (R36, R37, R156). -/
def Obligations.LowWaterFiresOncePerShortfall : Prop :=
  ∀ s : State, s.platform.state = .active ∨ s.platform.state = .doze →
    let w := s.window
    let ahead := match w.cursor with | some c => w.entries.length - (c + 1) | none => 0
    let behind := w.cursor.getD 0
    let fireA := ahead < w.aheadLow ∧ w.aheadArmed = true
    let fireB := behind < w.behindLow ∧ w.behindArmed = true
    let tagOf := fun (e : Option Nat) => match e with | some i => (slotAt i s).tag | none => 0
    let s1 : State := { s with
      window := { w with aheadArmed := decide (w.aheadLow ≤ ahead), behindArmed := decide (w.behindLow ≤ behind) } }
    let note : Notice := .windowLow (decide fireA) (decide fireB) ahead behind w.entries.length
      (tagOf w.entries.head?) (tagOf w.entries.getLast?)
    let s2 : State := { s1 with portMain := offerUnit note s1.portMain }
    (¬ fireA → ¬ fireB → lowWater s = s1)
    ∧ (fireA ∨ fireB → s.platform.state = .active → lowWater s = s2)
    ∧ (fireA ∨ fireB → s.platform.state = .doze → lowWater s = { s2 with
        platform := { s.platform with
          state := .active, sleepPending := none, pageSubmitted := false, idleTimer := none, wakeMain := true }
        portStandby := offerUnit (.stateChanged .active .doze .wakeNotice s.platform.clock) s.portStandby })

/-- A turn from the main port that has a page to turn to, with no turn update pending, room in the queue and the waveform table
still LOADING: the cursor moves, an update of the whole panel from that slot is submitted and stays pending, QUEUED carries its
id, an evaluation follows (R31, R32, R41, R47). The order of response and notices is the model's reading (log entry 10). -/
def Obligations.ATurnMovesTheCursorAndSubmits : Prop :=
  ∀ (m : Msg) (c id : Nat) (s : State), WindowSound s → s.window.cursor = some c → pendingTurn s = none →
    s.engine.queue.length < 8 → id = s.engine.nextId → id ∉ liveIds s.engine → s.wave.state = .loading →
    let u : Nat → Update := fun i =>
      { id := id, origin := .window, requesters := ⟨true, false, false⟩, source := s.window.entries.getD i 0,
        region := ⟨0, 0, s.pool.width, s.pool.height⟩, mode := s.window.turnMode, phase := .pending, band := none,
        clamped := false, ghostLimit := 0, changed := 0, frames := 0, index := 0, estimate := 0, promoted := false, tiles := [] }
    let after : ReqKind → Nat → State := fun k i => { mainAnswered k .queued (encU16 id) s with
      window := { s.window with cursor := some i, lastTurn := some id }
      engine := { s.engine with queue := s.engine.queue ++ [u i], nextId := if 65535 ≤ id then 1 else id + 1 } }
    (MainTakes .turnNext m readNothing () s → c + 1 < s.window.entries.length →
      exec (.turnNext .main m) s = .next (lowWater (after .turnNext (c + 1))))
    ∧ (MainTakes .turnPrev m readNothing () s → 0 < c →
      exec (.turnPrev .main m) s = .next (lowWater (after .turnPrev (c - 1))))

/-- A turn while a turn update is pending coalesces into it: the same update takes the new source and the port joins its
requesters; with the queue full and none pending the turn is refused QUEUE_FULL; at an end it is refused EDGE and WINDOW_EDGE
tells the main port; an empty window is refused WINDOW_EMPTY (R31, R32, R44). The order of response and notices is the model's
reading (log entry 10). -/
def Obligations.TurnsCoalesceOrAreRefused : Prop :=
  ∀ (m : Msg) (s : State), MainTakes .turnNext m readNothing () s → WindowSound s → s.wave.state = .loading →
    let es := s.window.entries
    (∀ c id, s.window.cursor = some c → c + 1 < es.length → pendingTurn s = some id →
      exec (.turnNext .main m) s = .next (lowWater { mainAnswered .turnNext .queued (encU16 id) s with
        window := { s.window with cursor := some (c + 1) }
        engine := { s.engine with queue := s.engine.queue.map (fun u =>
          if u.id = id then { u with
            source := es.getD (c + 1) 0, requesters := ⟨true, u.requesters.standby, u.requesters.radio⟩ } else u) } }))
    ∧ (∀ c, s.window.cursor = some c → c + 1 < es.length → pendingTurn s = none → 8 ≤ s.engine.queue.length →
      exec (.turnNext .main m) s = .next (lowWater (mainAnswered .turnNext .queueFull [] s)))
    ∧ (∀ c, s.window.cursor = some c → c + 1 = es.length →
      let t := mainAnswered .turnNext .edge [] s
      exec (.turnNext .main m) s = .next (lowWater { t with
        portMain := offerUnit (.windowEdge .next (slotAt (es.getD c 0) s).tag) t.portMain }))
    ∧ (es = [] → exec (.turnNext .main m) s = .next (lowWater (mainAnswered .turnNext .windowEmpty [] s)))

/-! ## Panel update engine (chapter 3) -/

/-- SHOW with a source, a mode and a region the engine accepts and room in the queue: QUEUED with the next id; while the waveform
table is LOADING the record waits; with a VALID table, a READY source, the panel supply sound and nothing else pending or active
it starts its scan at once, the slot SHOWING with a new stamp and the ghost limit latched; with an ABSENT or FAULTY table it ends
NO_WAVEFORM after the response. A SHOW over a full queue is refused QUEUE_FULL, of an unusable slot NOT_READY, with bad values
BAD_VALUE (R41, R42, R43, R46, R47, R48, R57, R63). ABORT ends a PENDING update of the main port ABORTED: OK, then UPDATE_DONE, and
the record is gone; a DRIVING one is refused BUSY, an id of no live record BAD_VALUE (R54, R57, R58). PAGE_RELEASE of a slot outside
the window ends the one pending update from it SOURCE_GONE, a turn with the cursor taken back to the shown slot, before the response
(R29, R35, R59); POWER_OFF with an update active ends a pending SHOW CANCELLED after the response (R61, R163). That order is the
model's reading (log entry 10), as is the radio port left with no transfer (log entry 19). -/
def Obligations.ShowSubmitsAndAbortEnds : Prop :=
  (∀ (m : Msg) (a : ShowArgs) (mode : Mode) (s : State), MainTakes .showPage m readShow a s →
     let x := slotAt a.slot s
     let id := s.engine.nextId
     let r : Region := match a.region with
       | none => ⟨0, 0, s.pool.width, s.pool.height⟩
       | some q => ⟨q.x / 8 * 8, q.y, min ((q.x + q.w + 7) / 8 * 8) s.pool.width - q.x / 8 * 8,
           min (q.y + q.h) s.pool.height - q.y⟩
     let usable := x.state ≠ .empty ∧ ¬ (x.state = .showing ∧ x.releasePending = true)
     let u : Update :=
       { id := id, origin := .main, requesters := ⟨true, false, false⟩, source := a.slot, region := r, mode := mode,
         phase := .pending, band := none, clamped := false, ghostLimit := 0, changed := 0, frames := 0, index := 0,
         estimate := 0, promoted := false, tiles := [] }
     let next := if 65535 ≤ id then 1 else id + 1
     (a.slot < 24 → modeOf a.mode = some mode → r.w ≠ 0 → r.h ≠ 0 → usable → s.engine.queue.length < 8 →
       id ∉ liveIds s.engine → s.wave.state = .loading →
       exec (.showPage .main m) s = .next { mainAnswered .showPage .queued (encU16 id) s with
         engine := { s.engine with queue := s.engine.queue ++ [u], nextId := next } })
     ∧ (a.slot < 24 → modeOf a.mode = some mode → r.w ≠ 0 → r.h ≠ 0 → x.state = .ready → s.engine.queue = [] →
         s.engine.active = [] → s.wave.state = .valid → s.monitor.panv.fault = false →
         s.store.useCounter < 4294967295 →
         let y := { x with state := .showing, showing := x.showing + 1, stamp := some s.store.useCounter }
         let v := { u with
           phase := .scanning, band := some (bandNow s).1, clamped := (bandNow s).2, ghostLimit := s.engine.ghostLimit }
         exec (.showPage .main m) s = .next { mainAnswered .showPage .queued (encU16 id) s with
           engine := { s.engine with active := [v], nextId := next }
           store := { s.store with slots := s.store.slots.set a.slot y, useCounter := s.store.useCounter + 1 } })
     ∧ (a.slot < 24 → modeOf a.mode = some mode → r.w ≠ 0 → r.h ≠ 0 → usable → s.engine.queue = [] → id ∉ liveIds s.engine →
         s.wave.state = .absent ∨ s.wave.state = .faulty → (∀ e ∈ s.charge.updates, e.1 ≠ id) →
         let t := mainAnswered .showPage .queued (encU16 id) s
         exec (.showPage .main m) s = .next { t with
           engine := { s.engine with nextId := next }
           portMain := offerUnit (.updateDone id .noWaveform 0 0 false false x.tag) t.portMain })
     ∧ (a.slot < 24 → (modeOf a.mode).isSome = true → r.w ≠ 0 → r.h ≠ 0 → usable → 8 ≤ s.engine.queue.length →
         exec (.showPage .main m) s = .next (mainAnswered .showPage .queueFull [] s))
     ∧ (a.slot < 24 → (modeOf a.mode).isSome = true → r.w ≠ 0 → r.h ≠ 0 → ¬ usable →
         exec (.showPage .main m) s = .next (mainAnswered .showPage .notReady [] s))
     ∧ (24 ≤ a.slot ∨ modeOf a.mode = none ∨ r.w = 0 ∨ r.h = 0 →
         exec (.showPage .main m) s = .next (mainAnswered .showPage .badValue [] s)))
  ∧ (∀ (m : Msg) (id : Nat) (u : Update) (s : State), MainTakes .abort m readTwo id s →
        let t := mainAnswered .abort .ok [] s
        ((s.engine.queue ++ s.engine.active).find? (fun v => v.id == id) = some u → u.phase = .pending → u.origin = .main →
          u.requesters = ⟨true, false, false⟩ → (∀ e ∈ s.charge.updates, e.1 ≠ u.id) →
          exec (.abort .main m) s = .next { t with
            portMain := offerUnit (.updateDone id .aborted u.frames u.changed u.promoted u.clamped (slotAt u.source s).tag)
              t.portMain
            engine := { s.engine with
              queue := s.engine.queue.filter (fun v => v.id != id), active := s.engine.active.filter (fun v => v.id != id) } })
        ∧ ((s.engine.queue ++ s.engine.active).find? (fun v => v.id == id) = some u → u.phase = .driving →
            exec (.abort .main m) s = .next (mainAnswered .abort .busy [] s))
        ∧ ((∀ v ∈ s.engine.queue ++ s.engine.active, v.id ≠ id) →
            exec (.abort .main m) s = .next (mainAnswered .abort .badValue [] s)))
  ∧ (∀ (m : Msg) (u : Update) (s : State), s.engine.queue = [u] → u.phase = .pending → u.requesters = ⟨true, false, false⟩ →
        (∀ v ∈ s.engine.active, v.id ≠ u.id) → (∀ e ∈ s.charge.updates, e.1 ≠ u.id) →
        let done := fun (r : UpdateResult) (tag : Word32) (v : PortUnit) =>
          offerUnit (.updateDone u.id r u.frames u.changed u.promoted u.clamped tag) v
        (∀ i, MainTakes .pageRelease m readOne i s → i < 24 → s.window.entries.contains i = false → u.source = i →
          u.origin = .main ∨ u.origin = .window →
          (slotAt i s).state = .ready → (slotAt i s).sleepRole = false → (slotAt i s).shutdownRole = false →
          let t := mainTaken .pageRelease m s
          let gone : State := { t with
            pool := { s.pool with free := s.pool.free ++ (slotAt i s).blocks }
            store := { s.store with slots := s.store.slots.set i Slot.reset }
            window := { s.window with shown := if s.window.shown = some i then none else s.window.shown }
            engine := { s.engine with queue := [] }
            portMain := done .sourceGone (slotAt i s).tag t.portMain }
          exec (.pageRelease .main m) s =
            .next (respond .main .ok [] (if u.origin = .window then turnTakenBack gone else gone)))
        ∧ (MainTakes .powerOff m readNothing () s → u.origin = .main → s.engine.active ≠ [] → s.spool.assembly = none →
          let t := mainAnswered .powerOff .ok [] s
          exec (.powerOff .main m) s = .next { t with
            platform := { s.platform with
              state := .halting, haltCause := some .powerOff, sleepPending := none, pageSubmitted := false,
              pageDecided := false, idleTimer := none, onward := none, wakeMain := false, radioSetting := false,
              alarms := s.platform.alarms.map (fun _ => none) }
            engine := { s.engine with queue := [] }
            wave := if s.wave.state = .valid then { s.wave with scrub := .suspended, scrubTimer := none, pass := none }
              else s.wave
            spool := { s.spool with bare := none }
            portMain := done .cancelled (slotAt u.source s).tag t.portMain
            portStandby := offerUnit (.stateChanged .halting .active .powerOff s.platform.clock) s.portStandby
            portRadio := { s.portRadio with
              transfer := .idle, waiting := []
              inProcess := s.portRadio.inProcess.map (fun q => { q with condemned := true })
              queue := [], headStarted := false, errors := .empty } }))

/-- What a scan counts: FULL, every pixel of the region; PARTIAL, those whose panel image value differs from the source, promoted
to FULL where a tile that holds one stands at the ghost limit its scan started with; QUICK, those that differ from the source
mapped to 0 or 15, never promoted (R49, R50, R63). -/
def Obligations.AScanCountsAndPromotes : Prop :=
  ∀ (u : Update) (s : State),
    let v := scanned u s
    let differs := fun (q : Nat × Nat) => panelPixel s q.1 q.2 ≠ slotPixel s u.source q.1 q.2
    let atLimit := ∃ q ∈ regionPixels u.region, differs q ∧ tileOf s.pool q.1 q.2 < 64 ∧
      u.ghostLimit ≤ s.engine.ghosts.getD (tileOf s.pool q.1 q.2) 0
    (u.mode = .full → v.mode = .full ∧ v.promoted = u.promoted ∧ v.changed = u.region.w * u.region.h)
    ∧ (u.mode = .partially → atLimit → v.mode = .full ∧ v.promoted = true ∧ v.changed = u.region.w * u.region.h)
    ∧ (u.mode = .partially → ¬ atLimit → v.mode = .partially ∧ v.promoted = u.promoted ∧
        v.changed = (regionPixels u.region).countP (fun q => decide (differs q)))
    ∧ (u.mode = .quick → v.mode = .quick ∧ v.promoted = u.promoted ∧
        v.changed = (regionPixels u.region).countP (fun q => decide (panelPixel s q.1 q.2 ≠
          if (slotPixel s u.source q.1 q.2).toNat ≤ 7 then 0#4 else 15#4)))

/-- The completion of a scan in ACTIVE, with the level index unchanged by it: N from the table, E from N and n, and the grant,
which makes the update DRIVING with E reserved; an update of a SHOW or a turn that gets no grant ends LOW_CHARGE, and a PARTIAL or
QUICK scan with no changed pixel NO_CHANGE, its lane free, its slot READY, the main port told. After a turn that ends NO_CHANGE the
shown slot is its source; after one that ends LOW_CHARGE the cursor goes back to the entry of the shown slot (R34, R35, R49, R51,
R54, R57, R136, R138, R139). -/
def Obligations.AScanIsGrantedOrEndsUnchanged : Prop :=
  ∀ (u : Update) (s : State), s.platform.state = .active → s.spool.held = false →
    s.engine.active.find? (fun v => v.id == u.id && v.phase == .scanning) = some u →
    let v := scanned u s
    let n := tableFrames s.wave v.mode (u.band.getD 0)
    let e := n * (s.charge.params.base + (s.charge.params.perPixel * v.changed + 65535) / 65536)
    let c := { s.charge with updates := s.charge.updates ++ [(u.id, e)] }
    let counted := v.mode = .full ∨ v.changed ≠ 0
    (counted → (u.origin = .shutdownPage ∨ (floorTurn s.charge : Int) ≤ available s.charge - e) →
      nextLevel c = s.charge.level →
      exec (.scanComplete u.id) s = .next { s with
        engine := { s.engine with active := s.engine.active.map (fun w =>
          if w.id = u.id then { v with frames := n, estimate := e, phase := .driving, index := 0 } else w) }
        charge := c })
    ∧ (s.engine.queue = [] → u.origin = .main ∨ u.origin = .window → u.requesters = ⟨true, false, false⟩ →
        (∀ r ∈ s.charge.updates, r.1 ≠ u.id) → (slotAt u.source s).state = .showing → (slotAt u.source s).showing = 1 →
        (slotAt u.source s).releasePending = false →
        let ended := fun (r : UpdateResult) (frames : Nat) (promoted : Bool) => ({ s with
          engine := { s.engine with active := s.engine.active.filter (fun w => w.id != u.id) }
          store := { s.store with
            slots := s.store.slots.set u.source { slotAt u.source s with state := .ready, showing := 0 } }
          portMain := offerUnit (.updateDone u.id r frames v.changed promoted u.clamped (slotAt u.source s).tag)
            s.portMain } : State)
        (¬ counted → exec (.scanComplete u.id) s = .next
          (let t := ended .noChange u.frames u.promoted
           { t with window :=
               if u.origin = .window then { s.window with shown := some u.source } else s.window }))
        ∧ (counted → available s.charge - e < floorTurn s.charge → exec (.scanComplete u.id) s = .next
          (let t := ended .lowCharge n v.promoted
           if u.origin = .window then turnTakenBack t else t)))

/-- A frame event in ACTIVE. With PANV sound it sends one symbol for each pixel of every DRIVING update and advances it; at its last
frame an update of a SHOW or a turn ends DONE: the panel image takes its targets and no other byte of the DRAM changes, the ghost
counters change by its mode, lane and reservation are free, the slot is READY or, with release pending, EMPTY, UPDATE_DONE goes
out, and after a turn the shown slot is its source, or absent where the slot is gone. With PANV in fault no frame is sent and the
update ends SUPPLY_FAULT: the panel image takes its targets too, the tiles its region touches stand at the ghost limit, and after
a turn the cursor goes back to the entry of the shown slot (R17, R34, R35, R52, R53, R54, R55, R56, R57, R60). -/
def Obligations.AFrameDrivesAndFinishesUpdates : Prop :=
  ∀ s : State, s.platform.state = .active → s.engine.frameTimer.isSome = true →
    let bus := (s.engine.active.filter (fun u => u.phase == .driving)).map (fun u => (⟨u.id, u.region,
      (regionPixels u.region).map (fun q => stringSymbol s.wave u.mode (u.band.getD 0) (panelPixel s q.1 q.2)
        (targetPixel s u.mode u.source q.1 q.2) u.index)⟩ : BusDrive))
    let timer := some (1000000 / s.engine.frameRate)
    (s.monitor.panv.fault = false → (∀ u ∈ s.engine.active, u.phase = .driving → u.index + 1 < u.frames) →
      exec .frameEvent s = .next { s with engine := { s.engine with
        frameTimer := timer, bus := bus
        active := s.engine.active.map (fun u => if u.phase = .driving then { u with index := u.index + 1 } else u) } })
    ∧ ∀ u : Update, s.engine.active = [u] → u.phase = .driving → s.engine.queue = [] →
        u.origin = .main ∨ u.origin = .window → u.requesters = ⟨true, false, false⟩ → s.spool.held = false →
        let c := { s.charge with updates := s.charge.updates.filter (fun r => r.1 != u.id) }
        let x := slotAt u.source s
        nextLevel c = s.charge.level → x.state = .showing → x.showing = 1 →
        let y : Slot := if x.releasePending = true then Slot.reset else { x with state := .ready, showing := 0 }
        let ended := fun (r : UpdateResult) (bus : List BusDrive) (ghost : Nat → Nat → Nat) (dram : List Host.Cell) =>
          ({ s with
            engine := { s.engine with
              frameTimer := timer, bus := bus, active := [], ghosts := s.engine.ghosts.mapIdx ghost }
            charge := c
            pool := { s.pool with free := if x.releasePending = true then s.pool.free ++ x.blocks else s.pool.free }
            store := { s.store with slots := s.store.slots.set u.source y }
            dram := dram
            portMain := offerUnit (.updateDone u.id r u.frames u.changed u.promoted u.clamped x.tag) s.portMain } : State)
        let painted := fun (dram : List Host.Cell) =>
          (∀ address, (∀ q ∈ regionPixels u.region,
              address ≠ blockAddress s.pool.panel ((q.2 * s.pool.width + q.1) / 2)) →
            Mem.read dram address = Mem.read s.dram address)
          ∧ (Mem.wf s.dram = true → s.pool.panel.Nodup → pageSize s.pool ≤ 131072 * s.pool.panel.length →
              u.region.x + u.region.w ≤ s.pool.width → u.region.y + u.region.h ≤ s.pool.height →
              ∀ x y, x < s.pool.width → y < s.pool.height → ownerPixel dram s.pool.panel (y * s.pool.width + x) =
                if u.region.x ≤ x ∧ x < u.region.x + u.region.w ∧ u.region.y ≤ y ∧ y < u.region.y + u.region.h then
                  targetPixel s u.mode u.source x y
                else panelPixel s x y)
        let used := fun t g => if u.mode = .full then
            if coversTile s.pool u.region t = true then 0
            else if touchesTile s.pool u.region t = true then min (g + 1) 63 else g
          else if t ∈ u.tiles then min (g + 1) 63 else g
        let forced := fun t g => if touchesTile s.pool u.region t = true then s.engine.ghostLimit else g
        (s.monitor.panv.fault = false → u.frames = u.index + 1 → ∃ dram, painted dram ∧ exec .frameEvent s = .next
          (let t := ended .done bus used dram
           { t with window := if u.origin = .window then
               { s.window with shown := if x.releasePending = true then none else some u.source } else s.window }))
        ∧ (s.monitor.panv.fault = true → ∃ dram, painted dram ∧ exec .frameEvent s = .next
          (let t := ended .supplyFault [] forced dram
           if u.origin = .window then turnTakenBack t else t))

/-! ## Waveform table (chapter 4) -/

/-- A load: WAVEFORM_BEGIN with no update active and a sound descriptor starts it, WAVEFORM_DATA within the declared size and with
known symbols only continues it, WAVEFORM_END with the whole stream and its CRC makes the table VALID with the scrub waiting, and
with anything else FAULTY and BAD_IMAGE (R67, R70, R71, R72, R73). That a new load keeps the time of the last completed pass is
the model's choice (log entry 15). -/
def Obligations.AWaveformLoadRunsToItsEnd : Prop :=
  ∀ (m : Msg) (s : State),
    (∀ a, MainTakes .waveformBegin m readWaveformBegin a s → s.engine.active = [] → s.engine.queue = [] →
      1 ≤ a.bands → a.bands ≤ 8 → (∀ b ∈ a.bounds, -400 ≤ b ∧ b ≤ 1000) → a.bounds.Pairwise (· < ·) →
      (∀ n ∈ a.counts, 1 ≤ n ∧ n ≤ 127) →
      exec (.waveformBegin .main m) s = .next { mainAnswered .waveformBegin .ok (encU32 (64 * a.counts.sum)) s with
        wave := { s.wave with
          state := .loading, descriptor := some ⟨a.bounds, a.counts⟩, declared := some (64 * a.counts.sum),
          loadPos := some 0, crc := some 0, reference := none, bytes := [], scrub := .stopped, scrubTimer := none,
          pass := none } })
    ∧ (∀ bs pos size crc, MainTakes .waveformData m readStream bs s → s.wave.state = .loading →
        s.wave.loadPos = some pos → s.wave.declared = some size → s.wave.crc = some crc → pos + bs.length ≤ size →
        (∀ b ∈ bs, ∀ i, i < 4 → b.toNat / 4 ^ i % 4 ≠ 3) →
        exec (.waveformData .main m) s = .next { mainAnswered .waveformData .ok (encU32 (pos + bs.length)) s with
          wave := { s.wave with
            bytes := s.wave.bytes ++ bs, loadPos := some (pos + bs.length), crc := some (crc32From crc bs) } })
    ∧ (∀ crc, MainTakes .waveformEnd m readWord crc s → s.wave.state = .loading → s.engine.queue = [] →
        s.wave.loadPos = s.wave.declared → s.wave.crc = some crc →
        exec (.waveformEnd .main m) s = .next { mainAnswered .waveformEnd .ok [] s with
          wave := { s.wave with
            state := .valid, reference := some crc, loadPos := none, crc := none, passCount := 0, scrub := .waiting,
            scrubTimer := some (1000 * s.wave.scrubPeriod), pass := none } })
    ∧ (∀ crc, MainTakes .waveformEnd m readWord crc s → s.wave.state = .loading → s.engine.queue = [] →
        (s.wave.loadPos ≠ s.wave.declared ∨ s.wave.crc ≠ some crc) →
        exec (.waveformEnd .main m) s = .next { mainAnswered .waveformEnd .badImage [] s with
          wave := { s.wave with state := .faulty } })

/-- The scrub: an expiry in WAITING starts a pass, in PASSING only restarts the timer; the end of a pass compares the CRC of what
the memory holds with the reference: a match goes back to WAITING, a mismatch makes the table FAULTY and tells the main port
(R73, R74). That the pass's end brings the bytes that memory upsets have changed is the model's choice (log entry 15). -/
def Obligations.TheScrubChecksTheTable : Prop :=
  ∀ s : State,
    (s.wave.scrubTimer.isSome = true → s.wave.scrub = .waiting →
      exec .scrubTimerExpiry s = .next { s with wave := { s.wave with
        scrub := .passing, pass := some ⟨0, 0⟩, scrubTimer := some (1000 * s.wave.scrubPeriod) } })
    ∧ (s.wave.scrubTimer.isSome = true → s.wave.scrub = .passing →
      exec .scrubTimerExpiry s = .next { s with wave := { s.wave with scrubTimer := some (1000 * s.wave.scrubPeriod) } })
    ∧ ∀ upsets : List Upset, s.wave.scrub = .passing → s.platform.state = .active →
        let bytes := upsets.foldl (fun m u => m.set u.position u.value) s.wave.bytes
        let w := { s.wave with
          bytes := bytes, passCount := min (s.wave.passCount + 1) 4294967295, lastPass := some s.platform.clock, pass := none }
        (s.wave.reference = some (crc32 bytes) →
          exec (.scrubPassEnd upsets) s = .next { s with wave := { w with scrub := .waiting } })
        ∧ (∀ r, s.wave.reference = some r → r ≠ crc32 bytes → s.engine.queue = [] →
          exec (.scrubPassEnd upsets) s = .next { s with
            wave := { w with state := .faulty, scrub := .stopped, scrubTimer := none }
            portMain := offerUnit (.waveformFault r (crc32 bytes) w.passCount) s.portMain })

/-! ## Download spool (chapter 5) -/

/-- CHUNK_BEGIN with an OPENING prefix of a new title, in ACTIVE with no assembly open and the spool not HELD, that passes the
length, blocks and charge steps with data still to come: the title takes the lowest free entry and its blocks from the head of
the free list, the data is written from byte 0, the assembly opens with its cost reserved, OK tells what is collected. RESUMING at
the received bytes of a RECEIVING title, and BARE with a RECEIVING bare target, do the same from those bytes on, with the blocks
the chunk needs beyond those the title holds. CHUNK_MORE that leaves data to come writes its bytes after those collected, and no
other byte of the DRAM changes (R83, R85, R86, R88, R89, R90, R91, R92). Of such a title RESUMING at another offset is a MISFIT,
counted, under LENIENT with nothing else, under STRICT with the title FAILED and told to main (title_wake off) and radio; a bad
length is BAD_LENGTH, too few blocks SPOOL_FULL, told to radio and main; while HELD, and where the grant is refused, HELD, with the
blocks taken back at the tail of the free list, and the second enters HELD with RADIO_HOLD; each is counted. BARE with no bare
target is refused NO_TITLE. CHARGE_SET at index 0 with A at the radio floor and the hysteresis leaves HELD with RADIO_RESUME, below
it HELD stands (R81, R86, R87, R88, R89, R90, R98, R140). The order of response and notices of MISFIT, SPOOL_FULL and HELD on the
radio port is the model's reading (log entry 10). -/
def Obligations.AChunkOpensAndCollects : Prop :=
  ∀ (m : Msg) (s : State), s.platform.state = .active →
    (∀ (a : ChunkBeginArgs) (policy : Policy) (i : Nat), OtherTakes .radio .chunkBegin m readChunkBegin a s →
      s.spool.assembly = none → s.spool.held = false → s.platform.sleepPending = none →
      a.form = 1 → a.upper = 0 → policyOf a.policy = some policy → a.title ≠ 0 → a.offset = 0 →
      a.total ≤ s.pool.spoolLimit * 65536 → (∀ j, j < 8 → ∀ t, titleAt j s = some t → t.id ≠ a.title) →
      i < 8 → s.spool.titles.length = 8 → titleAt i s = none → (∀ j, j < i → titleAt j s ≠ none) →
      a.data.length < a.declared → a.declared ≤ 4096 →
      (a.total ≠ 0 → a.declared ≤ a.total ∧ (a.last = true → a.declared = a.total)) →
      1 ≤ s.pool.free.length → spoolHolding s.spool + 1 ≤ s.pool.spoolLimit →
      let cost := (a.declared * s.charge.params.perKib + 1023) / 1024
      let c := { s.charge with chunk := some cost }
      (floorRadio s.charge : Int) ≤ available s.charge - cost → nextLevel c = s.charge.level →
      let blocks := s.pool.free.take 1
      let t1 : Title :=
        { id := a.title, state := .receiving, failCause := none, total := if a.total = 0 then none else some a.total,
          crc := if a.crcPresent = true then some a.crc else none, policy := policy, received := 0, blocks := blocks,
          misfits := 0, lastChunk := none }
      let open1 : Assembly :=
        { entry := i, offset := 0, declared := a.declared, collected := a.data.length, last := a.last, cost := cost,
          ageLeft := s.spool.chunkAge }
      ∃ t, exec (.chunkBegin .radio m) s = .next t
        ∧ t = { otherAnswered .radio .chunkBegin .ok (encWord a.title ++ encU32 0 ++ encU32 a.data.length) s with
            pool := { s.pool with free := s.pool.free.drop 1 }
            spool := { s.spool with titles := s.spool.titles.set i (some t1), assembly := some open1, bare := some i }
            charge := c
            dram := t.dram }
        ∧ (Mem.wf s.dram = true → ∀ j, j < a.data.length → ownerByte t.dram blocks j = a.data.getD j 0)
        ∧ ∀ address, (∀ j, j < a.data.length → address ≠ blockAddress blocks j) →
            Mem.read t.dram address = Mem.read s.dram address)
    ∧ (∀ (a : ChunkBeginArgs) (i : Nat) (x : Title), OtherTakes .radio .chunkBegin m readChunkBegin a s →
        s.spool.assembly = none → s.spool.held = false → s.platform.sleepPending = none →
        a.upper = 0 → a.crcPresent = false → i < 8 → s.spool.titles.length = 8 → titleAt i s = some x → x.state = .receiving →
        (a.form = 2 ∧ a.title = x.id ∧ x.id ≠ 0 ∧ a.offset = x.received ∧
          (∀ j, j < i → ∀ y, titleAt j s = some y → y.id ≠ x.id)) ∨ (a.form = 3 ∧ s.spool.bare = some i) →
        a.data.length < a.declared → a.declared ≤ 4096 →
        (∀ n, x.total = some n → x.received + a.declared ≤ n ∧ (a.last = true → x.received + a.declared = n)) →
        let needed := (x.received + a.declared + 65535) / 65536 - x.blocks.length
        needed ≤ s.pool.free.length → spoolHolding s.spool + needed ≤ s.pool.spoolLimit →
        let cost := (a.declared * s.charge.params.perKib + 1023) / 1024
        let c := { s.charge with chunk := some cost }
        (floorRadio s.charge : Int) ≤ available s.charge - cost → nextLevel c = s.charge.level →
        let blocks := x.blocks ++ s.pool.free.take needed
        let open1 : Assembly :=
          { entry := i, offset := x.received, declared := a.declared, collected := a.data.length, last := a.last,
            cost := cost, ageLeft := s.spool.chunkAge }
        ∃ t, exec (.chunkBegin .radio m) s = .next t
          ∧ t = { otherAnswered .radio .chunkBegin .ok (encWord x.id ++ encU32 x.received ++ encU32 a.data.length) s with
              pool := { s.pool with free := s.pool.free.drop needed }
              spool := { s.spool with
                titles := s.spool.titles.set i (some { x with blocks := blocks }), assembly := some open1, bare := some i }
              charge := c
              dram := t.dram }
          ∧ (Mem.wf s.dram = true → blocks.Nodup → x.received + a.data.length ≤ 65536 * blocks.length →
              ∀ j, j < a.data.length → ownerByte t.dram blocks (x.received + j) = a.data.getD j 0)
          ∧ ∀ address, (∀ j, j < a.data.length → address ≠ blockAddress blocks (x.received + j)) →
              Mem.read t.dram address = Mem.read s.dram address)
    ∧ (∀ (bs : List Byte) (a : Assembly) (x : Title), OtherTakes .radio .chunkMore m readChunkMore bs s →
         s.spool.assembly = some a → titleAt a.entry s = some x → a.collected + bs.length < a.declared →
         ∃ t, exec (.chunkMore .radio m) s = .next t
           ∧ t = { otherAnswered .radio .chunkMore .ok (encU32 (a.collected + bs.length)) s with
               spool := { s.spool with assembly := some { a with collected := a.collected + bs.length } }
               dram := t.dram }
           ∧ (Mem.wf s.dram = true → x.blocks.Nodup → a.offset + a.collected + bs.length ≤ 65536 * x.blocks.length →
               ∀ j, j < bs.length → ownerByte t.dram x.blocks (a.offset + a.collected + j) = bs.getD j 0)
           ∧ ∀ address, (∀ j, j < bs.length → address ≠ blockAddress x.blocks (a.offset + a.collected + j)) →
               Mem.read t.dram address = Mem.read s.dram address)
    ∧ (∀ (a : ChunkBeginArgs) (i : Nat) (x : Title), OtherTakes .radio .chunkBegin m readChunkBegin a s →
      s.spool.assembly = none → s.platform.sleepPending = none →
      a.upper = 0 → a.crcPresent = false → i < 8 → s.spool.titles.length = 8 → titleAt i s = some x → x.state = .receiving →
      let resuming := a.form = 2 ∧ a.title = x.id ∧ x.id ≠ 0 ∧ (∀ j, j < i → ∀ y, titleAt j s = some y → y.id ≠ x.id)
      let goesOn := (resuming ∧ a.offset = x.received) ∨ (a.form = 3 ∧ s.spool.bare = some i)
      let end_ := x.received + a.declared
      let goodLength := 1 ≤ a.declared ∧ a.declared ≤ 4096 ∧ a.data.length ≤ a.declared ∧
        (∀ n, x.total = some n → end_ ≤ n ∧ (a.last = true → end_ = n))
      let needed := (end_ + 65535) / 65536 - x.blocks.length
      let room := needed ≤ s.pool.free.length ∧ spoolHolding s.spool + needed ≤ s.pool.spoolLimit
      let n := s.spool.stats
      let up := fun k => min (k + 1) 4294967295
      let answer := fun (r : Result) (data : List Byte) (sp : Spool) =>
        ({ otherAnswered .radio .chunkBegin r data s with spool := sp } : State)
      let missed := { x with misfits := min (x.misfits + 1) 65535 }
      let misfit := fun (y : Title) => answer .misfit (encWord x.id ++ encU32 x.received)
        { s.spool with titles := s.spool.titles.set i (some y), stats := { n with misfit := up n.misfit } }
      (resuming → a.offset ≠ x.received → x.policy = .lenient →
        exec (.chunkBegin .radio m) s = .next (misfit missed))
      ∧ (resuming → a.offset ≠ x.received → x.policy = .strict → s.spool.titleWake = false →
          let t := misfit { missed with state := .failed, failCause := some .misfit }
          let note : Notice := .titleFailed x.id .misfit x.received
          exec (.chunkBegin .radio m) s = .next { t with
            portMain := offerUnit note t.portMain, portRadio := offerUnit note t.portRadio })
      ∧ (goesOn → ¬ goodLength →
          exec (.chunkBegin .radio m) s = .next (answer .badLength [] { s.spool with stats := { n with length := up n.length } }))
      ∧ (goesOn → goodLength → ¬ room →
          let t := answer .spoolFull [] { s.spool with stats := { n with full := up n.full } }
          let note : Notice := .spoolFull x.id needed (spoolHolding s.spool) s.pool.spoolLimit s.pool.free.length
          exec (.chunkBegin .radio m) s = .next { t with
            portRadio := offerUnit note t.portRadio, portMain := offerUnit note t.portMain })
      ∧ (goesOn → goodLength → room → x.blocks.length = (x.received + 65535) / 65536 →
          let cost := (a.declared * s.charge.params.perKib + 1023) / 1024
          let t := { answer .held [] { s.spool with stats := { n with held := up n.held } } with
            pool := { s.pool with free := s.pool.free.drop needed ++ s.pool.free.take needed } }
          (s.spool.held = true → exec (.chunkBegin .radio m) s = .next t)
          ∧ (s.spool.held = false → available s.charge - cost < floorRadio s.charge →
              exec (.chunkBegin .radio m) s = .next { t with
                spool := { t.spool with held := true }
                portRadio := offerUnit (.radioHold x.id cost) t.portRadio })))
    ∧ (∀ (a : ChunkBeginArgs), OtherTakes .radio .chunkBegin m readChunkBegin a s → s.spool.assembly = none →
        s.platform.sleepPending = none → a.upper = 0 → a.crcPresent = false → a.form = 3 → s.spool.bare = none →
        exec (.chunkBegin .radio m) s = .next (otherAnswered .radio .chunkBegin .noTitle [] s))
    ∧ (∀ v, MainTakes .chargeSet m readCharge v s → s.spool.held = true → s.charge.level = 0 →
        let c := { s.charge with q := min v (s.charge.params.capacity * 3600000) }
        let t := { mainAnswered .chargeSet .ok (encCharge c.q ++ encCharge (c.q - reserved c) ++ encU8 0) s with charge := c }
        let clear := ((floorRadio c + hysteresisOf c : Nat) : Int) ≤ c.q - reserved c
        rawIndex c = 0 →
        (clear → exec (.chargeSet .main m) s = .next { t with
          spool := { s.spool with held := false }, portRadio := offerUnit .radioResume s.portRadio })
        ∧ (¬ clear → exec (.chargeSet .main m) s = .next t))

/-- CHUNK_MORE that brings the last byte of a chunk writes its bytes and ends the chunk: the received bytes grow by the declared
length, its size bin counts it, the assembly closes and its reservation goes, OK carries the title's bytes and state. The title
stays RECEIVING with bytes to come; at its total length or at LAST it becomes VERIFYING with a title CRC and joins the verification
list, or COMPLETE without one, told to main (title_wake off) and radio. CHUNK_MORE without an assembly is refused SEQUENCE
(R92, R93, R94). -/
def Obligations.AChunkEndsWithItsLastByte : Prop :=
  ∀ (m : Msg) (bs : List Byte) (s : State), s.platform.state = .active →
    OtherTakes .radio .chunkMore m readChunkMore bs s →
    (∀ (a : Assembly) (x : Title), s.spool.assembly = some a → titleAt a.entry s = some x →
      a.collected + bs.length = a.declared → x.state = .receiving → s.spool.held = false → s.charge.chunk = some a.cost →
      let c := { s.charge with chunk := none }
      nextLevel c = s.charge.level →
      let x1 := { x with received := x.received + a.declared, lastChunk := some s.platform.clock }
      let n := s.spool.stats
      let stats := if a.declared ≤ 512 then { n with small := min (n.small + 1) 4294967295 }
        else if a.declared ≤ 2048 then { n with medium := min (n.medium + 1) 4294967295 }
        else { n with large := min (n.large + 1) 4294967295 }
      let whole := a.last = true ∨ x.total = some (x.received + a.declared)
      let x2 := { x1 with total := some (x.total.getD (x.received + a.declared)) }
      let ended := fun (y : Title) (code : Nat) (dram : List Host.Cell) => ({ otherAnswered .radio .chunkMore .ok
            (encWord x.id ++ encU32 (x.received + a.declared) ++ encU8 code) s with
          spool := { s.spool with titles := s.spool.titles.set a.entry (some y), assembly := none, stats := stats }
          charge := c
          dram := dram } : State)
      ∃ dram,
        (¬ whole → exec (.chunkMore .radio m) s = .next (ended x1 0 dram))
        ∧ (whole → x.crc.isSome = true → exec (.chunkMore .radio m) s = .next
            (let t := ended { x2 with state := .verifying } 1 dram
             { t with spool := { t.spool with verifying := s.spool.verifying ++ [a.entry] } }))
        ∧ (whole → x.crc = none → s.spool.titleWake = false →
            exec (.chunkMore .radio m) s = .next
            (let t := ended { x2 with state := .complete } 2 dram
             let note : Notice := .titleComplete x.id (x.received + a.declared)
             { t with portMain := offerUnit note t.portMain, portRadio := offerUnit note t.portRadio }))
        ∧ (Mem.wf s.dram = true → x.blocks.Nodup → a.offset + a.declared ≤ 65536 * x.blocks.length →
            ∀ j, j < bs.length → ownerByte dram x.blocks (a.offset + a.collected + j) = bs.getD j 0)
        ∧ ∀ address, (∀ j, j < bs.length → address ≠ blockAddress x.blocks (a.offset + a.collected + j)) →
            Mem.read dram address = Mem.read s.dram address)
    ∧ (s.spool.assembly = none →
        exec (.chunkMore .radio m) s = .next (otherAnswered .radio .chunkMore .sequence [] s))

/-- The end of a verification makes the title COMPLETE on a match and FAILED for its CRC on a mismatch, and tells main and radio;
the expiry of the aging timer drops the open assembly: blocks beyond the received bytes go back to the free list, AGED is
counted, the reservation goes, CHUNK_AGED tells the radio port (R81, R94, R95, R96). -/
def Obligations.VerificationAndAgingEndTheirWork : Prop :=
  ∀ s : State, s.platform.state = .active →
    (∀ (i : Nat) (rest : List Nat) (x : Title), s.spool.verifying = i :: rest → titleAt i s = some x →
      s.spool.titleWake = false →
      let bytes := (List.range x.received).map (fun j => ownerByte s.dram x.blocks j)
      let ended := fun (y : Title) (n : Notice) => { s with
        spool := { s.spool with verifying := rest, titles := s.spool.titles.set i (some y) }
        portMain := offerUnit n s.portMain
        portRadio := offerUnit n s.portRadio }
      (x.crc = some (crc32 bytes) → exec .verificationEnd s =
        .next (ended { x with state := .complete } (.titleComplete x.id x.received)))
      ∧ (x.crc ≠ some (crc32 bytes) → exec .verificationEnd s =
        .next (ended { x with state := .failed, failCause := some .crc } (.titleFailed x.id .crc x.received))))
    ∧ ∀ (a : Assembly) (x : Title), s.spool.assembly = some a → titleAt a.entry s = some x →
        s.charge.chunk = some a.cost → s.spool.held = false →
        let c := { s.charge with chunk := none }
        nextLevel c = s.charge.level →
        let k := (x.received + 65535) / 65536
        exec .chunkAgingExpiry s = .next { s with
          pool := { s.pool with free := s.pool.free ++ x.blocks.drop k }
          spool := { s.spool with
            titles := s.spool.titles.set a.entry (some { x with blocks := x.blocks.take k })
            assembly := none
            stats := { s.spool.stats with aged := min (s.spool.stats.aged + 1) 4294967295 } }
          charge := c
          portRadio := offerUnit (.chunkAged x.id .aged x.received) s.portRadio }

/-- TITLE_READ answers bytes below the received count, TITLE_RELEASE of a title with no assembly open on it frees its entry and
returns its blocks, TITLE_QUERY reports a title, SPOOL_STATS_CLEAR zeroes the counters; an unknown id is refused NO_TITLE, id 0
BAD_VALUE (R99, R100, R101, R102). -/
def Obligations.TitleRequestsReadReleaseAndReport : Prop :=
  ∀ (m : Msg) (id : Word32) (s : State),
    let unknown := ∀ j, j < 8 → ∀ y, titleAt j s = some y → y.id ≠ id
    (∀ i x, i < 8 → titleAt i s = some x → x.id = id → id ≠ 0 → (∀ j, j < i → ∀ y, titleAt j s = some y → y.id ≠ id) →
      (∀ offset length, MainTakes .titleRead m readTitleRead ⟨id, offset, length⟩ s → s.platform.powerUp = none →
        1 ≤ length → length ≤ 1020 → offset + length ≤ x.received →
        exec (.titleRead .main m) s = .next (mainAnswered .titleRead .ok
          ((List.range length).map (fun j => ownerByte s.dram x.blocks (offset + j))) s))
      ∧ (MainTakes .titleRelease m readWord id s → (∀ a, s.spool.assembly = some a → a.entry ≠ i) →
        exec (.titleRelease .main m) s = .next { mainAnswered .titleRelease .ok [] s with
          pool := { s.pool with free := s.pool.free ++ x.blocks }
          spool := { s.spool with
            titles := s.spool.titles.set i none
            verifying := s.spool.verifying.filter (fun j => j != i)
            bare := if s.spool.bare = some i then none else s.spool.bare } })
      ∧ (OtherTakes .radio .titleQuery m readWord id s → exec (.titleQuery .radio m) s =
          .next (otherAnswered .radio .titleQuery .ok (encU8 x.state.code ++
            encU8 (match x.failCause with | none => 0 | some .misfit => 1 | some .crc => 2) ++ encU32 x.received
            ++ encFlag s.spool.held) s)))
    ∧ (MainTakes .titleRelease m readWord id s → id ≠ 0 → unknown →
        exec (.titleRelease .main m) s = .next (mainAnswered .titleRelease .noTitle [] s))
    ∧ (MainTakes .titleQuery m readWord id s → id ≠ 0 → unknown →
        exec (.titleQuery .main m) s = .next (mainAnswered .titleQuery .noTitle [] s))
    ∧ (MainTakes .titleRelease m readWord id s → id = 0 →
        exec (.titleRelease .main m) s = .next (mainAnswered .titleRelease .badValue [] s))
    ∧ (MainTakes .spoolStatsClear m readNothing () s → exec (.spoolStatsClear .main m) s =
        .next { mainAnswered .spoolStatsClear .ok [] s with
          spool := { s.spool with stats := ⟨0, 0, 0, 0, 0, 0, 0, 0, 0⟩ } })

/-! ## Front light (chapter 6) -/

/-- LIGHT_SET from the main port sets level, warmth, mode and writer, answers with them and tells the other writer; LIGHT_CURVE and
LIGHT_AUTO_POINTS take a sound table, the duties following a new curve at once; bad values are refused BAD_VALUE
(R106, R107, R108, R109, R112). -/
def Obligations.LightRequestsSetTheLight : Prop :=
  ∀ (m : Msg) (s : State),
    (∀ level warmth, MainTakes .lightSet m readLightSet ⟨level, warmth, false⟩ s → warmth ≤ 255 →
      let l := { s.light with
        level := min level 1023, warmth := warmth, auto := false, autoFirst := false, writer := some .main }
      exec (.lightSet .main m) s =
        .next { mainAnswered .lightSet .ok (encU16 (min level 1023) ++ encU16 warmth ++ encU8 0) s with
          light := l
          portStandby := offerUnit (.lightChanged (min level 1023) warmth false .main) s.portStandby })
    ∧ (∀ level warmth (amb : Int), MainTakes .lightSet m readLightSet ⟨level, warmth, true⟩ s → warmth ≤ 255 →
        s.light.auto = false → s.monitor.amb.last = some amb →
        let l := { s.light with
          warmth := warmth, auto := true, autoFirst := false, autoLevel := autoCandidate s.light.points amb.toNat,
          writer := some .main }
        exec (.lightSet .main m) s =
          .next { mainAnswered .lightSet .ok (encU16 s.light.level ++ encU16 warmth ++ encU8 1) s with
            light := l
            portStandby := offerUnit (.lightChanged s.light.level warmth true .main) s.portStandby })
    ∧ (∀ a, MainTakes .lightSet m readLightSet a s → 255 < a.warmth →
        exec (.lightSet .main m) s = .next (mainAnswered .lightSet .badValue [] s))
    ∧ (∀ d, MainTakes .lightCurve m (readWords 33) d s →
        let good := (∀ v ∈ d, v ≤ 4095) ∧ d.head? = some 0 ∧ d.Pairwise (· ≤ ·)
        let total := totalDuty d s.light.rampLevel
        (good → exec (.lightCurve .main m) s = .next { mainAnswered .lightCurve .ok [] s with
          light := { s.light with
            curve := d, warmDuty := total * s.light.rampWarmth / 255,
            coolDuty := total - total * s.light.rampWarmth / 255 } })
        ∧ (¬ good → exec (.lightCurve .main m) s = .next (mainAnswered .lightCurve .badValue [] s)))
    ∧ (∀ a, MainTakes .lightAutoPoints m (readWords 5) a s →
        let good := (∀ v ∈ a, v ≤ 1023) ∧ a.Pairwise (· ≤ ·)
        (good → exec (.lightAutoPoints .main m) s = .next { mainAnswered .lightAutoPoints .ok [] s with
          light := { s.light with points := a } })
        ∧ (¬ good → exec (.lightAutoPoints .main m) s = .next (mainAnswered .lightAutoPoints .badValue [] s)))

/-- A ramp tick in ACTIVE moves the ramp level by ramp_step towards the lower of the asked level and the cap, the ramp warmth by 4
towards the warmth, neither beyond its target, and the duties follow by the curve; a period start of an output takes its newest
duty, and the cool output's applies an accepted frequency and cuts the warm output's period (R116, R117, R119, R120). -/
def Obligations.RampAndOutputsFollowTheLight : Prop :=
  (∀ s : State, s.platform.state = .active → s.light.rampTimer.isSome = true →
    let l := s.light
    let goal := min (if l.auto = true then l.autoLevel else l.level) (min l.chargeCap l.thermalCap)
    let r := if l.rampLevel ≤ goal then min (l.rampLevel + l.rampStep) goal else max (l.rampLevel - l.rampStep) goal
    let w := if l.rampWarmth ≤ l.warmth then min (l.rampWarmth + 4) l.warmth else max (l.rampWarmth - 4) l.warmth
    let j := min (r / 32) 31
    let total := l.curve.getD j 0 + (l.curve.getD (j + 1) 0 - l.curve.getD j 0) * (r - 32 * j) / 32
    (r ≠ l.rampLevel ∨ w ≠ l.rampWarmth → exec .rampTick s = .next { s with light := { l with
      rampLevel := r, rampWarmth := w, rampTimer := some 16, warmDuty := total * w / 255,
      coolDuty := total - total * w / 255 } })
    ∧ (r = l.rampLevel → w = l.rampWarmth → exec .rampTick s = .next { s with light := { l with rampTimer := some 16 } }))
  ∧ ∀ s : State,
    exec (.pwmPeriodStart .warm) s = .next { s with light := { s.light with warmOut := ⟨s.light.warmDuty, false⟩ } }
    ∧ exec (.pwmPeriodStart .cool) s = .next { s with light := { s.light with
        coolOut := ⟨s.light.coolDuty, false⟩, pwmApplied := s.light.pwmFrequency, pwmPending := false
        warmOut := if s.light.pwmPending = true then ⟨s.light.warmOut.duty, true⟩ else s.light.warmOut } }

/-! ## Monitor and charge account (chapters 7 and 8) -/

/-- MONITOR_TEST sets a channel's pending test value, MONITOR_CONFIG its calibration and limits with the run cleared by a change of
limits; values out of range are refused BAD_VALUE. A limit check counts the samples that point away from the fault flag and turns
it at the debounce count; any other sample clears the run (R126, R130, R131). A conversion sequence in which one channel's value
turns its flag so, the other channels steady: the flag turns, the run is cleared, MONITOR_FAULT tells the main port the channel,
the value and the direction, and the sequence goes on. BATI and PTEMP have no other effect; DTEMP sets the thermal cap, which cuts
a ramp level above the new cap at once; a BATV fault enters HALTING as a BROWNOUT, here with an update active and none pending, and
in HALTING makes the halt cause BROWNOUT while the page is not decided; PANV, with no update pending, has none (R113, R114, R115,
R126, R127, R129, R162, R163). That the radio port's reset at HALTING entry leaves it with no transfer is the model's reading (log
entry 19). -/
def Obligations.MonitorRequestsAndDebounce : Prop :=
  (∀ (m : Msg) (c : Channel) (i : Nat) (s : State), channelOf i = some c →
    let range := channelRange c
    let x := s.monitor.get c
    (∀ v, MainTakes .monitorTest m readMonitorTest ⟨i, v⟩ s →
      (range.1 ≤ v ∧ v ≤ range.2 → exec (.monitorTest .main m) s = .next { mainAnswered .monitorTest .ok [] s with
        monitor := s.monitor.set c { x with pendingTest := some v } })
      ∧ (v < range.1 ∨ range.2 < v →
          exec (.monitorTest .main m) s = .next (mainAnswered .monitorTest .badValue [] s)))
    ∧ ∀ gain offset low high, MainTakes .monitorConfig m readMonitorConfig ⟨i, gain, offset, low, high⟩ s → c ≠ .amb →
        (range.1 ≤ low → low ≤ high → high ≤ range.2 →
          exec (.monitorConfig .main m) s = .next { mainAnswered .monitorConfig .ok [] s with
            monitor := s.monitor.set c { x with
              gain := gain, offset := offset, low := low, high := high
              run := if low = x.low ∧ high = x.high then x.run else 0 } })
        ∧ (¬ (range.1 ≤ low ∧ low ≤ high ∧ high ≤ range.2) →
          exec (.monitorConfig .main m) s = .next (mainAnswered .monitorConfig .badValue [] s)))
  ∧ (∀ (c : Channel) (x : ChannelState) (v : Int), c ≠ .amb →
       let n := match c with | .batv => 3 | .bati => 3 | .panv => 1 | _ => 2
       let outside := v < x.low ∨ x.high < v
       ((outside ↔ x.fault = true) → checkLimits c x v = { x with run := 0 })
       ∧ (¬ (outside ↔ x.fault = true) → x.run + 1 < n → checkLimits c x v = { x with run := x.run + 1 })
       ∧ (¬ (outside ↔ x.fault = true) → n ≤ x.run + 1 → checkLimits c x v = { x with fault := !x.fault, run := 0 }))
  ∧ ∀ (c : Channel) (r : Readings) (s : State), s.platform.powerUp = none → c ≠ .amb → OthersSteady c r s →
    let x := s.monitor.get c
    let raw := readingOf r c
    let v := convert c x raw.toNat
    x.pendingTest = none → ((v < x.low ∨ x.high < v) ↔ x.fault = false) → debounce c ≤ x.run + 1 →
    let entering := !x.fault
    let after := steadyAfter r s.monitor.period s
    let base : State := { after with
      monitor := after.monitor.set c { steadySample c x raw with fault := entering, run := 0 }
      portMain := offerUnit (.monitorFault c v entering false) s.portMain }
    (s.platform.state = .active → c = .bati ∨ c = .ptemp → exec (.conversionSequence r) s = .next base)
    ∧ (s.platform.state = .active → c = .dtemp →
        let cap := if entering = true then 256 else 1023
        let e := min s.light.chargeCap cap
        let total := totalDuty s.light.curve e
        let cut := if e < s.light.rampLevel then { s.light with
            thermalCap := cap, rampLevel := e, warmDuty := total * s.light.rampWarmth / 255,
            coolDuty := total - total * s.light.rampWarmth / 255 }
          else { s.light with thermalCap := cap }
        exec (.conversionSequence r) s = .next { base with
          light := lightAfterAmb (convert .amb s.monitor.amb r.amb.toNat) cut })
    ∧ (s.platform.state = .active → c = .panv → s.engine.queue = [] → exec (.conversionSequence r) s = .next base)
    ∧ (s.platform.state = .active → c = .batv → entering = false → exec (.conversionSequence r) s = .next base)
    ∧ (s.platform.state = .active → c = .batv → entering = true → s.engine.queue = [] → s.engine.active ≠ [] →
        s.spool.assembly = none →
        exec (.conversionSequence r) s = .next { base with
          platform := { s.platform with
            state := .halting, haltCause := some .brownout, sleepPending := none, pageSubmitted := false,
            pageDecided := false, idleTimer := none, onward := none, radioSetting := false,
            alarms := s.platform.alarms.map (fun _ => none) }
          wave := if s.wave.state = .valid then { s.wave with scrub := .suspended, scrubTimer := none, pass := none }
            else s.wave
          spool := { s.spool with bare := none }
          portStandby := offerUnit (.stateChanged .halting .active .brownout s.platform.clock) s.portStandby
          portRadio := { s.portRadio with
            transfer := .idle, waiting := []
            inProcess := s.portRadio.inProcess.map (fun q => { q with condemned := true })
            queue := [], headStarted := false, errors := .empty } })
    ∧ (s.platform.state = .halting → c = .batv → entering = true → s.engine.active ≠ [] →
        exec (.conversionSequence r) s = .next { base with
          platform := { s.platform with
            haltCause := if s.platform.pageDecided = true then s.platform.haltCause else some .brownout } })

/-- The conversion sequence at the end of a period in ACTIVE with steady readings: every channel takes its converted value, the
charge account integrates BATI over the period that ended, auto mode follows AMB, the next period is 250 ms, and nothing else
changes (R123, R124, R128, R135, R112). -/
def Obligations.ASteadySequenceConvertsAndIntegrates : Prop :=
  ∀ (r : Readings) (s : State), s.platform.state = .active → s.platform.powerUp = none →
    SteadyReadings r s.monitor.period s → exec (.conversionSequence r) s = .next (steadyAfter r s.monitor.period s)

/-- CHARGE_SET sets Q, at most Q_full; CHARGE_CONFIG takes a sound set of parameters whole and scales Q to a new capacity; each
answers with the account as it then stands, here with no change of level index; unsound parameters are refused BAD_VALUE
(R149, R150, R151). The size of Q_full in the response is the model's choice (log entry 11). -/
def Obligations.ChargeRequestsSetTheAccount : Prop :=
  ∀ (m : Msg) (s : State), s.spool.held = false →
    (∀ v, MainTakes .chargeSet m readCharge v s →
      let c := { s.charge with q := min v (s.charge.params.capacity * 3600000) }
      nextLevel c = s.charge.level →
      exec (.chargeSet .main m) s = .next { mainAnswered .chargeSet .ok
        (encCharge c.q ++ encCharge (c.q - reserved c) ++ encU8 c.level) s with charge := c })
    ∧ ∀ a : ChargeParams, MainTakes .chargeConfig m readChargeConfig a s →
        let good := 500 ≤ a.capacity ∧ a.capacity ≤ 6000 ∧ 1 ≤ a.shutdown ∧ a.shutdown ≤ a.turn ∧ a.turn ≤ a.light
          ∧ a.light ≤ a.radio ∧ a.radio ≤ 999 ∧ a.hysteresis ≤ 200 ∧ (∀ v ∈ a.ocv, v ≤ 5000) ∧ a.ocv.Pairwise (· < ·)
        let c := { s.charge with
          params := a
          q := if a.capacity = s.charge.params.capacity then s.charge.q
            else s.charge.q * a.capacity / s.charge.params.capacity }
        (good → nextLevel c = s.charge.level →
          exec (.chargeConfig .main m) s = .next { mainAnswered .chargeConfig .ok
            (encCharge c.q ++ encCharge ((a.capacity * 3600000 : Nat) : Int) ++ encCharge (c.q - reserved c) ++ encU8 c.level)
            s with charge := c })
        ∧ (¬ good → exec (.chargeConfig .main m) s = .next (mainAnswered .chargeConfig .badValue [] s))

/-- The raw index of an account, and an evaluation of the level index: worse at once to the raw index, better only to the lowest
index whose floor is cleared by the hysteresis, else kept; a change that leaves the ramp within its cap is told to main and standby, the light's cap follows, and
nothing else changes (R142, R143, R144, R145, R113). -/
def Obligations.TheLevelIndexIsEvaluated : Prop :=
  (∀ c : Charge,
    let full := c.params.capacity * 3600000
    let floor := fun n => full * n / 1000
    let a : Int := c.q - ((c.updates.map (·.2)).sum + c.chunk.getD 0 : Nat)
    let raw := if c.q < floor c.params.shutdown then 4
      else if a < floor c.params.turn then 3
      else if a < floor c.params.light then 2
      else if a < floor c.params.radio then 1 else 0
    let h := floor c.params.hysteresis
    let better : Nat → Prop := fun j => match j with
      | 0 => ((floor c.params.radio + h : Nat) : Int) ≤ a
      | 1 => ((floor c.params.light + h : Nat) : Int) ≤ a
      | 2 => ((floor c.params.turn + h : Nat) : Int) ≤ a
      | 3 => floor c.params.shutdown + h ≤ c.q
      | _ => False
    (c.level ≤ raw → nextLevel c = raw)
    ∧ (raw < c.level → ∀ j, j < c.level → better j → (∀ i, i < j → ¬ better i) → nextLevel c = j)
    ∧ (raw < c.level → (∀ j, j < c.level → ¬ better j) → nextLevel c = c.level)
    ∧ rawIndex c = raw)
  ∧ ∀ s : State, s.platform.state = .active → s.spool.held = false →
      let j := nextLevel s.charge
      let cap := if j ≤ 1 then 1023 else if j = 2 then 256 else 0
      let note : Notice := .chargeLevel j s.charge.q (available s.charge) (s.charge.q * 1000 / (s.charge.params.capacity * 3600000))
      (j = s.charge.level → evaluate .full s = s)
      ∧ (j ≠ s.charge.level → j < 4 → s.light.rampLevel ≤ min cap s.light.thermalCap →
          evaluate .full s = { s with
            charge := { s.charge with level := j }
            light := { s.light with chargeCap := cap }
            portMain := offerUnit note s.portMain
            portStandby := offerUnit note s.portStandby })

/-! ## Platform controller (chapter 9) -/

/-- DOZE in ACTIVE starts the idle timer and tells the standby port; SLEEP from the standby port in DOZE, with an update active, and
the idle timer's expiry there set a sleep pending and stop the timer; WAKE_MAIN in DOZE answers, then brings ACTIVE with WAKE_MAIN
asserted; SLEEP in ACTIVE is refused NOT_NOW, WAKE_MAIN there answers OK (R155, R156, R157, R158, R173). -/
def Obligations.DozeSleepAndWakeMoveThePlatform : Prop :=
  ∀ (m : Msg) (s : State),
    let f := s.platform
    (MainTakes .doze m readNothing () s → exec (.doze .main m) s = .next { mainAnswered .doze .ok [] s with
      platform := { f with state := .doze, idleTimer := some (1000 * f.sleepDelay), wakeMain := false }
      portStandby := offerUnit (.stateChanged .doze .active .dozeRequest f.clock) s.portStandby })
    ∧ (MainTakes .sleep m readNothing () s → exec (.sleep .main m) s = .next (mainAnswered .sleep .notNow [] s))
    ∧ (MainTakes .wakeMain m readNothing () s → exec (.wakeMain .main m) s = .next (mainAnswered .wakeMain .ok [] s))
    ∧ (OtherTakes .standby .sleep m readNothing () s → f.state = .doze → f.sleepPending = none → s.engine.active ≠ [] →
        exec (.sleep .standby m) s = .next { otherAnswered .standby .sleep .ok [] s with
          platform := { f with sleepPending := some .sleepRequest, idleTimer := none } })
    ∧ (OtherTakes .standby .wakeMain m readNothing () s → f.state = .doze →
        let t := otherAnswered .standby .wakeMain .ok [] s
        exec (.wakeMain .standby m) s = .next { t with
          platform := { f with
            state := .active, sleepPending := none, pageSubmitted := false, idleTimer := none, wakeMain := true }
          portStandby := offerUnit (.stateChanged .active .doze .wakeRequest f.clock) t.portStandby })
    ∧ (f.state = .doze → f.idleTimer.isSome = true → s.engine.active ≠ [] →
        exec .idleTimerExpiry s = .next { s with platform := { f with sleepPending := some .idle, idleTimer := none } })

/-- The idle timer's expiry in a quiet DOZE with no sleep page enters SLEEP: the timers stop, the radio port is reset and off, a
VALID table's scrub is suspended, the standby port is told, and the monitor makes the sequence of a change of period
(R125, R159). The order of the last two (log entry 14), the readings of that sequence (log entry 1), the outputs taken to duty 0
(log entry 23) and the radio port left with no transfer (log entry 19) are the model's. -/
def Obligations.AQuietDozeEntersSleep : Prop :=
  ∀ s : State, s.platform.state = .doze → s.platform.idleTimer.isSome = true → s.engine.queue = [] →
    s.engine.active = [] → s.spool.assembly = none → s.spool.verifying = [] → s.light.rampLevel = 0 →
    (∀ i, i < 24 → (slotAt i s).sleepRole = false) →
    exec .idleTimerExpiry s = .next (changePeriod .haltOnly { s with
      platform := { s.platform with
        state := .sleep, sleepPending := none, pageSubmitted := false, idleTimer := none, radioSetting := false }
      engine := { s.engine with frameTimer := none, bus := [] }
      light := { s.light with rampTimer := none, coolOut := ⟨0, false⟩, warmOut := ⟨0, false⟩ }
      wave := if s.wave.state = .valid then { s.wave with scrub := .suspended, scrubTimer := none, pass := none }
        else s.wave
      spool := { s.spool with bare := none }
      portStandby := offerUnit (.stateChanged .sleep .doze .idle s.platform.clock) s.portStandby
      portRadio := { s.portRadio with
        transfer := .idle, waiting := [], inProcess := s.portRadio.inProcess.map (fun q => { q with condemned := true })
        queue := [], headStarted := false, errors := .empty } })

/-- POWER_OFF, RESTART and a key held for 3 seconds enter HALTING from ACTIVE, here with an update still active, none pending and no
assembly: the cause is kept, the alarms go, the radio port is reset and off, a VALID table's scrub is suspended, the standby port
is told (R162, R163, R168, R173). That the radio port's reset leaves it with no transfer is the model's reading (log entry 19). -/
def Obligations.HaltCausesEnterHalting : Prop :=
  ∀ (m : Msg) (s : State), s.platform.state = .active → s.engine.queue = [] → s.engine.active ≠ [] →
    s.spool.assembly = none →
    let halted := fun (f : Platform) (t : State) (h : HaltCause) (c : Cause) => { t with
      platform := { f with
        state := .halting, haltCause := some h, sleepPending := none, pageSubmitted := false, pageDecided := false,
        idleTimer := none, onward := none, radioSetting := false, alarms := f.alarms.map (fun _ => none) }
      wave := if s.wave.state = .valid then { s.wave with scrub := .suspended, scrubTimer := none, pass := none }
        else s.wave
      spool := { s.spool with bare := none }
      portStandby := offerUnit (.stateChanged .halting .active c s.platform.clock) s.portStandby
      portRadio := { s.portRadio with
        transfer := .idle, waiting := [], inProcess := s.portRadio.inProcess.map (fun q => { q with condemned := true })
        queue := [], headStarted := false, errors := .empty } }
    let f := { s.platform with wakeMain := false }
    (MainTakes .powerOff m readNothing () s →
      exec (.powerOff .main m) s = .next (halted f (mainAnswered .powerOff .ok [] s) .powerOff .powerOff))
    ∧ (MainTakes .restart m readNothing () s →
      exec (.restart .main m) s = .next (halted f (mainAnswered .restart .ok [] s) .restart .restart))
    ∧ (s.platform.key = .pressed →
      exec .keyHoldExpiry s = .next (halted { s.platform with key := .consumed, holdTimer := none } s .key .key))

/-- The ramp tick that brings the light to 0 in HALTING, with the shutdown page decided and the engine empty, enters OFF: main
supply, DRAM and waveform table are lost, their owners at their OFF-entry values, the main port reset; here with no restart to
follow (R4, R9, R21, R65, R68, R104, R118, R121, R165, R185). That the main port's reset leaves it with no transfer (log entry 19)
and that the time of the last completed scrub pass goes with the table (log entry 15) are the model's readings. -/
def Obligations.TheLastRampTickEntersOff : Prop :=
  ∀ (c : HaltCause) (s : State), s.platform.state = .halting → s.platform.powerUp = none → s.platform.pageDecided = true →
    s.engine.queue = [] → s.engine.active = [] → s.light.rampTimer.isSome = true → 1 ≤ s.light.rampLevel →
    s.light.rampLevel ≤ 64 → s.platform.haltCause = some c → c ≠ .restart →
    ∃ t, exec .rampTick s = .next t
      ∧ t.platform = { s.platform with state := .off, wakeMain := false, haltCause := none, pageDecided := false }
      ∧ (t.pool = .reset ∧ t.dram = [] ∧ t.store = .reset)
      ∧ t.window = { s.window with
          entries := [], cursor := none, shown := none, lastTurn := none, aheadArmed := true, behindArmed := true }
      ∧ t.engine = { s.engine with
          queue := [], active := [], nextId := 1, bus := [], frameTimer := none
          ghosts := List.replicate 64 s.engine.ghostLimit }
      ∧ t.wave = { WaveTable.reset with scrubPeriod := s.wave.scrubPeriod }
      ∧ t.spool = { Spool.reset with chunkAge := s.spool.chunkAge, titleWake := s.spool.titleWake }
      ∧ (t.light.level = 0 ∧ t.light.rampLevel = 0 ∧ t.light.coolDuty = 0 ∧ t.light.warmDuty = 0 ∧ t.light.auto = false
        ∧ t.light.rampTimer = none)
      ∧ (t.charge.updates = [] ∧ t.charge.chunk = none)
      ∧ t.portMain = { s.portMain with
          transfer := .idle, waiting := [], inProcess := s.portMain.inProcess.map (fun q => { q with condemned := true })
          queue := [], headStarted := false, errors := .empty }

/-- POWER_ON in OFF with Q at the turn floor and BATV sound, the raw index unchanged: OK, then every block at its restart value, the
standby port keeping its queue, the restart told to standby and main, and the sequence of the change of period; with Q below the
floor or BATV in fault it is refused LOW_CHARGE; in ACTIVE it answers OK (R166, R173, R185). The readings of that sequence (log
entry 1), the main and radio ports left with no transfer (log entry 19), the time of the last completed scrub pass absent (log entry
15) and the default PWM frequency in force at once (log entry 34) are the model's. -/
def Obligations.PowerOnRestartsFromOff : Prop :=
  ∀ (m : Msg) (s : State),
    (OtherTakes .standby .powerOn m readNothing () s → s.platform.state = .off →
      let c := { s.charge with updates := [], chunk := none }
      let note : Notice := .stateChanged .active .off .powerOn s.platform.clock
      let noTest := fun (x : ChannelState) => { x with pendingTest := none }
      let u := answered .powerOn .ok [] s.portStandby
      let cleared := fun (v : PortUnit) => { v with
        transfer := .idle, waiting := [], inProcess := v.inProcess.map (fun q => { q with condemned := true })
        queue := [], headStarted := false, errors := .empty, counters := .zero, degraded := false }
      (floorTurn c ≤ s.charge.q → s.monitor.batv.fault = false → rawIndex c = s.charge.level →
        exec (.powerOn .standby m) s = .next (changePeriod .haltOnly { s with
          pool := .reset, dram := [], store := .reset, window := .reset, wave := .reset, spool := .reset
          engine := { Engine.reset with frameTimer := some 11764 }
          light := { Light.reset with
            chargeCap := if s.charge.level ≤ 1 then 1023 else if s.charge.level = 2 then 256 else 0
            thermalCap := if s.monitor.dtemp.fault = true then 256 else 1023, rampTimer := some 16 }
          monitor := { s.monitor with
            batv := noTest s.monitor.batv, bati := noTest s.monitor.bati, ptemp := noTest s.monitor.ptemp
            dtemp := noTest s.monitor.dtemp, amb := noTest s.monitor.amb, panv := noTest s.monitor.panv }
          charge := c
          platform := { Platform.reset with
            state := .active, key := s.platform.key, holdTimer := s.platform.holdTimer, clock := s.platform.clock
            clockMs := s.platform.clockMs }
          portMain := offerUnit note (cleared s.portMain)
          portStandby := offerUnit note { u with counters := .zero, degraded := false }
          portRadio := cleared s.portRadio
          linkThreshold := 64 }))
      ∧ (s.charge.q < floorTurn c ∨ s.monitor.batv.fault = true →
        exec (.powerOn .standby m) s = .next (otherAnswered .standby .powerOn .lowCharge [] s)))
    ∧ (MainTakes .powerOn m readNothing () s → exec (.powerOn .main m) s = .next (mainAnswered .powerOn .ok [] s))

/-- The connection of the battery: every item at its power-on value in OFF, a held key counted as a press; the first conversion
sequence gives every channel but PANV its value, its first sample outside the limits counted in its run; the start-up estimate sets
Q from the first BATV value by the OCV table and the level index from Q, and the light is dark with the charge cap of that index
(R104, R113, R122, R123, R126, R148, R167, R168, R185). That PANV's raw reading is 0 and AMB's limits are 0 and 0 (log entry 22) and
that the queue of commands, the readings listed and their counter stay (log entry 28) are the model's choices. -/
def Obligations.PowerOnResetEstimatesTheCharge : Prop :=
  ∀ (held : Bool) (r : Readings) (s : State),
    let v := r.batv.toNat * 5000 / 4096
    let perMille := ocvPerMille [3300, 3550, 3650, 3700, 3740, 3780, 3840, 3910, 3990, 4080, 4180] v
    let sampled := fun (c : Channel) (x : ChannelState) =>
      let v := convert c x (readingOf r c).toNat
      { x with
        last := some v, raw := (readingOf r c).toNat, run := if c ≠ .amb ∧ (v < x.low ∨ x.high < v) then 1 else 0 }
    ∃ t, exec (.powerOnReset held r) s = .next t
      ∧ t.platform = { Platform.reset with
          key := if held = true then .pressed else .released, holdTimer := if held = true then some 3000 else none }
      ∧ (t.pool = .reset ∧ t.dram = [] ∧ t.store = .reset ∧ t.window = .reset ∧ t.engine = .reset ∧ t.wave = .reset
        ∧ t.spool = .reset ∧ t.portMain = .reset ∧ t.portStandby = .reset ∧ t.portRadio = .reset ∧ t.linkThreshold = 64)
      ∧ t.monitor = {
          batv := sampled .batv (.fresh 5000 0 3350 5000), bati := sampled .bati (.fresh 6000 (-3000) (-2500) 2500)
          ptemp := sampled .ptemp (.fresh 1400 (-400) 0 500), dtemp := sampled .dtemp (.fresh 1650 (-400) (-400) 1000)
          amb := sampled .amb (.fresh 16384 0 0 0), panv := .fresh 30000 0 14000 16000, period := 16000, elapsed := 0 }
      ∧ t.monitor.batv.last = some (v : Int)
      ∧ (t.charge.q = 5400000 * perMille ∧ t.charge.level = rawIndex t.charge ∧ t.charge.updates = []
        ∧ t.charge.chunk = none ∧ t.charge.params = .reset)
      ∧ t.light = { Light.reset with
          chargeCap := if t.charge.level ≤ 1 then 1023 else if t.charge.level = 2 then 256 else 0 }
      ∧ (t.light.level = 0 ∧ t.light.warmth = 0 ∧ t.light.auto = false ∧ t.light.autoLevel = 0 ∧ t.light.rampLevel = 0
        ∧ t.light.rampWarmth = 0 ∧ t.light.coolDuty = 0 ∧ t.light.warmDuty = 0 ∧ t.light.writer = none
        ∧ t.light.thermalCap = 1023)
      ∧ (t.pending = s.pending ∧ t.inputs = s.inputs ∧ t.samples = s.samples)

/-- A resume completes from SLEEP with steady readings at hand, in ACTIVE or in DOZE as its onward target says: the timers start,
the monitor makes its sequence, a SUSPENDED scrub starts a pass, WAKE_MAIN is asserted unless a main request brought it (ACTIVE) or
the idle timer starts (DOZE), the standby port is told (R160, R161). That State lists the readings is the model's choice (log
entry 1). The halt interval completes with no update live: the timers start and the shutdown page is decided (R163, R164). With a
page to show, a VALID table and PANV sound its update starts at once; with none the page is skipped, and with the light at 0 the
platform enters OFF, here with no restart to follow: main supply, DRAM and waveform table are lost, the main port reset (R165). That
the reset leaves the main port with no transfer (log entry 19) and that the time of the last completed scrub pass goes with the
table (log entry 15) are the model's. -/
def Obligations.PowerUpIntervalsComplete : Prop :=
  ∀ s : State, s.engine.queue = [] → s.portMain.inProcess = none →
    let started : State := { s with
      engine := { s.engine with frameTimer := some (1000000 / s.engine.frameRate) }
      light := { s.light with rampTimer := some 16 } }
    (∀ (o : Onward) (left : Nat) (r : Readings) (rest : List Readings), s.platform.state = .sleep →
      s.platform.powerUp = some ⟨.resume, left⟩ → s.platform.onward = some o → o.radioAlarms = [] →
      s.inputs = r :: rest → SteadyReadings r s.monitor.elapsed s → s.platform.sleepPending = none →
      let t := steadyAfter r s.monitor.elapsed { started with inputs := rest }
      let f := { s.platform with powerUp := none, onward := none }
      let wave := if s.wave.scrub = .suspended then { s.wave with
          scrub := .passing, pass := some ⟨0, 0⟩, scrubTimer := some (1000 * s.wave.scrubPeriod) }
        else s.wave
      (o.toActive = true → exec .resumeComplete s = .next { t with
        platform := { f with state := .active, wakeMain := f.wakeMain || !o.mainRequest }
        wave := wave
        portStandby := offerUnit (.stateChanged .active .sleep o.cause f.clock) s.portStandby })
      ∧ (o.toActive = false → exec .resumeComplete s = .next { t with
        platform := { f with state := .doze, idleTimer := some (1000 * f.sleepDelay) }
        wave := wave
        portStandby := offerUnit (.stateChanged .doze .sleep o.cause f.clock) s.portStandby }))
    ∧ ∀ left : Nat, s.platform.state = .halting → s.platform.powerUp = some ⟨.halt, left⟩ → s.engine.active = [] →
        s.platform.pageDecided = false →
        let decided : State := { started with platform := { s.platform with powerUp := none, pageDecided := true } }
        let shows := s.platform.haltCause = some .level ∨ s.platform.haltCause = some .powerOff
          ∨ s.platform.haltCause = some .key
        let noPage := ¬ shows ∨ (∀ i, i < 24 → (slotAt i s).shutdownRole = false) ∨ s.wave.state ≠ .valid
        (∀ i, shows → i < 24 → (slotAt i s).shutdownRole = true → (∀ j, j < i → (slotAt j s).shutdownRole = false) →
          s.wave.state = .valid → s.monitor.panv.fault = false → (slotAt i s).state = .ready →
          s.store.useCounter < 4294967295 →
          let u : Update :=
            { id := s.engine.nextId, origin := .shutdownPage, requesters := ⟨false, false, false⟩, source := i,
              region := ⟨0, 0, s.pool.width, s.pool.height⟩, mode := .full, phase := .scanning, band := some (bandNow s).1,
              clamped := (bandNow s).2, ghostLimit := s.engine.ghostLimit, changed := 0, frames := 0, index := 0,
              estimate := 0, promoted := false, tiles := [] }
          let y := { slotAt i s with
            state := .showing, showing := (slotAt i s).showing + 1, stamp := some s.store.useCounter }
          exec .haltIntervalComplete s = .next { decided with
            engine := { started.engine with
              active := [u], nextId := if 65535 ≤ s.engine.nextId then 1 else s.engine.nextId + 1 }
            store := { s.store with slots := s.store.slots.set i y, useCounter := s.store.useCounter + 1 } })
        ∧ (noPage → s.light.rampLevel ≠ 0 → exec .haltIntervalComplete s = .next decided)
        ∧ (∀ c, noPage → s.light.rampLevel = 0 → s.platform.haltCause = some c → c ≠ .restart →
            ∃ t, exec .haltIntervalComplete s = .next t
              ∧ t.platform = { s.platform with
                  state := .off, powerUp := none, wakeMain := false, haltCause := none, pageDecided := false }
              ∧ (t.pool = .reset ∧ t.dram = [] ∧ t.store = .reset)
              ∧ t.window = { s.window with
                  entries := [], cursor := none, shown := none, lastTurn := none, aheadArmed := true, behindArmed := true }
              ∧ t.engine = { s.engine with
                  queue := [], active := [], nextId := 1, bus := [], frameTimer := none
                  ghosts := List.replicate 64 s.engine.ghostLimit }
              ∧ t.wave = { WaveTable.reset with scrubPeriod := s.wave.scrubPeriod }
              ∧ t.spool = { Spool.reset with chunkAge := s.spool.chunkAge, titleWake := s.spool.titleWake }
              ∧ (t.light.level = 0 ∧ t.light.rampLevel = 0 ∧ t.light.coolDuty = 0 ∧ t.light.warmDuty = 0
                ∧ t.light.auto = false ∧ t.light.rampTimer = none)
              ∧ (t.charge.updates = [] ∧ t.charge.chunk = none)
              ∧ t.portMain = { s.portMain with
                  transfer := .idle, waiting := []
                  inProcess := s.portMain.inProcess.map (fun q => { q with condemned := true })
                  queue := [], headStarted := false, errors := .empty })

/-- A press starts the hold timer; a short press is reported to the main port as KEY in ACTIVE and brings ACTIVE from DOZE first; a
release after a long press only lets go. RADIO_POWER ON and OFF set the radio's supply in ACTIVE, OFF with the radio port reset; an
unknown code is refused BAD_VALUE (R156, R168, R169, R185). That a row is the RADIO_POWER of its own code (log entry 12) and that the
reset leaves the radio port with no transfer (log entry 19) are the model's. -/
def Obligations.KeyAndRadioPower : Prop :=
  ∀ (m : Msg) (s : State),
    let f := s.platform
    let released := { f with key := .released, holdTimer := none }
    (f.key = .released → exec .keyPress s = .next { s with platform := { f with key := .pressed, holdTimer := some 3000 } })
    ∧ (f.key = .pressed → f.state = .active →
        exec .keyRelease s = .next { s with platform := released, portMain := offerUnit .key s.portMain })
    ∧ (f.key = .pressed → f.state = .doze → exec .keyRelease s = .next { s with
        platform := { released with
          state := .active, sleepPending := none, pageSubmitted := false, idleTimer := none, wakeMain := true }
        portMain := offerUnit .key s.portMain
        portStandby := offerUnit (.stateChanged .active .doze .key f.clock) s.portStandby })
    ∧ (f.key = .consumed → exec .keyRelease s = .next { s with platform := released })
    ∧ (MainTakes .radioPower m readOne 1 s → exec (.radioPowerOn .main m) s =
        .next { mainAnswered .radioPower .ok [] s with platform := { f with wakeMain := false, radioSetting := true } })
    ∧ (MainTakes .radioPower m readOne 0 s → f.radioSetting = true → s.spool.assembly = none →
        exec (.radioPowerOff .main m) s = .next { mainAnswered .radioPower .ok [] s with
          platform := { f with wakeMain := false, radioSetting := false }
          spool := { s.spool with bare := none }
          portRadio := { s.portRadio with
            transfer := .idle, waiting := []
            inProcess := s.portRadio.inProcess.map (fun q => { q with condemned := true })
            queue := [], headStarted := false, errors := .empty } })
    ∧ (MainTakes .radioPower m readOne 0 s → f.radioSetting = false →
        exec (.radioPowerOff .main m) s = .next (mainAnswered .radioPower .ok [] s))
    ∧ (∀ code, 2 ≤ code → MainTakes .radioPower m readOne code s →
        exec (.radioPowerOn .main m) s = .next (mainAnswered .radioPower .badValue [] s))

/-- A second advances the clock, wrapping after 32 bits; CLOCK_SET sets it; ALARM_SET and ALARM_CLEAR set and empty a slot, an alarm
already due expiring at once; in ACTIVE an expiry empties the slot and tells main, radio (its supply on) or standby by its action;
a bad slot or action is refused BAD_VALUE (R170, R171, R172). -/
def Obligations.ClockAndAlarms : Prop :=
  ∀ (m : Msg) (s : State),
    let f := s.platform
    let g := { f with wakeMain := false }
    let none_ := fun (due : Nat → Prop) => ∀ a, some a ∈ f.alarms → ¬ due a.time
    let next := (f.clock + 1) % 4294967296
    let expired := fun (i : Nat) (a : Alarm) (f : Platform) (t : State) =>
      let e := { f with alarms := f.alarms.set i none }
      let note : Notice := .alarm i a.action a.time
      match a.action with
      | .wakeMain => { t with platform := e, portMain := offerUnit note t.portMain }
      | .radioOn => { t with platform := { e with radioSetting := true }, portRadio := offerUnit note t.portRadio }
      | .notifyStandby => { t with platform := e, portStandby := offerUnit note t.portStandby }
    (none_ (· = next) → exec .clockSecond s = .next { s with platform := { f with clock := next, clockMs := 0 } })
    ∧ (∀ v, MainTakes .clockSet m readLong v s → none_ (· ≤ v) →
        exec (.clockSet .main m) s =
          .next { mainAnswered .clockSet .ok [] s with platform := { g with clock := v, clockMs := 0 } })
    ∧ (∀ i (a : Alarm), f.state = .active → f.alarms.getD i none = some a →
        exec (.alarmExpiry i) s = .next (expired i a f s))
    ∧ (∀ i time (action : AlarmAction), i ≤ 2 → f.alarms.length = 3 →
        MainTakes .alarmSet m readAlarmSet ⟨i, time, action.code⟩ s →
        (f.clock < time → exec (.alarmSet .main m) s = .next { mainAnswered .alarmSet .ok [] s with
          platform := { g with alarms := f.alarms.set i (some ⟨time, action⟩) } })
        ∧ (time ≤ f.clock →
          exec (.alarmSet .main m) s = .next (expired i ⟨time, action⟩ g (mainAnswered .alarmSet .ok [] s))))
    ∧ (∀ i time action, 2 < i ∨ 2 < action → MainTakes .alarmSet m readAlarmSet ⟨i, time, action⟩ s →
        exec (.alarmSet .main m) s = .next (mainAnswered .alarmSet .badValue [] s))
    ∧ (∀ i, MainTakes .alarmClear m readOne i s →
        (i ≤ 2 → exec (.alarmClear .main m) s = .next { mainAnswered .alarmClear .ok [] s with
          platform := { g with alarms := f.alarms.set i none } })
        ∧ (2 < i → exec (.alarmClear .main m) s = .next (mainAnswered .alarmClear .badValue [] s)))
end

