-- ==== Sys2Proof/Laws/Memory.lean ====
section
/-! SUPPORT. The DRAM: every operation keeps its canonical form, a byte reads back what was written and every other byte reads as
before; bytes and pixels of an owner's blocks follow from that. -/

namespace Sys2Proof.Machine

/-! ## One byte -/

theorem Mem.wfFrom_mono {lo lo' : Nat} (h : lo ≤ lo') : ∀ {m : List Host.Cell}, Mem.wfFrom lo' m = true → Mem.wfFrom lo m = true
  | [], _ => rfl
  | (a, b) :: m, hw => by
    simp only [Mem.wfFrom, Bool.and_eq_true, decide_eq_true_eq] at hw ⊢
    exact ⟨⟨by omega, hw.1.2⟩, hw.2⟩

/-- An address below the least entry is unlisted. -/
theorem Mem.read_below {lo a : Nat} (h : a < lo) : ∀ {m : List Host.Cell}, Mem.wfFrom lo m = true → Mem.read m a = Mem.blank
  | [], _ => rfl
  | (a', b) :: m, hw => by
    simp only [Mem.wfFrom, Bool.and_eq_true, decide_eq_true_eq] at hw
    rw [Mem.read, if_neg (by omega)]
    exact Mem.read_below (lo := a' + 1) (by omega) hw.2

theorem Mem.wfFrom_write {lo a : Nat} {b : Byte} (h : lo ≤ a) :
    ∀ {m : List Host.Cell}, Mem.wfFrom lo m = true → Mem.wfFrom lo (Mem.write m a b) = true
  | [], _ => by
    rw [Mem.write]; split
    · rfl
    · next hb => simp [Mem.wfFrom, h, hb]
  | (a', b') :: m, hw => by
    have hw' := hw
    simp only [Mem.wfFrom, Bool.and_eq_true, decide_eq_true_eq] at hw
    rw [Mem.write]
    split
    · split
      · exact hw'
      · next hlt hb =>
        simp only [Mem.wfFrom, Bool.and_eq_true, decide_eq_true_eq]
        exact ⟨⟨h, by simpa using hb⟩, ⟨⟨by omega, hw.1.2⟩, hw.2⟩⟩
    · split
      · split
        · exact Mem.wfFrom_mono (by omega) hw.2
        · next heq hb =>
          simp only [Mem.wfFrom, Bool.and_eq_true, decide_eq_true_eq]
          subst heq
          exact ⟨⟨h, by simpa using hb⟩, hw.2⟩
      · next h1 h2 =>
        simp only [Mem.wfFrom, Bool.and_eq_true, decide_eq_true_eq]
        exact ⟨⟨hw.1.1, hw.1.2⟩, Mem.wfFrom_write (by omega) hw.2⟩

/-- A write keeps the canonical form. -/
theorem Mem.wf_write {m : List Host.Cell} (a : Nat) (b : Byte) (h : Mem.wf m = true) : Mem.wf (Mem.write m a b) = true :=
  Mem.wfFrom_write (Nat.zero_le a) h

theorem Mem.read_write_from {lo a : Nat} {b : Byte} :
    ∀ {m : List Host.Cell}, Mem.wfFrom lo m = true → Mem.read (Mem.write m a b) a = b
  | [], _ => by
    rw [Mem.write]; split
    · next hb => exact hb.symm
    · simp [Mem.read]
  | (a', b') :: m, hw => by
    have hw' := hw
    simp only [Mem.wfFrom, Bool.and_eq_true, decide_eq_true_eq] at hw
    rw [Mem.write]
    split
    · split
      · next hlt hb => rw [Mem.read, if_neg (by omega), Mem.read_below (lo := a' + 1) (by omega) hw.2, hb]
      · simp [Mem.read]
    · split
      · split
        · next heq hb => rw [Mem.read_below (lo := a' + 1) (by omega) hw.2, hb]
        · simp [Mem.read]
      · next h1 h2 => rw [Mem.read, if_neg h2]; exact Mem.read_write_from hw.2

/-- A byte reads back what was written, in a DRAM in canonical form. -/
theorem Mem.read_write_same {m : List Host.Cell} (a : Nat) (b : Byte) (h : Mem.wf m = true) :
    Mem.read (Mem.write m a b) a = b := Mem.read_write_from h

/-- A write leaves every other byte as it was. -/
theorem Mem.read_write_other {a a' : Nat} (b : Byte) (h : a' ≠ a) :
    ∀ m : List Host.Cell, Mem.read (Mem.write m a b) a' = Mem.read m a'
  | [] => by
    rw [Mem.write]; split
    · rfl
    · simp [Mem.read, h]
  | (x, y) :: m => by
    rw [Mem.write]
    split
    · split
      · rfl
      · simp [Mem.read, h]
    · split
      · next heq =>
        subst heq
        split <;> simp [Mem.read, h]
      · rw [Mem.read, Mem.read, Mem.read_write_other b h m]

/-! ## Blocks -/

theorem Mem.wfFrom_filter {p : Host.Cell → Bool} :
    ∀ {lo : Nat} {m : List Host.Cell}, Mem.wfFrom lo m = true → Mem.wfFrom lo (m.filter p) = true
  | _, [], _ => rfl
  | lo, (a, b) :: m, hw => by
    simp only [Mem.wfFrom, Bool.and_eq_true, decide_eq_true_eq] at hw
    rw [List.filter_cons]
    split
    · simp only [Mem.wfFrom, Bool.and_eq_true, decide_eq_true_eq]
      exact ⟨hw.1, Mem.wfFrom_filter hw.2⟩
    · exact Mem.wfFrom_filter (Mem.wfFrom_mono (by omega) hw.2)

/-- Blanking blocks keeps the canonical form. -/
theorem Mem.wf_blankBlocks {m : List Host.Cell} (blocks : List Nat) (h : Mem.wf m = true) :
    Mem.wf (Mem.blankBlocks blocks m) = true := Mem.wfFrom_filter h

/-- Blanked blocks read blank, every other block as before. -/
theorem Mem.read_blankBlocks (blocks : List Nat) (a : Nat) : ∀ m : List Host.Cell,
    Mem.read (Mem.blankBlocks blocks m) a = if a / Config.blockSize ∈ blocks then Mem.blank else Mem.read m a
  | [] => by simp [Mem.blankBlocks, Mem.read]
  | (x, y) :: m => by
    have ih := Mem.read_blankBlocks blocks a m
    simp only [Mem.blankBlocks] at ih ⊢
    rw [List.filter_cons]
    by_cases h : x / Config.blockSize ∈ blocks
    · rw [if_neg (by simp [h]), ih]
      by_cases ha : a = x
      · subst ha; simp [h]
      · simp [Mem.read, ha]
    · rw [if_pos (by simp [h]), Mem.read, ih, Mem.read]
      by_cases ha : a = x
      · subst ha; simp [h]
      · simp [ha]

/-- Two bytes of an owner without repeated blocks lie at one address only if they are the same byte. -/
theorem blockAddress_inj {blocks : List Nat} (hn : blocks.Nodup) {b c : Nat} (hb : b < Config.blockSize * blocks.length)
    (hc : c < Config.blockSize * blocks.length) (h : blockAddress blocks b = blockAddress blocks c) : b = c := by
  simp only [blockAddress, Config.blockSize] at h hb hc
  have h1 : b / 65536 < blocks.length := by omega
  have h2 : c / 65536 < blocks.length := by omega
  have e : blocks.getD (b / 65536) 0 = blocks.getD (c / 65536) 0 := by omega
  rw [List.getD_eq_getElem _ _ h1, List.getD_eq_getElem _ _ h2] at e
  have := (List.Nodup.getElem_inj_iff hn).mp e
  omega

/-- Storing bytes into an owner's blocks keeps the canonical form. -/
theorem wf_writeOwner (blocks : List Nat) : ∀ (bs : List Byte) (b : Nat) (m : List Host.Cell), Mem.wf m = true →
    Mem.wf (writeOwner m blocks b bs) = true
  | [], _, _, h => h
  | _ :: xs, b, _, h => wf_writeOwner blocks xs (b + 1) _ (Mem.wf_write _ _ h)

/-- Storing bytes into an owner's blocks changes no byte at another address. -/
theorem read_writeOwner_other (blocks : List Nat) (a : Nat) : ∀ (bs : List Byte) (b : Nat) (m : List Host.Cell),
    (∀ j, j < bs.length → a ≠ blockAddress blocks (b + j)) → Mem.read (writeOwner m blocks b bs) a = Mem.read m a
  | [], _, _, _ => rfl
  | x :: xs, b, m, h => by
    rw [writeOwner, read_writeOwner_other blocks a xs (b + 1)]
    · exact Mem.read_write_other x (by simpa using h 0 (by simp)) m
    · intro j hj
      have := h (j + 1) (by simpa using hj)
      rwa [show b + (j + 1) = b + 1 + j by omega] at this

/-! ## Pixels -/

/-- Storing a pixel keeps the canonical form. -/
theorem wf_writePixel {m : List Host.Cell} (blocks : List Nat) (k : Nat) (v : Pixel) (h : Mem.wf m = true) :
    Mem.wf (writePixel m blocks k v) = true := Mem.wf_write _ _ h

/-- Storing a pixel changes no byte but its own. -/
theorem read_writePixel_other {m : List Host.Cell} {blocks : List Nat} {k a : Nat} (v : Pixel)
    (h : a ≠ blockAddress blocks (k / 2)) : Mem.read (writePixel m blocks k v) a = Mem.read m a :=
  Mem.read_write_other _ h m

theorem lowNibble_append (h l : Pixel) : (h ++ l : BitVec 8).extractLsb' 0 4 = l := by
  revert h l; decide

theorem highNibble_append (h l : Pixel) : (h ++ l : BitVec 8).extractLsb' 4 4 = h := by
  revert h l; decide

/-- A pixel reads back what was stored, in a DRAM in canonical form. -/
theorem ownerPixel_writePixel_same {m : List Host.Cell} (blocks : List Nat) (k : Nat) (v : Pixel) (h : Mem.wf m = true) :
    ownerPixel (writePixel m blocks k v) blocks k = v := by
  simp only [ownerPixel, ownerByte, writePixel, Mem.read_write_same _ _ h]
  by_cases hk : k % 2 = 0
  · rw [if_pos hk, if_pos hk, lowNibble_append]
  · rw [if_neg hk, if_neg hk, highNibble_append]

/-- Storing a pixel leaves the other pixels of an owner without repeated blocks as they were. -/
theorem ownerPixel_writePixel_other {m : List Host.Cell} {blocks : List Nat} {k j : Nat} (v : Pixel) (h : Mem.wf m = true)
    (hn : blocks.Nodup) (hk : k / 2 < Config.blockSize * blocks.length) (hj : j / 2 < Config.blockSize * blocks.length)
    (hne : j ≠ k) : ownerPixel (writePixel m blocks k v) blocks j = ownerPixel m blocks j := by
  by_cases hb : j / 2 = k / 2
  · simp only [ownerPixel, ownerByte, writePixel, hb, Mem.read_write_same _ _ h]
    by_cases h0 : k % 2 = 0
    · rw [if_pos h0, if_neg (by omega), if_neg (by omega), highNibble_append]
    · rw [if_neg h0, if_pos (by omega), if_pos (by omega), lowNibble_append]
  · have : blockAddress blocks (j / 2) ≠ blockAddress blocks (k / 2) := fun e => hb (blockAddress_inj hn hj hk e)
    simp only [ownerPixel, ownerByte, read_writePixel_other v this]

/-- Storing a run of pixels keeps the canonical form. -/
theorem wf_writePixels (blocks : List Nat) : ∀ (vs : List Pixel) (k : Nat) (m : List Host.Cell), Mem.wf m = true →
    Mem.wf (writePixels m blocks k vs) = true
  | [], _, _, h => h
  | _ :: vs, k, _, h => wf_writePixels blocks vs (k + 1) _ (wf_writePixel blocks k _ h)

/-- Storing a run of pixels changes no byte that holds none of them. -/
theorem read_writePixels_other (blocks : List Nat) (a : Nat) : ∀ (vs : List Pixel) (k : Nat) (m : List Host.Cell),
    (∀ j, k ≤ j → j < k + vs.length → a ≠ blockAddress blocks (j / 2)) →
    Mem.read (writePixels m blocks k vs) a = Mem.read m a
  | [], _, _, _ => rfl
  | v :: vs, k, m, h => by
    rw [writePixels, read_writePixels_other blocks a vs (k + 1)]
    · exact read_writePixel_other v (h k (by omega) (by simp))
    · intro j h1 h2
      exact h j (by omega) (by simp only [List.length_cons]; omega)

/-- Painting a region keeps the canonical form. -/
theorem wf_paintTargets (mode : Mode) (slot : Nat) (r : Region) (s : State) (h : Mem.wf s.dram = true) :
    Mem.wf (paintTargets mode slot r s).dram = true := by
  have : ∀ (qs : List (Nat × Nat)) (m : List Host.Cell), Mem.wf m = true → Mem.wf (qs.foldl
      (fun m q => writePixel m s.pool.panel (q.2 * s.pool.width + q.1) (targetPixel s mode slot q.1 q.2)) m) = true := by
    intro qs
    induction qs with
    | nil => exact fun _ h => h
    | cons q qs ih => exact fun m h => ih _ (wf_writePixel _ _ _ h)
  exact this _ _ h

end Sys2Proof.Machine
end

