-- ==== Sys2Proof/Laws/PerInstr.lean ====
section
/-! SUPPORT. Statements about every command as syntax, one lemma per constructor. -/

namespace Sys2Proof.Laws

/-- The payload of a well-formed request fits a packet: at most 1024 bytes (R175). -/
def PacketFits.Statement (i : Instr) : Prop :=
  i.wellFormed = true → ∀ q, i.request? = some q → q.2.2.payload.length ≤ 1024

/-- The check of a message's length is a part of every command's well-formedness. -/
theorem PacketFits.of_wellFormed (i : Instr) : PacketFits.Statement i := by
  intro h q e
  simp only [Instr.wellFormed, Instr.messageFits, e, Msg.fits, Bool.and_eq_true, decide_eq_true_eq] at h
  exact h.1.1

theorem PacketFits.pageOpen (p : Port) (m : Msg) : PacketFits.Statement (.pageOpen p m) := PacketFits.of_wellFormed _
theorem PacketFits.pageData (p : Port) (m : Msg) : PacketFits.Statement (.pageData p m) := PacketFits.of_wellFormed _
theorem PacketFits.pageClose (p : Port) (m : Msg) : PacketFits.Statement (.pageClose p m) := PacketFits.of_wellFormed _
theorem PacketFits.pageRelease (p : Port) (m : Msg) : PacketFits.Statement (.pageRelease p m) := PacketFits.of_wellFormed _
theorem PacketFits.pagePin (p : Port) (m : Msg) : PacketFits.Statement (.pagePin p m) := PacketFits.of_wellFormed _
theorem PacketFits.pageUnpin (p : Port) (m : Msg) : PacketFits.Statement (.pageUnpin p m) := PacketFits.of_wellFormed _
theorem PacketFits.pageStatus (p : Port) (m : Msg) : PacketFits.Statement (.pageStatus p m) := PacketFits.of_wellFormed _
theorem PacketFits.geometrySet (p : Port) (m : Msg) : PacketFits.Statement (.geometrySet p m) := PacketFits.of_wellFormed _
theorem PacketFits.windowSet (p : Port) (m : Msg) : PacketFits.Statement (.windowSet p m) := PacketFits.of_wellFormed _
theorem PacketFits.windowAppend (p : Port) (m : Msg) : PacketFits.Statement (.windowAppend p m) := PacketFits.of_wellFormed _
theorem PacketFits.windowPrepend (p : Port) (m : Msg) : PacketFits.Statement (.windowPrepend p m) := PacketFits.of_wellFormed _
theorem PacketFits.windowDrop (p : Port) (m : Msg) : PacketFits.Statement (.windowDrop p m) := PacketFits.of_wellFormed _
theorem PacketFits.windowQuery (p : Port) (m : Msg) : PacketFits.Statement (.windowQuery p m) := PacketFits.of_wellFormed _
theorem PacketFits.turnNext (p : Port) (m : Msg) : PacketFits.Statement (.turnNext p m) := PacketFits.of_wellFormed _
theorem PacketFits.turnPrev (p : Port) (m : Msg) : PacketFits.Statement (.turnPrev p m) := PacketFits.of_wellFormed _
theorem PacketFits.showPage (p : Port) (m : Msg) : PacketFits.Statement (.showPage p m) := PacketFits.of_wellFormed _
theorem PacketFits.abort (p : Port) (m : Msg) : PacketFits.Statement (.abort p m) := PacketFits.of_wellFormed _
theorem PacketFits.updateStatus (p : Port) (m : Msg) : PacketFits.Statement (.updateStatus p m) := PacketFits.of_wellFormed _
theorem PacketFits.scanComplete (id : Nat) : PacketFits.Statement (.scanComplete id) := PacketFits.of_wellFormed _
theorem PacketFits.frameEvent : PacketFits.Statement (.frameEvent) := PacketFits.of_wellFormed _
theorem PacketFits.waveformBegin (p : Port) (m : Msg) : PacketFits.Statement (.waveformBegin p m) := PacketFits.of_wellFormed _
theorem PacketFits.waveformData (p : Port) (m : Msg) : PacketFits.Statement (.waveformData p m) := PacketFits.of_wellFormed _
theorem PacketFits.waveformEnd (p : Port) (m : Msg) : PacketFits.Statement (.waveformEnd p m) := PacketFits.of_wellFormed _
theorem PacketFits.waveformStatus (p : Port) (m : Msg) : PacketFits.Statement (.waveformStatus p m) := PacketFits.of_wellFormed _
theorem PacketFits.scrubTimerExpiry : PacketFits.Statement (.scrubTimerExpiry) := PacketFits.of_wellFormed _
theorem PacketFits.scrubPassEnd (upsets : List Upset) : PacketFits.Statement (.scrubPassEnd upsets) := PacketFits.of_wellFormed _
theorem PacketFits.chunkBegin (p : Port) (m : Msg) : PacketFits.Statement (.chunkBegin p m) := PacketFits.of_wellFormed _
theorem PacketFits.chunkMore (p : Port) (m : Msg) : PacketFits.Statement (.chunkMore p m) := PacketFits.of_wellFormed _
theorem PacketFits.verificationEnd : PacketFits.Statement (.verificationEnd) := PacketFits.of_wellFormed _
theorem PacketFits.chunkAgingExpiry : PacketFits.Statement (.chunkAgingExpiry) := PacketFits.of_wellFormed _
theorem PacketFits.titleRead (p : Port) (m : Msg) : PacketFits.Statement (.titleRead p m) := PacketFits.of_wellFormed _
theorem PacketFits.titleRelease (p : Port) (m : Msg) : PacketFits.Statement (.titleRelease p m) := PacketFits.of_wellFormed _
theorem PacketFits.titleList (p : Port) (m : Msg) : PacketFits.Statement (.titleList p m) := PacketFits.of_wellFormed _
theorem PacketFits.titleQuery (p : Port) (m : Msg) : PacketFits.Statement (.titleQuery p m) := PacketFits.of_wellFormed _
theorem PacketFits.spoolStats (p : Port) (m : Msg) : PacketFits.Statement (.spoolStats p m) := PacketFits.of_wellFormed _
theorem PacketFits.spoolStatsClear (p : Port) (m : Msg) : PacketFits.Statement (.spoolStatsClear p m) := PacketFits.of_wellFormed _
theorem PacketFits.lightSet (p : Port) (m : Msg) : PacketFits.Statement (.lightSet p m) := PacketFits.of_wellFormed _
theorem PacketFits.lightQuery (p : Port) (m : Msg) : PacketFits.Statement (.lightQuery p m) := PacketFits.of_wellFormed _
theorem PacketFits.lightCurve (p : Port) (m : Msg) : PacketFits.Statement (.lightCurve p m) := PacketFits.of_wellFormed _
theorem PacketFits.lightAutoPoints (p : Port) (m : Msg) : PacketFits.Statement (.lightAutoPoints p m) := PacketFits.of_wellFormed _
theorem PacketFits.rampTick : PacketFits.Statement (.rampTick) := PacketFits.of_wellFormed _
theorem PacketFits.monitorTest (p : Port) (m : Msg) : PacketFits.Statement (.monitorTest p m) := PacketFits.of_wellFormed _
theorem PacketFits.monitorConfig (p : Port) (m : Msg) : PacketFits.Statement (.monitorConfig p m) := PacketFits.of_wellFormed _
theorem PacketFits.monitorStatus (p : Port) (m : Msg) : PacketFits.Statement (.monitorStatus p m) := PacketFits.of_wellFormed _
theorem PacketFits.conversionSequence (readings : Readings) : PacketFits.Statement (.conversionSequence readings) := PacketFits.of_wellFormed _
theorem PacketFits.chargeSet (p : Port) (m : Msg) : PacketFits.Statement (.chargeSet p m) := PacketFits.of_wellFormed _
theorem PacketFits.chargeConfig (p : Port) (m : Msg) : PacketFits.Statement (.chargeConfig p m) := PacketFits.of_wellFormed _
theorem PacketFits.chargeQuery (p : Port) (m : Msg) : PacketFits.Statement (.chargeQuery p m) := PacketFits.of_wellFormed _
theorem PacketFits.doze (p : Port) (m : Msg) : PacketFits.Statement (.doze p m) := PacketFits.of_wellFormed _
theorem PacketFits.sleep (p : Port) (m : Msg) : PacketFits.Statement (.sleep p m) := PacketFits.of_wellFormed _
theorem PacketFits.wakeMain (p : Port) (m : Msg) : PacketFits.Statement (.wakeMain p m) := PacketFits.of_wellFormed _
theorem PacketFits.resumeComplete : PacketFits.Statement (.resumeComplete) := PacketFits.of_wellFormed _
theorem PacketFits.powerOff (p : Port) (m : Msg) : PacketFits.Statement (.powerOff p m) := PacketFits.of_wellFormed _
theorem PacketFits.restart (p : Port) (m : Msg) : PacketFits.Statement (.restart p m) := PacketFits.of_wellFormed _
theorem PacketFits.haltIntervalComplete : PacketFits.Statement (.haltIntervalComplete) := PacketFits.of_wellFormed _
theorem PacketFits.powerOn (p : Port) (m : Msg) : PacketFits.Statement (.powerOn p m) := PacketFits.of_wellFormed _
theorem PacketFits.powerOnReset (keyHeld : Bool) (readings : Readings) : PacketFits.Statement (.powerOnReset keyHeld readings) := PacketFits.of_wellFormed _
theorem PacketFits.idleTimerExpiry : PacketFits.Statement (.idleTimerExpiry) := PacketFits.of_wellFormed _
theorem PacketFits.keyPress : PacketFits.Statement (.keyPress) := PacketFits.of_wellFormed _
theorem PacketFits.keyRelease : PacketFits.Statement (.keyRelease) := PacketFits.of_wellFormed _
theorem PacketFits.keyHoldExpiry : PacketFits.Statement (.keyHoldExpiry) := PacketFits.of_wellFormed _
theorem PacketFits.radioPowerOn (p : Port) (m : Msg) : PacketFits.Statement (.radioPowerOn p m) := PacketFits.of_wellFormed _
theorem PacketFits.radioPowerOff (p : Port) (m : Msg) : PacketFits.Statement (.radioPowerOff p m) := PacketFits.of_wellFormed _
theorem PacketFits.clockSecond : PacketFits.Statement (.clockSecond) := PacketFits.of_wellFormed _
theorem PacketFits.clockSet (p : Port) (m : Msg) : PacketFits.Statement (.clockSet p m) := PacketFits.of_wellFormed _
theorem PacketFits.alarmSet (p : Port) (m : Msg) : PacketFits.Statement (.alarmSet p m) := PacketFits.of_wellFormed _
theorem PacketFits.alarmClear (p : Port) (m : Msg) : PacketFits.Statement (.alarmClear p m) := PacketFits.of_wellFormed _
theorem PacketFits.alarmExpiry (slot : Nat) : PacketFits.Statement (.alarmExpiry slot) := PacketFits.of_wellFormed _
theorem PacketFits.status (p : Port) (m : Msg) : PacketFits.Statement (.status p m) := PacketFits.of_wellFormed _
theorem PacketFits.portReset (p : Port) (m : Msg) : PacketFits.Statement (.portReset p m) := PacketFits.of_wellFormed _
theorem PacketFits.countersClear (p : Port) (m : Msg) : PacketFits.Statement (.countersClear p m) := PacketFits.of_wellFormed _
theorem PacketFits.paramSetSpoolLimit (p : Port) (m : Msg) : PacketFits.Statement (.paramSetSpoolLimit p m) := PacketFits.of_wellFormed _
theorem PacketFits.paramSetAheadLow (p : Port) (m : Msg) : PacketFits.Statement (.paramSetAheadLow p m) := PacketFits.of_wellFormed _
theorem PacketFits.paramSetBehindLow (p : Port) (m : Msg) : PacketFits.Statement (.paramSetBehindLow p m) := PacketFits.of_wellFormed _
theorem PacketFits.paramSetTurnMode (p : Port) (m : Msg) : PacketFits.Statement (.paramSetTurnMode p m) := PacketFits.of_wellFormed _
theorem PacketFits.paramSetGhostLimit (p : Port) (m : Msg) : PacketFits.Statement (.paramSetGhostLimit p m) := PacketFits.of_wellFormed _
theorem PacketFits.paramSetFrameRate (p : Port) (m : Msg) : PacketFits.Statement (.paramSetFrameRate p m) := PacketFits.of_wellFormed _
theorem PacketFits.paramSetScrubPeriod (p : Port) (m : Msg) : PacketFits.Statement (.paramSetScrubPeriod p m) := PacketFits.of_wellFormed _
theorem PacketFits.paramSetChunkAge (p : Port) (m : Msg) : PacketFits.Statement (.paramSetChunkAge p m) := PacketFits.of_wellFormed _
theorem PacketFits.paramSetTitleWake (p : Port) (m : Msg) : PacketFits.Statement (.paramSetTitleWake p m) := PacketFits.of_wellFormed _
theorem PacketFits.paramSetRampStep (p : Port) (m : Msg) : PacketFits.Statement (.paramSetRampStep p m) := PacketFits.of_wellFormed _
theorem PacketFits.paramSetAutoDeadband (p : Port) (m : Msg) : PacketFits.Statement (.paramSetAutoDeadband p m) := PacketFits.of_wellFormed _
theorem PacketFits.paramSetPwmFrequency (p : Port) (m : Msg) : PacketFits.Statement (.paramSetPwmFrequency p m) := PacketFits.of_wellFormed _
theorem PacketFits.paramSetPolarityCool (p : Port) (m : Msg) : PacketFits.Statement (.paramSetPolarityCool p m) := PacketFits.of_wellFormed _
theorem PacketFits.paramSetPolarityWarm (p : Port) (m : Msg) : PacketFits.Statement (.paramSetPolarityWarm p m) := PacketFits.of_wellFormed _
theorem PacketFits.paramSetSleepDelay (p : Port) (m : Msg) : PacketFits.Statement (.paramSetSleepDelay p m) := PacketFits.of_wellFormed _
theorem PacketFits.paramSetLinkErrorThreshold (p : Port) (m : Msg) : PacketFits.Statement (.paramSetLinkErrorThreshold p m) := PacketFits.of_wellFormed _
theorem PacketFits.paramGet (p : Port) (m : Msg) : PacketFits.Statement (.paramGet p m) := PacketFits.of_wellFormed _
theorem PacketFits.unknownRequest (p : Port) (kind : Byte) (m : Msg) : PacketFits.Statement (.unknownRequest p kind m) := PacketFits.of_wellFormed _
theorem PacketFits.selectionByte (p : Port) (byte : Byte) : PacketFits.Statement (.selectionByte p byte) := PacketFits.of_wellFormed _
theorem PacketFits.headerFailure (p : Port) (header : Header) : PacketFits.Statement (.headerFailure p header) := PacketFits.of_wellFormed _
theorem PacketFits.packetArrived (p : Port) (packet : Packet) : PacketFits.Statement (.packetArrived p packet) := PacketFits.of_wellFormed _
theorem PacketFits.csRise (p : Port) (partialBytes : Nat) : PacketFits.Statement (.csRise p partialBytes) := PacketFits.of_wellFormed _
theorem PacketFits.packetSent (p : Port) : PacketFits.Statement (.packetSent p) := PacketFits.of_wellFormed _
theorem PacketFits.pwmPeriodStart (line : LightLine) : PacketFits.Statement (.pwmPeriodStart line) := PacketFits.of_wellFormed _
theorem PacketFits.headerGood (p : Port) (header : Header) : PacketFits.Statement (.headerGood p header) := PacketFits.of_wellFormed _
theorem PacketFits.entryFirstByteSent (p : Port) : PacketFits.Statement (.entryFirstByteSent p) := PacketFits.of_wellFormed _

end Sys2Proof.Laws
end

