-- ==== Sys2Proof/Laws/State.lean ====
section
/-! SUPPORT. What each update of one block leaves in each field of the state: one lemma for each field and update, so that no
later proof unfolds a record update. -/

namespace Sys2Proof.Machine

variable (s : State)

@[simp] theorem State.withPool_pool (b : Pool) : (s.withPool b).pool = b := rfl
@[simp] theorem State.withPool_dram (b : Pool) : (s.withPool b).dram = s.dram := rfl
@[simp] theorem State.withPool_store (b : Pool) : (s.withPool b).store = s.store := rfl
@[simp] theorem State.withPool_window (b : Pool) : (s.withPool b).window = s.window := rfl
@[simp] theorem State.withPool_engine (b : Pool) : (s.withPool b).engine = s.engine := rfl
@[simp] theorem State.withPool_wave (b : Pool) : (s.withPool b).wave = s.wave := rfl
@[simp] theorem State.withPool_spool (b : Pool) : (s.withPool b).spool = s.spool := rfl
@[simp] theorem State.withPool_light (b : Pool) : (s.withPool b).light = s.light := rfl
@[simp] theorem State.withPool_monitor (b : Pool) : (s.withPool b).monitor = s.monitor := rfl
@[simp] theorem State.withPool_charge (b : Pool) : (s.withPool b).charge = s.charge := rfl
@[simp] theorem State.withPool_platform (b : Pool) : (s.withPool b).platform = s.platform := rfl
@[simp] theorem State.withPool_portMain (b : Pool) : (s.withPool b).portMain = s.portMain := rfl
@[simp] theorem State.withPool_portStandby (b : Pool) : (s.withPool b).portStandby = s.portStandby := rfl
@[simp] theorem State.withPool_portRadio (b : Pool) : (s.withPool b).portRadio = s.portRadio := rfl
@[simp] theorem State.withPool_linkThreshold (b : Pool) : (s.withPool b).linkThreshold = s.linkThreshold := rfl
@[simp] theorem State.withPool_inputs (b : Pool) : (s.withPool b).inputs = s.inputs := rfl
@[simp] theorem State.withPool_samples (b : Pool) : (s.withPool b).samples = s.samples := rfl
@[simp] theorem State.withPool_pending (b : Pool) : (s.withPool b).pending = s.pending := rfl
@[simp] theorem State.withPool_port (b : Pool) (p : Port) : (s.withPool b).port p = s.port p := by cases p <;> rfl

@[simp] theorem State.withDram_pool (b : List Host.Cell) : (s.withDram b).pool = s.pool := rfl
@[simp] theorem State.withDram_dram (b : List Host.Cell) : (s.withDram b).dram = b := rfl
@[simp] theorem State.withDram_store (b : List Host.Cell) : (s.withDram b).store = s.store := rfl
@[simp] theorem State.withDram_window (b : List Host.Cell) : (s.withDram b).window = s.window := rfl
@[simp] theorem State.withDram_engine (b : List Host.Cell) : (s.withDram b).engine = s.engine := rfl
@[simp] theorem State.withDram_wave (b : List Host.Cell) : (s.withDram b).wave = s.wave := rfl
@[simp] theorem State.withDram_spool (b : List Host.Cell) : (s.withDram b).spool = s.spool := rfl
@[simp] theorem State.withDram_light (b : List Host.Cell) : (s.withDram b).light = s.light := rfl
@[simp] theorem State.withDram_monitor (b : List Host.Cell) : (s.withDram b).monitor = s.monitor := rfl
@[simp] theorem State.withDram_charge (b : List Host.Cell) : (s.withDram b).charge = s.charge := rfl
@[simp] theorem State.withDram_platform (b : List Host.Cell) : (s.withDram b).platform = s.platform := rfl
@[simp] theorem State.withDram_portMain (b : List Host.Cell) : (s.withDram b).portMain = s.portMain := rfl
@[simp] theorem State.withDram_portStandby (b : List Host.Cell) : (s.withDram b).portStandby = s.portStandby := rfl
@[simp] theorem State.withDram_portRadio (b : List Host.Cell) : (s.withDram b).portRadio = s.portRadio := rfl
@[simp] theorem State.withDram_linkThreshold (b : List Host.Cell) : (s.withDram b).linkThreshold = s.linkThreshold := rfl
@[simp] theorem State.withDram_inputs (b : List Host.Cell) : (s.withDram b).inputs = s.inputs := rfl
@[simp] theorem State.withDram_samples (b : List Host.Cell) : (s.withDram b).samples = s.samples := rfl
@[simp] theorem State.withDram_pending (b : List Host.Cell) : (s.withDram b).pending = s.pending := rfl
@[simp] theorem State.withDram_port (b : List Host.Cell) (p : Port) : (s.withDram b).port p = s.port p := by cases p <;> rfl

@[simp] theorem State.withStore_pool (b : PageStore) : (s.withStore b).pool = s.pool := rfl
@[simp] theorem State.withStore_dram (b : PageStore) : (s.withStore b).dram = s.dram := rfl
@[simp] theorem State.withStore_store (b : PageStore) : (s.withStore b).store = b := rfl
@[simp] theorem State.withStore_window (b : PageStore) : (s.withStore b).window = s.window := rfl
@[simp] theorem State.withStore_engine (b : PageStore) : (s.withStore b).engine = s.engine := rfl
@[simp] theorem State.withStore_wave (b : PageStore) : (s.withStore b).wave = s.wave := rfl
@[simp] theorem State.withStore_spool (b : PageStore) : (s.withStore b).spool = s.spool := rfl
@[simp] theorem State.withStore_light (b : PageStore) : (s.withStore b).light = s.light := rfl
@[simp] theorem State.withStore_monitor (b : PageStore) : (s.withStore b).monitor = s.monitor := rfl
@[simp] theorem State.withStore_charge (b : PageStore) : (s.withStore b).charge = s.charge := rfl
@[simp] theorem State.withStore_platform (b : PageStore) : (s.withStore b).platform = s.platform := rfl
@[simp] theorem State.withStore_portMain (b : PageStore) : (s.withStore b).portMain = s.portMain := rfl
@[simp] theorem State.withStore_portStandby (b : PageStore) : (s.withStore b).portStandby = s.portStandby := rfl
@[simp] theorem State.withStore_portRadio (b : PageStore) : (s.withStore b).portRadio = s.portRadio := rfl
@[simp] theorem State.withStore_linkThreshold (b : PageStore) : (s.withStore b).linkThreshold = s.linkThreshold := rfl
@[simp] theorem State.withStore_inputs (b : PageStore) : (s.withStore b).inputs = s.inputs := rfl
@[simp] theorem State.withStore_samples (b : PageStore) : (s.withStore b).samples = s.samples := rfl
@[simp] theorem State.withStore_pending (b : PageStore) : (s.withStore b).pending = s.pending := rfl
@[simp] theorem State.withStore_port (b : PageStore) (p : Port) : (s.withStore b).port p = s.port p := by cases p <;> rfl

@[simp] theorem State.withWindow_pool (b : Window) : (s.withWindow b).pool = s.pool := rfl
@[simp] theorem State.withWindow_dram (b : Window) : (s.withWindow b).dram = s.dram := rfl
@[simp] theorem State.withWindow_store (b : Window) : (s.withWindow b).store = s.store := rfl
@[simp] theorem State.withWindow_window (b : Window) : (s.withWindow b).window = b := rfl
@[simp] theorem State.withWindow_engine (b : Window) : (s.withWindow b).engine = s.engine := rfl
@[simp] theorem State.withWindow_wave (b : Window) : (s.withWindow b).wave = s.wave := rfl
@[simp] theorem State.withWindow_spool (b : Window) : (s.withWindow b).spool = s.spool := rfl
@[simp] theorem State.withWindow_light (b : Window) : (s.withWindow b).light = s.light := rfl
@[simp] theorem State.withWindow_monitor (b : Window) : (s.withWindow b).monitor = s.monitor := rfl
@[simp] theorem State.withWindow_charge (b : Window) : (s.withWindow b).charge = s.charge := rfl
@[simp] theorem State.withWindow_platform (b : Window) : (s.withWindow b).platform = s.platform := rfl
@[simp] theorem State.withWindow_portMain (b : Window) : (s.withWindow b).portMain = s.portMain := rfl
@[simp] theorem State.withWindow_portStandby (b : Window) : (s.withWindow b).portStandby = s.portStandby := rfl
@[simp] theorem State.withWindow_portRadio (b : Window) : (s.withWindow b).portRadio = s.portRadio := rfl
@[simp] theorem State.withWindow_linkThreshold (b : Window) : (s.withWindow b).linkThreshold = s.linkThreshold := rfl
@[simp] theorem State.withWindow_inputs (b : Window) : (s.withWindow b).inputs = s.inputs := rfl
@[simp] theorem State.withWindow_samples (b : Window) : (s.withWindow b).samples = s.samples := rfl
@[simp] theorem State.withWindow_pending (b : Window) : (s.withWindow b).pending = s.pending := rfl
@[simp] theorem State.withWindow_port (b : Window) (p : Port) : (s.withWindow b).port p = s.port p := by cases p <;> rfl

@[simp] theorem State.withEngine_pool (b : Engine) : (s.withEngine b).pool = s.pool := rfl
@[simp] theorem State.withEngine_dram (b : Engine) : (s.withEngine b).dram = s.dram := rfl
@[simp] theorem State.withEngine_store (b : Engine) : (s.withEngine b).store = s.store := rfl
@[simp] theorem State.withEngine_window (b : Engine) : (s.withEngine b).window = s.window := rfl
@[simp] theorem State.withEngine_engine (b : Engine) : (s.withEngine b).engine = b := rfl
@[simp] theorem State.withEngine_wave (b : Engine) : (s.withEngine b).wave = s.wave := rfl
@[simp] theorem State.withEngine_spool (b : Engine) : (s.withEngine b).spool = s.spool := rfl
@[simp] theorem State.withEngine_light (b : Engine) : (s.withEngine b).light = s.light := rfl
@[simp] theorem State.withEngine_monitor (b : Engine) : (s.withEngine b).monitor = s.monitor := rfl
@[simp] theorem State.withEngine_charge (b : Engine) : (s.withEngine b).charge = s.charge := rfl
@[simp] theorem State.withEngine_platform (b : Engine) : (s.withEngine b).platform = s.platform := rfl
@[simp] theorem State.withEngine_portMain (b : Engine) : (s.withEngine b).portMain = s.portMain := rfl
@[simp] theorem State.withEngine_portStandby (b : Engine) : (s.withEngine b).portStandby = s.portStandby := rfl
@[simp] theorem State.withEngine_portRadio (b : Engine) : (s.withEngine b).portRadio = s.portRadio := rfl
@[simp] theorem State.withEngine_linkThreshold (b : Engine) : (s.withEngine b).linkThreshold = s.linkThreshold := rfl
@[simp] theorem State.withEngine_inputs (b : Engine) : (s.withEngine b).inputs = s.inputs := rfl
@[simp] theorem State.withEngine_samples (b : Engine) : (s.withEngine b).samples = s.samples := rfl
@[simp] theorem State.withEngine_pending (b : Engine) : (s.withEngine b).pending = s.pending := rfl
@[simp] theorem State.withEngine_port (b : Engine) (p : Port) : (s.withEngine b).port p = s.port p := by cases p <;> rfl

@[simp] theorem State.withWave_pool (b : WaveTable) : (s.withWave b).pool = s.pool := rfl
@[simp] theorem State.withWave_dram (b : WaveTable) : (s.withWave b).dram = s.dram := rfl
@[simp] theorem State.withWave_store (b : WaveTable) : (s.withWave b).store = s.store := rfl
@[simp] theorem State.withWave_window (b : WaveTable) : (s.withWave b).window = s.window := rfl
@[simp] theorem State.withWave_engine (b : WaveTable) : (s.withWave b).engine = s.engine := rfl
@[simp] theorem State.withWave_wave (b : WaveTable) : (s.withWave b).wave = b := rfl
@[simp] theorem State.withWave_spool (b : WaveTable) : (s.withWave b).spool = s.spool := rfl
@[simp] theorem State.withWave_light (b : WaveTable) : (s.withWave b).light = s.light := rfl
@[simp] theorem State.withWave_monitor (b : WaveTable) : (s.withWave b).monitor = s.monitor := rfl
@[simp] theorem State.withWave_charge (b : WaveTable) : (s.withWave b).charge = s.charge := rfl
@[simp] theorem State.withWave_platform (b : WaveTable) : (s.withWave b).platform = s.platform := rfl
@[simp] theorem State.withWave_portMain (b : WaveTable) : (s.withWave b).portMain = s.portMain := rfl
@[simp] theorem State.withWave_portStandby (b : WaveTable) : (s.withWave b).portStandby = s.portStandby := rfl
@[simp] theorem State.withWave_portRadio (b : WaveTable) : (s.withWave b).portRadio = s.portRadio := rfl
@[simp] theorem State.withWave_linkThreshold (b : WaveTable) : (s.withWave b).linkThreshold = s.linkThreshold := rfl
@[simp] theorem State.withWave_inputs (b : WaveTable) : (s.withWave b).inputs = s.inputs := rfl
@[simp] theorem State.withWave_samples (b : WaveTable) : (s.withWave b).samples = s.samples := rfl
@[simp] theorem State.withWave_pending (b : WaveTable) : (s.withWave b).pending = s.pending := rfl
@[simp] theorem State.withWave_port (b : WaveTable) (p : Port) : (s.withWave b).port p = s.port p := by cases p <;> rfl

@[simp] theorem State.withSpool_pool (b : Spool) : (s.withSpool b).pool = s.pool := rfl
@[simp] theorem State.withSpool_dram (b : Spool) : (s.withSpool b).dram = s.dram := rfl
@[simp] theorem State.withSpool_store (b : Spool) : (s.withSpool b).store = s.store := rfl
@[simp] theorem State.withSpool_window (b : Spool) : (s.withSpool b).window = s.window := rfl
@[simp] theorem State.withSpool_engine (b : Spool) : (s.withSpool b).engine = s.engine := rfl
@[simp] theorem State.withSpool_wave (b : Spool) : (s.withSpool b).wave = s.wave := rfl
@[simp] theorem State.withSpool_spool (b : Spool) : (s.withSpool b).spool = b := rfl
@[simp] theorem State.withSpool_light (b : Spool) : (s.withSpool b).light = s.light := rfl
@[simp] theorem State.withSpool_monitor (b : Spool) : (s.withSpool b).monitor = s.monitor := rfl
@[simp] theorem State.withSpool_charge (b : Spool) : (s.withSpool b).charge = s.charge := rfl
@[simp] theorem State.withSpool_platform (b : Spool) : (s.withSpool b).platform = s.platform := rfl
@[simp] theorem State.withSpool_portMain (b : Spool) : (s.withSpool b).portMain = s.portMain := rfl
@[simp] theorem State.withSpool_portStandby (b : Spool) : (s.withSpool b).portStandby = s.portStandby := rfl
@[simp] theorem State.withSpool_portRadio (b : Spool) : (s.withSpool b).portRadio = s.portRadio := rfl
@[simp] theorem State.withSpool_linkThreshold (b : Spool) : (s.withSpool b).linkThreshold = s.linkThreshold := rfl
@[simp] theorem State.withSpool_inputs (b : Spool) : (s.withSpool b).inputs = s.inputs := rfl
@[simp] theorem State.withSpool_samples (b : Spool) : (s.withSpool b).samples = s.samples := rfl
@[simp] theorem State.withSpool_pending (b : Spool) : (s.withSpool b).pending = s.pending := rfl
@[simp] theorem State.withSpool_port (b : Spool) (p : Port) : (s.withSpool b).port p = s.port p := by cases p <;> rfl

@[simp] theorem State.withLight_pool (b : Light) : (s.withLight b).pool = s.pool := rfl
@[simp] theorem State.withLight_dram (b : Light) : (s.withLight b).dram = s.dram := rfl
@[simp] theorem State.withLight_store (b : Light) : (s.withLight b).store = s.store := rfl
@[simp] theorem State.withLight_window (b : Light) : (s.withLight b).window = s.window := rfl
@[simp] theorem State.withLight_engine (b : Light) : (s.withLight b).engine = s.engine := rfl
@[simp] theorem State.withLight_wave (b : Light) : (s.withLight b).wave = s.wave := rfl
@[simp] theorem State.withLight_spool (b : Light) : (s.withLight b).spool = s.spool := rfl
@[simp] theorem State.withLight_light (b : Light) : (s.withLight b).light = b := rfl
@[simp] theorem State.withLight_monitor (b : Light) : (s.withLight b).monitor = s.monitor := rfl
@[simp] theorem State.withLight_charge (b : Light) : (s.withLight b).charge = s.charge := rfl
@[simp] theorem State.withLight_platform (b : Light) : (s.withLight b).platform = s.platform := rfl
@[simp] theorem State.withLight_portMain (b : Light) : (s.withLight b).portMain = s.portMain := rfl
@[simp] theorem State.withLight_portStandby (b : Light) : (s.withLight b).portStandby = s.portStandby := rfl
@[simp] theorem State.withLight_portRadio (b : Light) : (s.withLight b).portRadio = s.portRadio := rfl
@[simp] theorem State.withLight_linkThreshold (b : Light) : (s.withLight b).linkThreshold = s.linkThreshold := rfl
@[simp] theorem State.withLight_inputs (b : Light) : (s.withLight b).inputs = s.inputs := rfl
@[simp] theorem State.withLight_samples (b : Light) : (s.withLight b).samples = s.samples := rfl
@[simp] theorem State.withLight_pending (b : Light) : (s.withLight b).pending = s.pending := rfl
@[simp] theorem State.withLight_port (b : Light) (p : Port) : (s.withLight b).port p = s.port p := by cases p <;> rfl

@[simp] theorem State.withMonitor_pool (b : Monitor) : (s.withMonitor b).pool = s.pool := rfl
@[simp] theorem State.withMonitor_dram (b : Monitor) : (s.withMonitor b).dram = s.dram := rfl
@[simp] theorem State.withMonitor_store (b : Monitor) : (s.withMonitor b).store = s.store := rfl
@[simp] theorem State.withMonitor_window (b : Monitor) : (s.withMonitor b).window = s.window := rfl
@[simp] theorem State.withMonitor_engine (b : Monitor) : (s.withMonitor b).engine = s.engine := rfl
@[simp] theorem State.withMonitor_wave (b : Monitor) : (s.withMonitor b).wave = s.wave := rfl
@[simp] theorem State.withMonitor_spool (b : Monitor) : (s.withMonitor b).spool = s.spool := rfl
@[simp] theorem State.withMonitor_light (b : Monitor) : (s.withMonitor b).light = s.light := rfl
@[simp] theorem State.withMonitor_monitor (b : Monitor) : (s.withMonitor b).monitor = b := rfl
@[simp] theorem State.withMonitor_charge (b : Monitor) : (s.withMonitor b).charge = s.charge := rfl
@[simp] theorem State.withMonitor_platform (b : Monitor) : (s.withMonitor b).platform = s.platform := rfl
@[simp] theorem State.withMonitor_portMain (b : Monitor) : (s.withMonitor b).portMain = s.portMain := rfl
@[simp] theorem State.withMonitor_portStandby (b : Monitor) : (s.withMonitor b).portStandby = s.portStandby := rfl
@[simp] theorem State.withMonitor_portRadio (b : Monitor) : (s.withMonitor b).portRadio = s.portRadio := rfl
@[simp] theorem State.withMonitor_linkThreshold (b : Monitor) : (s.withMonitor b).linkThreshold = s.linkThreshold := rfl
@[simp] theorem State.withMonitor_inputs (b : Monitor) : (s.withMonitor b).inputs = s.inputs := rfl
@[simp] theorem State.withMonitor_samples (b : Monitor) : (s.withMonitor b).samples = s.samples := rfl
@[simp] theorem State.withMonitor_pending (b : Monitor) : (s.withMonitor b).pending = s.pending := rfl
@[simp] theorem State.withMonitor_port (b : Monitor) (p : Port) : (s.withMonitor b).port p = s.port p := by cases p <;> rfl

@[simp] theorem State.withCharge_pool (b : Charge) : (s.withCharge b).pool = s.pool := rfl
@[simp] theorem State.withCharge_dram (b : Charge) : (s.withCharge b).dram = s.dram := rfl
@[simp] theorem State.withCharge_store (b : Charge) : (s.withCharge b).store = s.store := rfl
@[simp] theorem State.withCharge_window (b : Charge) : (s.withCharge b).window = s.window := rfl
@[simp] theorem State.withCharge_engine (b : Charge) : (s.withCharge b).engine = s.engine := rfl
@[simp] theorem State.withCharge_wave (b : Charge) : (s.withCharge b).wave = s.wave := rfl
@[simp] theorem State.withCharge_spool (b : Charge) : (s.withCharge b).spool = s.spool := rfl
@[simp] theorem State.withCharge_light (b : Charge) : (s.withCharge b).light = s.light := rfl
@[simp] theorem State.withCharge_monitor (b : Charge) : (s.withCharge b).monitor = s.monitor := rfl
@[simp] theorem State.withCharge_charge (b : Charge) : (s.withCharge b).charge = b := rfl
@[simp] theorem State.withCharge_platform (b : Charge) : (s.withCharge b).platform = s.platform := rfl
@[simp] theorem State.withCharge_portMain (b : Charge) : (s.withCharge b).portMain = s.portMain := rfl
@[simp] theorem State.withCharge_portStandby (b : Charge) : (s.withCharge b).portStandby = s.portStandby := rfl
@[simp] theorem State.withCharge_portRadio (b : Charge) : (s.withCharge b).portRadio = s.portRadio := rfl
@[simp] theorem State.withCharge_linkThreshold (b : Charge) : (s.withCharge b).linkThreshold = s.linkThreshold := rfl
@[simp] theorem State.withCharge_inputs (b : Charge) : (s.withCharge b).inputs = s.inputs := rfl
@[simp] theorem State.withCharge_samples (b : Charge) : (s.withCharge b).samples = s.samples := rfl
@[simp] theorem State.withCharge_pending (b : Charge) : (s.withCharge b).pending = s.pending := rfl
@[simp] theorem State.withCharge_port (b : Charge) (p : Port) : (s.withCharge b).port p = s.port p := by cases p <;> rfl

@[simp] theorem State.withPlatform_pool (b : Platform) : (s.withPlatform b).pool = s.pool := rfl
@[simp] theorem State.withPlatform_dram (b : Platform) : (s.withPlatform b).dram = s.dram := rfl
@[simp] theorem State.withPlatform_store (b : Platform) : (s.withPlatform b).store = s.store := rfl
@[simp] theorem State.withPlatform_window (b : Platform) : (s.withPlatform b).window = s.window := rfl
@[simp] theorem State.withPlatform_engine (b : Platform) : (s.withPlatform b).engine = s.engine := rfl
@[simp] theorem State.withPlatform_wave (b : Platform) : (s.withPlatform b).wave = s.wave := rfl
@[simp] theorem State.withPlatform_spool (b : Platform) : (s.withPlatform b).spool = s.spool := rfl
@[simp] theorem State.withPlatform_light (b : Platform) : (s.withPlatform b).light = s.light := rfl
@[simp] theorem State.withPlatform_monitor (b : Platform) : (s.withPlatform b).monitor = s.monitor := rfl
@[simp] theorem State.withPlatform_charge (b : Platform) : (s.withPlatform b).charge = s.charge := rfl
@[simp] theorem State.withPlatform_platform (b : Platform) : (s.withPlatform b).platform = b := rfl
@[simp] theorem State.withPlatform_portMain (b : Platform) : (s.withPlatform b).portMain = s.portMain := rfl
@[simp] theorem State.withPlatform_portStandby (b : Platform) : (s.withPlatform b).portStandby = s.portStandby := rfl
@[simp] theorem State.withPlatform_portRadio (b : Platform) : (s.withPlatform b).portRadio = s.portRadio := rfl
@[simp] theorem State.withPlatform_linkThreshold (b : Platform) : (s.withPlatform b).linkThreshold = s.linkThreshold := rfl
@[simp] theorem State.withPlatform_inputs (b : Platform) : (s.withPlatform b).inputs = s.inputs := rfl
@[simp] theorem State.withPlatform_samples (b : Platform) : (s.withPlatform b).samples = s.samples := rfl
@[simp] theorem State.withPlatform_pending (b : Platform) : (s.withPlatform b).pending = s.pending := rfl
@[simp] theorem State.withPlatform_port (b : Platform) (p : Port) : (s.withPlatform b).port p = s.port p := by cases p <;> rfl

@[simp] theorem State.withThreshold_pool (b : Nat) : (s.withThreshold b).pool = s.pool := rfl
@[simp] theorem State.withThreshold_dram (b : Nat) : (s.withThreshold b).dram = s.dram := rfl
@[simp] theorem State.withThreshold_store (b : Nat) : (s.withThreshold b).store = s.store := rfl
@[simp] theorem State.withThreshold_window (b : Nat) : (s.withThreshold b).window = s.window := rfl
@[simp] theorem State.withThreshold_engine (b : Nat) : (s.withThreshold b).engine = s.engine := rfl
@[simp] theorem State.withThreshold_wave (b : Nat) : (s.withThreshold b).wave = s.wave := rfl
@[simp] theorem State.withThreshold_spool (b : Nat) : (s.withThreshold b).spool = s.spool := rfl
@[simp] theorem State.withThreshold_light (b : Nat) : (s.withThreshold b).light = s.light := rfl
@[simp] theorem State.withThreshold_monitor (b : Nat) : (s.withThreshold b).monitor = s.monitor := rfl
@[simp] theorem State.withThreshold_charge (b : Nat) : (s.withThreshold b).charge = s.charge := rfl
@[simp] theorem State.withThreshold_platform (b : Nat) : (s.withThreshold b).platform = s.platform := rfl
@[simp] theorem State.withThreshold_portMain (b : Nat) : (s.withThreshold b).portMain = s.portMain := rfl
@[simp] theorem State.withThreshold_portStandby (b : Nat) : (s.withThreshold b).portStandby = s.portStandby := rfl
@[simp] theorem State.withThreshold_portRadio (b : Nat) : (s.withThreshold b).portRadio = s.portRadio := rfl
@[simp] theorem State.withThreshold_linkThreshold (b : Nat) : (s.withThreshold b).linkThreshold = b := rfl
@[simp] theorem State.withThreshold_inputs (b : Nat) : (s.withThreshold b).inputs = s.inputs := rfl
@[simp] theorem State.withThreshold_samples (b : Nat) : (s.withThreshold b).samples = s.samples := rfl
@[simp] theorem State.withThreshold_pending (b : Nat) : (s.withThreshold b).pending = s.pending := rfl
@[simp] theorem State.withThreshold_port (b : Nat) (p : Port) : (s.withThreshold b).port p = s.port p := by cases p <;> rfl

@[simp] theorem State.withPort_pool (p : Port) (u : PortUnit) : (s.withPort p u).pool = s.pool := by cases p <;> rfl
@[simp] theorem State.withPort_dram (p : Port) (u : PortUnit) : (s.withPort p u).dram = s.dram := by cases p <;> rfl
@[simp] theorem State.withPort_store (p : Port) (u : PortUnit) : (s.withPort p u).store = s.store := by cases p <;> rfl
@[simp] theorem State.withPort_window (p : Port) (u : PortUnit) : (s.withPort p u).window = s.window := by cases p <;> rfl
@[simp] theorem State.withPort_engine (p : Port) (u : PortUnit) : (s.withPort p u).engine = s.engine := by cases p <;> rfl
@[simp] theorem State.withPort_wave (p : Port) (u : PortUnit) : (s.withPort p u).wave = s.wave := by cases p <;> rfl
@[simp] theorem State.withPort_spool (p : Port) (u : PortUnit) : (s.withPort p u).spool = s.spool := by cases p <;> rfl
@[simp] theorem State.withPort_light (p : Port) (u : PortUnit) : (s.withPort p u).light = s.light := by cases p <;> rfl
@[simp] theorem State.withPort_monitor (p : Port) (u : PortUnit) : (s.withPort p u).monitor = s.monitor := by cases p <;> rfl
@[simp] theorem State.withPort_charge (p : Port) (u : PortUnit) : (s.withPort p u).charge = s.charge := by cases p <;> rfl
@[simp] theorem State.withPort_platform (p : Port) (u : PortUnit) : (s.withPort p u).platform = s.platform := by cases p <;> rfl
@[simp] theorem State.withPort_linkThreshold (p : Port) (u : PortUnit) : (s.withPort p u).linkThreshold = s.linkThreshold := by cases p <;> rfl
@[simp] theorem State.withPort_inputs (p : Port) (u : PortUnit) : (s.withPort p u).inputs = s.inputs := by cases p <;> rfl
@[simp] theorem State.withPort_samples (p : Port) (u : PortUnit) : (s.withPort p u).samples = s.samples := by cases p <;> rfl
@[simp] theorem State.withPort_pending (p : Port) (u : PortUnit) : (s.withPort p u).pending = s.pending := by cases p <;> rfl
@[simp] theorem State.withPort_port_same (p : Port) (u : PortUnit) : (s.withPort p u).port p = u := by cases p <;> rfl
theorem State.withPort_port_other {p q : Port} (u : PortUnit) (h : q ≠ p) : (s.withPort p u).port q = s.port q := by
  cases p <;> cases q <;> first | rfl | exact absurd rfl h
@[simp] theorem State.port_main : s.port .main = s.portMain := rfl
@[simp] theorem State.port_standby : s.port .standby = s.portStandby := rfl
@[simp] theorem State.port_radio : s.port .radio = s.portRadio := rfl
@[simp] theorem State.withPort_main (u : PortUnit) : s.withPort .main u = { s with portMain := u } := rfl
@[simp] theorem State.withPort_standby (u : PortUnit) : s.withPort .standby u = { s with portStandby := u } := rfl
@[simp] theorem State.withPort_radio (u : PortUnit) : s.withPort .radio u = { s with portRadio := u } := rfl

end Sys2Proof.Machine
end

