-- ==== Sys2Proof/Laws/Taking.lean ====
section
/-! SUPPORT. What the taking of a request and the queuing of its response do (R177, R178, R180), said once for the port that can
take a request at once, so that a claim on a request unfolds only its owner. -/

namespace Sys2Proof.Machine

/-- A request that arrives at a ready port waits alone, counted. -/
theorem arrived_of_ready {p : Port} {s : State} (pkt : Packet) (h : Ready p s) :
    arrived p pkt s = s.withPort p { s.port p with
      waiting := [pkt],
      counters := { (s.port p).counters with admitted := saturatingSucc (s.port p).counters.admitted } } := by
  have hw := h.nothingWaits
  have hr := h.room
  simp [arrived, hw, onPort, takeIn, hr]

/-- A request that arrives at a ready port can be taken at once. -/
theorem takable_of_ready {p : Port} {s : State} (pkt : Packet) (h : Ready p s) :
    takable p pkt (arrived p pkt s) = true := by
  have hp := h.nothingInProcess
  rw [arrived_of_ready pkt h]
  simp [takable, hp]

/-- The taking of a main-port request in ACTIVE: the owner decides it with WAKE_MAIN deasserted and nothing else changed. -/
theorem takeRequest_main {α : Type} {k : ReqKind} {m : Msg} {read : List Byte → Option α} {a : α} {s : State}
    (owner : α → State → State) (h : MainTakes k m read a s) :
    takeRequest .main k m read owner s = owner a (mainTaken k m s) := by
  obtain ⟨hr, ha, hc, hk, hf⟩ := h
  have ht := takable_of_ready ⟨k.code, m⟩ hr
  have hp := hr.powered
  rw [takeRequest, if_neg (by simp [hp]), if_pos ht, arrived_of_ready _ hr]
  simp [decideRequest, hc, hk, hf, beginTaking, requestTaken, onPort, onPlatform, State.withPlatform, ha, mainTaken,
    takenUnit]

/-- The taking of a standby or radio request: the owner decides it with a running idle timer restarted and nothing else
changed. -/
theorem takeRequest_other {α : Type} {p : Port} {k : ReqKind} {m : Msg} {read : List Byte → Option α} {a : α} {s : State}
    (owner : α → State → State) (h : OtherTakes p k m read a s) :
    takeRequest p k m read owner s = owner a (otherTaken p k m s) := by
  obtain ⟨ho, hr, hc, hk, hs, hf⟩ := h
  have ht := takable_of_ready ⟨k.code, m⟩ hr
  have hp := hr.powered
  have hst : (otherTaken p k m s).platform.state = s.platform.state := by
    simp only [otherTaken, restartIdle, onPlatform, State.withPort_platform, State.withPlatform_platform]; split <;> rfl
  have hs' : ¬ (p = .standby ∧ (otherTaken p k m s).platform.state = .off ∧ servedInOff k = false) := by
    rw [hst]; rintro ⟨-, h1, h2⟩; rcases hs with h | h <;> simp_all
  have hb : ∀ u : PortUnit, u.waiting = [⟨k.code, m⟩] → takenUnit k m (s.port p) =
      { u with waiting := [], inProcess := some ⟨⟨k.code, m⟩, false⟩ } →
      beginTaking p ⟨k.code, m⟩ (s.withPort p u) = otherTaken p k m s := by
    intro u hu hk
    cases p with
    | main => exact absurd rfl ho
    | standby => simp only [otherTaken, hk]; simp [beginTaking, onPort, requestTaken, restartIdle, onPlatform,
        State.withPlatform, hu]
    | radio => simp only [otherTaken, hk]; simp [beginTaking, onPort, requestTaken, restartIdle, onPlatform,
        State.withPlatform, hu]
  rw [takeRequest, if_neg (by simp [hp]), if_pos ht, arrived_of_ready _ hr, hb _ rfl rfl]
  simp [decideRequest, hc, hk, hf, hs']

/-- A response to a request in process that no reset has condemned. -/
theorem respond_of_inProcess {p : Port} {s : State} {q : Packet} (r : Result) (data : List Byte)
    (h : (s.port p).inProcess = some ⟨q, false⟩) :
    respond p r data s = s.withPort p { s.port p with
      inProcess := none, queue := (s.port p).queue ++ [.response q.kind r (s.port p).errors data], errors := .empty } := by
  cases p <;> simp_all [respond, queueResponse, onPort]

/-- The response to a main-port request just taken, whatever its owner has changed elsewhere. -/
theorem respond_main_taken {t : State} {k : ReqKind} {m : Msg} {u : PortUnit} (r : Result) (data : List Byte)
    (h : t.portMain = takenUnit k m u) (hw : u.waiting = []) (hp : u.inProcess = none) :
    respond .main r data t = { t with portMain := answered k r data u } := by
  obtain ⟨_, _, _, _, _, _, _, _⟩ := u
  simp only at hw hp
  subst hw hp
  rw [respond_of_inProcess (q := ⟨k.code, m⟩) r data (by simp [h, takenUnit])]
  simp [h, takenUnit, answered]

/-- The response to a standby or radio request just taken, whatever its owner has changed elsewhere. -/
theorem respond_other_taken {t : State} {p : Port} {k : ReqKind} {m : Msg} {u : PortUnit} (r : Result) (data : List Byte)
    (h : t.port p = takenUnit k m u) (hw : u.waiting = []) (hp : u.inProcess = none) :
    respond p r data t = t.withPort p (answered k r data u) := by
  obtain ⟨_, _, _, _, _, _, _, _⟩ := u
  simp only at hw hp
  subst hw hp
  rw [respond_of_inProcess (q := ⟨k.code, m⟩) r data (by simp [h, takenUnit])]
  simp [h, takenUnit, answered]

end Sys2Proof.Machine
end

