-- ==== Sys2Proof/Laws/Shared.lean ====
section
/-! SUPPORT. What the shared operations do, each said once: notices (R181), the wake of the platform (R156), the consideration pass
with nothing to decide (R45, R47), slots and stamps (R8, R9), the low-water evaluation's frame (R36), an evaluation of the charge
account that changes nothing (R144), a steady sample of a channel (R126). -/

namespace Sys2Proof.Machine

/-! ## Requests -/

/-- A refusal of a main-port request just taken. -/
theorem refuse_mainTaken {k : ReqKind} {m : Msg} {s : State} (r : Result) (h : Ready .main s) :
    refuse .main r (mainTaken k m s) = mainAnswered k r [] s :=
  respond_main_taken (t := mainTaken k m s) (k := k) (m := m) r [] rfl h.nothingWaits h.nothingInProcess

/-- An answer to a main-port request just taken, nothing else changed. -/
theorem respond_mainTaken {k : ReqKind} {m : Msg} {s : State} (r : Result) (data : List Byte) (h : Ready .main s) :
    respond .main r data (mainTaken k m s) = mainAnswered k r data s :=
  respond_main_taken (t := mainTaken k m s) (k := k) (m := m) r data rfl h.nothingWaits h.nothingInProcess

/-- In ACTIVE and SLEEP the platform controller's own check does nothing. -/
theorem recheckNow_of_active {s : State} (h : s.platform.state = .active) : recheckNow s = s := by simp [recheckNow, h]

theorem recheckNow_of_sleep {s : State} (h : s.platform.state = .sleep) : recheckNow s = s := by simp [recheckNow, h]

/-! ## Notices -/

/-- A notice for which the share has room joins the tail. -/
theorem offerUnit_of_room {n : Notice} {u : PortUnit} (h : noticeCount u < Config.noticeMax) :
    offerUnit n u = { u with queue := u.queue ++ [.notice n] } := by simp [offerUnit, h]

/-- A notice changes nothing of a port unit but its queue and its error set. -/
theorem offerUnit_frame (n : Notice) (u : PortUnit) :
    ∃ q e, offerUnit n u = { u with queue := q, errors := e } := by
  unfold offerUnit
  split
  · exact ⟨_, u.errors, rfl⟩
  · split
    · exact ⟨_, u.errors, rfl⟩
    · exact ⟨u.queue, _, rfl⟩

/-- What a notice to the main port does in ACTIVE, of either class. -/
theorem offerMain_of_active {b : Bool} {n : Notice} {s : State} (h : s.platform.state = .active) :
    offerMain b n s = { s with portMain := offerUnit n s.portMain } := by
  cases b <;> simp [offerMain, h, offerTo, onPort, wakeByNotice, State.port, State.withPort]

/-- A notice to the main port in OFF is discarded. -/
theorem offerMain_of_off {b : Bool} {n : Notice} {s : State} (h : s.platform.state = .off) : offerMain b n s = s := by
  simp [offerMain, h]

/-- What a notice to the standby or radio port does. -/
theorem offerTo_standby (n : Notice) (s : State) :
    offerTo .standby n s = { s with portStandby := offerUnit n s.portStandby } := by
  simp [offerTo, onPort, State.port, State.withPort]

theorem offerTo_radio (n : Notice) (s : State) :
    offerTo .radio n s = { s with portRadio := offerUnit n s.portRadio } := by
  simp [offerTo, onPort, State.port, State.withPort]

/-- A wake-class notice in DOZE: the notice, then ACTIVE with WAKE_MAIN asserted, reported to the standby port. -/
theorem offerMain_wakes {n : Notice} {s : State} (h : s.platform.state = .doze) :
    offerMain true n s = { s with
      portMain := offerUnit n s.portMain
      platform := { s.platform with
        state := .active, sleepPending := none, pageSubmitted := false, idleTimer := none, wakeMain := true }
      portStandby := offerUnit (.stateChanged .active .doze .wakeNotice s.platform.clock) s.portStandby } := by
  simp [offerMain, h, offerTo, onPort, wakeByNotice, State.port, State.withPort, enterActive, onPlatform, reportState,
    State.withPlatform]

/-! ## Update engine -/

/-- A pass over an empty queue does nothing. -/
theorem considerationPass_nil (k : Hooks) {s : State} (h : s.engine.queue = []) : considerationPass k s = s := by
  simp [considerationPass, h]

/-- A pass while the table is LOADING does nothing. -/
theorem considerationPass_loading (k : Hooks) {s : State} (h : s.wave.state = .loading) : considerationPass k s = s := by
  have : ∀ ids : List Nat, ids.foldl (fun t id => considerEntry k id t) s = s := by
    intro ids
    induction ids with
    | nil => rfl
    | cons i ids ih =>
      have e : considerEntry k i s = s := by
        simp only [considerEntry]; split
        · simp [decideEntry, h]
        · rfl
      simp only [List.foldl_cons, e, ih]
  exact this _

/-- A next-id counter that names no live record is given as it stands. -/
theorem newId_of_fresh {e : Engine} (h : e.nextId ∉ liveIds e) : newId e = e.nextId := by
  simp [newId, freshId, h]

/-! ## Slots -/

/-- A slot that is not EMPTY is one of the records. -/
theorem slot_in_store {s : State} {i : Nat} (h : (slotAt i s).state ≠ .empty) : i < s.store.slots.length := by
  by_contra hc
  apply h
  simp [slotAt, List.getD, List.getElem?_eq_none (by omega : s.store.slots.length ≤ i)]
  rfl

/-- A record reads back as it was set. -/
theorem slotAt_setSlot_same {s : State} {i : Nat} (x : Slot) (h : i < s.store.slots.length) :
    slotAt i (setSlot i x s) = x := by
  simp [slotAt, setSlot, State.withStore, h]

/-- Setting a record leaves the others as they were. -/
theorem slotAt_setSlot_other {s : State} {i j : Nat} (x : Slot) (h : j ≠ i) : slotAt j (setSlot i x s) = slotAt j s := by
  simp [slotAt, setSlot, State.withStore, List.getElem?_set_ne (Ne.symm h)]

/-- A stamp taken short of the wrap: the slot has the counter's value and the counter is one more. -/
theorem takeStamp_of_room {s : State} {i : Nat} (h : s.store.useCounter < Config.max32) :
    takeStamp i s = { s with store := { s.store with
      slots := s.store.slots.set i { slotAt i s with stamp := some s.store.useCounter }
      useCounter := s.store.useCounter + 1 } } := by
  simp [takeStamp, setSlot, State.withStore, Nat.ne_of_lt h]

/-! ## Window and charge account -/

/-- A low-water evaluation in ACTIVE changes the armed flags and the main port's queue only. -/
theorem lowWater_of_active {s : State} (h : s.platform.state = .active) :
    ∃ a b u, lowWater s = { s with window := { s.window with aheadArmed := a, behindArmed := b }, portMain := u } := by
  simp only [lowWater]
  split
  · rw [offerMain_of_active (by exact h)]; exact ⟨_, _, _, rfl⟩
  · exact ⟨_, _, s.portMain, rfl⟩

/-- An evaluation that keeps the level index, with the spool not HELD, changes nothing. -/
theorem evaluate_of_same (k : Hooks) {s : State} (h : nextLevel s.charge = s.charge.level) (hh : s.spool.held = false) :
    evaluate k s = s := by
  simp [evaluate, h, spoolEvaluated, hh]

/-! ## Monitor -/

/-- A steady conversion: the record, no change of fault state, and the value handed over. -/
theorem sampleChannel_of_steady (k : Hooks) (c : Channel) (raw : BitVec 12) (n : Nat) {s : State}
    (h : Steady c (s.monitor.get c) raw) :
    sampleChannel k c raw.toNat n s = handOver k c (convert c (s.monitor.get c) raw.toNat) n false
      (setChannel c (steadySample c (s.monitor.get c) raw) s) := by
  obtain ⟨h1, h2, h3, h4, h5⟩ := h
  have e : sampleValue c (s.monitor.get c) raw.toNat = convert c (s.monitor.get c) raw.toNat := by simp [sampleValue, h1]
  have er : recordSample c (s.monitor.get c) raw.toNat = steadySample c (s.monitor.get c) raw := by
    simp only [recordSample, steadySample, e, h1, Option.isSome_none, Bool.false_eq_true, if_false]
  have ho : c ≠ .amb → runPoints (steadySample c (s.monitor.get c) raw) (convert c (s.monitor.get c) raw.toNat) = false := by
    intro hc
    have hl := h4 hc
    have hu := h5 hc
    have e1 : decide (convert c (s.monitor.get c) raw.toNat < (s.monitor.get c).low) = false := by simp; omega
    have e2 : decide ((s.monitor.get c).high < convert c (s.monitor.get c) raw.toNat) = false := by simp; omega
    simp only [runPoints, outsideLimits, steadySample, h2, e1, e2]
    rfl
  have hf : faultChanges c (steadySample c (s.monitor.get c) raw) (convert c (s.monitor.get c) raw.toNat) = false := by
    by_cases hc : c = .amb
    · subst hc; rfl
    · simp only [faultChanges, ho hc, Bool.and_false, Bool.false_and]
  have hr : checkLimits c (steadySample c (s.monitor.get c) raw) (convert c (s.monitor.get c) raw.toNat)
      = steadySample c (s.monitor.get c) raw := by
    by_cases hc : c = .amb
    · subst hc; rfl
    · simp only [checkLimits, hf, ho hc, Bool.false_eq_true, if_false]
      split
      · simp only [steadySample]
        congr 1
        exact h3.symm
      · rfl
  simp only [sampleChannel, e, er, h1, hf, hr, Option.isSome_none, Bool.false_eq_true, if_false]

/-- A brownout in HALTING touches the halt cause alone, and that only while the page is not decided (R162). -/
theorem brownout_of_halting (k : Hooks) {s : State} (h : s.platform.state = .halting) :
    brownout k s = { s with platform := { s.platform with
      haltCause := if s.platform.pageDecided = true then s.platform.haltCause else some .brownout } } := by
  simp [brownout, h, onPlatform, State.withPlatform]

/-! ## Spool and links -/

/-- A title that is VERIFYING joins the tail of the verification list; any other changes nothing (R94). -/
theorem joinVerifying_eq (i : Nat) (t : Title) (s : State) :
    joinVerifying i t s = { s with spool := { s.spool with
      verifying := if t.state = .verifying then s.spool.verifying ++ [i] else s.spool.verifying } } := by
  unfold joinVerifying
  split <;> rfl

/-- Outside the sending of a READ the part sends filler on SDO (R174, R184 step 3). -/
theorem sdoByte_of_not_sending {u : PortUnit} (n : Nat) (h : u.transfer ≠ .readEntry) (h' : u.transfer ≠ .readBoundary) :
    sdoByte u n = fillerByte := by
  unfold sdoByte
  split <;> simp_all

end Sys2Proof.Machine
end

