-- ==== Sys2Proof/Tests/Slice0.lean ====
section
/-! SUPPORT. Tests: the spec's worked examples and tables, one ill-formed command for each check of WellFormed, the byte order of the
payloads, and for every statement with hypotheses a concrete state and operands that meet them. Expected values are the spec's. -/

namespace Sys2Proof.Tests

set_option Elab.async false

open Sys2Proof Sys2Proof.Machine

/-! ## Worked examples of the spec -/

/-- "123456789" in ASCII. -/
def nineDigits : List Byte := [0x31, 0x32, 0x33, 0x34, 0x35, 0x36, 0x37, 0x38, 0x39]

theorem test_crc8 : crc8 nineDigits = 0xF4#8 := by decide +kernel
theorem test_crc16 : crc16 nineDigits = 0x29B1#16 := by decide +kernel
theorem test_crc32 : crc32 nineDigits = 0xCBF43926#32 := by decide +kernel

/-- R14: a running CRC goes on where the packet before it stopped. -/
theorem test_crc32_running : crc32From (crc32 (nineDigits.take 4)) (nineDigits.drop 4) = 0xCBF43926#32 := by decide +kernel

/-- R3: the footprint of the default, the largest and the smallest panel. -/
theorem test_footprints : footprint .reset = 12 ∧ footprint { Pool.reset with width := 1680, height := 1264 } = 17
    ∧ footprint { Pool.reset with width := 256, height := 256 } = 1 := by decide +kernel

/-- R6: 700 free blocks and the default image, a new geometry of 1680 × 1264. -/
theorem test_geometry_example :
    let b := poolWithGeometry 1680 1264 { Pool.reset with free := (List.range 700).map (· + 12) }
    b.panel.length = 17 ∧ b.free.length = 695 ∧ b.panel.head? = some 12 ∧ b.free.getLast? = some 11 := by decide +kernel

/-- R43: the four rows of the table. -/
theorem test_regions : normalise .reset ⟨13, 1000, 100, 200⟩ = ⟨8, 1000, 112, 72⟩
    ∧ normalise .reset ⟨1445, 0, 10, 40⟩ = ⟨1440, 0, 8, 40⟩ ∧ isEmptyRegion (normalise .reset ⟨0, 0, 0, 50⟩) = true
    ∧ isEmptyRegion (normalise .reset ⟨1448, 10, 16, 16⟩) = true := by decide +kernel

/-- Section 2.6: three turns in a window of six leave ahead 1, behind 4. -/
theorem test_window_counts : aheadOf { Window.reset with entries := [4, 7, 2, 11, 15, 6], cursor := some 4 } = 1
    ∧ behindOf { Window.reset with entries := [4, 7, 2, 11, 15, 6], cursor := some 4 } = 4 := by decide +kernel

/-- R52: the frame periods of 85 Hz and 50 Hz. -/
theorem test_frame_periods : framePeriod 85 = 11764 ∧ framePeriod 50 = 20000 := by decide +kernel

/-- Section 4.7: the declared size of the example's counts. -/
theorem test_declared_size : declaredSize [40, 30, 24, 18, 8, 6] = 8064 := by decide +kernel

/-- R78: below the first bound, in band 1, in band 2, at the top bound, and with no value. -/
theorem test_band_rule :
    let d : Descriptor := ⟨[0, 200, 400], []⟩
    bandRule d (some (-1)) = (1, true) ∧ bandRule d (some 0) = (1, false) ∧ bandRule d (some 200) = (2, false)
      ∧ bandRule d (some 400) = (2, true) ∧ bandRule d none = (1, true) := by decide +kernel

/-- R119: the worked duties, T 1701 shared 640 and 1061. -/
theorem test_duties :
    let l := withDuties { Light.reset with rampLevel := 660, rampWarmth := 96 }
    l.warmDuty = 640 ∧ l.coolDuty = 1061 := by decide +kernel

/-- R123: the values at raw 0 and raw 4095 and the worked conversions. -/
theorem test_conversions :
    let m := Monitor.reset
    convert .batv m.batv 4095 = 4998 ∧ convert .bati m.bati 0 = -3000 ∧ convert .bati m.bati 4095 = 2998
      ∧ convert .ptemp m.ptemp 4095 = 999 ∧ convert .dtemp m.dtemp 4095 = 1249 ∧ convert .amb m.amb 4095 = 16380
      ∧ convert .panv m.panv 4095 = 29992 ∧ convert .batv m.batv 3162 = 3859 ∧ convert .bati m.bati 1925 = -181
      ∧ convert .bati m.bati 2048 = 0 ∧ convert .ptemp m.ptemp 1170 = -1 ∧ convert .panv m.panv 2048 = 15000 := by decide +kernel

/-- Section 8.5: E of 24 frames and 310,000 changed pixels; R140: the costs of 4,096 bytes and of one byte. -/
theorem test_charge_estimates : updateEstimate .reset 24 310000 = 7440 ∧ chunkCost .reset 4096 = 3600
    ∧ chunkCost .reset 1 = 1 ∧ chunkCost { ChargeParams.reset with perKib := 65535 } 4096 = 262140 := by decide +kernel

/-- R148: a first BATV value of 3860 mV gives 628 per mille. -/
theorem test_ocv_example : ocvPerMille ChargeParams.reset.ocv 3860 = 628
    ∧ (startUpEstimate 3860 .reset).q = 3391200000 ∧ (startUpEstimate 3860 .reset).level = 0 := by decide +kernel

/-! ## Bytes on the wire -/

/-- The header of an EMPTY packet and a response whose header, payload and check lie in their order, low bytes first (11.1). -/
theorem test_packet_bytes : emptyPacket.length = 4 ∧ emptyPacket.take 3 = [0, 0, 0]
    ∧ (packetBytes 0x80#8 [1, 2]).take 3 = [0x80, 2, 0] ∧ (packetBytes 0x80#8 [1, 2]).length = 8 := by decide +kernel

/-- Low byte first: W 1448 is 05A8h, a tag, a signed value (11.2). -/
theorem test_field_order : readGeometry [0xA8, 0x05, 0x30, 0x04] = some (1448, 1072)
    ∧ readPageOpen [0xFF, 0x78, 0x56, 0x34, 0x12, 0x02] = some ⟨255, 0x12345678#32, 2⟩
    ∧ readMonitorTest [1, 0xFE, 0xFF, 0xFF, 0xFF] = some ⟨1, -2⟩
    ∧ encS32 (-2) = [0xFE, 0xFF, 0xFF, 0xFF] := by decide +kernel

/-- R189: the lengths of SHOW are 2 and 10, WINDOW_SET is 2 + n, WAVEFORM_BEGIN 3 + 5 × B. -/
theorem test_lengths : (readShow [1, 0]).isSome = true ∧ (readShow [1, 0, 0]).isNone = true
    ∧ (readWindowSet [2, 0, 3, 4]).isSome = true ∧ (readWindowSet [2, 0, 3]).isNone = true
    ∧ (readWaveformBegin [1, 0, 0, 1, 0, 5, 5, 5]).isSome = true ∧ (readWaveformBegin [1, 0, 0, 1, 0, 5, 5]).isNone = true :=
  by decide +kernel

/-- R191: the prefix lengths of OPENING, OPENING with a CRC, RESUMING and BARE. -/
theorem test_prefix_lengths : prefixLength 0x01 = 16 ∧ prefixLength 0x09 = 20 ∧ prefixLength 0x02 = 11 ∧ prefixLength 0x03 = 3 :=
  by decide +kernel

/-- An OPENING prefix byte by byte: declared 300, title 5, total 600, STRICT, offset 0, one data byte (11.6). -/
theorem test_opening_prefix :
    readChunkBegin [0x01, 0x2C, 0x01, 5, 0, 0, 0, 0x58, 0x02, 0, 0, 1, 0, 0, 0, 0, 0x77] =
      some { form := 1, last := false, crcPresent := false, upper := 0, declared := 300, title := 5, total := 600, crc := 0,
             policy := 1, offset := 0, data := [0x77] } := by decide +kernel

/-! ## Ill-formed commands, one for each check -/

theorem test_wf_payload_too_long : (Instr.pageData .main ⟨List.replicate 1025 0, 0⟩).wellFormed = false := by decide +kernel
theorem test_wf_longest_payload : (Instr.pageData .main ⟨List.replicate 1024 0, 0⟩).wellFormed = true := by decide +kernel
theorem test_wf_other_parameter : (Instr.paramSetAheadLow .main (mkMsg [0x03, 1, 0, 0, 0])).wellFormed = false := by decide +kernel
theorem test_wf_radio_code : (Instr.radioPowerOn .main (mkMsg [0])).wellFormed = false := by decide +kernel
theorem test_wf_radio_code_off : (Instr.radioPowerOff .main (mkMsg [1])).wellFormed = false := by decide +kernel
theorem test_wf_update_id : (Instr.scanComplete 0).wellFormed = false := by decide +kernel
theorem test_wf_alarm_slot : (Instr.alarmExpiry 3).wellFormed = false := by decide +kernel
theorem test_wf_known_kind : (Instr.unknownRequest .main 0x01#8 (mkMsg [])).wellFormed = false := by decide +kernel
theorem test_wf_good_header_fails : (Instr.headerFailure .main ⟨0, 0, 0⟩).wellFormed = false := by decide +kernel
theorem test_wf_bad_header_good : (Instr.headerGood .main ⟨0, 1, 0⟩).wellFormed = false := by decide +kernel
theorem test_wf_partial_bytes : (Instr.csRise .main 4).wellFormed = false := by decide +kernel
theorem test_wf_upset_place : (Instr.scrubPassEnd [⟨196608, 0⟩]).wellFormed = false := by decide +kernel
theorem test_wf_packet_payload : (Instr.packetArrived .main ⟨0, ⟨List.replicate 1025 0, 0⟩⟩).wellFormed = false := by decide +kernel

/-! ## Rules with a turn of their own -/

/-- A port unit with one notice at its head, in this state of its transfer. -/
def sending (x : Transfer) : PortUnit := { PortUnit.reset with transfer := x, queue := [.notice .key] }

/-- R174, R184 step 3: 00h in a WRITE, during the selection byte, in DISCARD and for the rest of an entry after PORT_RESET; in a
READ the entry's own bytes, kind first (NOTICE is 81h), and EMPTY (kind 00h) where the queue holds none. -/
theorem test_sdo_bytes :
    (∀ x ∈ [Transfer.idle, .header, .body 2 4, .discard, .readFiller], sdoByte (sending x) 0 = 0x00#8)
      ∧ sdoByte (sending .readEntry) 0 = 0x81#8 ∧ sdoByte { sending .readBoundary with queue := [] } 0 = 0x00#8 := by decide +kernel

/-- R120: an accepted frequency equal to the one that runs cuts the warm period too, at the cool output's next start. -/
theorem test_equal_frequency_cuts_warm :
    let l := { Light.reset with pwmPending := true, warmOut := ⟨9, false⟩ }
    (coolPeriod l).warmOut.held = true ∧ (coolPeriod l).pwmPending = false
      ∧ (coolPeriod (warmPeriod (coolPeriod l))).warmOut.held = false := by decide +kernel

/-- R162: a brownout in HALTING changes the cause only while the page is not decided. -/
theorem test_brownout_after_the_decision :
    let s := fun d => { State.reset with
      platform := { Platform.reset with state := .halting, haltCause := some .restart, pageDecided := d } }
    (brownout .full (s false)).platform.haltCause = some .brownout
      ∧ (brownout .full (s true)).platform.haltCause = some .restart := by decide +kernel

/-! ## The queue -/

/-- No word spells a command (log entry 7). -/
theorem test_no_word_spells_a_command : decodeTableWord 0 0 = none ∧ decodeTableWord 8 0x4B = none := by decide +kernel


/-! ## What the witnesses share -/

/-- The state a step leaves, where it leaves one. -/
def ran : Host.Outcome State Fault Refusal → State
  | .next t => t
  | _ => .reset

def answers : Host.Outcome State Fault Refusal → Bool
  | .next _ => true
  | _ => false

theorem ran_of_answers {o : Host.Outcome State Fault Refusal} (h : answers o = true) : o = .next (ran o) := by
  cases o <;> simp_all [answers, ran]

theorem ready_of {p : Port} {s : State}
    (h : powered p s = true ∧ (s.port p).waiting = [] ∧ (s.port p).inProcess = none ∧ outstanding (s.port p) < 4) : Ready p s :=
  ⟨h.1, h.2.1, h.2.2.1, h.2.2.2⟩

theorem mainTakes_of {α : Type} {k : ReqKind} {m : Msg} {read : List Byte → Option α} {a : α} {s : State}
    (h : (powered .main s = true ∧ s.portMain.waiting = [] ∧ s.portMain.inProcess = none ∧ outstanding s.portMain < 4)
      ∧ s.platform.state = .active ∧ checkFails m = false ∧ permitted .main k = true ∧ read m.payload = some a) :
    MainTakes k m read a s :=
  ⟨ready_of h.1, h.2.1, h.2.2.1, h.2.2.2.1, h.2.2.2.2⟩

theorem otherTakes_of {α : Type} {p : Port} {k : ReqKind} {m : Msg} {read : List Byte → Option α} {a : α} {s : State}
    (h : p ≠ .main
      ∧ (powered p s = true ∧ (s.port p).waiting = [] ∧ (s.port p).inProcess = none ∧ outstanding (s.port p) < 4)
      ∧ checkFails m = false ∧ permitted p k = true ∧ (s.platform.state ≠ .off ∨ servedInOff k = true)
      ∧ read m.payload = some a) :
    OtherTakes p k m read a s :=
  ⟨h.1, ready_of h.2.1, h.2.2.1, h.2.2.2.1, h.2.2.2.2.1, h.2.2.2.2.2⟩

theorem windowSound_of {s : State}
    (h : s.window.entries.length ≤ 16 ∧ s.window.entries.Nodup ∧ (∀ c ∈ s.window.cursor, c < s.window.entries.length)
      ∧ (s.window.entries ≠ [] → s.window.cursor ≠ none) ∧ (∀ i ∈ s.window.entries, eligible i s = true)
      ∧ ∀ x ∈ s.store.slots, x.releasePending = true → x.state = .showing) : WindowSound s :=
  ⟨h.1, h.2.1, fun c e => h.2.2.1 c (by simp [e]), h.2.2.2.1, h.2.2.2.2.1, h.2.2.2.2.2⟩

theorem blocksSound_of {s : State}
    (h : s.store.slots.length = 24 ∧ s.spool.titles.length = 8 ∧ (∀ x ∈ s.store.slots, x.state = .empty → x.blocks = [])
      ∧ (ownedBlocks s).Perm (List.range 1024)) : BlocksSound s :=
  ⟨h.1, h.2.1, h.2.2.1, h.2.2.2⟩

theorem reservationsSound_of {s : State}
    (h : s.engine.queue.length ≤ 8 ∧ s.engine.active.length ≤ 4 ∧ (liveIds s.engine).Nodup
      ∧ s.engine.active.Pairwise (fun u v => overlaps u.region v.region = false)
      ∧ s.charge.updates.Perm (drivingCosts s.engine) ∧ s.charge.chunk = s.spool.assembly.map (·.cost)) : ReservationsSound s :=
  ⟨⟨h.1, h.2.1, h.2.2.1, h.2.2.2.1⟩, h.2.2.2.2.1, h.2.2.2.2.2⟩

theorem chargeSound_of {s : State} (h : s.charge.q ≤ qFull s.charge ∧ s.charge.level ≤ 4) : ChargeSound s := ⟨h.1, h.2⟩

theorem portsSound_of {s : State}
    (h : (outstanding s.portMain ≤ 4 ∧ noticeCount s.portMain ≤ 8) ∧ (outstanding s.portStandby ≤ 4 ∧ noticeCount s.portStandby ≤ 8)
      ∧ outstanding s.portRadio ≤ 4 ∧ noticeCount s.portRadio ≤ 8) : PortsSound s := by
  intro p
  cases p
  · exact h.1
  · exact h.2.1
  · exact h.2.2

theorem steady_of {c : Channel} {x : ChannelState} {raw : BitVec 12}
    (h : x.pendingTest = none ∧ x.fault = false ∧ x.run = 0 ∧ (c ≠ .amb → x.low ≤ convert c x raw.toNat)
      ∧ (c ≠ .amb → convert c x raw.toNat ≤ x.high)) : Steady c x raw :=
  ⟨h.1, h.2.1, h.2.2.1, h.2.2.2.1, h.2.2.2.2⟩

/-- A title of an entry below a bound, over all of them. -/
theorem titles_below {n : Nat} {s : State} {q : Title → Prop} (h : ∀ j < n, ∀ y ∈ titleAt j s, q y) :
    ∀ j, j < n → ∀ y, titleAt j s = some y → q y := fun j hj y e => h j hj y (by simp [e])

theorem some_all {α : Type} {o : Option α} {q : α → Prop} (h : ∀ y ∈ o, q y) : ∀ y, o = some y → q y :=
  fun y e => h y (by simp [e])

theorem some_mem {α : Type} {l : List (Option α)} {q : α → Prop} (h : ∀ o ∈ l, ∀ a ∈ o, q a) : ∀ a, some a ∈ l → q a :=
  fun a m => h _ m a (by simp)

/-! ## The states of the witnesses -/

/-- A reader at work: ACTIVE, nearly full, its panel 256 × 256 with one block to a page; slots 0 to 19 READY, 20 SHOWING, 21 FILLING,
22 SHOWING with release pending, 23 EMPTY. -/
def stocked : State :=
  { State.reset with
    platform := { Platform.reset with state := .active }
    pool := { width := 256, height := 256, spoolLimit := 640, free := (List.range 1000).map (· + 24), panel := [0] }
    store :=
      { slots := (List.range 20).map (fun i => { Slot.reset with
            state := .ready, blocks := [i + 1], tag := BitVec.ofNat 32 (i + 100), stamp := some i })
          ++ [{ Slot.reset with state := .showing, showing := 1, blocks := [21], tag := 0x20, stamp := some 20 },
              { Slot.reset with state := .filling, blocks := [22], format := some .g4 },
              { Slot.reset with state := .showing, showing := 1, blocks := [23], stamp := some 21, releasePending := true },
              Slot.reset],
        useCounter := 30 }
    charge := { Charge.reset with q := 5000000000, level := 0 }
    light := { Light.reset with chargeCap := 1023, rampTimer := some 16 }
    engine := { Engine.reset with frameTimer := some 11764 } }

def withPlatform (f : Platform → Platform) (s : State) : State := { s with platform := f s.platform }
def withWindow (es : List Nat) (c : Nat) (s : State) : State := { s with window := { s.window with entries := es, cursor := some c } }
def dozing : State := withPlatform (fun f => { f with state := .doze, idleTimer := some 5 }) stocked
def sleeping : State := withPlatform (fun f => { f with state := .sleep }) stocked
def radioOn (s : State) : State := withPlatform (fun f => { f with radioSetting := true }) s
def loading (s : State) : State := { s with wave := { s.wave with state := .loading } }
def m0 : Msg := ⟨[], 0⟩


/-! ### The machine, its invariants -/

/-- The reader with page data, a new page, a turn, a charge and a scan to come. -/
def busy (c : Instr) : State := { radioOn (withWindow [4, 7, 2] 1 stocked) with pending := [c] }
def scanning : Update :=
  { id := 1, origin := .main, requesters := ⟨true, false, false⟩, source := 20, region := ⟨0, 0, 8, 8⟩, mode := .full,
    phase := .scanning, band := some 1, clamped := false, ghostLimit := 0, changed := 0, frames := 0, index := 0, estimate := 0,
    promoted := false, tiles := [] }
/-- One update at its scan, a VALID table of one band and one-frame strings. -/
def atScan : State := { stocked with
  engine := { stocked.engine with active := [scanning], nextId := 2 }
  wave := { WaveTable.reset with state := .valid, descriptor := some ⟨[0, 400], [1, 1, 1]⟩, bytes := List.replicate 192 0x55 } }
def pageData4 : Instr := .pageData .main (mkMsg [21, 0x21, 0x43])

theorem witness_EmptyQueueLetsAMillisecondPass_1 : stocked.pending = [] := (by decide +kernel)
theorem witness_EveryStepKeepsTheDramCanonical_1 : Mem.wf (busy pageData4).dram = true ∧
    step (busy pageData4) = .next (ran (step (busy pageData4))) := ⟨(by decide +kernel), ran_of_answers (by decide +kernel)⟩
def openAny : Instr := .pageOpen .main (mkMsg [255, 1, 0, 0, 0, 0])
theorem witness_EveryStepKeepsOneOwnerPerBlock_1 : BlocksSound (busy openAny) ∧
    step (busy openAny) = .next (ran (step (busy openAny))) :=
    ⟨blocksSound_of (by decide +kernel), ran_of_answers (by decide +kernel)⟩
theorem witness_EveryStepKeepsTheWindowSound_1 : WindowSound (busy (.windowDrop .main (mkMsg [7]))) ∧
    step (busy (.windowDrop .main (mkMsg [7]))) = .next (ran (step (busy (.windowDrop .main (mkMsg [7]))))) :=
    ⟨windowSound_of (by decide +kernel), ran_of_answers (by decide +kernel)⟩
def scanned1 : State := { atScan with pending := [.scanComplete 1] }
theorem witness_EveryStepKeepsReservationsSound_1 : ReservationsSound scanned1 ∧
    step scanned1 = .next (ran (step scanned1)) :=
    ⟨reservationsSound_of (by decide +kernel), ran_of_answers (by decide +kernel)⟩
def overCharged : Instr := .chargeSet .main (mkMsg [255, 255, 255, 255, 255, 255, 255, 255])
theorem witness_EveryStepKeepsTheChargeInRange_1 : ChargeSound (busy overCharged) ∧
    step (busy overCharged) = .next (ran (step (busy overCharged))) :=
    ⟨chargeSound_of (by decide +kernel), ran_of_answers (by decide +kernel)⟩
def crowded : State := { stocked with
  portMain := { PortUnit.reset with queue := List.replicate 8 (.notice .key) ++ List.replicate 3 (.response 0x4A#8 .ok .empty []) }
  pending := [.turnNext .main m0] }
theorem witness_EveryStepKeepsThePortShares_1 : PortsSound crowded ∧ step crowded = .next (ran (step crowded)) :=
    ⟨portsSound_of (by decide +kernel), ran_of_answers (by decide +kernel)⟩

/-! ### Ports -/

theorem witness_AnUnpoweredPortIgnoresItsLink_1 : powered .radio stocked = false ∧
    (Instr.chunkMore .radio (mkMsg [1])).request? = some (.radio, .chunkMore, mkMsg [1]) := (by decide +kernel)
theorem witness_AnUnpoweredPortIgnoresItsLink_2 : powered .main State.reset = false ∧
    (Instr.status .main m0).request? = some (.main, .status, m0) := (by decide +kernel)
theorem witness_BadChecksAndPermissionsAreRefused_1 : (Instr.pageOpen .standby (mkMsg [0])).wellFormed = true ∧
    (Instr.pageOpen .standby (mkMsg [0])).request? = some (.standby, .pageOpen, mkMsg [0]) ∧ Ready .standby stocked ∧
    checkFails (mkMsg [0]) = false ∧ permitted .standby .pageOpen = false ∧ Port.standby ≠ .main :=
    ⟨(by decide +kernel), (by decide +kernel), ready_of (by decide +kernel), (by decide +kernel)⟩
theorem witness_BadChecksAndPermissionsAreRefused_2 : (Instr.chunkMore .main (mkMsg [0])).wellFormed = true ∧
    (Instr.chunkMore .main (mkMsg [0])).request? = some (.main, .chunkMore, mkMsg [0]) ∧ Ready .main stocked ∧
    checkFails (mkMsg [0]) = false ∧ permitted .main .chunkMore = false ∧ Port.main = .main ∧
    stocked.platform.state = .active :=
    ⟨(by decide +kernel), (by decide +kernel), ready_of (by decide +kernel), (by decide +kernel)⟩
def strict : State := { stocked with linkThreshold := 2 }
theorem witness_BadChecksAndPermissionsAreRefused_3 : (Instr.pageRelease .main ⟨[0], 0⟩).wellFormed = true ∧
    (Instr.pageRelease .main ⟨[0], 0⟩).request? = some (.main, .pageRelease, ⟨[0], 0⟩) ∧ Ready .main strict ∧
    strict.platform.state = .active ∧ checkFails ⟨[0], 0⟩ = true ∧
    strict.portMain.counters.headerFailures + saturatingSucc strict.portMain.counters.payloadFailures < strict.linkThreshold :=
    ⟨(by decide +kernel), (by decide +kernel), ready_of (by decide +kernel), (by decide +kernel)⟩
theorem witness_UnknownKindsAndBadLengthsAreRefused_1 : kindOf 0x4F = none ∧ Ready .main stocked ∧
    stocked.platform.state = .active ∧ checkFails m0 = false :=
    ⟨(by decide +kernel), ready_of (by decide +kernel), (by decide +kernel)⟩
theorem witness_UnknownKindsAndBadLengthsAreRefused_2 :
    (Instr.portReset .main (mkMsg [0])).request? = some (.main, .portReset, mkMsg [0]) ∧ Ready .main stocked ∧
    stocked.platform.state = .active ∧ checkFails (mkMsg [0]) = false ∧ (mkMsg [0]).payload ≠ [] ∧
    ReqKind.portReset ∈ [ReqKind.pageStatus, .windowQuery, .turnNext, .turnPrev, .updateStatus, .waveformStatus, .titleList, .spoolStats, .spoolStatsClear, .lightQuery, .monitorStatus, .chargeQuery, .doze, .sleep, .wakeMain, .powerOff, .restart, .powerOn, .status, .portReset] :=
    ⟨(by decide +kernel), ready_of (by decide +kernel), (by decide +kernel)⟩
theorem witness_UnknownKindsAndBadLengthsAreRefused_3 :
    (Instr.pageStatus .main (mkMsg [0])).request? = some (.main, .pageStatus, mkMsg [0]) ∧ Ready .main stocked ∧
    stocked.platform.state = .active ∧ checkFails (mkMsg [0]) = false ∧ (mkMsg [0]).payload ≠ [] ∧
    ReqKind.pageStatus ∈ [ReqKind.pageStatus, .windowQuery, .turnNext, .turnPrev, .updateStatus, .waveformStatus, .titleList, .spoolStats, .spoolStatsClear, .lightQuery, .monitorStatus, .chargeQuery, .doze, .sleep, .wakeMain, .powerOff, .restart, .powerOn, .status, .portReset] :=
    ⟨(by decide +kernel), ready_of (by decide +kernel), (by decide +kernel)⟩
theorem witness_TakingAMainRequestWakesThePlatform_1 : dozing.platform.state = .doze := (by decide +kernel)
theorem witness_TakingAMainRequestWakesThePlatform_2 : sleeping.platform.state = .sleep ∧ sleeping.platform.onward = none :=
    (by decide +kernel)
theorem witness_TakingAMainRequestWakesThePlatform_3 : stocked.platform.state ≠ .doze ∧ stocked.platform.state ≠ .sleep :=
    (by decide +kernel)
def keys (n : Nat) : PortUnit := { PortUnit.reset with queue := .response 0x4A#8 .ok .empty [] :: List.replicate n (.notice .key) }
theorem witness_TheNoticeShareDecidesANotice_1 : noticeCount (keys 7) < 8 := (by decide +kernel)
theorem witness_TheNoticeShareDecidesANotice_2 : 8 ≤ noticeCount (keys 8) ∧ (keys 8).headStarted = false ∧
    (keys 8).queue = [.response 0x4A#8 .ok .empty []] ++ [.notice .key] ++ List.replicate 7 (.notice .key) ∧
    Notice.key.type = Notice.key.type ∧
    (∀ x, Entry.notice x ∈ [Entry.response 0x4A#8 .ok .empty []] → x.type ≠ Notice.key.type) :=
    ⟨(by decide +kernel), (by decide +kernel), (by decide +kernel), (by decide +kernel), (by simp)⟩
theorem witness_TheNoticeShareDecidesANotice_3 : 8 ≤ noticeCount (keys 8) ∧
    (∀ x, Entry.notice x ∈ (keys 8).queue → x.type ≠ Notice.radioResume.type) :=
    ⟨(by decide +kernel), (by simp [keys, Notice.type])⟩
/-- A head that a READ has started, and seven more notices. -/
def started (n : Notice) : PortUnit :=
  { PortUnit.reset with transfer := .readEntry, headStarted := true, queue := .notice .key :: List.replicate 7 (.notice n) }
theorem witness_TheNoticeShareDecidesANotice_4 : 8 ≤ noticeCount (started .key) ∧ (started .key).headStarted = true ∧
    (started .key).queue = .notice .key :: [] ++ [.notice .key] ++ List.replicate 6 (.notice .key) ∧
    Notice.key.type = Notice.key.type ∧ (∀ x, Entry.notice x ∈ ([] : List Entry) → x.type ≠ Notice.key.type) :=
    ⟨(by decide +kernel), (by decide +kernel), (by decide +kernel), (by decide +kernel), (by simp)⟩
theorem witness_TheNoticeShareDecidesANotice_5 : 8 ≤ noticeCount (started .radioResume) ∧
    (started .radioResume).headStarted = true ∧
    (started .radioResume).queue = .notice .key :: List.replicate 7 (.notice .radioResume) ∧
    (∀ x, Entry.notice x ∈ List.replicate 7 (Entry.notice .radioResume) → x.type ≠ Notice.key.type) :=
    ⟨(by decide +kernel), (by decide +kernel), (by decide +kernel), (by simp [Notice.type])⟩
def strict2 : State := { stocked with linkThreshold := 2 }
def inHeader (n : Nat) : State :=
  { stocked with linkThreshold := n, portMain := { PortUnit.reset with transfer := .header } }
def longest : Header := ⟨0x02, 1024, crc8 [0x02, 0x00, 0x04]⟩
theorem witness_SelectionBytesAndHeadersAreChecked_1 : powered .main stocked = true ∧ (stocked.port .main).transfer = .idle ∧
    0x5A#8 = 0x5A#8 := (by decide +kernel)
theorem witness_SelectionBytesAndHeadersAreChecked_2 : powered .standby stocked = true ∧
    (stocked.port .standby).transfer = .idle ∧ 0xA5#8 = 0xA5#8 := (by decide +kernel)
theorem witness_SelectionBytesAndHeadersAreChecked_3 : powered .main strict2 = true ∧ (strict2.port .main).transfer = .idle ∧
    0x5B#8 ≠ 0x5A#8 ∧ 0x5B#8 ≠ 0xA5#8 ∧
    saturatingSucc (strict2.port .main).counters.headerFailures + (strict2.port .main).counters.payloadFailures < strict2.linkThreshold :=
    (by decide +kernel)
theorem witness_SelectionBytesAndHeadersAreChecked_4 : powered .main (inHeader 2) = true ∧
    ((inHeader 2).port .main).transfer = .header ∧ headerGoodCheck ⟨0, 1, 0⟩ = false ∧
    saturatingSucc ((inHeader 2).port .main).counters.headerFailures + ((inHeader 2).port .main).counters.payloadFailures < (inHeader 2).linkThreshold :=
    (by decide +kernel)
theorem witness_SelectionBytesAndHeadersAreChecked_5 : powered .main (inHeader 1) = true ∧
    ((inHeader 1).port .main).transfer = .header ∧ headerGoodCheck ⟨0, 1, 0⟩ = false ∧
    (inHeader 1).linkThreshold ≤ saturatingSucc ((inHeader 1).port .main).counters.headerFailures + ((inHeader 1).port .main).counters.payloadFailures ∧
    ((inHeader 1).port .main).degraded = false := (by decide +kernel)
theorem witness_SelectionBytesAndHeadersAreChecked_6 : powered .main (inHeader 1) = true ∧
    ((inHeader 1).port .main).transfer = .header ∧ headerGoodCheck longest = true ∧ longest.length ≠ 0 := (by decide +kernel)
def responses (n : Nat) : State := { stocked with
  portMain := { PortUnit.reset with transfer := .body 0x04 1, queue := List.replicate n (.response 0x4A#8 .ok .empty []) } }
def resetting : State := { responses 4 with portMain := { (responses 4).portMain with transfer := .header } }
theorem witness_AnArrivedPacketIsAdmittedByRoom_1 : powered .main resetting = true ∧
    completesPacket (resetting.port .main).transfer ⟨0x4B, m0⟩ = true ∧ (0x4B#8 = 0x4B#8 ∧ m0.payload = []) :=
    (by decide +kernel)
theorem witness_AnArrivedPacketIsAdmittedByRoom_2 : powered .main (responses 3) = true ∧
    completesPacket ((responses 3).port .main).transfer ⟨0x04, mkMsg [3]⟩ = true ∧
    (¬ (0x04#8 = 0x4B#8 ∧ (mkMsg [3]).payload = [])) ∧ outstanding ((responses 3).port .main) < 4 := (by decide +kernel)
theorem witness_AnArrivedPacketIsAdmittedByRoom_3 : powered .main (responses 4) = true ∧
    completesPacket ((responses 4).port .main).transfer ⟨0x04, mkMsg [3]⟩ = true ∧
    (¬ (0x04#8 = 0x4B#8 ∧ (mkMsg [3]).payload = [])) ∧ 4 ≤ outstanding ((responses 4).port .main) := (by decide +kernel)
def reading (t : Transfer) : State := { stocked with portStandby := { PortUnit.reset with transfer := t, headStarted := t == .readEntry, queue := [.notice .key] } }
theorem witness_TransfersEndAndReadsRemoveEntries_1 : powered .standby (reading .header) = true ∧
    (((reading .header).port .standby).transfer = .header ∧ 3 ≠ 0) := (by decide +kernel)
theorem witness_TransfersEndAndReadsRemoveEntries_2 : powered .standby (reading (.body 2 1024)) = true ∧
    (∃ k l, ((reading (.body 2 1024)).port .standby).transfer = .body k l) := ⟨(by decide +kernel), ⟨2, 1024, rfl⟩⟩
theorem witness_TransfersEndAndReadsRemoveEntries_3 : powered .standby (reading .readBoundary) = true ∧
    (¬ ((((reading .readBoundary).port .standby).transfer = .header ∧ 0 ≠ 0) ∨ (∃ k l, ((reading .readBoundary).port .standby).transfer = .body k l) ∨ ((reading .readBoundary).port .standby).transfer = .readEntry ∨ (((reading .readBoundary).port .standby).transfer = .readBoundary ∧ 0 ≠ 0) ∨ ((reading .readBoundary).port .standby).transfer = .readFiller)) :=
    ⟨(by decide +kernel), (by simp [reading, State.port])⟩
theorem witness_TransfersEndAndReadsRemoveEntries_4 : powered .standby (reading .readBoundary) = true ∧
    ((reading .readBoundary).port .standby).queue = .notice .key :: [] ∧
    ((reading .readBoundary).port .standby).transfer = .readBoundary := (by decide +kernel)
theorem witness_TransfersEndAndReadsRemoveEntries_5 : powered .standby (reading .readEntry) = true ∧
    ((reading .readEntry).port .standby).queue = .notice .key :: [] ∧
    ((reading .readEntry).port .standby).transfer = .readEntry := (by decide +kernel)
def condemning : State := radioOn { stocked with portRadio := { PortUnit.reset with transfer := .body 2 9, waiting := [⟨0x4A, m0⟩], inProcess := some ⟨⟨0x4A, m0⟩, false⟩, queue := [.notice .radioResume] } }
theorem witness_PortResetAndCountersClear_1 : m0.payload = [] ∧ powered .radio condemning = true ∧
    condemning.platform.state = .active ∧ condemning.platform.idleTimer = none ∧ condemning.spool.assembly = none :=
    (by decide +kernel)
theorem witness_PortResetAndCountersClear_2 : m0.payload = [] ∧ powered .main stocked = true ∧
    stocked.platform.state = .active ∧ stocked.platform.idleTimer = none ∧ stocked.spool.assembly = none :=
    (by decide +kernel)
theorem witness_PortResetAndCountersClear_3 : MainTakes .countersClear (mkMsg [0]) readOne 0 stocked ∧ 0 = 0 :=
    ⟨mainTakes_of (by decide +kernel), (by decide +kernel)⟩
theorem witness_PortResetAndCountersClear_4 : MainTakes .countersClear (mkMsg [1]) readOne 1 stocked ∧ 1 = 1 :=
    ⟨mainTakes_of (by decide +kernel), (by decide +kernel)⟩
theorem witness_PortResetAndCountersClear_5 : MainTakes .countersClear (mkMsg [2]) readOne 2 stocked ∧ 2 = 2 :=
    ⟨mainTakes_of (by decide +kernel), (by decide +kernel)⟩
theorem witness_PortResetAndCountersClear_6 : MainTakes .countersClear (mkMsg [3]) readOne 3 stocked ∧ 2 < 3 :=
    ⟨mainTakes_of (by decide +kernel), (by decide +kernel)⟩

/-! ### Parameters and reports -/

theorem witness_ParamSetStoresOrRefuses_1 :
    MainTakes .paramSet (mkMsg [5, 63, 0, 0, 0]) readParamSet ⟨Param.ghostLimit.code, 63⟩ stocked ∧
    paramAccepts .ghostLimit 63 stocked := ⟨mainTakes_of (by decide +kernel), (by simp [paramAccepts])⟩
theorem witness_ParamSetStoresOrRefuses_2 :
    MainTakes .paramSet (mkMsg [1, 0xAB, 3, 0, 0]) readParamSet ⟨Param.spoolLimit.code, 939⟩ stocked ∧
    paramAccepts .spoolLimit 939 stocked :=
    ⟨mainTakes_of (by decide +kernel), ⟨by decide +kernel, by decide +kernel, by decide +kernel⟩⟩
theorem witness_ParamSetStoresOrRefuses_3 :
    MainTakes .paramSet (mkMsg [2, 15, 0, 0, 0]) readParamSet ⟨Param.aheadLow.code, 15⟩ stocked ∧
    paramAccepts .aheadLow 15 stocked := ⟨mainTakes_of (by decide +kernel), (by simp [paramAccepts])⟩
theorem witness_ParamSetStoresOrRefuses_4 :
    MainTakes .paramSet (mkMsg [16, 255, 255, 0, 0]) readParamSet ⟨Param.linkErrorThreshold.code, 65535⟩ stocked ∧
    paramAccepts .linkErrorThreshold 65535 stocked := ⟨mainTakes_of (by decide +kernel), (by simp [paramAccepts])⟩
theorem witness_ParamSetStoresOrRefuses_5 :
    MainTakes .paramSet (mkMsg [10, 0, 0, 0, 0]) readParamSet ⟨Param.rampStep.code, 0⟩ stocked ∧
    paramAccepts .rampStep 0 stocked := ⟨mainTakes_of (by decide +kernel), (by simp [paramAccepts])⟩
theorem witness_ParamSetStoresOrRefuses_6 : MainTakes .paramSet (mkMsg [5, 64, 0, 0, 0]) readParamSet ⟨5, 64⟩ stocked ∧
    (5 = Param.ghostLimit.code ∧ ¬ paramAccepts .ghostLimit 64 stocked) :=
    ⟨mainTakes_of (by decide +kernel), ⟨rfl, by simp [paramAccepts]⟩⟩
theorem witness_ParamSetStoresOrRefuses_7 : MainTakes .paramSet (mkMsg [17, 0, 0, 0, 0]) readParamSet ⟨17, 0⟩ stocked ∧
    paramOf 17 = none := ⟨mainTakes_of (by decide +kernel), (by decide +kernel)⟩
theorem witness_ReportsAnswerAndChangeNothing_1 : Ready .main stocked ∧ stocked.platform.state = .active ∧ m0.payload = [] :=
    ⟨ready_of (by decide +kernel), (by decide +kernel)⟩
theorem witness_ReportsAnswerAndChangeNothing_2 : MainTakes .paramGet (mkMsg [16]) readOne 16 stocked ∧
    paramOf 16 = some .linkErrorThreshold := ⟨mainTakes_of (by decide +kernel), (by decide +kernel)⟩
theorem witness_ReportsAnswerAndChangeNothing_3 : MainTakes .paramGet (mkMsg [0]) readOne 0 stocked ∧ paramOf 0 = none :=
    ⟨mainTakes_of (by decide +kernel), (by decide +kernel)⟩

/-! ### Page store -/

def full : State := { stocked with pool := { stocked.pool with free := [] } }
def noEmpty : State := { stocked with store := { stocked.store with slots := stocked.store.slots.set 23 { Slot.reset with state := .filling } } }
def roles : State := { stocked with store := { stocked.store with slots := stocked.store.slots.set 0 { slotAt 0 stocked with sleepRole := true } } }
def open23 : Msg := mkMsg [23, 0x78, 0x56, 0x34, 0x12, 5]
def openAnyMsg : Msg := mkMsg [255, 0x78, 0x56, 0x34, 0x12, 5]
def open0 : Msg := mkMsg [0, 0x78, 0x56, 0x34, 0x12, 0]

theorem witness_PageOpenFillsReopensOrRefuses_1 : MainTakes .pageOpen open23 readPageOpen ⟨23, 0x12345678, 5⟩ stocked ∧
    formatOf 5 = some .r1 ∧ 23 < 24 ∧ (slotAt 23 stocked).state = .empty ∧
    footprint stocked.pool ≤ stocked.pool.free.length := ⟨mainTakes_of (by decide +kernel), (by decide +kernel)⟩
theorem witness_PageOpenFillsReopensOrRefuses_2 : MainTakes .pageOpen openAnyMsg readPageOpen ⟨255, 0x12345678, 5⟩ stocked ∧
    formatOf 5 = some .r1 ∧ 23 < 24 ∧ (slotAt 23 stocked).state = .empty ∧
    (255 = 255 ∧ ∀ j, j < 23 → (slotAt j stocked).state ≠ .empty) ∧ footprint stocked.pool ≤ stocked.pool.free.length :=
    ⟨mainTakes_of (by decide +kernel), (by decide +kernel)⟩
theorem witness_PageOpenFillsReopensOrRefuses_3 : MainTakes .pageOpen open0 readPageOpen ⟨0, 0x12345678, 0⟩ stocked ∧
    formatOf 0 = some .g4 ∧ 0 < 24 ∧ (slotAt 0 stocked).state = .ready ∧ stocked.window.entries.contains 0 = false ∧
    (slotAt 0 stocked).sleepRole = false ∧ (slotAt 0 stocked).shutdownRole = false :=
    ⟨mainTakes_of (by decide +kernel), (by decide +kernel)⟩
theorem witness_PageOpenFillsReopensOrRefuses_4 : MainTakes .pageOpen open0 readPageOpen ⟨0, 0x12345678, 0⟩ roles ∧
    (formatOf 0).isSome = true ∧ 0 < 24 ∧
    ((slotAt 0 roles).state = .filling ∨ (slotAt 0 roles).state = .showing ∨ ((slotAt 0 roles).state = .ready ∧ (roles.window.entries.contains 0 = true ∨ (slotAt 0 roles).sleepRole = true ∨ (slotAt 0 roles).shutdownRole = true))) :=
    ⟨mainTakes_of (by decide +kernel), (by decide +kernel)⟩
theorem witness_PageOpenFillsReopensOrRefuses_5 : MainTakes .pageOpen openAnyMsg readPageOpen ⟨255, 0x12345678, 5⟩ noEmpty ∧
    (formatOf 5).isSome = true ∧ 255 = 255 ∧ (∀ j, j < 24 → (slotAt j noEmpty).state ≠ .empty) :=
    ⟨mainTakes_of (by decide +kernel), (by decide +kernel)⟩
theorem witness_PageOpenFillsReopensOrRefuses_6 :
    MainTakes .pageOpen (mkMsg [254, 0, 0, 0, 0, 5]) readPageOpen ⟨254, 0, 5⟩ stocked ∧
    (formatOf 5 = none ∨ (24 ≤ 254 ∧ 254 ≠ 255)) := ⟨mainTakes_of (by decide +kernel), (by decide +kernel)⟩
theorem witness_PageOpenFillsReopensOrRefuses_7 :
    MainTakes .pageOpen (mkMsg [23, 0, 0, 0, 0, 6]) readPageOpen ⟨23, 0, 6⟩ stocked ∧
    (formatOf 6 = none ∨ (24 ≤ 23 ∧ 23 ≠ 255)) := ⟨mainTakes_of (by decide +kernel), (by decide +kernel)⟩
/-- Nothing is free but the page of slot 3, since the other pages have a role. -/
def crammed : State := { full with
  store := { full.store with slots := full.store.slots.mapIdx (fun i x => { x with shutdownRole := i ≠ 3 && i ≠ 23 }) } }
def noVictim : State := { full with store := { full.store with slots := full.store.slots.map (fun x => { x with sleepRole := x.state != .empty }) } }
theorem witness_PageOpenEvictsTheOldestPage_1 : MainTakes .pageOpen open23 readPageOpen ⟨23, 0x12345678, 5⟩ crammed ∧
    formatOf 5 = some .r1 ∧ 23 < 24 ∧ (slotAt 23 crammed).state = .empty ∧ crammed.pool.free.length < footprint crammed.pool ∧
    crammed.engine.queue = [] ∧
    (3 < 24 ∧ (slotAt 3 crammed).state = .ready ∧ crammed.window.entries.contains 3 = false ∧ (slotAt 3 crammed).sleepRole = false ∧ (slotAt 3 crammed).shutdownRole = false) ∧
    (slotAt 3 crammed).blocks.length = footprint crammed.pool ∧ (slotAt 3 crammed).stamp.isSome = true ∧
    (∀ j, (j < 24 ∧ (slotAt j crammed).state = .ready ∧ crammed.window.entries.contains j = false ∧ (slotAt j crammed).sleepRole = false ∧ (slotAt j crammed).shutdownRole = false) → j ≠ 3 → (slotAt j crammed).stamp.isSome = true ∧ (slotAt 3 crammed).stamp.getD 0 < (slotAt j crammed).stamp.getD 0) :=
    ⟨mainTakes_of (by decide +kernel), (by decide +kernel), (by decide +kernel), (by decide +kernel), (by decide +kernel),
    (by decide +kernel), (by decide +kernel), (by decide +kernel), (by decide +kernel), fun j ⟨h, _, _, _,
    g⟩ n => absurd g ((by decide +kernel : ∀ j,
    j < 24 → j ≠ 3 → (slotAt j crammed).state = .ready → ¬ (slotAt j crammed).shutdownRole = false) j h n ‹_›)⟩
theorem witness_PageOpenEvictsTheOldestPage_2 : MainTakes .pageOpen open23 readPageOpen ⟨23, 0x12345678, 5⟩ full ∧
    formatOf 5 = some .r1 ∧ 23 < 24 ∧ (slotAt 23 full).state = .empty ∧ full.pool.free.length < footprint full.pool ∧
    full.engine.queue = [] ∧
    (0 < 24 ∧ (slotAt 0 full).state = .ready ∧ full.window.entries.contains 0 = false ∧ (slotAt 0 full).sleepRole = false ∧ (slotAt 0 full).shutdownRole = false) ∧
    (slotAt 0 full).blocks.length = footprint full.pool ∧ (slotAt 0 full).stamp.isSome = true ∧
    (∀ j, (j < 24 ∧ (slotAt j full).state = .ready ∧ full.window.entries.contains j = false ∧ (slotAt j full).sleepRole = false ∧ (slotAt j full).shutdownRole = false) → j ≠ 0 → (slotAt j full).stamp.isSome = true ∧ (slotAt 0 full).stamp.getD 0 < (slotAt j full).stamp.getD 0) :=
    ⟨mainTakes_of (by decide +kernel), (by decide +kernel), (by decide +kernel), (by decide +kernel), (by decide +kernel),
    (by decide +kernel), (by decide +kernel), (by decide +kernel), (by decide +kernel), fun j ⟨h, r,
    _⟩ n => (by decide +kernel : ∀ j,
    j < 24 → (slotAt j full).state = .ready → j ≠ 0 → (slotAt j full).stamp.isSome = true ∧ (slotAt 0 full).stamp.getD 0 < (slotAt j full).stamp.getD 0) j h r n⟩
theorem witness_PageOpenEvictsTheOldestPage_3 : MainTakes .pageOpen open23 readPageOpen ⟨23, 0x12345678, 5⟩ noVictim ∧
    formatOf 5 = some .r1 ∧ 23 < 24 ∧ (slotAt 23 noVictim).state = .empty ∧
    noVictim.pool.free.length < footprint noVictim.pool ∧ noVictim.engine.queue = [] ∧
    (∀ j, ¬ (j < 24 ∧ (slotAt j noVictim).state = .ready ∧ noVictim.window.entries.contains j = false ∧ (slotAt j noVictim).sleepRole = false ∧ (slotAt j noVictim).shutdownRole = false)) :=
    ⟨mainTakes_of (by decide +kernel), (by decide +kernel), (by decide +kernel), (by decide +kernel), (by decide +kernel),
    (by decide +kernel), fun j ⟨h, r, _, g, _⟩ => absurd g ((by decide +kernel : ∀ j,
    j < 24 → (slotAt j noVictim).state = .ready → ¬ (slotAt j noVictim).sleepRole = false) j h r)⟩
def dataMsg : Msg := mkMsg [21, 0x21, 0x43]
/-- Slot 21 four pixels short of a whole page. -/
def almost : State := { stocked with store := { stocked.store with slots := stocked.store.slots.set 21 { slotAt 21 stocked with fill := 65532 } } }
theorem witness_PageDataWritesItsPixelsOnly_1 : MainTakes .pageData dataMsg readPageData ⟨21, [0x21, 0x43]⟩ almost ∧ 21 < 24 ∧
    (slotAt 21 almost).state = .filling ∧ (slotAt 21 almost).format = some .g4 ∧ almost.platform.powerUp = none ∧
    (isRunLength .g4 = true → [0x21#8, 0x43#8].length % 2 = 0) ∧
    (slotAt 21 almost).fill + pixelCount .g4 [0x21, 0x43] ≤ pageSize almost.pool :=
    ⟨mainTakes_of (by decide +kernel), (by decide +kernel)⟩
theorem witness_PageDataWritesItsPixelsOnly_2 : Mem.wf almost.dram = true ∧ (slotAt 21 almost).blocks.Nodup ∧
    (slotAt 21 almost).fill + pixelCount .g4 [0x21, 0x43] ≤ 131072 * (slotAt 21 almost).blocks.length := (by decide +kernel)
/-- Slot 21 filled, its CRC 00000007h. -/
def filled : State := { stocked with store := { slots := stocked.store.slots.set 21 { slotAt 21 stocked with fill := 65536, crc := 7 }, useCounter := 4294967294 } }
def closeMsg : Msg := mkMsg [21, 7, 0, 0, 0]
theorem witness_PageCloseMakesReadyOrEmpties_1 : MainTakes .pageClose closeMsg readPageClose ⟨21, 7⟩ filled ∧
    filled.engine.queue = [] ∧ 21 < 24 ∧ (slotAt 21 filled).state = .filling ∧
    (slotAt 21 filled).fill = filled.pool.width * filled.pool.height ∧ (slotAt 21 filled).crc = 7 ∧
    filled.store.useCounter < 4294967295 := ⟨mainTakes_of (by decide +kernel), (by decide +kernel)⟩
theorem witness_PageCloseMakesReadyOrEmpties_2 : MainTakes .pageClose closeMsg readPageClose ⟨21, 7⟩ almost ∧
    almost.engine.queue = [] ∧ 21 < 24 ∧ (slotAt 21 almost).state = .filling ∧
    ((slotAt 21 almost).fill ≠ almost.pool.width * almost.pool.height ∨ (slotAt 21 almost).crc ≠ 7) :=
    ⟨mainTakes_of (by decide +kernel), (by decide +kernel)⟩
theorem witness_PageCloseMakesReadyOrEmpties_3 : MainTakes .pageClose (mkMsg [23, 7, 0, 0, 0]) readPageClose ⟨23, 7⟩ stocked ∧
    stocked.engine.queue = [] ∧ 23 < 24 ∧ (slotAt 23 stocked).state ≠ .filling :=
    ⟨mainTakes_of (by decide +kernel), (by decide +kernel)⟩
theorem witness_PageCloseMakesReadyOrEmpties_4 : MainTakes .pageClose (mkMsg [24, 7, 0, 0, 0]) readPageClose ⟨24, 7⟩ stocked ∧
    stocked.engine.queue = [] ∧ 24 ≤ 24 := ⟨mainTakes_of (by decide +kernel), (by decide +kernel)⟩
theorem witness_PageReleaseEmptiesOrMarksTheSlot_1 : MainTakes .pageRelease (mkMsg [23]) readOne 23 stocked ∧
    stocked.engine.queue = [] ∧ 23 < 24 ∧ stocked.window.entries.contains 23 = false ∧ (slotAt 23 stocked).state = .empty :=
    ⟨mainTakes_of (by decide +kernel), (by decide +kernel)⟩
theorem witness_PageReleaseEmptiesOrMarksTheSlot_2 : MainTakes .pageRelease (mkMsg [0]) readOne 0 stocked ∧
    stocked.engine.queue = [] ∧ 0 < 24 ∧ stocked.window.entries.contains 0 = false ∧
    ((slotAt 0 stocked).state = .ready ∨ (slotAt 0 stocked).state = .filling) ∧
    ((slotAt 0 stocked).sleepRole = false ∧ (slotAt 0 stocked).shutdownRole = false) :=
    ⟨mainTakes_of (by decide +kernel), (by decide +kernel)⟩
theorem witness_PageReleaseEmptiesOrMarksTheSlot_3 : MainTakes .pageRelease (mkMsg [20]) readOne 20 stocked ∧
    stocked.engine.queue = [] ∧ 20 < 24 ∧ stocked.window.entries.contains 20 = false ∧ (slotAt 20 stocked).state = .showing ∧
    ((slotAt 20 stocked).sleepRole = false ∧ (slotAt 20 stocked).shutdownRole = false) ∧
    (slotAt 20 stocked).releasePending = false := ⟨mainTakes_of (by decide +kernel), (by decide +kernel)⟩
theorem witness_PageReleaseEmptiesOrMarksTheSlot_4 : MainTakes .pageRelease (mkMsg [22]) readOne 22 stocked ∧
    stocked.engine.queue = [] ∧ 22 < 24 ∧ stocked.window.entries.contains 22 = false ∧ (slotAt 22 stocked).state = .showing ∧
    ((slotAt 22 stocked).sleepRole = false ∧ (slotAt 22 stocked).shutdownRole = false) ∧
    (slotAt 22 stocked).releasePending = true := ⟨mainTakes_of (by decide +kernel), (by decide +kernel)⟩
theorem witness_PageReleaseEmptiesOrMarksTheSlot_5 : MainTakes .pageRelease (mkMsg [0]) readOne 0 roles ∧
    roles.engine.queue = [] ∧ 0 < 24 ∧ roles.window.entries.contains 0 = false ∧ (slotAt 0 roles).state ≠ .empty ∧
    (¬ ((slotAt 0 roles).sleepRole = false ∧ (slotAt 0 roles).shutdownRole = false)) :=
    ⟨mainTakes_of (by decide +kernel), (by decide +kernel)⟩
theorem witness_PinsMoveRoles_1 : MainTakes .pagePin (mkMsg [5, 1]) readPair (5, 1) roles ∧ 5 < 24 ∧
    (((slotAt 5 roles).state = .ready ∨ (slotAt 5 roles).state = .showing) ∧ (slotAt 5 roles).releasePending = false) ∧
    1 = 1 := ⟨mainTakes_of (by decide +kernel), (by decide +kernel)⟩
theorem witness_PinsMoveRoles_2 : MainTakes .pagePin (mkMsg [20, 2]) readPair (20, 2) roles ∧ 20 < 24 ∧
    (((slotAt 20 roles).state = .ready ∨ (slotAt 20 roles).state = .showing) ∧ (slotAt 20 roles).releasePending = false) ∧
    2 = 2 := ⟨mainTakes_of (by decide +kernel), (by decide +kernel)⟩
theorem witness_PinsMoveRoles_3 : MainTakes .pagePin (mkMsg [22, 2]) readPair (22, 2) roles ∧ 22 < 24 ∧
    (¬ (((slotAt 22 roles).state = .ready ∨ (slotAt 22 roles).state = .showing) ∧ (slotAt 22 roles).releasePending = false)) ∧
    (2 = 1 ∨ 2 = 2) := ⟨mainTakes_of (by decide +kernel), (by decide +kernel)⟩
theorem witness_PinsMoveRoles_4 : MainTakes .pagePin (mkMsg [24, 1]) readPair (24, 1) roles ∧ (24 ≤ 24 ∨ 1 = 0 ∨ 2 < 1) :=
    ⟨mainTakes_of (by decide +kernel), (by decide +kernel)⟩
theorem witness_PinsMoveRoles_5 : MainTakes .pagePin (mkMsg [23, 3]) readPair (23, 3) roles ∧ (24 ≤ 23 ∨ 3 = 0 ∨ 2 < 3) :=
    ⟨mainTakes_of (by decide +kernel), (by decide +kernel)⟩
theorem witness_PinsMoveRoles_6 : MainTakes .pageUnpin (mkMsg [0, 1]) readPair (0, 1) roles ∧ 0 < 24 ∧
    (((slotAt 0 roles).state = .ready ∨ (slotAt 0 roles).state = .showing) ∧ (slotAt 0 roles).releasePending = false) ∧
    1 = 1 := ⟨mainTakes_of (by decide +kernel), (by decide +kernel)⟩
theorem witness_PinsMoveRoles_7 : MainTakes .pageUnpin (mkMsg [20, 2]) readPair (20, 2) roles ∧ 20 < 24 ∧
    (((slotAt 20 roles).state = .ready ∨ (slotAt 20 roles).state = .showing) ∧ (slotAt 20 roles).releasePending = false) ∧
    2 = 2 := ⟨mainTakes_of (by decide +kernel), (by decide +kernel)⟩
theorem witness_PinsMoveRoles_8 : MainTakes .pageUnpin (mkMsg [23, 1]) readPair (23, 1) roles ∧ 23 < 24 ∧
    (¬ (((slotAt 23 roles).state = .ready ∨ (slotAt 23 roles).state = .showing) ∧ (slotAt 23 roles).releasePending = false)) ∧
    (1 = 1 ∨ 1 = 2) := ⟨mainTakes_of (by decide +kernel), (by decide +kernel)⟩
theorem witness_PinsMoveRoles_9 : MainTakes .pageUnpin (mkMsg [23, 0]) readPair (23, 0) roles ∧ (24 ≤ 23 ∨ 0 = 0 ∨ 2 < 0) :=
    ⟨mainTakes_of (by decide +kernel), (by decide +kernel)⟩
/-- No page and no update: the whole pool free but for the image. -/
def unused : State := { stocked with pool := { stocked.pool with free := (List.range 1023).map (· + 1) }, store := PageStore.reset }
def largest : Msg := mkMsg [0x90, 6, 0xF0, 4]
theorem witness_GeometrySetLaysOutThePanel_1 : MainTakes .geometrySet largest readGeometry (1680, 1264) unused ∧
    unused.platform.powerUp = none ∧ (256 ≤ 1680 ∧ 1680 ≤ 1680 ∧ 256 ≤ 1264 ∧ 1264 ≤ 1264 ∧ 1680 % 8 = 0 ∧ 1264 % 8 = 0) ∧
    ((∀ x ∈ unused.store.slots, x.state = .empty) ∧ unused.engine.queue = [] ∧ unused.engine.active = []) ∧
    5 * ((1680 * 1264 / 2 + 65535) / 65536) + unused.pool.spoolLimit ≤ 1024 ∧
    (1680 * 1264 / 2 + 65535) / 65536 ≤ (unused.pool.free ++ unused.pool.panel).length :=
    ⟨mainTakes_of (by decide +kernel), (by decide +kernel)⟩
theorem witness_GeometrySetLaysOutThePanel_2 :
    MainTakes .geometrySet (mkMsg [0x90, 6, 0xF8, 4]) readGeometry (1680, 1272) unused ∧ unused.platform.powerUp = none ∧
    (¬ (256 ≤ 1680 ∧ 1680 ≤ 1680 ∧ 256 ≤ 1272 ∧ 1272 ≤ 1264 ∧ 1680 % 8 = 0 ∧ 1272 % 8 = 0)) :=
    ⟨mainTakes_of (by decide +kernel), (by decide +kernel)⟩
theorem witness_GeometrySetLaysOutThePanel_3 : MainTakes .geometrySet (mkMsg [0, 1, 0, 1]) readGeometry (256, 256) stocked ∧
    stocked.platform.powerUp = none ∧ (256 ≤ 256 ∧ 256 ≤ 1680 ∧ 256 ≤ 256 ∧ 256 ≤ 1264 ∧ 256 % 8 = 0 ∧ 256 % 8 = 0) ∧
    (¬ ((∀ x ∈ stocked.store.slots, x.state = .empty) ∧ stocked.engine.queue = [] ∧ stocked.engine.active = [])) :=
    ⟨mainTakes_of (by decide +kernel), (by decide +kernel)⟩
/-- The spool may take all that 5 pages leave. -/
def greedy : State := { unused with pool := { unused.pool with spoolLimit := 940 } }
theorem witness_GeometrySetLaysOutThePanel_4 : MainTakes .geometrySet largest readGeometry (1680, 1264) greedy ∧
    greedy.platform.powerUp = none ∧ (256 ≤ 1680 ∧ 1680 ≤ 1680 ∧ 256 ≤ 1264 ∧ 1264 ≤ 1264 ∧ 1680 % 8 = 0 ∧ 1264 % 8 = 0) ∧
    ((∀ x ∈ greedy.store.slots, x.state = .empty) ∧ greedy.engine.queue = [] ∧ greedy.engine.active = []) ∧
    (1024 < 5 * ((1680 * 1264 / 2 + 65535) / 65536) + greedy.pool.spoolLimit ∨ (greedy.pool.free ++ greedy.pool.panel).length < (1680 * 1264 / 2 + 65535) / 65536) :=
    ⟨mainTakes_of (by decide +kernel), (by decide +kernel)⟩

/-! ### Reading window -/

def six : State := withWindow [4, 7, 2, 11, 15, 6] 3 stocked
def one : State := withWindow [4] 0 stocked
def fullWindow (c : Nat) : State := withWindow (List.range 16) c stocked
def set16 : Msg := mkMsg ([16, 15] ++ (List.range 16).map (BitVec.ofNat 8))
def setArgs16 : WindowSetArgs := ⟨16, 15, List.range 16⟩
theorem witness_WindowSetAndDropChangeTheWindow_1 : MainTakes .windowSet set16 readWindowSet setArgs16 stocked ∧
    (setArgs16.slots.length ≤ 16 ∧ (∀ i ∈ setArgs16.slots, i < 24 ∧ ((slotAt i stocked).state = .ready ∨ ((slotAt i stocked).state = .showing ∧ (slotAt i stocked).releasePending = false))) ∧ setArgs16.slots.Nodup ∧ (setArgs16.slots = [] ∨ setArgs16.cursor < setArgs16.slots.length)) :=
    ⟨mainTakes_of (by decide +kernel), (by decide +kernel)⟩
theorem witness_WindowSetAndDropChangeTheWindow_2 : MainTakes .windowSet (mkMsg [0, 9]) readWindowSet ⟨0, 9, []⟩ six ∧
    ((⟨0, 9, []⟩ : WindowSetArgs).slots.length ≤ 16 ∧ (∀ i ∈ (⟨0, 9, []⟩ : WindowSetArgs).slots, i < 24 ∧ ((slotAt i six).state = .ready ∨ ((slotAt i six).state = .showing ∧ (slotAt i six).releasePending = false))) ∧ (⟨0, 9, []⟩ : WindowSetArgs).slots.Nodup ∧ ((⟨0, 9, []⟩ : WindowSetArgs).slots = [] ∨ (⟨0, 9, []⟩ : WindowSetArgs).cursor < (⟨0, 9, []⟩ : WindowSetArgs).slots.length)) :=
    ⟨mainTakes_of (by decide +kernel), (by decide +kernel)⟩
theorem witness_WindowSetAndDropChangeTheWindow_3 : MainTakes .windowSet (mkMsg [1, 1, 4]) readWindowSet ⟨1, 1, [4]⟩ six ∧
    (¬ ((⟨1, 1, [4]⟩ : WindowSetArgs).slots.length ≤ 16 ∧ (∀ i ∈ (⟨1, 1, [4]⟩ : WindowSetArgs).slots, i < 24 ∧ ((slotAt i six).state = .ready ∨ ((slotAt i six).state = .showing ∧ (slotAt i six).releasePending = false))) ∧ (⟨1, 1, [4]⟩ : WindowSetArgs).slots.Nodup ∧ ((⟨1, 1, [4]⟩ : WindowSetArgs).slots = [] ∨ (⟨1, 1, [4]⟩ : WindowSetArgs).cursor < (⟨1, 1, [4]⟩ : WindowSetArgs).slots.length))) :=
    ⟨mainTakes_of (by decide +kernel), (by decide +kernel)⟩
theorem witness_WindowSetAndDropChangeTheWindow_4 : MainTakes .windowSet (mkMsg [1, 0, 22]) readWindowSet ⟨1, 0, [22]⟩ six ∧
    (¬ ((⟨1, 0, [22]⟩ : WindowSetArgs).slots.length ≤ 16 ∧ (∀ i ∈ (⟨1, 0, [22]⟩ : WindowSetArgs).slots, i < 24 ∧ ((slotAt i six).state = .ready ∨ ((slotAt i six).state = .showing ∧ (slotAt i six).releasePending = false))) ∧ (⟨1, 0, [22]⟩ : WindowSetArgs).slots.Nodup ∧ ((⟨1, 0, [22]⟩ : WindowSetArgs).slots = [] ∨ (⟨1, 0, [22]⟩ : WindowSetArgs).cursor < (⟨1, 0, [22]⟩ : WindowSetArgs).slots.length))) :=
    ⟨mainTakes_of (by decide +kernel), (by decide +kernel)⟩
theorem witness_WindowSetAndDropChangeTheWindow_5 : MainTakes .windowDrop (mkMsg [4]) readOne 4 six ∧ WindowSound six ∧
    six.window.entries = [] ++ 4 :: [7, 2, 11, 15, 6] ∧ six.window.cursor = some 3 :=
    ⟨mainTakes_of (by decide +kernel), windowSound_of (by decide +kernel), (by decide +kernel)⟩
theorem witness_WindowSetAndDropChangeTheWindow_6 : MainTakes .windowDrop (mkMsg [11]) readOne 11 six ∧ WindowSound six ∧
    six.window.entries = [4, 7, 2] ++ 11 :: [15, 6] ∧ six.window.cursor = some 3 :=
    ⟨mainTakes_of (by decide +kernel), windowSound_of (by decide +kernel), (by decide +kernel)⟩
theorem witness_WindowSetAndDropChangeTheWindow_7 : MainTakes .windowDrop (mkMsg [4]) readOne 4 one ∧ WindowSound one ∧
    one.window.entries = [] ++ 4 :: [] ∧ one.window.cursor = some 0 :=
    ⟨mainTakes_of (by decide +kernel), windowSound_of (by decide +kernel), (by decide +kernel)⟩
theorem witness_WindowSetAndDropChangeTheWindow_8 : MainTakes .windowDrop (mkMsg [15]) readOne 15 (fullWindow 15) ∧
    WindowSound (fullWindow 15) ∧ (fullWindow 15).window.entries = (List.range 15) ++ 15 :: [] ∧
    (fullWindow 15).window.cursor = some 15 :=
    ⟨mainTakes_of (by decide +kernel), windowSound_of (by decide +kernel), (by decide +kernel)⟩
theorem witness_WindowSetAndDropChangeTheWindow_9 : MainTakes .windowDrop (mkMsg [23]) readOne 23 six ∧ WindowSound six ∧
    23 < 24 ∧ 23 ∉ six.window.entries :=
    ⟨mainTakes_of (by decide +kernel), windowSound_of (by decide +kernel), (by decide +kernel)⟩
theorem witness_WindowSetAndDropChangeTheWindow_10 : MainTakes .windowDrop (mkMsg [24]) readOne 24 six ∧ WindowSound six ∧
    24 ≤ 24 := ⟨mainTakes_of (by decide +kernel), windowSound_of (by decide +kernel), (by decide +kernel)⟩
theorem witness_AdditionsAtEitherEnd_1 : WindowSound stocked ∧ MainTakes .windowAppend (mkMsg [20]) readOne 20 stocked ∧
    ((20 < 24 ∧ ((slotAt 20 stocked).state = .ready ∨ ((slotAt 20 stocked).state = .showing ∧ (slotAt 20 stocked).releasePending = false)) ∧ 20 ∉ stocked.window.entries)) ∧
    stocked.window.entries = [] := ⟨windowSound_of (by decide +kernel), mainTakes_of (by decide +kernel), (by decide +kernel)⟩
theorem witness_AdditionsAtEitherEnd_2 : WindowSound (withWindow (List.range 15) 0 stocked) ∧
    MainTakes .windowAppend (mkMsg [20]) readOne 20 (withWindow (List.range 15) 0 stocked) ∧
    ((20 < 24 ∧ ((slotAt 20 (withWindow (List.range 15) 0 stocked)).state = .ready ∨ ((slotAt 20 (withWindow (List.range 15) 0 stocked)).state = .showing ∧ (slotAt 20 (withWindow (List.range 15) 0 stocked)).releasePending = false)) ∧ 20 ∉ (withWindow (List.range 15) 0 stocked).window.entries)) ∧
    (withWindow (List.range 15) 0 stocked).window.entries ≠ [] ∧
    (withWindow (List.range 15) 0 stocked).window.entries.length < 16 :=
    ⟨windowSound_of (by decide +kernel), mainTakes_of (by decide +kernel), (by decide +kernel)⟩
theorem witness_AdditionsAtEitherEnd_3 : WindowSound (fullWindow 1) ∧
    MainTakes .windowAppend (mkMsg [20]) readOne 20 (fullWindow 1) ∧
    ((20 < 24 ∧ ((slotAt 20 (fullWindow 1)).state = .ready ∨ ((slotAt 20 (fullWindow 1)).state = .showing ∧ (slotAt 20 (fullWindow 1)).releasePending = false)) ∧ 20 ∉ (fullWindow 1).window.entries)) ∧
    (fullWindow 1).window.entries.length = 16 ∧ (fullWindow 1).window.cursor = some (0 + 1) :=
    ⟨windowSound_of (by decide +kernel), mainTakes_of (by decide +kernel), (by decide +kernel)⟩
theorem witness_AdditionsAtEitherEnd_4 : WindowSound (fullWindow 0) ∧
    MainTakes .windowAppend (mkMsg [20]) readOne 20 (fullWindow 0) ∧
    ((20 < 24 ∧ ((slotAt 20 (fullWindow 0)).state = .ready ∨ ((slotAt 20 (fullWindow 0)).state = .showing ∧ (slotAt 20 (fullWindow 0)).releasePending = false)) ∧ 20 ∉ (fullWindow 0).window.entries)) ∧
    (fullWindow 0).window.entries.length = 16 ∧ (fullWindow 0).window.cursor = some 0 :=
    ⟨windowSound_of (by decide +kernel), mainTakes_of (by decide +kernel), (by decide +kernel)⟩
theorem witness_AdditionsAtEitherEnd_5 : WindowSound six ∧ MainTakes .windowAppend (mkMsg [22]) readOne 22 six ∧
    (¬ (22 < 24 ∧ ((slotAt 22 six).state = .ready ∨ ((slotAt 22 six).state = .showing ∧ (slotAt 22 six).releasePending = false)) ∧ 22 ∉ six.window.entries)) :=
    ⟨windowSound_of (by decide +kernel), mainTakes_of (by decide +kernel), (by decide +kernel)⟩
theorem witness_AdditionsAtEitherEnd_6 : WindowSound stocked ∧ MainTakes .windowPrepend (mkMsg [20]) readOne 20 stocked ∧
    ((20 < 24 ∧ ((slotAt 20 stocked).state = .ready ∨ ((slotAt 20 stocked).state = .showing ∧ (slotAt 20 stocked).releasePending = false)) ∧ 20 ∉ stocked.window.entries)) ∧
    stocked.window.entries = [] := ⟨windowSound_of (by decide +kernel), mainTakes_of (by decide +kernel), (by decide +kernel)⟩
theorem witness_AdditionsAtEitherEnd_7 : WindowSound (withWindow (List.range 15) 0 stocked) ∧
    MainTakes .windowPrepend (mkMsg [20]) readOne 20 (withWindow (List.range 15) 0 stocked) ∧
    ((20 < 24 ∧ ((slotAt 20 (withWindow (List.range 15) 0 stocked)).state = .ready ∨ ((slotAt 20 (withWindow (List.range 15) 0 stocked)).state = .showing ∧ (slotAt 20 (withWindow (List.range 15) 0 stocked)).releasePending = false)) ∧ 20 ∉ (withWindow (List.range 15) 0 stocked).window.entries)) ∧
    (withWindow (List.range 15) 0 stocked).window.entries ≠ [] ∧
    (withWindow (List.range 15) 0 stocked).window.entries.length < 16 ∧
    (withWindow (List.range 15) 0 stocked).window.cursor = some 0 :=
    ⟨windowSound_of (by decide +kernel), mainTakes_of (by decide +kernel), (by decide +kernel)⟩
theorem witness_AdditionsAtEitherEnd_8 : WindowSound (fullWindow 14) ∧
    MainTakes .windowPrepend (mkMsg [20]) readOne 20 (fullWindow 14) ∧
    ((20 < 24 ∧ ((slotAt 20 (fullWindow 14)).state = .ready ∨ ((slotAt 20 (fullWindow 14)).state = .showing ∧ (slotAt 20 (fullWindow 14)).releasePending = false)) ∧ 20 ∉ (fullWindow 14).window.entries)) ∧
    (fullWindow 14).window.entries.length = 16 ∧ (fullWindow 14).window.cursor = some 14 ∧ 14 < 15 :=
    ⟨windowSound_of (by decide +kernel), mainTakes_of (by decide +kernel), (by decide +kernel)⟩
theorem witness_AdditionsAtEitherEnd_9 : WindowSound (fullWindow 15) ∧
    MainTakes .windowPrepend (mkMsg [20]) readOne 20 (fullWindow 15) ∧
    ((20 < 24 ∧ ((slotAt 20 (fullWindow 15)).state = .ready ∨ ((slotAt 20 (fullWindow 15)).state = .showing ∧ (slotAt 20 (fullWindow 15)).releasePending = false)) ∧ 20 ∉ (fullWindow 15).window.entries)) ∧
    (fullWindow 15).window.entries.length = 16 ∧ (fullWindow 15).window.cursor = some 15 :=
    ⟨windowSound_of (by decide +kernel), mainTakes_of (by decide +kernel), (by decide +kernel)⟩
theorem witness_AdditionsAtEitherEnd_10 : WindowSound six ∧ MainTakes .windowPrepend (mkMsg [24]) readOne 24 six ∧
    (¬ (24 < 24 ∧ ((slotAt 24 six).state = .ready ∨ ((slotAt 24 six).state = .showing ∧ (slotAt 24 six).releasePending = false)) ∧ 24 ∉ six.window.entries)) :=
    ⟨windowSound_of (by decide +kernel), mainTakes_of (by decide +kernel), (by decide +kernel)⟩
theorem witness_LowWaterFiresOncePerShortfall_1 : (six.platform.state = .active ∨ six.platform.state = .doze) ∧
    (¬ ((match six.window.cursor with | some c => six.window.entries.length - (c + 1) | none => 0) < six.window.aheadLow ∧ six.window.aheadArmed = true)) ∧
    (¬ (six.window.cursor.getD 0 < six.window.behindLow ∧ six.window.behindArmed = true)) := (by decide +kernel)
def atEnd : State := withWindow [4, 7, 2, 11, 15, 6] 4 stocked
def dozingAtEnd : State := withWindow [4] 0 dozing
theorem witness_LowWaterFiresOncePerShortfall_2 : (atEnd.platform.state = .active ∨ atEnd.platform.state = .doze) ∧
    (((match atEnd.window.cursor with | some c => atEnd.window.entries.length - (c + 1) | none => 0) < atEnd.window.aheadLow ∧ atEnd.window.aheadArmed = true) ∨ (atEnd.window.cursor.getD 0 < atEnd.window.behindLow ∧ atEnd.window.behindArmed = true)) ∧
    atEnd.platform.state = .active := (by decide +kernel)
theorem witness_LowWaterFiresOncePerShortfall_3 :
    (dozingAtEnd.platform.state = .active ∨ dozingAtEnd.platform.state = .doze) ∧
    (((match dozingAtEnd.window.cursor with | some c => dozingAtEnd.window.entries.length - (c + 1) | none => 0) < dozingAtEnd.window.aheadLow ∧ dozingAtEnd.window.aheadArmed = true) ∨ (dozingAtEnd.window.cursor.getD 0 < dozingAtEnd.window.behindLow ∧ dozingAtEnd.window.behindArmed = true)) ∧
    dozingAtEnd.platform.state = .doze := (by decide +kernel)
def turning : State := loading (withWindow [4, 7, 2] 1 stocked)
def lastId : State := { turning with engine := { turning.engine with nextId := 65535 } }
theorem witness_ATurnMovesTheCursorAndSubmits_1 : WindowSound turning ∧ turning.window.cursor = some 1 ∧
    pendingTurn turning = none ∧ turning.engine.queue.length < 8 ∧ 1 = turning.engine.nextId ∧ 1 ∉ liveIds turning.engine ∧
    turning.wave.state = .loading ∧ MainTakes .turnNext m0 readNothing () turning ∧ 1 + 1 < turning.window.entries.length :=
    ⟨windowSound_of (by decide +kernel), (by decide +kernel), (by decide +kernel), (by decide +kernel), (by decide +kernel),
    (by decide +kernel), (by decide +kernel), mainTakes_of (by decide +kernel), (by decide +kernel)⟩
theorem witness_ATurnMovesTheCursorAndSubmits_2 : WindowSound turning ∧ turning.window.cursor = some 1 ∧
    pendingTurn turning = none ∧ turning.engine.queue.length < 8 ∧ 1 = turning.engine.nextId ∧ 1 ∉ liveIds turning.engine ∧
    turning.wave.state = .loading ∧ MainTakes .turnPrev m0 readNothing () turning ∧ 0 < 1 :=
    ⟨windowSound_of (by decide +kernel), (by decide +kernel), (by decide +kernel), (by decide +kernel), (by decide +kernel),
    (by decide +kernel), (by decide +kernel), mainTakes_of (by decide +kernel), (by decide +kernel)⟩
theorem witness_ATurnMovesTheCursorAndSubmits_3 : WindowSound lastId ∧ lastId.window.cursor = some 1 ∧
    pendingTurn lastId = none ∧ lastId.engine.queue.length < 8 ∧ 65535 = lastId.engine.nextId ∧
    65535 ∉ liveIds lastId.engine ∧ lastId.wave.state = .loading ∧ MainTakes .turnNext m0 readNothing () lastId ∧
    1 + 1 < lastId.window.entries.length := ⟨windowSound_of (by decide +kernel), (by decide +kernel), (by decide +kernel),
    (by decide +kernel), (by decide +kernel), (by decide +kernel), (by decide +kernel), mainTakes_of (by decide +kernel),
    (by decide +kernel)⟩
theorem witness_ATurnMovesTheCursorAndSubmits_4 : WindowSound lastId ∧ lastId.window.cursor = some 1 ∧
    pendingTurn lastId = none ∧ lastId.engine.queue.length < 8 ∧ 65535 = lastId.engine.nextId ∧
    65535 ∉ liveIds lastId.engine ∧ lastId.wave.state = .loading ∧ MainTakes .turnPrev m0 readNothing () lastId ∧ 0 < 1 :=
    ⟨windowSound_of (by decide +kernel), (by decide +kernel), (by decide +kernel), (by decide +kernel), (by decide +kernel),
    (by decide +kernel), (by decide +kernel), mainTakes_of (by decide +kernel), (by decide +kernel)⟩
def turn7 : Update :=
  { id := 7, origin := .window, requesters := ⟨false, true, false⟩, source := 7, region := ⟨0, 0, 256, 256⟩, mode := .partially,
    phase := .pending, band := none, clamped := false, ghostLimit := 0, changed := 0, frames := 0, index := 0, estimate := 0, promoted := false,
    tiles := [] }
def coalescing : State := { turning with
  window := { turning.window with lastTurn := some 7 }, engine := { turning.engine with queue := [turn7], nextId := 8 } }
def queued8 : State := { turning with
  engine := { turning.engine with
    queue := (List.range 8).map (fun i => { turn7 with id := i + 1, origin := .main, requesters := ⟨true, false, false⟩ })
    nextId := 9 } }
theorem witness_TurnsCoalesceOrAreRefused_1 : MainTakes .turnNext m0 readNothing () coalescing ∧ WindowSound coalescing ∧
    coalescing.wave.state = .loading ∧ coalescing.window.cursor = some 1 ∧ 1 + 1 < coalescing.window.entries.length ∧
    pendingTurn coalescing = some 7 :=
    ⟨mainTakes_of (by decide +kernel), windowSound_of (by decide +kernel), (by decide +kernel)⟩
theorem witness_TurnsCoalesceOrAreRefused_2 : MainTakes .turnNext m0 readNothing () queued8 ∧ WindowSound queued8 ∧
    queued8.wave.state = .loading ∧ queued8.window.cursor = some 1 ∧ 1 + 1 < queued8.window.entries.length ∧
    pendingTurn queued8 = none ∧ 8 ≤ queued8.engine.queue.length :=
    ⟨mainTakes_of (by decide +kernel), windowSound_of (by decide +kernel), (by decide +kernel)⟩
theorem witness_TurnsCoalesceOrAreRefused_3 : MainTakes .turnNext m0 readNothing () (loading one) ∧
    WindowSound (loading one) ∧ (loading one).wave.state = .loading ∧ (loading one).window.cursor = some 0 ∧
    0 + 1 = (loading one).window.entries.length :=
    ⟨mainTakes_of (by decide +kernel), windowSound_of (by decide +kernel), (by decide +kernel)⟩
theorem witness_TurnsCoalesceOrAreRefused_4 : MainTakes .turnNext m0 readNothing () (loading stocked) ∧
    WindowSound (loading stocked) ∧ (loading stocked).wave.state = .loading ∧ (loading stocked).window.entries = [] :=
    ⟨mainTakes_of (by decide +kernel), windowSound_of (by decide +kernel), (by decide +kernel)⟩

/-! ### Panel update engine -/

def shown0 : ShowArgs := ⟨0, 2, none⟩
def showMsg : Msg := mkMsg [0, 2]
def corner : ShowArgs := ⟨19, 0, some ⟨13, 250, 300, 300⟩⟩
def cornerMsg : Msg := mkMsg [19, 0, 13, 0, 250, 0, 44, 1, 44, 1]
def valid : State := { stocked with wave :=
  { WaveTable.reset with state := .valid, descriptor := some ⟨[0, 400], [1, 1, 1]⟩, bytes := List.replicate 192 0x55 } }
def lastStamp : State := { valid with store := { valid.store with useCounter := 4294967294 } }
/-- The region of a SHOW: the whole panel where it names none, else snapped to columns of eight and cut at the panel (R43). -/
def shownRegion (a : ShowArgs) (s : State) : Region :=
  match a.region with
  | none => ⟨0, 0, s.pool.width, s.pool.height⟩
  | some q => ⟨q.x / 8 * 8, q.y, min ((q.x + q.w + 7) / 8 * 8) s.pool.width - q.x / 8 * 8,
      min (q.y + q.h) s.pool.height - q.y⟩
theorem witness_ShowSubmitsAndAbortEnds_1 : MainTakes .showPage cornerMsg readShow corner (loading stocked) ∧
    corner.slot < 24 ∧ modeOf corner.mode = some .full ∧ (shownRegion corner (loading stocked)).w ≠ 0 ∧
    (shownRegion corner (loading stocked)).h ≠ 0 ∧
    (((slotAt 19 (loading stocked)).state ≠ .empty ∧ ¬ ((slotAt 19 (loading stocked)).state = .showing ∧ (slotAt 19 (loading stocked)).releasePending = true))) ∧
    (loading stocked).engine.queue.length < 8 ∧ (loading stocked).engine.nextId ∉ liveIds (loading stocked).engine ∧
    (loading stocked).wave.state = .loading := ⟨mainTakes_of (by decide +kernel), (by decide +kernel)⟩
theorem witness_ShowSubmitsAndAbortEnds_2 : MainTakes .showPage showMsg readShow shown0 lastStamp ∧ shown0.slot < 24 ∧
    modeOf shown0.mode = some .quick ∧ (shownRegion shown0 lastStamp).w ≠ 0 ∧ (shownRegion shown0 lastStamp).h ≠ 0 ∧
    (slotAt shown0.slot lastStamp).state = .ready ∧ lastStamp.engine.queue = [] ∧ lastStamp.engine.active = [] ∧
    lastStamp.wave.state = .valid ∧ lastStamp.monitor.panv.fault = false ∧ lastStamp.store.useCounter < 4294967295 :=
    ⟨mainTakes_of (by decide +kernel), (by decide +kernel)⟩
theorem witness_ShowSubmitsAndAbortEnds_3 : MainTakes .showPage showMsg readShow shown0 queued8 ∧ shown0.slot < 24 ∧
    (modeOf shown0.mode).isSome = true ∧ (shownRegion shown0 queued8).w ≠ 0 ∧ (shownRegion shown0 queued8).h ≠ 0 ∧
    (((slotAt 0 queued8).state ≠ .empty ∧ ¬ ((slotAt 0 queued8).state = .showing ∧ (slotAt 0 queued8).releasePending = true))) ∧
    8 ≤ queued8.engine.queue.length := ⟨mainTakes_of (by decide +kernel), (by decide +kernel)⟩
theorem witness_ShowSubmitsAndAbortEnds_4 : MainTakes .showPage (mkMsg [22, 1]) readShow ⟨22, 1, none⟩ stocked ∧ 22 < 24 ∧
    (modeOf 1).isSome = true ∧ (shownRegion (⟨22, 1, none⟩ : ShowArgs) stocked).w ≠ 0 ∧
    (shownRegion (⟨22, 1, none⟩ : ShowArgs) stocked).h ≠ 0 ∧
    (¬ ((slotAt 22 stocked).state ≠ .empty ∧ ¬ ((slotAt 22 stocked).state = .showing ∧ (slotAt 22 stocked).releasePending = true))) :=
    ⟨mainTakes_of (by decide +kernel), (by decide +kernel)⟩
theorem witness_ShowSubmitsAndAbortEnds_5 : MainTakes .showPage (mkMsg [0, 3]) readShow ⟨0, 3, none⟩ stocked ∧
    (24 ≤ 0 ∨ modeOf 3 = none ∨ (shownRegion (⟨0, 3, none⟩ : ShowArgs) stocked).w = 0 ∨ (shownRegion (⟨0, 3, none⟩ : ShowArgs) stocked).h = 0) :=
    ⟨mainTakes_of (by decide +kernel), (by decide +kernel)⟩
def offPanel : ShowArgs := ⟨0, 0, some ⟨256, 10, 16, 16⟩⟩
theorem witness_ShowSubmitsAndAbortEnds_6 :
    MainTakes .showPage (mkMsg [0, 0, 0, 1, 10, 0, 16, 0, 16, 0]) readShow offPanel stocked ∧
    (24 ≤ offPanel.slot ∨ modeOf offPanel.mode = none ∨ (shownRegion offPanel stocked).w = 0 ∨ (shownRegion offPanel stocked).h = 0) :=
    ⟨mainTakes_of (by decide +kernel), (by decide +kernel)⟩
def update1 : Update := { turn7 with id := 1, origin := .main, requesters := ⟨true, false, false⟩ }
theorem witness_ShowSubmitsAndAbortEnds_7 : MainTakes .abort (mkMsg [1, 0]) readTwo 1 queued8 ∧
    (queued8.engine.queue ++ queued8.engine.active).find? (fun v => v.id == 1) = some update1 ∧ update1.phase = .pending ∧
    update1.origin = .main ∧ update1.requesters = ⟨true, false, false⟩ ∧ (∀ e ∈ queued8.charge.updates, e.1 ≠ update1.id) :=
    ⟨mainTakes_of (by decide +kernel), (by decide +kernel)⟩
def driving : Update := { scanning with phase := .driving, frames := 2, index := 0, estimate := 244, changed := 64 }
def atDrive (u : Update) : State := { atScan with
  engine := { atScan.engine with active := [u] }, charge := { atScan.charge with updates := [(1, u.estimate)] } }
theorem witness_ShowSubmitsAndAbortEnds_8 : MainTakes .abort (mkMsg [1, 0]) readTwo 1 (atDrive driving) ∧
    ((atDrive driving).engine.queue ++ (atDrive driving).engine.active).find? (fun v => v.id == 1) = some driving ∧
    driving.phase = .driving := ⟨mainTakes_of (by decide +kernel), (by decide +kernel)⟩
theorem witness_ShowSubmitsAndAbortEnds_9 : MainTakes .abort (mkMsg [9, 0]) readTwo 9 queued8 ∧
    (∀ v ∈ queued8.engine.queue ++ queued8.engine.active, v.id ≠ 9) := ⟨mainTakes_of (by decide +kernel), (by decide +kernel)⟩
theorem witness_ShowSubmitsAndAbortEnds_10 : MainTakes .showPage showMsg readShow shown0 stocked ∧ shown0.slot < 24 ∧
    modeOf shown0.mode = some .quick ∧ (shownRegion shown0 stocked).w ≠ 0 ∧ (shownRegion shown0 stocked).h ≠ 0 ∧
    (((slotAt 0 stocked).state ≠ .empty ∧ ¬ ((slotAt 0 stocked).state = .showing ∧ (slotAt 0 stocked).releasePending = true))) ∧
    stocked.engine.queue = [] ∧ stocked.engine.nextId ∉ liveIds stocked.engine ∧
    (stocked.wave.state = .absent ∨ stocked.wave.state = .faulty) ∧
    (∀ e ∈ stocked.charge.updates, e.1 ≠ stocked.engine.nextId) := ⟨mainTakes_of (by decide +kernel), (by decide +kernel)⟩
/-- A turn to slot 9 still pending, slot 4 shown, the cursor on another entry. -/
def turn9 : Update := { turn7 with id := 9, requesters := ⟨true, false, false⟩, source := 9 }
def leaving : State := { loading (withWindow [4, 7, 2, 11, 15, 6] 4 stocked) with
  window := { (withWindow [4, 7, 2, 11, 15, 6] 4 stocked).window with shown := some 4, lastTurn := some 9 }
  engine := { stocked.engine with queue := [turn9], nextId := 10 } }
theorem witness_ShowSubmitsAndAbortEnds_11 : leaving.engine.queue = [turn9] ∧ turn9.phase = .pending ∧
    turn9.requesters = ⟨true, false, false⟩ ∧ (∀ v ∈ leaving.engine.active, v.id ≠ turn9.id) ∧
    (∀ e ∈ leaving.charge.updates, e.1 ≠ turn9.id) ∧ MainTakes .pageRelease (mkMsg [9]) readOne 9 leaving ∧ 9 < 24 ∧
    leaving.window.entries.contains 9 = false ∧ turn9.source = 9 ∧ (turn9.origin = .main ∨ turn9.origin = .window) ∧
    (slotAt 9 leaving).state = .ready ∧ (slotAt 9 leaving).sleepRole = false ∧ (slotAt 9 leaving).shutdownRole = false :=
    ⟨(by decide +kernel), (by decide +kernel), (by decide +kernel), (by decide +kernel), (by decide +kernel),
    mainTakes_of (by decide +kernel), (by decide +kernel)⟩
def show9 : Update := { turn9 with origin := .main }
def closing1 : State := { loading (radioOn stocked) with engine := { stocked.engine with queue := [show9], active := [driving] } }
theorem witness_ShowSubmitsAndAbortEnds_12 : closing1.engine.queue = [show9] ∧ show9.phase = .pending ∧
    show9.requesters = ⟨true, false, false⟩ ∧ (∀ v ∈ closing1.engine.active, v.id ≠ show9.id) ∧
    (∀ e ∈ closing1.charge.updates, e.1 ≠ show9.id) ∧ MainTakes .powerOff m0 readNothing () closing1 ∧ show9.origin = .main ∧
    closing1.engine.active ≠ [] ∧ closing1.spool.assembly = none := ⟨(by decide +kernel), (by decide +kernel),
    (by decide +kernel), (by decide +kernel), (by decide +kernel), mainTakes_of (by decide +kernel), (by decide +kernel)⟩
/-- The page of slot 20 is white but for the pixel (0, 0), which is 0. -/
def dotted (ghost : Nat) : State := { atScan with
  dram := [⟨21 * 65536, 0xF0⟩], engine := { atScan.engine with ghosts := List.replicate 64 ghost } }
def partly : Update := { scanning with mode := .partially, ghostLimit := 6 }
theorem witness_AScanCountsAndPromotes_1 : scanning.mode = .full := (by decide +kernel)
theorem witness_AScanCountsAndPromotes_2 : partly.mode = .partially ∧
    (∃ q ∈ regionPixels partly.region, panelPixel (dotted 6) q.1 q.2 ≠ slotPixel (dotted 6) partly.source q.1 q.2 ∧ tileOf (dotted 6).pool q.1 q.2 < 64 ∧ partly.ghostLimit ≤ (dotted 6).engine.ghosts.getD (tileOf (dotted 6).pool q.1 q.2) 0) :=
    (by decide +kernel)
theorem witness_AScanCountsAndPromotes_3 : partly.mode = .partially ∧
    (¬ ∃ q ∈ regionPixels partly.region, panelPixel (dotted 5) q.1 q.2 ≠ slotPixel (dotted 5) partly.source q.1 q.2 ∧ tileOf (dotted 5).pool q.1 q.2 < 64 ∧ partly.ghostLimit ≤ (dotted 5).engine.ghosts.getD (tileOf (dotted 5).pool q.1 q.2) 0) :=
    (by decide +kernel)
def quickly : Update := { scanning with mode := .quick }
theorem witness_AScanCountsAndPromotes_4 : quickly.mode = .quick := (by decide +kernel)
theorem witness_AScanIsGrantedOrEndsUnchanged_1 : atScan.platform.state = .active ∧ atScan.spool.held = false ∧
    atScan.engine.active.find? (fun v => v.id == scanning.id && v.phase == .scanning) = some scanning ∧
    ((scanned scanning atScan).mode = .full ∨ (scanned scanning atScan).changed ≠ 0) ∧
    (scanning.origin = .shutdownPage ∨ (floorTurn atScan.charge : Int) ≤ available atScan.charge - (tableFrames atScan.wave (scanned scanning atScan).mode (scanning.band.getD 0) * (atScan.charge.params.base + (atScan.charge.params.perPixel * (scanned scanning atScan).changed + 65535) / 65536))) ∧
    nextLevel { atScan.charge with updates := atScan.charge.updates ++ [(scanning.id, (tableFrames atScan.wave (scanned scanning atScan).mode (scanning.band.getD 0) * (atScan.charge.params.base + (atScan.charge.params.perPixel * (scanned scanning atScan).changed + 65535) / 65536)))] } = atScan.charge.level :=
    (by decide +kernel)
/-- The shutdown page is granted although the charge left is below the floor. -/
def closing : Update := { scanning with origin := .shutdownPage, requesters := ⟨false, false, false⟩ }
def atFloor : State := { atScan with
  engine := { atScan.engine with active := [closing] }, charge := { atScan.charge with q := 100, level := 4 } }
theorem witness_AScanIsGrantedOrEndsUnchanged_2 : atFloor.platform.state = .active ∧ atFloor.spool.held = false ∧
    atFloor.engine.active.find? (fun v => v.id == closing.id && v.phase == .scanning) = some closing ∧
    ((scanned closing atFloor).mode = .full ∨ (scanned closing atFloor).changed ≠ 0) ∧
    (closing.origin = .shutdownPage ∨ (floorTurn atFloor.charge : Int) ≤ available atFloor.charge - (tableFrames atFloor.wave (scanned closing atFloor).mode (closing.band.getD 0) * (atFloor.charge.params.base + (atFloor.charge.params.perPixel * (scanned closing atFloor).changed + 65535) / 65536))) ∧
    nextLevel { atFloor.charge with updates := atFloor.charge.updates ++ [(closing.id, (tableFrames atFloor.wave (scanned closing atFloor).mode (closing.band.getD 0) * (atFloor.charge.params.base + (atFloor.charge.params.perPixel * (scanned closing atFloor).changed + 65535) / 65536)))] } = atFloor.charge.level :=
    (by decide +kernel)
def unchanged : State := { atScan with engine := { atScan.engine with active := [partly] } }
theorem witness_AScanIsGrantedOrEndsUnchanged_3 : unchanged.platform.state = .active ∧ unchanged.spool.held = false ∧
    unchanged.engine.active.find? (fun v => v.id == partly.id && v.phase == .scanning) = some partly ∧
    unchanged.engine.queue = [] ∧ (partly.origin = .main ∨ partly.origin = .window) ∧
    partly.requesters = ⟨true, false, false⟩ ∧ (∀ r ∈ unchanged.charge.updates, r.1 ≠ partly.id) ∧
    (slotAt partly.source unchanged).state = .showing ∧ (slotAt partly.source unchanged).showing = 1 ∧
    (slotAt partly.source unchanged).releasePending = false ∧
    (¬ ((scanned partly unchanged).mode = .full ∨ (scanned partly unchanged).changed ≠ 0)) := (by decide +kernel)
/-- A turn at its scan, slot 4 shown and another page at the cursor. -/
def turned (u : Update) (q : Nat) : State := { unchanged with
  engine := { unchanged.engine with active := [u] }
  window := { unchanged.window with entries := [4, 20, 7], cursor := some 1, shown := some 4 }
  charge := { unchanged.charge with q := q, level := if q = 0 then 4 else 0 } }
def partTurn : Update := { partly with origin := .window }
def fullTurn : Update := { scanning with origin := .window }
theorem witness_AScanIsGrantedOrEndsUnchanged_4 : (turned partTurn 5000000000).platform.state = .active ∧
    (turned partTurn 5000000000).spool.held = false ∧
    (turned partTurn 5000000000).engine.active.find? (fun v => v.id == partTurn.id && v.phase == .scanning) = some partTurn ∧
    (turned partTurn 5000000000).engine.queue = [] ∧ (partTurn.origin = .main ∨ partTurn.origin = .window) ∧
    partTurn.requesters = ⟨true, false, false⟩ ∧ (∀ r ∈ (turned partTurn 5000000000).charge.updates, r.1 ≠ partTurn.id) ∧
    (slotAt partTurn.source (turned partTurn 5000000000)).state = .showing ∧
    (slotAt partTurn.source (turned partTurn 5000000000)).showing = 1 ∧
    (slotAt partTurn.source (turned partTurn 5000000000)).releasePending = false ∧
    (¬ ((scanned partTurn (turned partTurn 5000000000)).mode = .full ∨ (scanned partTurn (turned partTurn 5000000000)).changed ≠ 0)) :=
    (by decide +kernel)
theorem witness_AScanIsGrantedOrEndsUnchanged_5 : (turned fullTurn 0).platform.state = .active ∧
    (turned fullTurn 0).spool.held = false ∧
    (turned fullTurn 0).engine.active.find? (fun v => v.id == fullTurn.id && v.phase == .scanning) = some fullTurn ∧
    (turned fullTurn 0).engine.queue = [] ∧ (fullTurn.origin = .main ∨ fullTurn.origin = .window) ∧
    fullTurn.requesters = ⟨true, false, false⟩ ∧ (∀ r ∈ (turned fullTurn 0).charge.updates, r.1 ≠ fullTurn.id) ∧
    (slotAt fullTurn.source (turned fullTurn 0)).state = .showing ∧ (slotAt fullTurn.source (turned fullTurn 0)).showing = 1 ∧
    (slotAt fullTurn.source (turned fullTurn 0)).releasePending = false ∧
    ((scanned fullTurn (turned fullTurn 0)).mode = .full ∨ (scanned fullTurn (turned fullTurn 0)).changed ≠ 0) ∧
    available (turned fullTurn 0).charge - (tableFrames (turned fullTurn 0).wave (scanned fullTurn (turned fullTurn 0)).mode (fullTurn.band.getD 0) * ((turned fullTurn 0).charge.params.base + ((turned fullTurn 0).charge.params.perPixel * (scanned fullTurn (turned fullTurn 0)).changed + 65535) / 65536)) < floorTurn (turned fullTurn 0).charge :=
    (by decide +kernel)
def lastFrame : Update := { driving with index := 1 }
def atLastFrame : State := { atDrive lastFrame with dram := [⟨21 * 65536, 0xF0⟩] }
theorem witness_AFrameDrivesAndFinishesUpdates_1 : (atDrive driving).platform.state = .active ∧
    (atDrive driving).engine.frameTimer.isSome = true ∧ (atDrive driving).monitor.panv.fault = false ∧
    (∀ u ∈ (atDrive driving).engine.active, u.phase = .driving → u.index + 1 < u.frames) := (by decide +kernel)
theorem witness_AFrameDrivesAndFinishesUpdates_2 : atLastFrame.platform.state = .active ∧
    atLastFrame.engine.frameTimer.isSome = true ∧ atLastFrame.engine.active = [lastFrame] ∧ lastFrame.phase = .driving ∧
    atLastFrame.engine.queue = [] ∧ (lastFrame.origin = .main ∨ lastFrame.origin = .window) ∧
    lastFrame.requesters = ⟨true, false, false⟩ ∧ atLastFrame.spool.held = false ∧
    nextLevel { atLastFrame.charge with updates := atLastFrame.charge.updates.filter (fun r => r.1 != lastFrame.id) } = atLastFrame.charge.level ∧
    (slotAt lastFrame.source atLastFrame).state = .showing ∧ (slotAt lastFrame.source atLastFrame).showing = 1 ∧
    atLastFrame.monitor.panv.fault = false ∧ lastFrame.frames = lastFrame.index + 1 := (by decide +kernel)
theorem witness_AFrameDrivesAndFinishesUpdates_3 : Mem.wf atLastFrame.dram = true ∧ atLastFrame.pool.panel.Nodup ∧
    pageSize atLastFrame.pool ≤ 131072 * atLastFrame.pool.panel.length ∧
    lastFrame.region.x + lastFrame.region.w ≤ atLastFrame.pool.width ∧
    lastFrame.region.y + lastFrame.region.h ≤ atLastFrame.pool.height := (by decide +kernel)
/-- The last frame of a turn to a page whose release is pending. -/
def lastTurn22 : Update := { lastFrame with origin := .window, source := 22 }
def supplied (u : Update) (fault : Bool) : State := { atLastFrame with
  engine := { atLastFrame.engine with active := [u] }
  window := { atLastFrame.window with entries := [4, 20, 7], cursor := some 1, shown := some 4 }
  monitor := { atLastFrame.monitor with panv := { atLastFrame.monitor.panv with fault := fault } } }
theorem witness_AFrameDrivesAndFinishesUpdates_4 : (supplied lastTurn22 false).platform.state = .active ∧
    (supplied lastTurn22 false).engine.frameTimer.isSome = true ∧ (supplied lastTurn22 false).engine.active = [lastTurn22] ∧
    lastTurn22.phase = .driving ∧ (supplied lastTurn22 false).engine.queue = [] ∧
    (lastTurn22.origin = .main ∨ lastTurn22.origin = .window) ∧ lastTurn22.requesters = ⟨true, false, false⟩ ∧
    (supplied lastTurn22 false).spool.held = false ∧
    nextLevel { (supplied lastTurn22 false).charge with updates := (supplied lastTurn22 false).charge.updates.filter (fun r => r.1 != lastTurn22.id) } = (supplied lastTurn22 false).charge.level ∧
    (slotAt lastTurn22.source (supplied lastTurn22 false)).state = .showing ∧
    (slotAt lastTurn22.source (supplied lastTurn22 false)).showing = 1 ∧
    (supplied lastTurn22 false).monitor.panv.fault = false ∧ lastTurn22.frames = lastTurn22.index + 1 := (by decide +kernel)
def lastTurn20 : Update := { driving with origin := .window }
theorem witness_AFrameDrivesAndFinishesUpdates_5 : (supplied lastTurn20 true).platform.state = .active ∧
    (supplied lastTurn20 true).engine.frameTimer.isSome = true ∧ (supplied lastTurn20 true).engine.active = [lastTurn20] ∧
    lastTurn20.phase = .driving ∧ (supplied lastTurn20 true).engine.queue = [] ∧
    (lastTurn20.origin = .main ∨ lastTurn20.origin = .window) ∧ lastTurn20.requesters = ⟨true, false, false⟩ ∧
    (supplied lastTurn20 true).spool.held = false ∧
    nextLevel { (supplied lastTurn20 true).charge with updates := (supplied lastTurn20 true).charge.updates.filter (fun r => r.1 != lastTurn20.id) } = (supplied lastTurn20 true).charge.level ∧
    (slotAt lastTurn20.source (supplied lastTurn20 true)).state = .showing ∧
    (slotAt lastTurn20.source (supplied lastTurn20 true)).showing = 1 ∧
    (supplied lastTurn20 true).monitor.panv.fault = true := (by decide +kernel)

/-! ### Waveform table -/

def beginMsg : Msg := mkMsg [1, 0x70, 0xFE, 0xE8, 3, 1, 127, 1]
def beginArgs : WaveformBeginArgs := ⟨1, [-400, 1000], [1, 127, 1]⟩
def table (w : WaveTable) : State := { stocked with wave := w }
def loadingTable : State :=
  table { WaveTable.reset with state := .loading, descriptor := some ⟨[0, 400], [1, 1, 1]⟩, declared := some 3, loadPos := some 0, crc := some 0 }
def loadedTable : State := table { loadingTable.wave with loadPos := some 3, crc := some 5, bytes := [1, 2, 0] }
theorem witness_AWaveformLoadRunsToItsEnd_1 : MainTakes .waveformBegin beginMsg readWaveformBegin beginArgs stocked ∧
    stocked.engine.active = [] ∧ stocked.engine.queue = [] ∧ 1 ≤ beginArgs.bands ∧ beginArgs.bands ≤ 8 ∧
    (∀ b ∈ beginArgs.bounds, -400 ≤ b ∧ b ≤ 1000) ∧ beginArgs.bounds.Pairwise (· < ·) ∧
    (∀ n ∈ beginArgs.counts, 1 ≤ n ∧ n ≤ 127) := ⟨mainTakes_of (by decide +kernel), (by decide +kernel)⟩
theorem witness_AWaveformLoadRunsToItsEnd_2 :
    MainTakes .waveformData (mkMsg [0, 0xAA, 0x55]) readStream [0, 0xAA, 0x55] loadingTable ∧
    loadingTable.wave.state = .loading ∧ loadingTable.wave.loadPos = some 0 ∧ loadingTable.wave.declared = some 3 ∧
    loadingTable.wave.crc = some 0 ∧ 0 + [0#8, 0xAA#8, 0x55#8].length ≤ 3 ∧
    (∀ b ∈ [0#8, 0xAA#8, 0x55#8], ∀ i, i < 4 → b.toNat / 4 ^ i % 4 ≠ 3) :=
    ⟨mainTakes_of (by decide +kernel), (by decide +kernel)⟩
theorem witness_AWaveformLoadRunsToItsEnd_3 : MainTakes .waveformEnd (mkMsg [5, 0, 0, 0]) readWord 5 loadedTable ∧
    loadedTable.wave.state = .loading ∧ loadedTable.engine.queue = [] ∧ loadedTable.wave.loadPos = loadedTable.wave.declared ∧
    loadedTable.wave.crc = some 5 := ⟨mainTakes_of (by decide +kernel), (by decide +kernel)⟩
theorem witness_AWaveformLoadRunsToItsEnd_4 : MainTakes .waveformEnd (mkMsg [4, 0, 0, 0]) readWord 4 loadedTable ∧
    loadedTable.wave.state = .loading ∧ loadedTable.engine.queue = [] ∧
    (loadedTable.wave.loadPos ≠ loadedTable.wave.declared ∨ loadedTable.wave.crc ≠ some 4) :=
    ⟨mainTakes_of (by decide +kernel), (by decide +kernel)⟩
def scrubbed (x : ScrubState) (r : Word32) : State := table { WaveTable.reset with
  state := .valid, bytes := nineDigits, reference := some r, scrub := x, scrubTimer := some 0, pass := some ⟨0, 0⟩,
  passCount := 4294967295 }
theorem witness_TheScrubChecksTheTable_1 : (scrubbed .waiting 0).wave.scrubTimer.isSome = true ∧
    (scrubbed .waiting 0).wave.scrub = .waiting := (by decide +kernel)
theorem witness_TheScrubChecksTheTable_2 : (scrubbed .passing 0).wave.scrubTimer.isSome = true ∧
    (scrubbed .passing 0).wave.scrub = .passing := (by decide +kernel)
theorem witness_TheScrubChecksTheTable_3 : (scrubbed .passing 0xCBF43926).wave.scrub = .passing ∧
    (scrubbed .passing 0xCBF43926).platform.state = .active ∧
    (scrubbed .passing 0xCBF43926).wave.reference = some (crc32 (([] : List Upset).foldl (fun m u => m.set u.position u.value) (scrubbed .passing 0xCBF43926).wave.bytes)) :=
    (by decide +kernel)
theorem witness_TheScrubChecksTheTable_4 : (scrubbed .passing 0xCBF43926).wave.scrub = .passing ∧
    (scrubbed .passing 0xCBF43926).platform.state = .active ∧
    (scrubbed .passing 0xCBF43926).wave.reference = some 0xCBF43926 ∧
    0xCBF43926 ≠ crc32 ([(⟨8, 0x38⟩ : Upset)].foldl (fun m u => m.set u.position u.value) (scrubbed .passing 0xCBF43926).wave.bytes) ∧
    (scrubbed .passing 0xCBF43926).engine.queue = [] := (by decide +kernel)

/-! ### Download spool -/

/-- The radio on, its port ready; the charge worth any chunk. -/
def receiving : State := radioOn stocked
def openingMsg : Msg := mkMsg [0x01, 0x2C, 0x01, 5, 0, 0, 0, 0x58, 0x02, 0, 0, 1, 0, 0, 0, 0, 0x77]
def opening : ChunkBeginArgs :=
  { form := 1, last := false, crcPresent := false, upper := 0, declared := 300, title := 5, total := 600, crc := 0, policy := 1,
    offset := 0, data := [0x77] }
def wholeMsg : Msg := mkMsg [0x0D, 2, 0, 5, 0, 0, 0, 2, 0, 0, 0, 9, 0, 0, 0, 0, 0, 0, 0, 0, 0x77]
def whole : ChunkBeginArgs :=
  { form := 1, last := true, crcPresent := true, upper := 0, declared := 2, title := 5, total := 2, crc := 9, policy := 0,
    offset := 0, data := [0x77] }
def title5 : Title :=
  { id := 5, state := .receiving, failCause := none, total := some 600, crc := none, policy := .strict, received := 0,
    blocks := [24], misfits := 0, lastChunk := none }
def openChunk : Assembly := { entry := 7, offset := 0, declared := 300, collected := 297, last := false, cost := 264, ageLeft := 500 }
def withTitle (x : Title) (a : Option Assembly) (s : State) : State := { s with
  pool := { s.pool with free := (List.range 999).map (· + 25) }
  spool := { s.spool with titles := List.replicate 7 none ++ [some x], assembly := a }
  charge := { s.charge with chunk := a.map (·.cost) } }
def collecting : State := withTitle title5 (some openChunk) receiving
theorem witness_AChunkOpensAndCollects_1 : receiving.platform.state = .active ∧
    OtherTakes .radio .chunkBegin openingMsg readChunkBegin opening receiving ∧ receiving.spool.assembly = none ∧
    receiving.spool.held = false ∧ receiving.platform.sleepPending = none ∧ opening.form = 1 ∧ opening.upper = 0 ∧
    policyOf opening.policy = some .strict ∧ opening.title ≠ 0 ∧ opening.offset = 0 ∧
    opening.total ≤ receiving.pool.spoolLimit * 65536 ∧
    (∀ j, j < 8 → ∀ t, titleAt j receiving = some t → t.id ≠ opening.title) ∧ 0 < 8 ∧ receiving.spool.titles.length = 8 ∧
    titleAt 0 receiving = none ∧ (∀ j, j < 0 → titleAt j receiving ≠ none) ∧ opening.data.length < opening.declared ∧
    opening.declared ≤ 4096 ∧
    (opening.total ≠ 0 → opening.declared ≤ opening.total ∧ (opening.last = true → opening.declared = opening.total)) ∧
    1 ≤ receiving.pool.free.length ∧ spoolHolding receiving.spool + 1 ≤ receiving.pool.spoolLimit ∧
    (floorRadio receiving.charge : Int) ≤ available receiving.charge - ((opening.declared * receiving.charge.params.perKib + 1023) / 1024) ∧
    nextLevel { receiving.charge with chunk := some ((opening.declared * receiving.charge.params.perKib + 1023) / 1024) } = receiving.charge.level :=
    ⟨(by decide +kernel), otherTakes_of (by decide +kernel), (by decide +kernel), (by decide +kernel), (by decide +kernel),
    (by decide +kernel), (by decide +kernel), (by decide +kernel), (by decide +kernel), (by decide +kernel),
    (by decide +kernel), titles_below (by decide +kernel), (by decide +kernel)⟩
theorem witness_AChunkOpensAndCollects_2 : receiving.platform.state = .active ∧
    OtherTakes .radio .chunkBegin wholeMsg readChunkBegin whole receiving ∧ receiving.spool.assembly = none ∧
    receiving.spool.held = false ∧ receiving.platform.sleepPending = none ∧ whole.form = 1 ∧ whole.upper = 0 ∧
    policyOf whole.policy = some .lenient ∧ whole.title ≠ 0 ∧ whole.offset = 0 ∧
    whole.total ≤ receiving.pool.spoolLimit * 65536 ∧ (∀ j, j < 8 → ∀ t, titleAt j receiving = some t → t.id ≠ whole.title) ∧
    0 < 8 ∧ receiving.spool.titles.length = 8 ∧ titleAt 0 receiving = none ∧ (∀ j, j < 0 → titleAt j receiving ≠ none) ∧
    whole.data.length < whole.declared ∧ whole.declared ≤ 4096 ∧
    (whole.total ≠ 0 → whole.declared ≤ whole.total ∧ (whole.last = true → whole.declared = whole.total)) ∧
    1 ≤ receiving.pool.free.length ∧ spoolHolding receiving.spool + 1 ≤ receiving.pool.spoolLimit ∧
    (floorRadio receiving.charge : Int) ≤ available receiving.charge - ((whole.declared * receiving.charge.params.perKib + 1023) / 1024) ∧
    nextLevel { receiving.charge with chunk := some ((whole.declared * receiving.charge.params.perKib + 1023) / 1024) } = receiving.charge.level :=
    ⟨(by decide +kernel), otherTakes_of (by decide +kernel), (by decide +kernel), (by decide +kernel), (by decide +kernel),
    (by decide +kernel), (by decide +kernel), (by decide +kernel), (by decide +kernel), (by decide +kernel),
    (by decide +kernel), titles_below (by decide +kernel), (by decide +kernel)⟩
/-- One byte short of a block is received; the chunk needs a second block. -/
def title9 : Title := { title5 with total := none, received := 65535, misfits := 65535 }
def goingOn (x : Title) : State := { withTitle x none receiving with
  spool := { (withTitle x none receiving).spool with bare := some 7 } }
def resumeMsg : Msg := mkMsg [0x02, 2, 0, 5, 0, 0, 0, 0xFF, 0xFF, 0, 0, 0x77]
def resume9 : ChunkBeginArgs :=
  { form := 2, last := false, crcPresent := false, upper := 0, declared := 2, title := 5, total := 0, crc := 0, policy := 0,
    offset := 65535, data := [0x77] }
def bareMsg : Msg := mkMsg [0x07, 2, 0, 0x77]
def bare9 : ChunkBeginArgs :=
  { form := 3, last := true, crcPresent := false, upper := 0, declared := 2, title := 0, total := 0, crc := 0, policy := 0,
    offset := 0, data := [0x77] }
theorem witness_AChunkOpensAndCollects_3 : (goingOn title9).platform.state = .active ∧
    OtherTakes .radio .chunkBegin resumeMsg readChunkBegin resume9 (goingOn title9) ∧ (goingOn title9).spool.assembly = none ∧
    (goingOn title9).spool.held = false ∧ (goingOn title9).platform.sleepPending = none ∧ resume9.upper = 0 ∧
    resume9.crcPresent = false ∧ 7 < 8 ∧ (goingOn title9).spool.titles.length = 8 ∧ titleAt 7 (goingOn title9) = some title9 ∧
    title9.state = .receiving ∧
    ((resume9.form = 2 ∧ resume9.title = title9.id ∧ title9.id ≠ 0 ∧ resume9.offset = title9.received ∧ (∀ j, j < 7 → ∀ y, titleAt j (goingOn title9) = some y → y.id ≠ title9.id)) ∨ (resume9.form = 3 ∧ (goingOn title9).spool.bare = some 7)) ∧
    resume9.data.length < resume9.declared ∧ resume9.declared ≤ 4096 ∧
    (∀ n, title9.total = some n → title9.received + resume9.declared ≤ n ∧ (resume9.last = true → title9.received + resume9.declared = n)) ∧
    ((title9.received + resume9.declared + 65535) / 65536 - title9.blocks.length) ≤ (goingOn title9).pool.free.length ∧
    spoolHolding (goingOn title9).spool + ((title9.received + resume9.declared + 65535) / 65536 - title9.blocks.length) ≤ (goingOn title9).pool.spoolLimit ∧
    (floorRadio (goingOn title9).charge : Int) ≤ available (goingOn title9).charge - ((resume9.declared * (goingOn title9).charge.params.perKib + 1023) / 1024) ∧
    nextLevel { (goingOn title9).charge with chunk := some ((resume9.declared * (goingOn title9).charge.params.perKib + 1023) / 1024) } = (goingOn title9).charge.level :=
    ⟨(by decide +kernel), otherTakes_of (by decide +kernel), (by decide +kernel), (by decide +kernel), (by decide +kernel),
    (by decide +kernel), (by decide +kernel), (by decide +kernel), (by decide +kernel), (by decide +kernel),
    (by decide +kernel), .inl ⟨by decide +kernel, by decide +kernel, by decide +kernel, by decide +kernel,
    titles_below (by decide +kernel)⟩, (by decide +kernel), (by decide +kernel), (by simp [title9]), (by decide +kernel)⟩
theorem witness_AChunkOpensAndCollects_4 : (goingOn title9).platform.state = .active ∧
    OtherTakes .radio .chunkBegin bareMsg readChunkBegin bare9 (goingOn title9) ∧ (goingOn title9).spool.assembly = none ∧
    (goingOn title9).spool.held = false ∧ (goingOn title9).platform.sleepPending = none ∧ bare9.upper = 0 ∧
    bare9.crcPresent = false ∧ 7 < 8 ∧ (goingOn title9).spool.titles.length = 8 ∧ titleAt 7 (goingOn title9) = some title9 ∧
    title9.state = .receiving ∧
    ((bare9.form = 2 ∧ bare9.title = title9.id ∧ title9.id ≠ 0 ∧ bare9.offset = title9.received ∧ (∀ j, j < 7 → ∀ y, titleAt j (goingOn title9) = some y → y.id ≠ title9.id)) ∨ (bare9.form = 3 ∧ (goingOn title9).spool.bare = some 7)) ∧
    bare9.data.length < bare9.declared ∧ bare9.declared ≤ 4096 ∧
    (∀ n, title9.total = some n → title9.received + bare9.declared ≤ n ∧ (bare9.last = true → title9.received + bare9.declared = n)) ∧
    ((title9.received + bare9.declared + 65535) / 65536 - title9.blocks.length) ≤ (goingOn title9).pool.free.length ∧
    spoolHolding (goingOn title9).spool + ((title9.received + bare9.declared + 65535) / 65536 - title9.blocks.length) ≤ (goingOn title9).pool.spoolLimit ∧
    (floorRadio (goingOn title9).charge : Int) ≤ available (goingOn title9).charge - ((bare9.declared * (goingOn title9).charge.params.perKib + 1023) / 1024) ∧
    nextLevel { (goingOn title9).charge with chunk := some ((bare9.declared * (goingOn title9).charge.params.perKib + 1023) / 1024) } = (goingOn title9).charge.level :=
    ⟨(by decide +kernel), otherTakes_of (by decide +kernel), (by decide +kernel), (by decide +kernel), (by decide +kernel),
    (by decide +kernel), (by decide +kernel), (by decide +kernel), (by decide +kernel), (by decide +kernel),
    (by decide +kernel), .inr (by decide +kernel), (by decide +kernel), (by decide +kernel), (by simp [title9]),
    (by decide +kernel)⟩
theorem witness_AChunkOpensAndCollects_5 : collecting.platform.state = .active ∧
    OtherTakes .radio .chunkMore (mkMsg [1, 2]) readChunkMore [1, 2] collecting ∧ collecting.spool.assembly = some openChunk ∧
    titleAt openChunk.entry collecting = some title5 ∧ openChunk.collected + [1#8, 2#8].length < openChunk.declared :=
    ⟨(by decide +kernel), otherTakes_of (by decide +kernel), (by decide +kernel)⟩
def missMsg : Msg := mkMsg [0x02, 2, 0, 5, 0, 0, 0, 0xFE, 0xFF, 0, 0, 0x77]
def miss9 : ChunkBeginArgs := { resume9 with offset := 65534 }
def easy9 : Title := { title9 with policy := .lenient }
def totalled : Title := { title9 with total := some 65536 }
theorem witness_AChunkOpensAndCollects_6 : (goingOn easy9).platform.state = .active ∧
    OtherTakes .radio .chunkBegin missMsg readChunkBegin miss9 (goingOn easy9) ∧ (goingOn easy9).spool.assembly = none ∧
    (goingOn easy9).platform.sleepPending = none ∧ miss9.upper = 0 ∧ miss9.crcPresent = false ∧ 7 < 8 ∧
    (goingOn easy9).spool.titles.length = 8 ∧ titleAt 7 (goingOn easy9) = some easy9 ∧ easy9.state = .receiving ∧
    (miss9.form = 2 ∧ miss9.title = easy9.id ∧ easy9.id ≠ 0 ∧ (∀ j, j < 7 → ∀ y, titleAt j (goingOn easy9) = some y → y.id ≠ easy9.id)) ∧
    miss9.offset ≠ easy9.received ∧ easy9.policy = .lenient := ⟨(by decide +kernel), otherTakes_of (by decide +kernel),
    (by decide +kernel), (by decide +kernel), (by decide +kernel), (by decide +kernel), (by decide +kernel),
    (by decide +kernel), (by decide +kernel), (by decide +kernel), ⟨by decide +kernel, by decide +kernel, by decide +kernel,
    titles_below (by decide +kernel)⟩, (by decide +kernel)⟩
theorem witness_AChunkOpensAndCollects_7 : (goingOn title9).platform.state = .active ∧
    OtherTakes .radio .chunkBegin missMsg readChunkBegin miss9 (goingOn title9) ∧ (goingOn title9).spool.assembly = none ∧
    (goingOn title9).platform.sleepPending = none ∧ miss9.upper = 0 ∧ miss9.crcPresent = false ∧ 7 < 8 ∧
    (goingOn title9).spool.titles.length = 8 ∧ titleAt 7 (goingOn title9) = some title9 ∧ title9.state = .receiving ∧
    (miss9.form = 2 ∧ miss9.title = title9.id ∧ title9.id ≠ 0 ∧ (∀ j, j < 7 → ∀ y, titleAt j (goingOn title9) = some y → y.id ≠ title9.id)) ∧
    miss9.offset ≠ title9.received ∧ title9.policy = .strict ∧ (goingOn title9).spool.titleWake = false :=
    ⟨(by decide +kernel), otherTakes_of (by decide +kernel), (by decide +kernel), (by decide +kernel), (by decide +kernel),
    (by decide +kernel), (by decide +kernel), (by decide +kernel), (by decide +kernel), (by decide +kernel),
    ⟨by decide +kernel, by decide +kernel, by decide +kernel, titles_below (by decide +kernel)⟩, (by decide +kernel)⟩
theorem witness_AChunkOpensAndCollects_8 : (goingOn totalled).platform.state = .active ∧
    OtherTakes .radio .chunkBegin resumeMsg readChunkBegin resume9 (goingOn totalled) ∧
    (goingOn totalled).spool.assembly = none ∧ (goingOn totalled).platform.sleepPending = none ∧ resume9.upper = 0 ∧
    resume9.crcPresent = false ∧ 7 < 8 ∧ (goingOn totalled).spool.titles.length = 8 ∧
    titleAt 7 (goingOn totalled) = some totalled ∧ totalled.state = .receiving ∧
    (((resume9.form = 2 ∧ resume9.title = totalled.id ∧ totalled.id ≠ 0 ∧ (∀ j, j < 7 → ∀ y, titleAt j (goingOn totalled) = some y → y.id ≠ totalled.id)) ∧ resume9.offset = totalled.received) ∨ (resume9.form = 3 ∧ (goingOn totalled).spool.bare = some 7)) ∧
    (¬ (1 ≤ resume9.declared ∧ resume9.declared ≤ 4096 ∧ resume9.data.length ≤ resume9.declared ∧ (∀ n, totalled.total = some n → totalled.received + resume9.declared ≤ n ∧ (resume9.last = true → totalled.received + resume9.declared = n)))) :=
    ⟨(by decide +kernel), otherTakes_of (by decide +kernel), (by decide +kernel), (by decide +kernel), (by decide +kernel),
    (by decide +kernel), (by decide +kernel), (by decide +kernel), (by decide +kernel), (by decide +kernel),
    .inl ⟨⟨by decide +kernel, by decide +kernel, by decide +kernel, titles_below (by decide +kernel)⟩, by decide +kernel⟩,
    (by simp [totalled, title9, resume9])⟩
def tightPool : State := { goingOn title9 with pool := { (goingOn title9).pool with spoolLimit := 1 } }
def isHeld (h : Bool) (q : Nat) : State := { goingOn title9 with
  spool := { (goingOn title9).spool with held := h }, charge := { (goingOn title9).charge with q := q } }
theorem witness_AChunkOpensAndCollects_9 : tightPool.platform.state = .active ∧
    OtherTakes .radio .chunkBegin bareMsg readChunkBegin bare9 tightPool ∧ tightPool.spool.assembly = none ∧
    tightPool.platform.sleepPending = none ∧ bare9.upper = 0 ∧ bare9.crcPresent = false ∧ 7 < 8 ∧
    tightPool.spool.titles.length = 8 ∧ titleAt 7 tightPool = some title9 ∧ title9.state = .receiving ∧
    (((bare9.form = 2 ∧ bare9.title = title9.id ∧ title9.id ≠ 0 ∧ (∀ j, j < 7 → ∀ y, titleAt j tightPool = some y → y.id ≠ title9.id)) ∧ bare9.offset = title9.received) ∨ (bare9.form = 3 ∧ tightPool.spool.bare = some 7)) ∧
    ((1 ≤ bare9.declared ∧ bare9.declared ≤ 4096 ∧ bare9.data.length ≤ bare9.declared ∧ (∀ n, title9.total = some n → title9.received + bare9.declared ≤ n ∧ (bare9.last = true → title9.received + bare9.declared = n)))) ∧
    (¬ (((title9.received + bare9.declared + 65535) / 65536 - title9.blocks.length) ≤ tightPool.pool.free.length ∧ spoolHolding tightPool.spool + ((title9.received + bare9.declared + 65535) / 65536 - title9.blocks.length) ≤ tightPool.pool.spoolLimit)) :=
    ⟨(by decide +kernel), otherTakes_of (by decide +kernel), (by decide +kernel), (by decide +kernel), (by decide +kernel),
    (by decide +kernel), (by decide +kernel), (by decide +kernel), (by decide +kernel), (by decide +kernel),
    .inr (by decide +kernel), (by simp [title9, bare9]), (by decide +kernel)⟩
theorem witness_AChunkOpensAndCollects_10 : (isHeld true 5000000000).platform.state = .active ∧
    OtherTakes .radio .chunkBegin bareMsg readChunkBegin bare9 (isHeld true 5000000000) ∧
    (isHeld true 5000000000).spool.assembly = none ∧ (isHeld true 5000000000).platform.sleepPending = none ∧ bare9.upper = 0 ∧
    bare9.crcPresent = false ∧ 7 < 8 ∧ (isHeld true 5000000000).spool.titles.length = 8 ∧
    titleAt 7 (isHeld true 5000000000) = some title9 ∧ title9.state = .receiving ∧
    (((bare9.form = 2 ∧ bare9.title = title9.id ∧ title9.id ≠ 0 ∧ (∀ j, j < 7 → ∀ y, titleAt j (isHeld true 5000000000) = some y → y.id ≠ title9.id)) ∧ bare9.offset = title9.received) ∨ (bare9.form = 3 ∧ (isHeld true 5000000000).spool.bare = some 7)) ∧
    ((1 ≤ bare9.declared ∧ bare9.declared ≤ 4096 ∧ bare9.data.length ≤ bare9.declared ∧ (∀ n, title9.total = some n → title9.received + bare9.declared ≤ n ∧ (bare9.last = true → title9.received + bare9.declared = n)))) ∧
    ((((title9.received + bare9.declared + 65535) / 65536 - title9.blocks.length) ≤ (isHeld true 5000000000).pool.free.length ∧ spoolHolding (isHeld true 5000000000).spool + ((title9.received + bare9.declared + 65535) / 65536 - title9.blocks.length) ≤ (isHeld true 5000000000).pool.spoolLimit)) ∧
    title9.blocks.length = (title9.received + 65535) / 65536 ∧ (isHeld true 5000000000).spool.held = true :=
    ⟨(by decide +kernel), otherTakes_of (by decide +kernel), (by decide +kernel), (by decide +kernel), (by decide +kernel),
    (by decide +kernel), (by decide +kernel), (by decide +kernel), (by decide +kernel), (by decide +kernel),
    .inr (by decide +kernel), (by simp [title9, bare9]), (by decide +kernel)⟩
theorem witness_AChunkOpensAndCollects_11 : (isHeld false 810000001).platform.state = .active ∧
    OtherTakes .radio .chunkBegin bareMsg readChunkBegin bare9 (isHeld false 810000001) ∧
    (isHeld false 810000001).spool.assembly = none ∧ (isHeld false 810000001).platform.sleepPending = none ∧ bare9.upper = 0 ∧
    bare9.crcPresent = false ∧ 7 < 8 ∧ (isHeld false 810000001).spool.titles.length = 8 ∧
    titleAt 7 (isHeld false 810000001) = some title9 ∧ title9.state = .receiving ∧
    (((bare9.form = 2 ∧ bare9.title = title9.id ∧ title9.id ≠ 0 ∧ (∀ j, j < 7 → ∀ y, titleAt j (isHeld false 810000001) = some y → y.id ≠ title9.id)) ∧ bare9.offset = title9.received) ∨ (bare9.form = 3 ∧ (isHeld false 810000001).spool.bare = some 7)) ∧
    ((1 ≤ bare9.declared ∧ bare9.declared ≤ 4096 ∧ bare9.data.length ≤ bare9.declared ∧ (∀ n, title9.total = some n → title9.received + bare9.declared ≤ n ∧ (bare9.last = true → title9.received + bare9.declared = n)))) ∧
    ((((title9.received + bare9.declared + 65535) / 65536 - title9.blocks.length) ≤ (isHeld false 810000001).pool.free.length ∧ spoolHolding (isHeld false 810000001).spool + ((title9.received + bare9.declared + 65535) / 65536 - title9.blocks.length) ≤ (isHeld false 810000001).pool.spoolLimit)) ∧
    title9.blocks.length = (title9.received + 65535) / 65536 ∧ (isHeld false 810000001).spool.held = false ∧
    available (isHeld false 810000001).charge - ((bare9.declared * (isHeld false 810000001).charge.params.perKib + 1023) / 1024) < floorRadio (isHeld false 810000001).charge :=
    ⟨(by decide +kernel), otherTakes_of (by decide +kernel), (by decide +kernel), (by decide +kernel), (by decide +kernel),
    (by decide +kernel), (by decide +kernel), (by decide +kernel), (by decide +kernel), (by decide +kernel),
    .inr (by decide +kernel), (by simp [title9, bare9]), (by decide +kernel)⟩
theorem witness_AChunkOpensAndCollects_12 : receiving.platform.state = .active ∧
    OtherTakes .radio .chunkBegin bareMsg readChunkBegin bare9 receiving ∧ receiving.spool.assembly = none ∧
    receiving.platform.sleepPending = none ∧ bare9.upper = 0 ∧ bare9.crcPresent = false ∧ bare9.form = 3 ∧
    receiving.spool.bare = none := ⟨(by decide +kernel), otherTakes_of (by decide +kernel), (by decide +kernel)⟩
def q918 : Msg := mkMsg [0x80, 0x91, 0xB7, 0x36, 0, 0, 0, 0]
def q917 : Msg := mkMsg [0x7F, 0x91, 0xB7, 0x36, 0, 0, 0, 0]
theorem witness_AChunkOpensAndCollects_13 : (isHeld true 5000000000).platform.state = .active ∧
    MainTakes .chargeSet q918 readCharge 918000000 (isHeld true 5000000000) ∧ (isHeld true 5000000000).spool.held = true ∧
    (isHeld true 5000000000).charge.level = 0 ∧
    rawIndex { (isHeld true 5000000000).charge with q := min 918000000 ((isHeld true 5000000000).charge.params.capacity * 3600000) } = 0 ∧
    (((floorRadio { (isHeld true 5000000000).charge with q := min 918000000 ((isHeld true 5000000000).charge.params.capacity * 3600000) } + hysteresisOf { (isHeld true 5000000000).charge with q := min 918000000 ((isHeld true 5000000000).charge.params.capacity * 3600000) } : Nat) : Int) ≤ ({ (isHeld true 5000000000).charge with q := min 918000000 ((isHeld true 5000000000).charge.params.capacity * 3600000) } : Charge).q - reserved { (isHeld true 5000000000).charge with q := min 918000000 ((isHeld true 5000000000).charge.params.capacity * 3600000) }) :=
    ⟨(by decide +kernel), mainTakes_of (by decide +kernel), (by decide +kernel)⟩
theorem witness_AChunkOpensAndCollects_14 : (isHeld true 5000000000).platform.state = .active ∧
    MainTakes .chargeSet q917 readCharge 917999999 (isHeld true 5000000000) ∧ (isHeld true 5000000000).spool.held = true ∧
    (isHeld true 5000000000).charge.level = 0 ∧
    rawIndex { (isHeld true 5000000000).charge with q := min 917999999 ((isHeld true 5000000000).charge.params.capacity * 3600000) } = 0 ∧
    (¬ (((floorRadio { (isHeld true 5000000000).charge with q := min 917999999 ((isHeld true 5000000000).charge.params.capacity * 3600000) } + hysteresisOf { (isHeld true 5000000000).charge with q := min 917999999 ((isHeld true 5000000000).charge.params.capacity * 3600000) } : Nat) : Int) ≤ ({ (isHeld true 5000000000).charge with q := min 917999999 ((isHeld true 5000000000).charge.params.capacity * 3600000) } : Charge).q - reserved { (isHeld true 5000000000).charge with q := min 917999999 ((isHeld true 5000000000).charge.params.capacity * 3600000) })) :=
    ⟨(by decide +kernel), mainTakes_of (by decide +kernel), (by decide +kernel)⟩
def sized (n : Nat) : Assembly := { openChunk with declared := n, collected := n - 3 }
def unsized : Title := { title5 with total := none }
def ended (n : Nat) : Assembly := { sized n with last := true }
def crcTitle : Title := { title5 with crc := some 9 }
theorem witness_AChunkEndsWithItsLastByte_1 : (withTitle unsized (some (sized 512)) receiving).platform.state = .active ∧
    OtherTakes .radio .chunkMore (mkMsg [1, 2, 3]) readChunkMore [1, 2, 3] (withTitle unsized (some (sized 512)) receiving) ∧
    (withTitle unsized (some (sized 512)) receiving).spool.assembly = some (sized 512) ∧
    titleAt (sized 512).entry (withTitle unsized (some (sized 512)) receiving) = some unsized ∧
    (sized 512).collected + [1#8, 2#8, 3#8].length = (sized 512).declared ∧ unsized.state = .receiving ∧
    (withTitle unsized (some (sized 512)) receiving).spool.held = false ∧
    (withTitle unsized (some (sized 512)) receiving).charge.chunk = some (sized 512).cost ∧
    nextLevel { (withTitle unsized (some (sized 512)) receiving).charge with chunk := none } = (withTitle unsized (some (sized 512)) receiving).charge.level ∧
    (¬ ((sized 512).last = true ∨ unsized.total = some (unsized.received + (sized 512).declared))) :=
    ⟨(by decide +kernel), otherTakes_of (by decide +kernel), (by decide +kernel)⟩
theorem witness_AChunkEndsWithItsLastByte_2 : (withTitle unsized (some (sized 513)) receiving).platform.state = .active ∧
    OtherTakes .radio .chunkMore (mkMsg [1, 2, 3]) readChunkMore [1, 2, 3] (withTitle unsized (some (sized 513)) receiving) ∧
    (withTitle unsized (some (sized 513)) receiving).spool.assembly = some (sized 513) ∧
    titleAt (sized 513).entry (withTitle unsized (some (sized 513)) receiving) = some unsized ∧
    (sized 513).collected + [1#8, 2#8, 3#8].length = (sized 513).declared ∧ unsized.state = .receiving ∧
    (withTitle unsized (some (sized 513)) receiving).spool.held = false ∧
    (withTitle unsized (some (sized 513)) receiving).charge.chunk = some (sized 513).cost ∧
    nextLevel { (withTitle unsized (some (sized 513)) receiving).charge with chunk := none } = (withTitle unsized (some (sized 513)) receiving).charge.level ∧
    (¬ ((sized 513).last = true ∨ unsized.total = some (unsized.received + (sized 513).declared))) :=
    ⟨(by decide +kernel), otherTakes_of (by decide +kernel), (by decide +kernel)⟩
theorem witness_AChunkEndsWithItsLastByte_3 : (withTitle unsized (some (sized 2048)) receiving).platform.state = .active ∧
    OtherTakes .radio .chunkMore (mkMsg [1, 2, 3]) readChunkMore [1, 2, 3] (withTitle unsized (some (sized 2048)) receiving) ∧
    (withTitle unsized (some (sized 2048)) receiving).spool.assembly = some (sized 2048) ∧
    titleAt (sized 2048).entry (withTitle unsized (some (sized 2048)) receiving) = some unsized ∧
    (sized 2048).collected + [1#8, 2#8, 3#8].length = (sized 2048).declared ∧ unsized.state = .receiving ∧
    (withTitle unsized (some (sized 2048)) receiving).spool.held = false ∧
    (withTitle unsized (some (sized 2048)) receiving).charge.chunk = some (sized 2048).cost ∧
    nextLevel { (withTitle unsized (some (sized 2048)) receiving).charge with chunk := none } = (withTitle unsized (some (sized 2048)) receiving).charge.level ∧
    (¬ ((sized 2048).last = true ∨ unsized.total = some (unsized.received + (sized 2048).declared))) :=
    ⟨(by decide +kernel), otherTakes_of (by decide +kernel), (by decide +kernel)⟩
theorem witness_AChunkEndsWithItsLastByte_4 : (withTitle unsized (some (sized 2049)) receiving).platform.state = .active ∧
    OtherTakes .radio .chunkMore (mkMsg [1, 2, 3]) readChunkMore [1, 2, 3] (withTitle unsized (some (sized 2049)) receiving) ∧
    (withTitle unsized (some (sized 2049)) receiving).spool.assembly = some (sized 2049) ∧
    titleAt (sized 2049).entry (withTitle unsized (some (sized 2049)) receiving) = some unsized ∧
    (sized 2049).collected + [1#8, 2#8, 3#8].length = (sized 2049).declared ∧ unsized.state = .receiving ∧
    (withTitle unsized (some (sized 2049)) receiving).spool.held = false ∧
    (withTitle unsized (some (sized 2049)) receiving).charge.chunk = some (sized 2049).cost ∧
    nextLevel { (withTitle unsized (some (sized 2049)) receiving).charge with chunk := none } = (withTitle unsized (some (sized 2049)) receiving).charge.level ∧
    (¬ ((sized 2049).last = true ∨ unsized.total = some (unsized.received + (sized 2049).declared))) :=
    ⟨(by decide +kernel), otherTakes_of (by decide +kernel), (by decide +kernel)⟩
theorem witness_AChunkEndsWithItsLastByte_5 : (withTitle crcTitle (some (sized 600)) receiving).platform.state = .active ∧
    OtherTakes .radio .chunkMore (mkMsg [1, 2, 3]) readChunkMore [1, 2, 3] (withTitle crcTitle (some (sized 600)) receiving) ∧
    (withTitle crcTitle (some (sized 600)) receiving).spool.assembly = some (sized 600) ∧
    titleAt (sized 600).entry (withTitle crcTitle (some (sized 600)) receiving) = some crcTitle ∧
    (sized 600).collected + [1#8, 2#8, 3#8].length = (sized 600).declared ∧ crcTitle.state = .receiving ∧
    (withTitle crcTitle (some (sized 600)) receiving).spool.held = false ∧
    (withTitle crcTitle (some (sized 600)) receiving).charge.chunk = some (sized 600).cost ∧
    nextLevel { (withTitle crcTitle (some (sized 600)) receiving).charge with chunk := none } = (withTitle crcTitle (some (sized 600)) receiving).charge.level ∧
    (((sized 600).last = true ∨ crcTitle.total = some (crcTitle.received + (sized 600).declared))) ∧
    crcTitle.crc.isSome = true := ⟨(by decide +kernel), otherTakes_of (by decide +kernel), (by decide +kernel)⟩
theorem witness_AChunkEndsWithItsLastByte_6 : (withTitle unsized (some (ended 4096)) receiving).platform.state = .active ∧
    OtherTakes .radio .chunkMore (mkMsg [1, 2, 3]) readChunkMore [1, 2, 3] (withTitle unsized (some (ended 4096)) receiving) ∧
    (withTitle unsized (some (ended 4096)) receiving).spool.assembly = some (ended 4096) ∧
    titleAt (ended 4096).entry (withTitle unsized (some (ended 4096)) receiving) = some unsized ∧
    (ended 4096).collected + [1#8, 2#8, 3#8].length = (ended 4096).declared ∧ unsized.state = .receiving ∧
    (withTitle unsized (some (ended 4096)) receiving).spool.held = false ∧
    (withTitle unsized (some (ended 4096)) receiving).charge.chunk = some (ended 4096).cost ∧
    nextLevel { (withTitle unsized (some (ended 4096)) receiving).charge with chunk := none } = (withTitle unsized (some (ended 4096)) receiving).charge.level ∧
    (((ended 4096).last = true ∨ unsized.total = some (unsized.received + (ended 4096).declared))) ∧ unsized.crc = none ∧
    (withTitle unsized (some (ended 4096)) receiving).spool.titleWake = false :=
    ⟨(by decide +kernel), otherTakes_of (by decide +kernel), (by decide +kernel)⟩
theorem witness_AChunkEndsWithItsLastByte_7 : receiving.platform.state = .active ∧
    OtherTakes .radio .chunkMore (mkMsg [1]) readChunkMore [1] receiving ∧ receiving.spool.assembly = none :=
    ⟨(by decide +kernel), otherTakes_of (by decide +kernel), (by decide +kernel)⟩
/-- A title of two bytes, both FFh. -/
def checked (crc : Word32) : Title := { title5 with state := .verifying, crc := some crc, received := 2 }
def verifies (crc : Word32) : State :=
  let s := withTitle (checked crc) none receiving
  { s with spool := { s.spool with verifying := [7] } }
def goodCrc : Word32 := crc32 [0xFF, 0xFF]
theorem witness_VerificationAndAgingEndTheirWork_1 : (verifies goodCrc).platform.state = .active ∧
    (verifies goodCrc).spool.verifying = 7 :: [] ∧ titleAt 7 (verifies goodCrc) = some (checked goodCrc) ∧
    (verifies goodCrc).spool.titleWake = false ∧
    (checked goodCrc).crc = some (crc32 ((List.range (checked goodCrc).received).map (fun j => ownerByte (verifies goodCrc).dram (checked goodCrc).blocks j))) :=
    (by decide +kernel)
theorem witness_VerificationAndAgingEndTheirWork_2 : (verifies 0).platform.state = .active ∧
    (verifies 0).spool.verifying = 7 :: [] ∧ titleAt 7 (verifies 0) = some (checked 0) ∧
    (verifies 0).spool.titleWake = false ∧
    (checked 0).crc ≠ some (crc32 ((List.range (checked 0).received).map (fun j => ownerByte (verifies 0).dram (checked 0).blocks j))) :=
    (by decide +kernel)
/-- One byte more than a block is received, two blocks are held. -/
def aged (n : Nat) : State := withTitle { title5 with received := n, total := none, blocks := [24, 1023] } (some openChunk)
  { receiving with pool := { receiving.pool with free := [] } }
theorem witness_VerificationAndAgingEndTheirWork_3 : (aged 65536).platform.state = .active ∧
    (aged 65536).spool.assembly = some openChunk ∧
    titleAt openChunk.entry (aged 65536) = some { title5 with received := 65536, total := none, blocks := [24, 1023] } ∧
    (aged 65536).charge.chunk = some openChunk.cost ∧ (aged 65536).spool.held = false ∧
    nextLevel { (aged 65536).charge with chunk := none } = (aged 65536).charge.level := (by decide +kernel)
theorem witness_VerificationAndAgingEndTheirWork_4 : (aged 65537).platform.state = .active ∧
    (aged 65537).spool.assembly = some openChunk ∧
    titleAt openChunk.entry (aged 65537) = some { title5 with received := 65537, total := none, blocks := [24, 1023] } ∧
    (aged 65537).charge.chunk = some openChunk.cost ∧ (aged 65537).spool.held = false ∧
    nextLevel { (aged 65537).charge with chunk := none } = (aged 65537).charge.level := (by decide +kernel)
def stored : State := withTitle { title5 with received := 1020 } none receiving
def stored5 : Title := { title5 with received := 1020 }
def id5 : Msg := mkMsg [5, 0, 0, 0]
def id6 : Msg := mkMsg [6, 0, 0, 0]
theorem witness_TitleRequestsReadReleaseAndReport_1 : 7 < 8 ∧ titleAt 7 stored = some stored5 ∧ stored5.id = 5 ∧ 5#32 ≠ 0#32 ∧
    (∀ j, j < 7 → ∀ y, titleAt j stored = some y → y.id ≠ 5) ∧
    MainTakes .titleRead (mkMsg [5, 0, 0, 0, 0, 0, 0, 0, 0xFC, 3]) readTitleRead ⟨5, 0, 1020⟩ stored ∧
    stored.platform.powerUp = none ∧ 1 ≤ 1020 ∧ 1020 ≤ 1020 ∧ 0 + 1020 ≤ stored5.received := ⟨(by decide +kernel),
    (by decide +kernel), (by decide +kernel), (by decide +kernel), titles_below (by decide +kernel),
    mainTakes_of (by decide +kernel), (by decide +kernel)⟩
theorem witness_TitleRequestsReadReleaseAndReport_2 : 7 < 8 ∧ titleAt 7 stored = some stored5 ∧ stored5.id = 5 ∧ 5#32 ≠ 0#32 ∧
    (∀ j, j < 7 → ∀ y, titleAt j stored = some y → y.id ≠ 5) ∧
    MainTakes .titleRead (mkMsg [5, 0, 0, 0, 0xFB, 3, 0, 0, 1, 0]) readTitleRead ⟨5, 1019, 1⟩ stored ∧
    stored.platform.powerUp = none ∧ 1 ≤ 1 ∧ 1 ≤ 1020 ∧ 1019 + 1 ≤ stored5.received := ⟨(by decide +kernel),
    (by decide +kernel), (by decide +kernel), (by decide +kernel), titles_below (by decide +kernel),
    mainTakes_of (by decide +kernel), (by decide +kernel)⟩
theorem witness_TitleRequestsReadReleaseAndReport_3 : 7 < 8 ∧ titleAt 7 stored = some stored5 ∧ stored5.id = 5 ∧ 5#32 ≠ 0#32 ∧
    (∀ j, j < 7 → ∀ y, titleAt j stored = some y → y.id ≠ 5) ∧ MainTakes .titleRelease id5 readWord 5 stored ∧
    (∀ a, stored.spool.assembly = some a → a.entry ≠ 7) := ⟨(by decide +kernel), (by decide +kernel), (by decide +kernel),
    (by decide +kernel), titles_below (by decide +kernel), mainTakes_of (by decide +kernel), some_all (by decide +kernel)⟩
theorem witness_TitleRequestsReadReleaseAndReport_4 : 7 < 8 ∧ titleAt 7 stored = some stored5 ∧ stored5.id = 5 ∧ 5#32 ≠ 0#32 ∧
    (∀ j, j < 7 → ∀ y, titleAt j stored = some y → y.id ≠ 5) ∧ OtherTakes .radio .titleQuery id5 readWord 5 stored :=
    ⟨(by decide +kernel), (by decide +kernel), (by decide +kernel), (by decide +kernel), titles_below (by decide +kernel),
    otherTakes_of (by decide +kernel)⟩
theorem witness_TitleRequestsReadReleaseAndReport_5 : MainTakes .titleRelease id6 readWord 6 stored ∧ 6#32 ≠ 0#32 ∧
    (∀ j, j < 8 → ∀ y, titleAt j stored = some y → y.id ≠ 6) :=
    ⟨mainTakes_of (by decide +kernel), (by decide +kernel), titles_below (by decide +kernel)⟩
theorem witness_TitleRequestsReadReleaseAndReport_6 : MainTakes .titleQuery id6 readWord 6 stored ∧ 6#32 ≠ 0#32 ∧
    (∀ j, j < 8 → ∀ y, titleAt j stored = some y → y.id ≠ 6) :=
    ⟨mainTakes_of (by decide +kernel), (by decide +kernel), titles_below (by decide +kernel)⟩
theorem witness_TitleRequestsReadReleaseAndReport_7 : MainTakes .titleRelease (mkMsg [0, 0, 0, 0]) readWord 0 stored ∧
    0#32 = 0#32 := ⟨mainTakes_of (by decide +kernel), (by decide +kernel)⟩
theorem witness_TitleRequestsReadReleaseAndReport_8 : MainTakes .spoolStatsClear m0 readNothing () stored :=
    mainTakes_of (by decide +kernel)

/-! ### Front light -/

def sensed : State := { stocked with monitor := { stocked.monitor with amb := { stocked.monitor.amb with last := some 500 } } }
def lightMsg : Msg := mkMsg [255, 255, 255, 0, 0]
def autoMsg : Msg := mkMsg [0, 0, 0, 0, 2]
theorem witness_LightRequestsSetTheLight_1 : MainTakes .lightSet lightMsg readLightSet ⟨65535, 255, false⟩ stocked ∧
    255 ≤ 255 := ⟨mainTakes_of (by decide +kernel), (by decide +kernel)⟩
theorem witness_LightRequestsSetTheLight_2 : MainTakes .lightSet autoMsg readLightSet ⟨0, 0, true⟩ sensed ∧ 0 ≤ 255 ∧
    sensed.light.auto = false ∧ sensed.monitor.amb.last = some 500 := ⟨mainTakes_of (by decide +kernel), (by decide +kernel)⟩
theorem witness_LightRequestsSetTheLight_3 :
    MainTakes .lightSet (mkMsg [0, 0, 0, 1, 0]) readLightSet ⟨0, 256, false⟩ stocked ∧
    255 < (⟨0, 256, false⟩ : LightSetArgs).warmth := ⟨mainTakes_of (by decide +kernel), (by decide +kernel)⟩
def steps : List Nat := 0 :: List.replicate 32 4095
def stepsMsg : Msg := mkMsg ([0, 0] ++ (List.replicate 32 [0xFF#8, 0x0F#8]).flatten)
def lifted : List Nat := List.replicate 33 1
def liftedMsg : Msg := mkMsg (List.replicate 33 [0x01#8, 0x00#8]).flatten
theorem witness_LightRequestsSetTheLight_4 : MainTakes .lightCurve stepsMsg (readWords 33) steps stocked ∧
    ((∀ v ∈ steps, v ≤ 4095) ∧ steps.head? = some 0 ∧ steps.Pairwise (· ≤ ·)) :=
    ⟨mainTakes_of (by decide +kernel), (by decide +kernel)⟩
theorem witness_LightRequestsSetTheLight_5 : MainTakes .lightCurve liftedMsg (readWords 33) lifted stocked ∧
    (¬ ((∀ v ∈ lifted, v ≤ 4095) ∧ lifted.head? = some 0 ∧ lifted.Pairwise (· ≤ ·))) :=
    ⟨mainTakes_of (by decide +kernel), (by decide +kernel)⟩
def points : List Nat := [0, 0, 5, 1023, 1023]
def pointsMsg : Msg := mkMsg [0, 0, 0, 0, 5, 0, 0xFF, 3, 0xFF, 3]
def highPoints : List Nat := [0, 0, 5, 1023, 1024]
def highPointsMsg : Msg := mkMsg [0, 0, 0, 0, 5, 0, 0xFF, 3, 0, 4]
theorem witness_LightRequestsSetTheLight_6 : MainTakes .lightAutoPoints pointsMsg (readWords 5) points stocked ∧
    ((∀ v ∈ points, v ≤ 1023) ∧ points.Pairwise (· ≤ ·)) := ⟨mainTakes_of (by decide +kernel), (by decide +kernel)⟩
theorem witness_LightRequestsSetTheLight_7 : MainTakes .lightAutoPoints highPointsMsg (readWords 5) highPoints stocked ∧
    (¬ ((∀ v ∈ highPoints, v ≤ 1023) ∧ highPoints.Pairwise (· ≤ ·))) :=
    ⟨mainTakes_of (by decide +kernel), (by decide +kernel)⟩
def lit (level warmth ramp : Nat) : State := { stocked with
  light := { stocked.light with level := level, warmth := warmth, rampLevel := ramp, rampWarmth := 3 } }
def rampOf (l : Light) : Nat :=
  let goal := min (if l.auto = true then l.autoLevel else l.level) (min l.chargeCap l.thermalCap)
  if l.rampLevel ≤ goal then min (l.rampLevel + l.rampStep) goal else max (l.rampLevel - l.rampStep) goal
def rampWarmthOf (l : Light) : Nat :=
  if l.rampWarmth ≤ l.warmth then min (l.rampWarmth + 4) l.warmth else max (l.rampWarmth - 4) l.warmth
theorem witness_RampAndOutputsFollowTheLight_1 : (lit 1023 255 1015).platform.state = .active ∧
    (lit 1023 255 1015).light.rampTimer.isSome = true ∧
    (rampOf (lit 1023 255 1015).light ≠ (lit 1023 255 1015).light.rampLevel ∨ rampWarmthOf (lit 1023 255 1015).light ≠ (lit 1023 255 1015).light.rampWarmth) :=
    (by decide +kernel)
theorem witness_RampAndOutputsFollowTheLight_2 : (lit 0 0 15).platform.state = .active ∧
    (lit 0 0 15).light.rampTimer.isSome = true ∧
    (rampOf (lit 0 0 15).light ≠ (lit 0 0 15).light.rampLevel ∨ rampWarmthOf (lit 0 0 15).light ≠ (lit 0 0 15).light.rampWarmth) :=
    (by decide +kernel)
theorem witness_RampAndOutputsFollowTheLight_3 : (lit 640 3 640).platform.state = .active ∧
    (lit 640 3 640).light.rampTimer.isSome = true ∧ rampOf (lit 640 3 640).light = (lit 640 3 640).light.rampLevel ∧
    rampWarmthOf (lit 640 3 640).light = (lit 640 3 640).light.rampWarmth := (by decide +kernel)

/-! ### Monitor and charge account -/

def test5 : Msg := mkMsg [5, 0x30, 0x75, 0, 0]
def test5High : Msg := mkMsg [5, 0x31, 0x75, 0, 0]
theorem witness_MonitorRequestsAndDebounce_1 : channelOf 5 = some .panv ∧
    MainTakes .monitorTest test5 readMonitorTest ⟨5, 30000⟩ stocked ∧
    ((channelRange .panv).1 ≤ 30000 ∧ 30000 ≤ (channelRange .panv).2) :=
    ⟨(by decide +kernel), mainTakes_of (by decide +kernel), (by decide +kernel)⟩
theorem witness_MonitorRequestsAndDebounce_2 : channelOf 5 = some .panv ∧
    MainTakes .monitorTest test5High readMonitorTest ⟨5, 30001⟩ stocked ∧
    (30001 < (channelRange .panv).1 ∨ (channelRange .panv).2 < 30001) :=
    ⟨(by decide +kernel), mainTakes_of (by decide +kernel), (by decide +kernel)⟩
def config0 : Msg := mkMsg [0, 0x88, 0x13, 0, 0, 0, 0, 0, 0, 0, 0, 0x88, 0x13, 0, 0]
def config0High : Msg := mkMsg [0, 0x88, 0x13, 0, 0, 0, 0, 0, 0, 0, 0, 0x89, 0x13, 0, 0]
theorem witness_MonitorRequestsAndDebounce_3 : channelOf 0 = some .batv ∧
    MainTakes .monitorConfig config0 readMonitorConfig ⟨0, 5000, 0, 0, 5000⟩ stocked ∧ Channel.batv ≠ .amb ∧
    (channelRange .batv).1 ≤ 0 ∧ (0 : Int) ≤ 5000 ∧ 5000 ≤ (channelRange .batv).2 :=
    ⟨(by decide +kernel), mainTakes_of (by decide +kernel), (by decide +kernel)⟩
theorem witness_MonitorRequestsAndDebounce_4 : channelOf 0 = some .batv ∧
    MainTakes .monitorConfig config0High readMonitorConfig ⟨0, 5000, 0, 0, 5001⟩ stocked ∧ Channel.batv ≠ .amb ∧
    (¬ ((channelRange .batv).1 ≤ 0 ∧ (0 : Int) ≤ 5001 ∧ 5001 ≤ (channelRange .batv).2)) :=
    ⟨(by decide +kernel), mainTakes_of (by decide +kernel), (by decide +kernel)⟩
def sampled (fault : Bool) (run : Nat) : ChannelState := { stocked.monitor.batv with fault := fault, run := run }
theorem witness_MonitorRequestsAndDebounce_5 : Channel.batv ≠ .amb ∧
    ((3350 < (sampled false 2).low ∨ (sampled false 2).high < 3350) ↔ (sampled false 2).fault = true) := (by decide +kernel)
theorem witness_MonitorRequestsAndDebounce_6 : Channel.batv ≠ .amb ∧
    (¬ ((3349 < (sampled false 1).low ∨ (sampled false 1).high < 3349) ↔ (sampled false 1).fault = true)) ∧
    (sampled false 1).run + 1 < 3 := (by decide +kernel)
theorem witness_MonitorRequestsAndDebounce_7 : Channel.batv ≠ .amb ∧
    (¬ ((5000 < (sampled true 2).low ∨ (sampled true 2).high < 5000) ↔ (sampled true 2).fault = true)) ∧
    3 ≤ (sampled true 2).run + 1 := (by decide +kernel)
def calm : Readings := ⟨3162, 2000, 1400, 1400, 100, 2048⟩
/-- A reader whose six channels stand within their limits at these readings. -/
theorem calm_is_steady (i : Nat) (s : State) (h : s.monitor = stocked.monitor)
    (l : nextLevel (integrated (convert .bati s.monitor.bati calm.bati.toNat) i s.charge) = s.charge.level)
    (g : s.spool.held = false) (f : s.light.autoFirst = false) : SteadyReadings calm i s :=
  ⟨h ▸ steady_of (by decide +kernel), h ▸ steady_of (by decide +kernel), h ▸ steady_of (by decide +kernel),
   h ▸ steady_of (by decide +kernel), h ▸ steady_of (by decide +kernel), h ▸ steady_of (by decide +kernel), l, g, f⟩
theorem witness_ASteadySequenceConvertsAndIntegrates_1 : stocked.platform.state = .active ∧ stocked.platform.powerUp = none ∧
    SteadyReadings calm stocked.monitor.period stocked :=
    ⟨(by decide +kernel), (by decide +kernel), calm_is_steady _ _ rfl (by decide +kernel) rfl rfl⟩
/-- The calm reader with one channel in this fault state and run, its light at this ramp level. -/
def faulty (c : Channel) (fault : Bool) (run ramp : Nat) (s : State) : State := { s with
  monitor := s.monitor.set c { s.monitor.get c with fault := fault, run := run }
  light := { s.light with level := 900, rampLevel := ramp } }
def calmBut (c : Channel) (raw : BitVec 12) : Readings :=
  match c with
  | .batv => { calm with batv := raw } | .bati => { calm with bati := raw } | .ptemp => { calm with ptemp := raw }
  | .dtemp => { calm with dtemp := raw } | .amb => { calm with amb := raw } | .panv => { calm with panv := raw }
theorem othersSteady_of {c : Channel} {r : Readings} {s : State}
    (h : ∀ d ∈ allChannels, d ≠ c → (s.monitor.get d).pendingTest = none ∧ (s.monitor.get d).fault = false
      ∧ (s.monitor.get d).run = 0 ∧ (d ≠ .amb → (s.monitor.get d).low ≤ convert d (s.monitor.get d) (readingOf r d).toNat)
      ∧ (d ≠ .amb → convert d (s.monitor.get d) (readingOf r d).toNat ≤ (s.monitor.get d).high))
    (l : nextLevel (integrated (convert .bati s.monitor.bati r.bati.toNat) s.monitor.period s.charge) = s.charge.level)
    (g : s.spool.held = false ∧ s.light.autoFirst = false) : OthersSteady c r s :=
  ⟨fun d hd => steady_of (h d (by cases d <;> decide) hd), l, g.1, g.2⟩
theorem witness_MonitorRequestsAndDebounce_8 : (faulty .bati false 2 0 stocked).platform.powerUp = none ∧
    Channel.bati ≠ .amb ∧ OthersSteady .bati (calmBut .bati 0) (faulty .bati false 2 0 stocked) ∧
    ((faulty .bati false 2 0 stocked).monitor.get .bati).pendingTest = none ∧
    ((convert .bati ((faulty .bati false 2 0 stocked).monitor.get .bati) (readingOf (calmBut .bati 0) .bati).toNat < ((faulty .bati false 2 0 stocked).monitor.get .bati).low ∨ ((faulty .bati false 2 0 stocked).monitor.get .bati).high < convert .bati ((faulty .bati false 2 0 stocked).monitor.get .bati) (readingOf (calmBut .bati 0) .bati).toNat) ↔ ((faulty .bati false 2 0 stocked).monitor.get .bati).fault = false) ∧
    debounce .bati ≤ ((faulty .bati false 2 0 stocked).monitor.get .bati).run + 1 ∧
    (faulty .bati false 2 0 stocked).platform.state = .active ∧ (Channel.bati = .bati ∨ Channel.bati = .ptemp) :=
    ⟨(by decide +kernel), (by decide +kernel), othersSteady_of (by decide +kernel) (by decide +kernel) (by decide +kernel),
    (by decide +kernel)⟩
theorem witness_MonitorRequestsAndDebounce_9 : (faulty .ptemp true 1 0 stocked).platform.powerUp = none ∧
    Channel.ptemp ≠ .amb ∧ OthersSteady .ptemp (calmBut .ptemp 1400) (faulty .ptemp true 1 0 stocked) ∧
    ((faulty .ptemp true 1 0 stocked).monitor.get .ptemp).pendingTest = none ∧
    ((convert .ptemp ((faulty .ptemp true 1 0 stocked).monitor.get .ptemp) (readingOf (calmBut .ptemp 1400) .ptemp).toNat < ((faulty .ptemp true 1 0 stocked).monitor.get .ptemp).low ∨ ((faulty .ptemp true 1 0 stocked).monitor.get .ptemp).high < convert .ptemp ((faulty .ptemp true 1 0 stocked).monitor.get .ptemp) (readingOf (calmBut .ptemp 1400) .ptemp).toNat) ↔ ((faulty .ptemp true 1 0 stocked).monitor.get .ptemp).fault = false) ∧
    debounce .ptemp ≤ ((faulty .ptemp true 1 0 stocked).monitor.get .ptemp).run + 1 ∧
    (faulty .ptemp true 1 0 stocked).platform.state = .active ∧ (Channel.ptemp = .bati ∨ Channel.ptemp = .ptemp) :=
    ⟨(by decide +kernel), (by decide +kernel), othersSteady_of (by decide +kernel) (by decide +kernel) (by decide +kernel),
    (by decide +kernel)⟩
theorem witness_MonitorRequestsAndDebounce_10 : (faulty .dtemp false 1 1000 stocked).platform.powerUp = none ∧
    Channel.dtemp ≠ .amb ∧ OthersSteady .dtemp (calmBut .dtemp 4095) (faulty .dtemp false 1 1000 stocked) ∧
    ((faulty .dtemp false 1 1000 stocked).monitor.get .dtemp).pendingTest = none ∧
    ((convert .dtemp ((faulty .dtemp false 1 1000 stocked).monitor.get .dtemp) (readingOf (calmBut .dtemp 4095) .dtemp).toNat < ((faulty .dtemp false 1 1000 stocked).monitor.get .dtemp).low ∨ ((faulty .dtemp false 1 1000 stocked).monitor.get .dtemp).high < convert .dtemp ((faulty .dtemp false 1 1000 stocked).monitor.get .dtemp) (readingOf (calmBut .dtemp 4095) .dtemp).toNat) ↔ ((faulty .dtemp false 1 1000 stocked).monitor.get .dtemp).fault = false) ∧
    debounce .dtemp ≤ ((faulty .dtemp false 1 1000 stocked).monitor.get .dtemp).run + 1 ∧
    (faulty .dtemp false 1 1000 stocked).platform.state = .active ∧ Channel.dtemp = .dtemp := ⟨(by decide +kernel),
    (by decide +kernel), othersSteady_of (by decide +kernel) (by decide +kernel) (by decide +kernel), (by decide +kernel)⟩
theorem witness_MonitorRequestsAndDebounce_11 : (faulty .dtemp true 1 200 stocked).platform.powerUp = none ∧
    Channel.dtemp ≠ .amb ∧ OthersSteady .dtemp (calmBut .dtemp 1400) (faulty .dtemp true 1 200 stocked) ∧
    ((faulty .dtemp true 1 200 stocked).monitor.get .dtemp).pendingTest = none ∧
    ((convert .dtemp ((faulty .dtemp true 1 200 stocked).monitor.get .dtemp) (readingOf (calmBut .dtemp 1400) .dtemp).toNat < ((faulty .dtemp true 1 200 stocked).monitor.get .dtemp).low ∨ ((faulty .dtemp true 1 200 stocked).monitor.get .dtemp).high < convert .dtemp ((faulty .dtemp true 1 200 stocked).monitor.get .dtemp) (readingOf (calmBut .dtemp 1400) .dtemp).toNat) ↔ ((faulty .dtemp true 1 200 stocked).monitor.get .dtemp).fault = false) ∧
    debounce .dtemp ≤ ((faulty .dtemp true 1 200 stocked).monitor.get .dtemp).run + 1 ∧
    (faulty .dtemp true 1 200 stocked).platform.state = .active ∧ Channel.dtemp = .dtemp := ⟨(by decide +kernel),
    (by decide +kernel), othersSteady_of (by decide +kernel) (by decide +kernel) (by decide +kernel), (by decide +kernel)⟩
theorem witness_MonitorRequestsAndDebounce_12 : (faulty .panv false 0 0 valid).platform.powerUp = none ∧ Channel.panv ≠ .amb ∧
    OthersSteady .panv (calmBut .panv 0) (faulty .panv false 0 0 valid) ∧
    ((faulty .panv false 0 0 valid).monitor.get .panv).pendingTest = none ∧
    ((convert .panv ((faulty .panv false 0 0 valid).monitor.get .panv) (readingOf (calmBut .panv 0) .panv).toNat < ((faulty .panv false 0 0 valid).monitor.get .panv).low ∨ ((faulty .panv false 0 0 valid).monitor.get .panv).high < convert .panv ((faulty .panv false 0 0 valid).monitor.get .panv) (readingOf (calmBut .panv 0) .panv).toNat) ↔ ((faulty .panv false 0 0 valid).monitor.get .panv).fault = false) ∧
    debounce .panv ≤ ((faulty .panv false 0 0 valid).monitor.get .panv).run + 1 ∧
    (faulty .panv false 0 0 valid).platform.state = .active ∧ Channel.panv = .panv ∧
    (faulty .panv false 0 0 valid).engine.queue = [] := ⟨(by decide +kernel), (by decide +kernel),
    othersSteady_of (by decide +kernel) (by decide +kernel) (by decide +kernel), (by decide +kernel)⟩
theorem witness_MonitorRequestsAndDebounce_13 : (faulty .panv true 0 0 stocked).platform.powerUp = none ∧
    Channel.panv ≠ .amb ∧ OthersSteady .panv (calmBut .panv 2048) (faulty .panv true 0 0 stocked) ∧
    ((faulty .panv true 0 0 stocked).monitor.get .panv).pendingTest = none ∧
    ((convert .panv ((faulty .panv true 0 0 stocked).monitor.get .panv) (readingOf (calmBut .panv 2048) .panv).toNat < ((faulty .panv true 0 0 stocked).monitor.get .panv).low ∨ ((faulty .panv true 0 0 stocked).monitor.get .panv).high < convert .panv ((faulty .panv true 0 0 stocked).monitor.get .panv) (readingOf (calmBut .panv 2048) .panv).toNat) ↔ ((faulty .panv true 0 0 stocked).monitor.get .panv).fault = false) ∧
    debounce .panv ≤ ((faulty .panv true 0 0 stocked).monitor.get .panv).run + 1 ∧
    (faulty .panv true 0 0 stocked).platform.state = .active ∧ Channel.panv = .panv ∧
    (faulty .panv true 0 0 stocked).engine.queue = [] := ⟨(by decide +kernel), (by decide +kernel),
    othersSteady_of (by decide +kernel) (by decide +kernel) (by decide +kernel), (by decide +kernel)⟩
theorem witness_MonitorRequestsAndDebounce_14 : (faulty .batv true 2 0 stocked).platform.powerUp = none ∧
    Channel.batv ≠ .amb ∧ OthersSteady .batv (calmBut .batv 3162) (faulty .batv true 2 0 stocked) ∧
    ((faulty .batv true 2 0 stocked).monitor.get .batv).pendingTest = none ∧
    ((convert .batv ((faulty .batv true 2 0 stocked).monitor.get .batv) (readingOf (calmBut .batv 3162) .batv).toNat < ((faulty .batv true 2 0 stocked).monitor.get .batv).low ∨ ((faulty .batv true 2 0 stocked).monitor.get .batv).high < convert .batv ((faulty .batv true 2 0 stocked).monitor.get .batv) (readingOf (calmBut .batv 3162) .batv).toNat) ↔ ((faulty .batv true 2 0 stocked).monitor.get .batv).fault = false) ∧
    debounce .batv ≤ ((faulty .batv true 2 0 stocked).monitor.get .batv).run + 1 ∧
    (faulty .batv true 2 0 stocked).platform.state = .active ∧ Channel.batv = .batv ∧
    (!((faulty .batv true 2 0 stocked).monitor.get .batv).fault) = false := ⟨(by decide +kernel), (by decide +kernel),
    othersSteady_of (by decide +kernel) (by decide +kernel) (by decide +kernel), (by decide +kernel)⟩
def drives (s : State) : State := { s with engine := { s.engine with active := [driving] } }
theorem witness_MonitorRequestsAndDebounce_15 : (faulty .batv false 2 300 (drives (radioOn valid))).platform.powerUp = none ∧
    Channel.batv ≠ .amb ∧ OthersSteady .batv (calmBut .batv 0) (faulty .batv false 2 300 (drives (radioOn valid))) ∧
    ((faulty .batv false 2 300 (drives (radioOn valid))).monitor.get .batv).pendingTest = none ∧
    ((convert .batv ((faulty .batv false 2 300 (drives (radioOn valid))).monitor.get .batv) (readingOf (calmBut .batv 0) .batv).toNat < ((faulty .batv false 2 300 (drives (radioOn valid))).monitor.get .batv).low ∨ ((faulty .batv false 2 300 (drives (radioOn valid))).monitor.get .batv).high < convert .batv ((faulty .batv false 2 300 (drives (radioOn valid))).monitor.get .batv) (readingOf (calmBut .batv 0) .batv).toNat) ↔ ((faulty .batv false 2 300 (drives (radioOn valid))).monitor.get .batv).fault = false) ∧
    debounce .batv ≤ ((faulty .batv false 2 300 (drives (radioOn valid))).monitor.get .batv).run + 1 ∧
    (faulty .batv false 2 300 (drives (radioOn valid))).platform.state = .active ∧ Channel.batv = .batv ∧
    (!((faulty .batv false 2 300 (drives (radioOn valid))).monitor.get .batv).fault) = true ∧
    (faulty .batv false 2 300 (drives (radioOn valid))).engine.queue = [] ∧
    (faulty .batv false 2 300 (drives (radioOn valid))).engine.active ≠ [] ∧
    (faulty .batv false 2 300 (drives (radioOn valid))).spool.assembly = none := ⟨(by decide +kernel), (by decide +kernel),
    othersSteady_of (by decide +kernel) (by decide +kernel) (by decide +kernel), (by decide +kernel)⟩
def goingOff (decided : Bool) : State :=
  withPlatform (fun f => { f with state := .halting, haltCause := some .restart, pageDecided := decided }) (drives stocked)
theorem witness_MonitorRequestsAndDebounce_16 : (faulty .batv false 2 0 (goingOff false)).platform.powerUp = none ∧
    Channel.batv ≠ .amb ∧ OthersSteady .batv (calmBut .batv 0) (faulty .batv false 2 0 (goingOff false)) ∧
    ((faulty .batv false 2 0 (goingOff false)).monitor.get .batv).pendingTest = none ∧
    ((convert .batv ((faulty .batv false 2 0 (goingOff false)).monitor.get .batv) (readingOf (calmBut .batv 0) .batv).toNat < ((faulty .batv false 2 0 (goingOff false)).monitor.get .batv).low ∨ ((faulty .batv false 2 0 (goingOff false)).monitor.get .batv).high < convert .batv ((faulty .batv false 2 0 (goingOff false)).monitor.get .batv) (readingOf (calmBut .batv 0) .batv).toNat) ↔ ((faulty .batv false 2 0 (goingOff false)).monitor.get .batv).fault = false) ∧
    debounce .batv ≤ ((faulty .batv false 2 0 (goingOff false)).monitor.get .batv).run + 1 ∧
    (faulty .batv false 2 0 (goingOff false)).platform.state = .halting ∧ Channel.batv = .batv ∧
    (!((faulty .batv false 2 0 (goingOff false)).monitor.get .batv).fault) = true ∧
    (faulty .batv false 2 0 (goingOff false)).engine.active ≠ [] := ⟨(by decide +kernel), (by decide +kernel),
    othersSteady_of (by decide +kernel) (by decide +kernel) (by decide +kernel), (by decide +kernel)⟩
theorem witness_MonitorRequestsAndDebounce_17 : (faulty .batv false 2 0 (goingOff true)).platform.powerUp = none ∧
    Channel.batv ≠ .amb ∧ OthersSteady .batv (calmBut .batv 0) (faulty .batv false 2 0 (goingOff true)) ∧
    ((faulty .batv false 2 0 (goingOff true)).monitor.get .batv).pendingTest = none ∧
    ((convert .batv ((faulty .batv false 2 0 (goingOff true)).monitor.get .batv) (readingOf (calmBut .batv 0) .batv).toNat < ((faulty .batv false 2 0 (goingOff true)).monitor.get .batv).low ∨ ((faulty .batv false 2 0 (goingOff true)).monitor.get .batv).high < convert .batv ((faulty .batv false 2 0 (goingOff true)).monitor.get .batv) (readingOf (calmBut .batv 0) .batv).toNat) ↔ ((faulty .batv false 2 0 (goingOff true)).monitor.get .batv).fault = false) ∧
    debounce .batv ≤ ((faulty .batv false 2 0 (goingOff true)).monitor.get .batv).run + 1 ∧
    (faulty .batv false 2 0 (goingOff true)).platform.state = .halting ∧ Channel.batv = .batv ∧
    (!((faulty .batv false 2 0 (goingOff true)).monitor.get .batv).fault) = true ∧
    (faulty .batv false 2 0 (goingOff true)).engine.active ≠ [] := ⟨(by decide +kernel), (by decide +kernel),
    othersSteady_of (by decide +kernel) (by decide +kernel) (by decide +kernel), (by decide +kernel)⟩
def chargeMsg : Msg := mkMsg [0, 0xE2, 0xDE, 0x41, 1, 0, 0, 0]
theorem witness_ChargeRequestsSetTheAccount_1 : stocked.spool.held = false ∧
    MainTakes .chargeSet chargeMsg readCharge 5400093184 stocked ∧
    nextLevel { stocked.charge with q := min 5400093184 (stocked.charge.params.capacity * 3600000) } = stocked.charge.level :=
    ⟨(by decide +kernel), mainTakes_of (by decide +kernel), (by decide +kernel)⟩
def wide : ChargeParams := { ChargeParams.reset with capacity := 6000, radio := 999, hysteresis := 200 }
def tight : ChargeParams := { ChargeParams.reset with shutdown := 31 }
def configMsg (a : ChargeParams) : Msg :=
  mkMsg ((a.capacity :: a.radio :: a.light :: a.turn :: a.shutdown :: a.hysteresis :: a.base :: a.perPixel :: a.perKib :: a.ocv)
    |>.flatMap (leBytes 2))
def lowLevel : State := { stocked with charge := { stocked.charge with level := 1 } }
theorem witness_ChargeRequestsSetTheAccount_2 : lowLevel.spool.held = false ∧
    MainTakes .chargeConfig (configMsg wide) readChargeConfig wide lowLevel ∧
    (500 ≤ wide.capacity ∧ wide.capacity ≤ 6000 ∧ 1 ≤ wide.shutdown ∧ wide.shutdown ≤ wide.turn ∧ wide.turn ≤ wide.light ∧ wide.light ≤ wide.radio ∧ wide.radio ≤ 999 ∧ wide.hysteresis ≤ 200 ∧ (∀ v ∈ wide.ocv, v ≤ 5000) ∧ wide.ocv.Pairwise (· < ·)) ∧
    nextLevel { lowLevel.charge with params := wide, q := if wide.capacity = lowLevel.charge.params.capacity then lowLevel.charge.q else lowLevel.charge.q * wide.capacity / lowLevel.charge.params.capacity } = lowLevel.charge.level :=
    ⟨(by decide +kernel), mainTakes_of (by decide +kernel), (by decide +kernel)⟩
theorem witness_ChargeRequestsSetTheAccount_3 : stocked.spool.held = false ∧
    MainTakes .chargeConfig (configMsg tight) readChargeConfig tight stocked ∧
    (¬ (500 ≤ tight.capacity ∧ tight.capacity ≤ 6000 ∧ 1 ≤ tight.shutdown ∧ tight.shutdown ≤ tight.turn ∧ tight.turn ≤ tight.light ∧ tight.light ≤ tight.radio ∧ tight.radio ≤ 999 ∧ tight.hysteresis ≤ 200 ∧ (∀ v ∈ tight.ocv, v ≤ 5000) ∧ tight.ocv.Pairwise (· < ·))) :=
    ⟨(by decide +kernel), mainTakes_of (by decide +kernel), (by decide +kernel)⟩
def rawOf (c : Charge) : Nat :=
  let floor := fun n => c.params.capacity * 3600000 * n / 1000
  let a : Int := c.q - ((c.updates.map (·.2)).sum + c.chunk.getD 0 : Nat)
  if c.q < floor c.params.shutdown then 4
  else if a < floor c.params.turn then 3
  else if a < floor c.params.light then 2
  else if a < floor c.params.radio then 1 else 0
def betterFor (c : Charge) (j : Nat) : Prop :=
  let floor := fun n => c.params.capacity * 3600000 * n / 1000
  let a : Int := c.q - ((c.updates.map (·.2)).sum + c.chunk.getD 0 : Nat)
  let h := floor c.params.hysteresis
  match j with
  | 0 => ((floor c.params.radio + h : Nat) : Int) ≤ a
  | 1 => ((floor c.params.light + h : Nat) : Int) ≤ a
  | 2 => ((floor c.params.turn + h : Nat) : Int) ≤ a
  | 3 => floor c.params.shutdown + h ≤ c.q
  | _ => False
/-- An account with so much charge, at a level index. -/
def account (q level : Nat) : Charge := { Charge.reset with q := q, level := level }
theorem witness_TheLevelIndexIsEvaluated_1 : (account 80999999 0).level ≤ rawOf (account 80999999 0) := (by decide +kernel)
theorem witness_TheLevelIndexIsEvaluated_2 : rawOf (account 540000000 4) < (account 540000000 4).level ∧
    1 < (account 540000000 4).level ∧ betterFor (account 540000000 4) 1 ∧
    (∀ i, i < 1 → ¬ betterFor (account 540000000 4) i) := ⟨(by decide +kernel), (by decide +kernel),
    (by show ((_ : Nat) : Int) ≤ _; decide +kernel),
    (by intro i h; obtain rfl : i = 0 := (by omega); show ¬ ((_ : Nat) : Int) ≤ _; decide +kernel)⟩
theorem witness_TheLevelIndexIsEvaluated_3 : rawOf (account 539999999 2) < (account 539999999 2).level ∧
    (∀ j, j < (account 539999999 2).level → ¬ betterFor (account 539999999 2) j) := ⟨(by decide +kernel),
    (by intro j h; obtain rfl | rfl : j = 0 ∨ j = 1 := (by have h' : j < 2 := h; omega); all_goals (show ¬ ((_ : Nat) : Int) ≤ _; decide +kernel))⟩
def charged (q level : Nat) : State := { stocked with charge := account q level }
theorem witness_TheLevelIndexIsEvaluated_4 : stocked.platform.state = .active ∧ stocked.spool.held = false ∧
    nextLevel stocked.charge = stocked.charge.level := (by decide +kernel)
theorem witness_TheLevelIndexIsEvaluated_5 : (charged 431999999 0).platform.state = .active ∧
    (charged 431999999 0).spool.held = false ∧ nextLevel (charged 431999999 0).charge ≠ (charged 431999999 0).charge.level ∧
    nextLevel (charged 431999999 0).charge < 4 ∧
    (charged 431999999 0).light.rampLevel ≤ min (if nextLevel (charged 431999999 0).charge ≤ 1 then 1023 else if nextLevel (charged 431999999 0).charge = 2 then 256 else 0) (charged 431999999 0).light.thermalCap :=
    (by decide +kernel)

/-! ### Platform controller -/

/-- DOZE with one update still driving. -/
def dozingBusy : State := { dozing with engine := { dozing.engine with active := [driving] } }
theorem witness_DozeSleepAndWakeMoveThePlatform_1 : MainTakes .doze m0 readNothing () stocked :=
    mainTakes_of (by decide +kernel)
theorem witness_DozeSleepAndWakeMoveThePlatform_2 : MainTakes .sleep m0 readNothing () stocked :=
    mainTakes_of (by decide +kernel)
theorem witness_DozeSleepAndWakeMoveThePlatform_3 : MainTakes .wakeMain m0 readNothing () stocked :=
    mainTakes_of (by decide +kernel)
theorem witness_DozeSleepAndWakeMoveThePlatform_4 : OtherTakes .standby .sleep m0 readNothing () dozingBusy ∧
    dozingBusy.platform.state = .doze ∧ dozingBusy.platform.sleepPending = none ∧ dozingBusy.engine.active ≠ [] :=
    ⟨otherTakes_of (by decide +kernel), (by decide +kernel)⟩
theorem witness_DozeSleepAndWakeMoveThePlatform_5 : OtherTakes .standby .wakeMain m0 readNothing () dozing ∧
    dozing.platform.state = .doze := ⟨otherTakes_of (by decide +kernel), (by decide +kernel)⟩
theorem witness_DozeSleepAndWakeMoveThePlatform_6 : dozingBusy.platform.state = .doze ∧
    dozingBusy.platform.idleTimer.isSome = true ∧ dozingBusy.engine.active ≠ [] := (by decide +kernel)
def quiet : State := { dozing with inputs := [calm] }
theorem witness_AQuietDozeEntersSleep_1 : quiet.platform.state = .doze ∧ quiet.platform.idleTimer.isSome = true ∧
    quiet.engine.queue = [] ∧ quiet.engine.active = [] ∧ quiet.spool.assembly = none ∧ quiet.spool.verifying = [] ∧
    quiet.light.rampLevel = 0 ∧ (∀ i, i < 24 → (slotAt i quiet).sleepRole = false) := (by decide +kernel)
def held : State := withPlatform (fun f => { f with key := .pressed, holdTimer := some 0, alarms := [some ⟨9, .wakeMain⟩, none, none] })
  (radioOn { valid with engine := { valid.engine with active := [driving] } })
theorem witness_HaltCausesEnterHalting_1 : held.platform.state = .active ∧ held.engine.queue = [] ∧ held.engine.active ≠ [] ∧
    held.spool.assembly = none ∧ MainTakes .powerOff m0 readNothing () held :=
    ⟨(by decide +kernel), (by decide +kernel), (by decide +kernel), (by decide +kernel), mainTakes_of (by decide +kernel)⟩
theorem witness_HaltCausesEnterHalting_2 : held.platform.state = .active ∧ held.engine.queue = [] ∧ held.engine.active ≠ [] ∧
    held.spool.assembly = none ∧ MainTakes .restart m0 readNothing () held :=
    ⟨(by decide +kernel), (by decide +kernel), (by decide +kernel), (by decide +kernel), mainTakes_of (by decide +kernel)⟩
theorem witness_HaltCausesEnterHalting_3 : held.platform.state = .active ∧ held.engine.queue = [] ∧ held.engine.active ≠ [] ∧
    held.spool.assembly = none ∧ held.platform.key = .pressed := (by decide +kernel)
def dimming (r : Nat) : State :=
  { withPlatform (fun f => { f with state := .halting, haltCause := some .key, pageDecided := true }) stocked with
    light := { stocked.light with rampLevel := r, rampStep := 64 }, inputs := [calm] }
theorem witness_TheLastRampTickEntersOff_1 : (dimming 1).platform.state = .halting ∧ (dimming 1).platform.powerUp = none ∧
    (dimming 1).platform.pageDecided = true ∧ (dimming 1).engine.queue = [] ∧ (dimming 1).engine.active = [] ∧
    (dimming 1).light.rampTimer.isSome = true ∧ 1 ≤ (dimming 1).light.rampLevel ∧ (dimming 1).light.rampLevel ≤ 64 ∧
    (dimming 1).platform.haltCause = some .key ∧ HaltCause.key ≠ .restart := (by decide +kernel)
def atSixtyFour : State := dimming 64
theorem witness_TheLastRampTickEntersOff_2 : atSixtyFour.platform.state = .halting ∧ atSixtyFour.platform.powerUp = none ∧
    atSixtyFour.platform.pageDecided = true ∧ atSixtyFour.engine.queue = [] ∧ atSixtyFour.engine.active = [] ∧
    atSixtyFour.light.rampTimer.isSome = true ∧ 1 ≤ atSixtyFour.light.rampLevel ∧ atSixtyFour.light.rampLevel ≤ 64 ∧
    atSixtyFour.platform.haltCause = some .key ∧ HaltCause.key ≠ .restart := (by decide +kernel)
/-- OFF with the charge of a turn, as the floor has it, and the level index of that charge. -/
def off (q level : Nat) : State := { State.reset with charge := account q level, inputs := [calm] }
def noteless (c : Charge) : Charge := { c with updates := [], chunk := none }
theorem witness_PowerOnRestartsFromOff_1 : OtherTakes .standby .powerOn m0 readNothing () (off 162000000 2) ∧
    (off 162000000 2).platform.state = .off ∧ floorTurn (noteless (off 162000000 2).charge) ≤ (off 162000000 2).charge.q ∧
    (off 162000000 2).monitor.batv.fault = false ∧
    rawIndex (noteless (off 162000000 2).charge) = (off 162000000 2).charge.level :=
    ⟨otherTakes_of (by decide +kernel), (by decide +kernel)⟩
theorem witness_PowerOnRestartsFromOff_2 : OtherTakes .standby .powerOn m0 readNothing () (off 161999999 3) ∧
    (off 161999999 3).platform.state = .off ∧
    ((off 161999999 3).charge.q < floorTurn (noteless (off 161999999 3).charge) ∨ (off 161999999 3).monitor.batv.fault = true) :=
    ⟨otherTakes_of (by decide +kernel), (by decide +kernel)⟩
theorem witness_PowerOnRestartsFromOff_3 : MainTakes .powerOn m0 readNothing () stocked := mainTakes_of (by decide +kernel)
def resuming (o : Onward) : State := withPlatform (fun f => { f with state := .sleep, powerUp := some ⟨.resume, 0⟩, onward := some o })
  { valid with inputs := [calm], wave := { valid.wave with scrub := .suspended } }
def toActive : Onward := ⟨true, .alarm, false, []⟩
def toDoze : Onward := ⟨false, .turn, false, []⟩
theorem witness_PowerUpIntervalsComplete_1 : (resuming toActive).engine.queue = [] ∧
    (resuming toActive).portMain.inProcess = none ∧ (resuming toActive).platform.state = .sleep ∧
    (resuming toActive).platform.powerUp = some ⟨.resume, 0⟩ ∧ (resuming toActive).platform.onward = some toActive ∧
    toActive.radioAlarms = [] ∧ (resuming toActive).inputs = calm :: [] ∧
    SteadyReadings calm (resuming toActive).monitor.elapsed (resuming toActive) ∧
    (resuming toActive).platform.sleepPending = none ∧ toActive.toActive = true := ⟨(by decide +kernel), (by decide +kernel),
    (by decide +kernel), (by decide +kernel), (by decide +kernel), (by decide +kernel), (by decide +kernel),
    calm_is_steady _ _ rfl (by decide +kernel) rfl rfl, (by decide +kernel)⟩
theorem witness_PowerUpIntervalsComplete_2 : (resuming toDoze).engine.queue = [] ∧
    (resuming toDoze).portMain.inProcess = none ∧ (resuming toDoze).platform.state = .sleep ∧
    (resuming toDoze).platform.powerUp = some ⟨.resume, 0⟩ ∧ (resuming toDoze).platform.onward = some toDoze ∧
    toDoze.radioAlarms = [] ∧ (resuming toDoze).inputs = calm :: [] ∧
    SteadyReadings calm (resuming toDoze).monitor.elapsed (resuming toDoze) ∧ (resuming toDoze).platform.sleepPending = none ∧
    toDoze.toActive = false := ⟨(by decide +kernel), (by decide +kernel), (by decide +kernel), (by decide +kernel),
    (by decide +kernel), (by decide +kernel), (by decide +kernel), calm_is_steady _ _ rfl (by decide +kernel) rfl rfl,
    (by decide +kernel)⟩
def waking (c : HaltCause) (ramp : Nat) (s : State) : State :=
  withPlatform (fun f => { f with state := .halting, haltCause := some c, powerUp := some ⟨.halt, 0⟩ })
    { s with light := { s.light with rampLevel := ramp }, inputs := [calm] }
def shutPage : State := { valid with store := { valid.store with
  slots := valid.store.slots.set 3 { slotAt 3 valid with shutdownRole := true } } }
theorem witness_PowerUpIntervalsComplete_3 : (waking .key 0 shutPage).engine.queue = [] ∧
    (waking .key 0 shutPage).portMain.inProcess = none ∧ (waking .key 0 shutPage).platform.state = .halting ∧
    (waking .key 0 shutPage).platform.powerUp = some ⟨.halt, 0⟩ ∧ (waking .key 0 shutPage).engine.active = [] ∧
    (waking .key 0 shutPage).platform.pageDecided = false ∧
    (((waking .key 0 shutPage).platform.haltCause = some .level ∨ (waking .key 0 shutPage).platform.haltCause = some .powerOff ∨ (waking .key 0 shutPage).platform.haltCause = some .key)) ∧
    3 < 24 ∧ (slotAt 3 (waking .key 0 shutPage)).shutdownRole = true ∧
    (∀ j, j < 3 → (slotAt j (waking .key 0 shutPage)).shutdownRole = false) ∧ (waking .key 0 shutPage).wave.state = .valid ∧
    (waking .key 0 shutPage).monitor.panv.fault = false ∧ (slotAt 3 (waking .key 0 shutPage)).state = .ready ∧
    (waking .key 0 shutPage).store.useCounter < 4294967295 := (by decide +kernel)
theorem witness_PowerUpIntervalsComplete_4 : (waking .brownout 1 shutPage).engine.queue = [] ∧
    (waking .brownout 1 shutPage).portMain.inProcess = none ∧ (waking .brownout 1 shutPage).platform.state = .halting ∧
    (waking .brownout 1 shutPage).platform.powerUp = some ⟨.halt, 0⟩ ∧ (waking .brownout 1 shutPage).engine.active = [] ∧
    (waking .brownout 1 shutPage).platform.pageDecided = false ∧
    (¬ ((waking .brownout 1 shutPage).platform.haltCause = some .level ∨ (waking .brownout 1 shutPage).platform.haltCause = some .powerOff ∨ (waking .brownout 1 shutPage).platform.haltCause = some .key) ∨ (∀ i, i < 24 → (slotAt i (waking .brownout 1 shutPage)).shutdownRole = false) ∨ (waking .brownout 1 shutPage).wave.state ≠ .valid) ∧
    (waking .brownout 1 shutPage).light.rampLevel ≠ 0 := (by decide +kernel)
theorem witness_PowerUpIntervalsComplete_5 : (waking .level 0 stocked).engine.queue = [] ∧
    (waking .level 0 stocked).portMain.inProcess = none ∧ (waking .level 0 stocked).platform.state = .halting ∧
    (waking .level 0 stocked).platform.powerUp = some ⟨.halt, 0⟩ ∧ (waking .level 0 stocked).engine.active = [] ∧
    (waking .level 0 stocked).platform.pageDecided = false ∧
    (¬ ((waking .level 0 stocked).platform.haltCause = some .level ∨ (waking .level 0 stocked).platform.haltCause = some .powerOff ∨ (waking .level 0 stocked).platform.haltCause = some .key) ∨ (∀ i, i < 24 → (slotAt i (waking .level 0 stocked)).shutdownRole = false) ∨ (waking .level 0 stocked).wave.state ≠ .valid) ∧
    (waking .level 0 stocked).light.rampLevel = 0 ∧ (waking .level 0 stocked).platform.haltCause = some .level ∧
    HaltCause.level ≠ .restart := (by decide +kernel)
theorem witness_PowerUpIntervalsComplete_6 : (waking .brownout 0 shutPage).engine.queue = [] ∧
    (waking .brownout 0 shutPage).portMain.inProcess = none ∧ (waking .brownout 0 shutPage).platform.state = .halting ∧
    (waking .brownout 0 shutPage).platform.powerUp = some ⟨.halt, 0⟩ ∧ (waking .brownout 0 shutPage).engine.active = [] ∧
    (waking .brownout 0 shutPage).platform.pageDecided = false ∧
    (¬ ((waking .brownout 0 shutPage).platform.haltCause = some .level ∨ (waking .brownout 0 shutPage).platform.haltCause = some .powerOff ∨ (waking .brownout 0 shutPage).platform.haltCause = some .key) ∨ (∀ i, i < 24 → (slotAt i (waking .brownout 0 shutPage)).shutdownRole = false) ∨ (waking .brownout 0 shutPage).wave.state ≠ .valid) ∧
    (waking .brownout 0 shutPage).light.rampLevel = 0 ∧ (waking .brownout 0 shutPage).platform.haltCause = some .brownout ∧
    HaltCause.brownout ≠ .restart := (by decide +kernel)
def keyed (k : KeyState) (s : State) : State := withPlatform (fun f => { f with key := k, holdTimer := some 7 }) s
def on1 : Msg := mkMsg [1]
def off0 : Msg := mkMsg [0]
theorem witness_KeyAndRadioPower_1 : stocked.platform.key = .released := (by decide +kernel)
theorem witness_KeyAndRadioPower_2 : (keyed .pressed stocked).platform.key = .pressed ∧
    (keyed .pressed stocked).platform.state = .active := (by decide +kernel)
theorem witness_KeyAndRadioPower_3 : (keyed .pressed dozing).platform.key = .pressed ∧
    (keyed .pressed dozing).platform.state = .doze := (by decide +kernel)
theorem witness_KeyAndRadioPower_4 : (keyed .consumed dozing).platform.key = .consumed := (by decide +kernel)
theorem witness_KeyAndRadioPower_5 : MainTakes .radioPower on1 readOne 1 stocked := mainTakes_of (by decide +kernel)
theorem witness_KeyAndRadioPower_6 : MainTakes .radioPower off0 readOne 0 receiving ∧ receiving.platform.radioSetting = true ∧
    receiving.spool.assembly = none := ⟨mainTakes_of (by decide +kernel), (by decide +kernel)⟩
theorem witness_KeyAndRadioPower_7 : MainTakes .radioPower off0 readOne 0 stocked ∧ stocked.platform.radioSetting = false :=
    ⟨mainTakes_of (by decide +kernel), (by decide +kernel)⟩
theorem witness_KeyAndRadioPower_8 : 2 ≤ 2 ∧ MainTakes .radioPower (mkMsg [2]) readOne 2 stocked :=
    ⟨(by decide +kernel), mainTakes_of (by decide +kernel)⟩
def lateClock : State := withPlatform (fun f => { f with clock := 4294967295, alarms := [some ⟨1, .wakeMain⟩, none, none] }) stocked
def alarmed (x : AlarmAction) : State := withPlatform (fun f => { f with clock := 10, alarms := [none, none, some ⟨9, x⟩] }) receiving
def clock0 : Msg := mkMsg [0, 0, 0, 0]
theorem witness_ClockAndAlarms_1 :
    ∀ a, some a ∈ lateClock.platform.alarms → ¬ a.time = (lateClock.platform.clock + 1) % 4294967296 :=
    some_mem (by decide +kernel)
theorem witness_ClockAndAlarms_2 : MainTakes .clockSet clock0 readLong 0 lateClock ∧
    (∀ a, some a ∈ lateClock.platform.alarms → ¬ a.time ≤ 0) :=
    ⟨mainTakes_of (by decide +kernel), some_mem (by decide +kernel)⟩
theorem witness_ClockAndAlarms_3 : (alarmed .wakeMain).platform.state = .active ∧
    (alarmed .wakeMain).platform.alarms.getD 2 none = some ⟨9, .wakeMain⟩ := (by decide +kernel)
theorem witness_ClockAndAlarms_4 : (alarmed .radioOn).platform.state = .active ∧
    (alarmed .radioOn).platform.alarms.getD 2 none = some ⟨9, .radioOn⟩ := (by decide +kernel)
theorem witness_ClockAndAlarms_5 : (alarmed .notifyStandby).platform.state = .active ∧
    (alarmed .notifyStandby).platform.alarms.getD 2 none = some ⟨9, .notifyStandby⟩ := (by decide +kernel)
theorem witness_ClockAndAlarms_6 : 2 ≤ 2 ∧ (alarmed .wakeMain).platform.alarms.length = 3 ∧
    MainTakes .alarmSet (mkMsg [2, 11, 0, 0, 0, 2]) readAlarmSet ⟨2, 11, AlarmAction.notifyStandby.code⟩ (alarmed .wakeMain) ∧
    (alarmed .wakeMain).platform.clock < 11 :=
    ⟨(by decide +kernel), (by decide +kernel), mainTakes_of (by decide +kernel), (by decide +kernel)⟩
theorem witness_ClockAndAlarms_7 : 2 ≤ 2 ∧ (alarmed .wakeMain).platform.alarms.length = 3 ∧
    MainTakes .alarmSet (mkMsg [2, 10, 0, 0, 0, 2]) readAlarmSet ⟨2, 10, AlarmAction.notifyStandby.code⟩ (alarmed .wakeMain) ∧
    10 ≤ (alarmed .wakeMain).platform.clock :=
    ⟨(by decide +kernel), (by decide +kernel), mainTakes_of (by decide +kernel), (by decide +kernel)⟩
theorem witness_ClockAndAlarms_8 : (2 < 3 ∨ 2 < 0) ∧
    MainTakes .alarmSet (mkMsg [3, 9, 0, 0, 0, 0]) readAlarmSet ⟨3, 9, 0⟩ stocked :=
    ⟨(by decide +kernel), mainTakes_of (by decide +kernel)⟩
theorem witness_ClockAndAlarms_9 : (2 < 2 ∨ 2 < 3) ∧
    MainTakes .alarmSet (mkMsg [2, 9, 0, 0, 0, 3]) readAlarmSet ⟨2, 9, 3⟩ stocked :=
    ⟨(by decide +kernel), mainTakes_of (by decide +kernel)⟩
theorem witness_ClockAndAlarms_10 : MainTakes .alarmClear (mkMsg [2]) readOne 2 (alarmed .radioOn) ∧ 2 ≤ 2 :=
    ⟨mainTakes_of (by decide +kernel), (by decide +kernel)⟩
theorem witness_ClockAndAlarms_11 : MainTakes .alarmClear (mkMsg [3]) readOne 3 (alarmed .radioOn) ∧ 2 < 3 :=
    ⟨mainTakes_of (by decide +kernel), (by decide +kernel)⟩

end Sys2Proof.Tests
end

