-- ==== Sys2Proof/Proofs/LevelIndex.lean ====
section
/-! PROOFS. The level index of the charge account: what an evaluation decides (R144), what a change of index does while the
platform is ACTIVE (R145, R115), and the statement on both. -/

namespace Sys2Proof.Machine

/-! ## What an evaluation decides (R144) -/

/-- Worse at once: an index not above the raw index becomes the raw index. -/
theorem nextLevel_of_le_raw {c : Charge} (h : c.level ≤ rawIndex c) : nextLevel c = rawIndex c := by
  rcases Nat.lt_or_eq_of_le h with worse | same
  · simp [nextLevel, worse]
  · simp [nextLevel, same]

/-- The improvement condition of an index, as a proposition (R144). -/
def ImprovementHolds (c : Charge) : Nat → Prop
  | 0 => ((floorRadio c + hysteresisOf c : Nat) : Int) ≤ available c
  | 1 => ((floorLight c + hysteresisOf c : Nat) : Int) ≤ available c
  | 2 => ((floorTurn c + hysteresisOf c : Nat) : Int) ≤ available c
  | 3 => floorShutdown c + hysteresisOf c ≤ c.q
  | _ => False

theorem improves_iff (c : Charge) (j : Nat) : improves c j = true ↔ ImprovementHolds c j := by
  unfold improves ImprovementHolds
  split
  case h_1 | h_2 | h_3 | h_4 => exact decide_eq_true_iff
  case h_5 => simp

/-- Above the raw index the evaluation looks for the first index below whose improvement condition holds. -/
theorem nextLevel_of_raw_lt {c : Charge} (h : rawIndex c < c.level) :
    nextLevel c = ((List.range c.level).find? (improves c)).getD c.level := by
  simp [nextLevel, h, Nat.lt_asymm h]

/-- Better: the lowest index whose improvement condition holds is taken. -/
theorem nextLevel_of_lowest_improving {c : Charge} {j : Nat} (h : rawIndex c < c.level) (hj : j < c.level)
    (hold : improves c j = true) (lowest : ∀ i, i < j → ¬ improves c i = true) : nextLevel c = j := by
  have found : (List.range c.level).find? (improves c) = some j :=
    List.find?_range_eq_some.mpr ⟨hold, List.mem_range.mpr hj, fun i hi => by simp [lowest i hi]⟩
  rw [nextLevel_of_raw_lt h, found, Option.getD_some]

/-- Kept: with no improvement condition below, the index stays. -/
theorem nextLevel_of_none_improving {c : Charge} (h : rawIndex c < c.level)
    (none_holds : ∀ j, j < c.level → ¬ improves c j = true) : nextLevel c = c.level := by
  have absent : (List.range c.level).find? (improves c) = none :=
    List.find?_eq_none.mpr fun j hj => none_holds j (List.mem_range.mp hj)
  rw [nextLevel_of_raw_lt h, absent, Option.getD_none]

/-! ## What a change of index does in ACTIVE (R145) -/

/-- A ramp within the effective cap is not cut. -/
theorem capCut_of_within (k : Hooks) {s : State} (h : s.light.rampLevel ≤ effectiveCap s.light) : capCut k s = s := by
  simp [capCut, Nat.not_lt.mpr h]

/-- A new charge cap that leaves the ramp within the caps changes the light's charge cap alone. -/
theorem setChargeCap_of_within (k : Hooks) {s : State}
    (h : s.light.rampLevel ≤ min (chargeCapOf s.charge.level) s.light.thermalCap) :
    setChargeCap k s = { s with light := { s.light with chargeCap := chargeCapOf s.charge.level } } :=
  capCut_of_within k h

/-- CHARGE_LEVEL depends on the level index only where it names it: charge, available charge and per-mille are the account's. -/
theorem chargeLevelNotice_level (c : Charge) (j : Nat) :
    chargeLevelNotice { c with level := j } = .chargeLevel j c.q (available c) (perMilleOf c) := rfl

/-- A change to an index short of shutdown in ACTIVE, with the ramp within the new caps: the index, the notice to the main and the
standby port, and the charge cap. -/
theorem changeLevel_of_active (k : Hooks) {j : Nat} {s : State} (active : s.platform.state = .active) (hj : j < 4)
    (within : s.light.rampLevel ≤ min (chargeCapOf j) s.light.thermalCap) :
    changeLevel k j s = { s with
      charge := { s.charge with level := j }
      light := { s.light with chargeCap := chargeCapOf j }
      portMain := offerUnit (.chargeLevel j s.charge.q (available s.charge) (perMilleOf s.charge)) s.portMain
      portStandby := offerUnit (.chargeLevel j s.charge.q (available s.charge) (perMilleOf s.charge)) s.portStandby } := by
  have active_still : (onCharge (fun c => { c with level := j }) s).platform.state = .active := active
  simp only [changeLevel, Nat.ne_of_lt hj, if_false]
  rw [offerMain_of_active active_still, offerTo_standby, chargeLevelNotice_level]
  exact setChargeCap_of_within k within

/-- A spool that is not HELD has nothing to leave at an evaluation. -/
theorem spoolEvaluated_of_not_held {s : State} (h : s.spool.held = false) : spoolEvaluated s = s := by
  simp [spoolEvaluated, h]

/-- An evaluation that changes the index is that change, when the spool is not HELD after it. -/
theorem evaluate_of_change (k : Hooks) {s : State} (change : nextLevel s.charge ≠ s.charge.level)
    (held : (changeLevel k (nextLevel s.charge) s).spool.held = false) :
    evaluate k s = changeLevel k (nextLevel s.charge) s := by
  simp only [evaluate, change, if_false]
  exact spoolEvaluated_of_not_held held

/-! ## The statement -/

/-- Settles O51: the clauses on the account by the three outcomes of `nextLevel`, those on the state by the two of `evaluate`. -/
theorem theLevelIndexIsEvaluated : Obligations.TheLevelIndexIsEvaluated := by
  constructor
  · intro c full floor a raw h better
    have better_iff (j : Nat) : better j ↔ improves c j = true := (improves_iff c j).symm
    refine ⟨nextLevel_of_le_raw, fun above j below holds lowest => ?_, fun above fails => ?_, rfl⟩
    · exact nextLevel_of_lowest_improving above below ((better_iff j).mp holds)
        fun i hi => mt (better_iff i).mpr (lowest i hi)
    · exact nextLevel_of_none_improving above fun j hj => mt (better_iff j).mpr (fails j hj)
  · intro s active held j cap note
    refine ⟨fun same => evaluate_of_same .full same held, fun change short within => ?_⟩
    have changed := changeLevel_of_active .full active short within
    exact (evaluate_of_change .full change (by rw [changed]; exact held)).trans changed

end Sys2Proof.Machine
end

