-- ==== Sys2Proof/Proofs/PacketAdmission.lean ====
section
/-! PROOFS. The arrival of a packet (R175, R177): where it leaves the port's transfer, what decides its admission, and the statement
on both. -/

namespace Sys2Proof.Machine

/-! ## A port unit written twice, and the power of a port -/

/-- The later of two writes of a port's unit stands. -/
@[simp] theorem State.withPort_withPort (s : State) (p : Port) (u v : PortUnit) :
    (s.withPort p u).withPort p v = s.withPort p v := by cases p <;> rfl

/-- What a port unit holds does not decide which ports are powered (R174). -/
@[simp] theorem powered_withPort (p q : Port) (u : PortUnit) (s : State) :
    powered p (s.withPort q u) = powered p s := by
  cases p <;> simp only [powered, pwrMain, pwrRadio, State.withPort_platform]

/-- An operation on a port's unit after a write of that unit works on the unit written. -/
theorem onPort_withPort (p : Port) (f : PortUnit → PortUnit) (u : PortUnit) (s : State) :
    onPort p f (s.withPort p u) = s.withPort p (f u) := by
  simp only [onPort, State.withPort_port_same, State.withPort_withPort]

/-! ## Admission (R177) -/

/-- Where the transfer stands does not count as outstanding. -/
theorem outstanding_with_transfer (u : PortUnit) (t : Transfer) : outstanding { u with transfer := t } = outstanding u := rfl

/-- Room: the packet joins the tail of the waiting list, counted. -/
theorem takeIn_of_room {u : PortUnit} (q : Packet) (room : outstanding u < Config.outstandingMax) :
    takeIn q u = { u with
      waiting := u.waiting ++ [q]
      counters := { u.counters with admitted := saturatingSucc u.counters.admitted } } := if_pos room

/-- No room: the packet is discarded with OVERRUN, counted. -/
theorem takeIn_of_full {u : PortUnit} (q : Packet) (full : Config.outstandingMax ≤ outstanding u) :
    takeIn q u = { u with
      errors := { u.errors with overrun := true }
      counters := { u.counters with overruns := saturatingSucc u.counters.overruns } } := if_neg (Nat.not_lt.mpr full)

/-- A PORT_RESET without a payload does not ask for room. -/
theorem arrive_of_reset (p : Port) {q : Packet} (s : State) (isReset : q.kind = 0x4B#8 ∧ q.msg.payload = []) :
    arrive p q s = portResetNow p s := if_pos isReset

/-- Any other packet is decided by the room on its port. -/
theorem arrive_of_not_reset (p : Port) {q : Packet} (s : State) (other : ¬ (q.kind = 0x4B#8 ∧ q.msg.payload = [])) :
    arrive p q s = onPort p (takeIn q) s := if_neg other

/-! ## The two commands -/

/-- A packet that its transfer completes is decided with the port back in HEADER (R175). -/
theorem exec_packetArrived_of_completes {p : Port} {q : Packet} {s : State} (on : powered p s = true)
    (complete : completesPacket (s.port p).transfer q = true) :
    exec (.packetArrived p q) s = .next (arrive p q (s.withPort p { s.port p with transfer := .header })) := by
  have carried_out : (powered p s && completesPacket (s.port p).transfer q) = true := by rw [on, complete]; rfl
  exact congrArg Host.Outcome.next (if_pos carried_out)

/-- A PORT_RESET without a payload on a powered port is carried out at once. -/
theorem exec_portReset_of_empty {p : Port} {m : Msg} {s : State} (empty : m.payload = []) (on : powered p s = true) :
    exec (.portReset p m) s = .next (portResetNow p s) :=
  congrArg Host.Outcome.next ((if_pos empty).trans (if_pos on))

/-! ## The statement -/

/-- Settles O18: the arrival decides in HEADER, where the outstanding count is what it was, by the three outcomes of admission. -/
theorem anArrivedPacketIsAdmittedByRoom : Obligations.AnArrivedPacketIsAdmittedByRoom := by
  intro p q s on complete u isReset
  have decided := exec_packetArrived_of_completes on complete
  have byRoom (other : ¬ isReset) :
      exec (.packetArrived p q) s = .next (s.withPort p (takeIn q { u with transfer := .header })) := by
    rw [decided, arrive_of_not_reset p _ other, onPort_withPort]
  refine ⟨fun reset => ?_, fun other room => ?_, fun other full => ?_⟩
  · have on_after : powered p (s.withPort p { u with transfer := .header }) = true := by rw [powered_withPort, on]
    rw [decided, arrive_of_reset p _ reset, exec_portReset_of_empty reset.2 on_after]
  · rw [byRoom other, takeIn_of_room q (outstanding_with_transfer u .header ▸ room)]
  · rw [byRoom other, takeIn_of_full q (outstanding_with_transfer u .header ▸ full)]

end Sys2Proof.Machine
end

