-- ==== Sys2Proof/Proofs/Keeps.lean ====
section
/-! PROOFS. What an operation of the part keeps. `Keeps s t` says that every invariant of a sound state that holds of `s` holds of `t`
and that the queue of commands is the same; `Tame s t` says beside this that no port's outstanding count has grown, that no slot has
entered the window and that no slot without blocks has got any. Every operation is shown once to be the one or the other, and the
statements on every step follow from that. -/

namespace Sys2Proof.Machine

/-! ## The two relations -/

/-- Every port unit within a bound of its own for the outstanding count, and within the notice share. -/
def PortsWithin (b : Port → Nat) (s : State) : Prop :=
  ∀ p, outstanding (s.port p) ≤ b p ∧ noticeCount (s.port p) ≤ Config.noticeMax

theorem portsSound_iff (s : State) : PortsSound s ↔ PortsWithin (fun _ => Config.outstandingMax) s := Iff.rfl

/-- Every invariant of `s` holds of `t`, and no command has joined or left the queue. -/
structure Keeps (s t : State) : Prop where
  dram : Mem.wf s.dram = true → Mem.wf t.dram = true
  blocks : BlocksSound s → BlocksSound t
  window : WindowSound s → WindowSound t
  reservations : ReservationsSound s → ReservationsSound t
  charge : ChargeSound s → ChargeSound t
  ports : PortsSound s → PortsSound t
  pending : t.pending = s.pending

/-- Beside what `Keeps` says: no outstanding count grows, no slot enters the window, and no slot without blocks gets any. -/
structure Tame (s t : State) : Prop where
  dram : Mem.wf s.dram = true → Mem.wf t.dram = true
  blocks : BlocksSound s → BlocksSound t
  window : WindowSound s → WindowSound t
  reservations : ReservationsSound s → ReservationsSound t
  charge : ChargeSound s → ChargeSound t
  within : ∀ b, PortsWithin b s → PortsWithin b t
  pending : t.pending = s.pending
  entries : ∀ i, i ∉ s.window.entries → i ∉ t.window.entries
  noBlocks : ∀ i, (slotAt i s).blocks = [] → (slotAt i t).blocks = []

variable {s t u : State}

theorem Tame.keeps (h : Tame s t) : Keeps s t :=
  ⟨h.dram, h.blocks, h.window, h.reservations, h.charge, h.within _, h.pending⟩

theorem Keeps.refl (s : State) : Keeps s s := ⟨id, id, id, id, id, id, rfl⟩

theorem Keeps.trans (h : Keeps s t) (g : Keeps t u) : Keeps s u :=
  ⟨g.dram ∘ h.dram, g.blocks ∘ h.blocks, g.window ∘ h.window, g.reservations ∘ h.reservations, g.charge ∘ h.charge,
    g.ports ∘ h.ports, g.pending.trans h.pending⟩

theorem Tame.refl (s : State) : Tame s s := ⟨id, id, id, id, id, fun _ => id, rfl, fun _ => id, fun _ => id⟩

theorem Tame.trans (h : Tame s t) (g : Tame t u) : Tame s u :=
  ⟨g.dram ∘ h.dram, g.blocks ∘ h.blocks, g.window ∘ h.window, g.reservations ∘ h.reservations, g.charge ∘ h.charge,
    fun b => g.within b ∘ h.within b, g.pending.trans h.pending, fun i => g.entries i ∘ h.entries i,
    fun i => g.noBlocks i ∘ h.noBlocks i⟩

/-- A tame operation after others. -/
theorem Keeps.then (h : Keeps s t) (g : Tame t u) : Keeps s u := h.trans g.keeps

theorem Tame.ite {c : Prop} [Decidable c] (h : c → Tame s t) (g : ¬ c → Tame s u) : Tame s (if c then t else u) := by
  split
  · next hc => exact h hc
  · next hc => exact g hc

theorem Keeps.ite {c : Prop} [Decidable c] (h : c → Keeps s t) (g : ¬ c → Keeps s u) : Keeps s (if c then t else u) := by
  split
  · next hc => exact h hc
  · next hc => exact g hc

/-- A fold of a tame operation is tame. -/
theorem Tame.foldl {α : Type} {f : State → α → State} (h : ∀ t a, Tame t (f t a)) (as : List α) (s : State) :
    Tame s (as.foldl f s) := by
  induction as generalizing s with
  | nil => exact .refl s
  | cons a as ih => exact (h s a).trans (ih (f s a))

/-! ## What each invariant depends on -/

theorem BlocksSound.congr (h : BlocksSound s) (free : t.pool.free = s.pool.free) (panel : t.pool.panel = s.pool.panel)
    (slots : t.store.slots = s.store.slots) (titles : t.spool.titles = s.spool.titles) : BlocksSound t :=
  ⟨slots ▸ h.slots, titles ▸ h.titles, slots ▸ h.emptyHoldsNone,
    by simpa only [ownedBlocks, free, panel, slots, titles] using h.oneOwner⟩

theorem slotAt_congr (slots : t.store.slots = s.store.slots) (i : Nat) : slotAt i t = slotAt i s := by
  simp only [slotAt, slots]

theorem eligible_congr (slots : t.store.slots = s.store.slots) (i : Nat) : eligible i t = eligible i s := by
  simp only [eligible, slotAt_congr slots]

theorem WindowSound.congr (h : WindowSound s) (entries : t.window.entries = s.window.entries)
    (cursor : t.window.cursor = s.window.cursor) (slots : t.store.slots = s.store.slots) : WindowSound t :=
  ⟨entries ▸ h.size, entries ▸ h.distinct, by rw [cursor, entries]; exact h.cursorWithin,
    by rw [cursor, entries]; exact h.cursorPresent,
    by simpa only [entries, eligible_congr slots] using h.eligibleEntries, slots ▸ h.pendingShows⟩

theorem EngineSound.congr (h : EngineSound s) (queue : t.engine.queue = s.engine.queue)
    (active : t.engine.active = s.engine.active) : EngineSound t :=
  ⟨queue ▸ h.pendingRoom, active ▸ h.lanes, by simpa only [liveIds, queue, active] using h.ids, active ▸ h.apart⟩

theorem ReservationsSound.congr (h : ReservationsSound s) (queue : t.engine.queue = s.engine.queue)
    (active : t.engine.active = s.engine.active) (updates : t.charge.updates = s.charge.updates)
    (chunk : t.charge.chunk = s.charge.chunk) (assembly : t.spool.assembly.map (·.cost) = s.spool.assembly.map (·.cost)) :
    ReservationsSound t :=
  ⟨h.engine.congr queue active,
    by simpa only [updates, drivingCosts, drivingUpdates, active] using h.updates, by rw [chunk, assembly]; exact h.chunk⟩

theorem ChargeSound.congr (h : ChargeSound s) (q : t.charge.q = s.charge.q)
    (capacity : t.charge.params.capacity = s.charge.params.capacity) (level : t.charge.level = s.charge.level) :
    ChargeSound t :=
  ⟨by simpa only [q, qFull, capacity] using h.withinFull, level ▸ h.index⟩

theorem PortsWithin.congr {b : Port → Nat} (h : PortsWithin b s) (ports : ∀ p, t.port p = s.port p) : PortsWithin b t :=
  fun p => by rw [ports]; exact h p

/-- What the invariants look at. -/
structure Core where
  dram : List Host.Cell
  free : List Nat
  panel : List Nat
  slots : List Slot
  titles : List (Option Title)
  entries : List Nat
  cursor : Option Nat
  queue : List Update
  active : List Update
  updates : List (Nat × Nat)
  chunk : Option Nat
  cost : Option Nat
  q : Nat
  capacity : Nat
  level : Nat
  portMain : PortUnit
  portStandby : PortUnit
  portRadio : PortUnit
  pending : List Instr

def coreOf (s : State) : Core :=
  { dram := s.dram, free := s.pool.free, panel := s.pool.panel, slots := s.store.slots, titles := s.spool.titles,
    entries := s.window.entries, cursor := s.window.cursor, queue := s.engine.queue, active := s.engine.active,
    updates := s.charge.updates, chunk := s.charge.chunk, cost := s.spool.assembly.map (·.cost), q := s.charge.q,
    capacity := s.charge.params.capacity, level := s.charge.level, portMain := s.portMain, portStandby := s.portStandby,
    portRadio := s.portRadio, pending := s.pending }

/-- An operation that touches nothing the invariants look at is tame. -/
theorem Tame.of_core (h : coreOf t = coreOf s) : Tame s t := by
  simp only [coreOf, Core.mk.injEq] at h
  obtain ⟨hd, hf, hp, hs, ht, he, hc, hq, ha, hu, hk, ho, hQ, hC, hl, h1, h2, h3, hn⟩ := h
  exact ⟨hd ▸ id, fun h => h.congr hf hp hs ht, fun h => h.congr he hc hs, fun h => h.congr hq ha hu hk ho,
    fun h => h.congr hQ hC hl, fun _ h => h.congr (fun p => by cases p <;> assumption), hn, he ▸ fun _ => id,
    fun i => by rw [slotAt_congr hs]; exact id⟩

end Sys2Proof.Machine
end

