-- ==== Sys2Proof/Proofs/KeepsUpdates.lean ====
section
/-! PROOFS. The updates of one block of the state that every operation is made of, each shown to be tame: a port's unit, the DRAM,
the slot records, blocks that change their owner, the window. -/

namespace Sys2Proof.Machine

variable {s t u : State}

/-- An update of what the invariants do not look at, after others. -/
theorem tame_core (h : Tame s t) (e : coreOf u = coreOf t) : Tame s u := h.trans (.of_core e)

theorem tame_ite {c : Prop} [Decidable c] {f : State → State} (hf : ∀ {t}, c → Tame s t → Tame s (f t)) (h : Tame s t) :
    Tame s (if c then f t else t) := .ite (fun hc => hf hc h) fun _ => h

/-! ## Ports -/

/-- A port unit whose outstanding count does not grow and which stays within its notice share. -/
structure UnitKept (u v : PortUnit) : Prop where
  outstanding : outstanding v ≤ outstanding u
  notices : noticeCount u ≤ Config.noticeMax → noticeCount v ≤ Config.noticeMax

theorem UnitKept.of_same {u v : PortUnit} (waiting : v.waiting = u.waiting) (inProcess : v.inProcess = u.inProcess)
    (queue : v.queue = u.queue) : UnitKept u v :=
  ⟨by simp only [Machine.outstanding, waiting, inProcess, queue, le_refl], by simp only [noticeCount, queue, imp_self]⟩

theorem keeps_withPort (p : Port) (v : PortUnit) (kept : unitSound (s.port p) → unitSound v) : Keeps s (s.withPort p v) where
  dram := by simp
  blocks h := h.congr (by simp) (by simp) (by simp) (by simp)
  window h := h.congr (by simp) (by simp) (by simp)
  reservations h := h.congr (by simp) (by simp) (by simp) (by simp) (by simp)
  charge h := h.congr (by simp) (by simp) (by simp)
  ports h q := by
    by_cases e : q = p
    · rw [e, State.withPort_port_same]; exact kept (h p)
    · rw [State.withPort_port_other _ _ e]; exact h q
  pending := by simp

theorem tame_withPort (p : Port) {v : PortUnit} (h : Tame s t) (kept : UnitKept (t.port p) v) : Tame s (t.withPort p v) := by
  have base : Keeps t (t.withPort p v) :=
    keeps_withPort p v fun sound => ⟨kept.outstanding.trans sound.1, kept.notices sound.2⟩
  refine h.trans ⟨base.dram, base.blocks, base.window, base.reservations, base.charge, fun b hb q => ?_, base.pending,
    by simp, fun i => ?_⟩
  · by_cases e : q = p
    · subst e
      rw [State.withPort_port_same]
      exact ⟨kept.outstanding.trans (hb q).1, kept.notices (hb q).2⟩
    · rw [State.withPort_port_other _ _ e]; exact hb q
  · rw [slotAt_congr (t := t.withPort p v) (s := t) (by simp)]; exact id

theorem tame_onPort (p : Port) {f : PortUnit → PortUnit} (h : Tame s t) (kept : UnitKept (t.port p) (f (t.port p))) :
    Tame s (onPort p f t) := tame_withPort p h kept

/-! ## DRAM -/

theorem tame_dram {m : List Host.Cell} (h : Tame s t) (wf : Mem.wf t.dram = true → Mem.wf m = true) :
    Tame s (t.withDram m) :=
  h.trans ⟨wf, fun h => h.congr rfl rfl rfl rfl, fun h => h.congr rfl rfl rfl, fun h => h.congr rfl rfl rfl rfl rfl,
    fun h => h.congr rfl rfl rfl, fun _ h => h.congr fun p => t.withDram_port m p, rfl, fun _ => id, fun _ => id⟩

/-! ## Slot records that keep their blocks -/

/-- What a change of a slot record keeps: its blocks, that it is not emptied, that it can stay in the window, and that release
pending stands on a SHOWING slot only. -/
structure SlotKept (x y : Slot) : Prop where
  blocks : y.blocks = x.blocks
  notEmptied : y.state = .empty → x.state = .empty
  usable : (x.releasePending = true → x.state = .showing) → sourceReady x = true → sourceReady y = true
  pendingShows : (x.releasePending = true → x.state = .showing) → y.releasePending = true → y.state = .showing

theorem SlotKept.of_same {x y : Slot} (blocks : y.blocks = x.blocks) (state : y.state = x.state)
    (pending : y.releasePending = x.releasePending) : SlotKept x y :=
  ⟨blocks, fun h => state ▸ h, fun _ h => by simpa only [sourceReady, state, pending] using h,
    fun hx h => state ▸ hx (pending ▸ h)⟩

theorem eligible_iff (i : Nat) (s : State) : eligible i s = true ↔ i < Config.slotCount ∧ sourceReady (slotAt i s) = true := by
  simp only [eligible, sourceReady, Bool.and_eq_true, decide_eq_true_eq]

theorem slotAt_of_lt {i : Nat} (h : i < s.store.slots.length) : slotAt i s = s.store.slots[i] := by
  simp [slotAt, h]

theorem slotAt_of_ge {i : Nat} (h : s.store.slots.length ≤ i) : slotAt i s = .reset := by
  simp [slotAt, List.getD, List.getElem?_eq_none h]

/-- In a sound window release pending stands on a SHOWING slot only, at every slot number. -/
theorem WindowSound.slot_pending (h : WindowSound s) (i : Nat) (pending : (slotAt i s).releasePending = true) :
    (slotAt i s).state = .showing := by
  rcases Nat.lt_or_ge i s.store.slots.length with lt | ge
  · rw [slotAt_of_lt lt] at pending ⊢
    exact h.pendingShows _ (List.getElem_mem lt) pending
  · rw [slotAt_of_ge ge] at pending
    exact absurd pending (by decide)

/-- A record that a list of slots holds is the record of some number. -/
theorem exists_slotAt {x : Slot} (h : x ∈ s.store.slots) : ∃ i, i < s.store.slots.length ∧ slotAt i s = x := by
  obtain ⟨i, hi, rfl⟩ := List.getElem_of_mem h
  exact ⟨i, hi, slotAt_of_lt hi⟩

/-- Slot records changed so that each keeps what `SlotKept` says, and nothing else changed. -/
theorem tame_slots (h : Tame s t) (length : u.store.slots.length = t.store.slots.length)
    (kept : ∀ i, SlotKept (slotAt i t) (slotAt i u))
    (rest : coreOf u = { coreOf t with slots := u.store.slots }) : Tame s u := by
  simp only [coreOf, Core.mk.injEq] at rest
  obtain ⟨hd, hf, hp, -, ht, he, hc, hq, ha, hu, hk, ho, hQ, hC, hl, h1, h2, h3, hn⟩ := rest
  have blocks_eq : u.store.slots.map (·.blocks) = t.store.slots.map (·.blocks) := by
    refine List.ext_getElem (by simp [length]) fun i hi hi' => ?_
    have := (kept i).blocks
    rw [slotAt_of_lt (by simpa using hi), slotAt_of_lt (by simpa using hi')] at this
    simpa using this
  refine h.trans ⟨hd ▸ id, fun h => ⟨length.trans h.slots, ht ▸ h.titles, fun y hy he => ?_, ?_⟩,
    fun h => ⟨he ▸ h.size, he ▸ h.distinct, by rw [he, hc]; exact h.cursorWithin, by rw [he, hc]; exact h.cursorPresent,
      fun i hi => ?_, fun y hy hpend => ?_⟩,
    fun h => h.congr hq ha hu hk ho, fun h => h.congr hQ hC hl, fun _ h => h.congr (fun p => by cases p <;> assumption), hn,
    he ▸ fun _ => id, fun i hi => by rw [(kept i).blocks, hi]⟩
  · obtain ⟨i, hi, rfl⟩ := exists_slotAt hy
    rw [(kept i).blocks]
    have same : slotAt i t ∈ t.store.slots := by
      rw [slotAt_of_lt (length ▸ hi)]
      exact List.getElem_mem _
    exact h.emptyHoldsNone _ same ((kept i).notEmptied he)
  · have := h.oneOwner
    simpa only [ownedBlocks, hf, hp, ht, List.flatMap_def, blocks_eq] using this
  · rw [he] at hi
    rw [eligible_iff]
    have before := (eligible_iff i t).mp (h.eligibleEntries i hi)
    exact ⟨before.1, (kept i).usable (h.slot_pending i) before.2⟩
  · obtain ⟨i, hi, rfl⟩ := exists_slotAt hy
    exact (kept i).pendingShows (h.slot_pending i) hpend

theorem slotAt_setSlot (i j : Nat) (x : Slot) (s : State) :
    slotAt j (setSlot i x s) = if j = i ∧ i < s.store.slots.length then x else slotAt j s := by
  by_cases e : j = i
  · subst e
    by_cases lt : j < s.store.slots.length
    · rw [if_pos ⟨rfl, lt⟩, slotAt_setSlot_same x lt]
    · rw [if_neg (by simp [lt])]
      simp [slotAt, setSlot, List.set_eq_of_length_le (Nat.le_of_not_lt lt)]
  · rw [if_neg (by simp [e]), slotAt_setSlot_other x e]

theorem tame_setSlot {i : Nat} {y : Slot} (h : Tame s t) (kept : SlotKept (slotAt i t) y) : Tame s (setSlot i y t) := by
  refine tame_slots h (by simp [setSlot]) (fun j => ?_) rfl
  rw [slotAt_setSlot]
  split
  · next e => rw [e.1]; exact kept
  · exact .of_same rfl rfl rfl

/-- Records changed place by place. -/
theorem tame_mapIdx {f : Nat → Slot → Slot} {n : Nat} (h : Tame s t) (kept : ∀ i x, SlotKept x (f i x)) :
    Tame s (t.withStore ⟨t.store.slots.mapIdx f, n⟩) := by
  refine tame_slots h (by simp) (fun i => ?_) rfl
  rcases Nat.lt_or_ge i t.store.slots.length with lt | ge
  · rw [slotAt_of_lt lt, slotAt_of_lt (by simpa using lt)]
    simpa using kept i _
  · rw [slotAt_of_ge ge, slotAt_of_ge (by simpa using ge)]
    exact .of_same rfl rfl rfl

/-! ## Blocks that change their owner -/

/-- Counted blocks decide who owns what. -/
theorem BlocksSound.of_count (h : BlocksSound s) (slots : t.store.slots.length = s.store.slots.length)
    (titles : t.spool.titles.length = s.spool.titles.length)
    (empty : ∀ x ∈ t.store.slots, x.state = .empty → x.blocks = [])
    (count : ∀ b, (ownedBlocks t).count b = (ownedBlocks s).count b) : BlocksSound t :=
  ⟨slots.trans h.slots, titles.trans h.titles, empty, (List.perm_iff_count.mpr count).trans h.oneOwner⟩

/-- What a list of owners holds after one of them has been replaced. -/
theorem count_flatMap_set {α : Type} (f : α → List Nat) (b : Nat) : ∀ (l : List α) (i : Nat) (y : α) (h : i < l.length),
    ((l.set i y).flatMap f).count b + (f l[i]).count b = (l.flatMap f).count b + (f y).count b
  | x :: l, 0, y, _ => by simp only [List.set_cons_zero, List.flatMap_cons, List.count_append, List.getElem_cons_zero]; omega
  | x :: l, i + 1, y, h => by
    have ih := count_flatMap_set f b l i y (by simpa using h)
    simp only [List.set_cons_succ, List.flatMap_cons, List.count_append, List.getElem_cons_succ]
    omega

/-- The number of times a block stands among the slots' blocks. -/
def slotCountOf (b : Nat) (s : State) : Nat := (s.store.slots.flatMap (·.blocks)).count b

/-- The number of times a block stands among the titles' blocks. -/
def titleCountOf (b : Nat) (s : State) : Nat := (s.spool.titles.flatMap (fun t => (t.map (·.blocks)).getD [])).count b

theorem count_ownedBlocks (b : Nat) (s : State) :
    (ownedBlocks s).count b = s.pool.free.count b + s.pool.panel.count b + slotCountOf b s + titleCountOf b s := by
  simp only [ownedBlocks, List.count_append, slotCountOf, titleCountOf]

/-- A slot's record replaced, among the blocks of all slots. -/
theorem slotCountOf_setSlot (b : Nat) {i : Nat} {y : Slot} (h : i < s.store.slots.length ∨ y.blocks = []) :
    slotCountOf b (setSlot i y s) + (slotAt i s).blocks.count b = slotCountOf b s + y.blocks.count b := by
  rcases Nat.lt_or_ge i s.store.slots.length with lt | ge
  · rw [slotAt_of_lt lt]
    exact count_flatMap_set (·.blocks) b s.store.slots i y lt
  · have none : y.blocks = [] := h.resolve_left (by omega)
    rw [slotAt_of_ge ge, none]
    simp [slotCountOf, setSlot, List.set_eq_of_length_le ge, Slot.reset]

theorem titleAt_of_lt {i : Nat} (h : i < s.spool.titles.length) : titleAt i s = s.spool.titles[i] := by
  simp [titleAt, h]

/-- A number that names a title is one of the entries. -/
theorem title_in_table {i : Nat} {x : Title} (h : titleAt i s = some x) : i < s.spool.titles.length := by
  by_contra out
  simp [titleAt, List.getD, List.getElem?_eq_none (Nat.le_of_not_lt out)] at h

/-- The blocks of an entry of the title table. -/
def entryBlocks (x : Option Title) : List Nat := (x.map (·.blocks)).getD []

/-- A title replaced, among the blocks of all titles. -/
theorem titleCountOf_setTitle (b : Nat) {i : Nat} {y : Option Title} (h : i < s.spool.titles.length ∨ entryBlocks y = []) :
    titleCountOf b (setTitle i y s) + (entryBlocks (titleAt i s)).count b = titleCountOf b s + (entryBlocks y).count b := by
  rcases Nat.lt_or_ge i s.spool.titles.length with lt | ge
  · rw [titleAt_of_lt lt]
    exact count_flatMap_set (fun t => (t.map (·.blocks)).getD []) b s.spool.titles i y lt
  · have none : entryBlocks y = [] := h.resolve_left (by omega)
    have absent : titleAt i s = .none := by simp [titleAt, List.getD, List.getElem?_eq_none ge]
    rw [absent, none]
    simp [titleCountOf, setTitle, onSpool, List.set_eq_of_length_le ge, entryBlocks]

/-- A record replaced where the window does not hold the slot, with the blocks of all owners counted as before. -/
theorem keeps_slot_out {i : Nat} {y : Slot} (h : Tame s t) (out : WindowSound s → i ∉ t.window.entries)
    (slot : u.store.slots = t.store.slots.set i y) (empty : y.state = .empty → y.blocks = [])
    (pending : y.releasePending = true → y.state = .showing)
    (count : BlocksSound s → ∀ b, (ownedBlocks u).count b = (ownedBlocks t).count b)
    (rest : coreOf u = { coreOf t with free := u.pool.free, slots := u.store.slots }) : Keeps s u := by
  simp only [coreOf, Core.mk.injEq] at rest
  obtain ⟨hd, -, hp, -, ht, he, hc, hq, ha, hu, hk, ho, hQ, hC, hl, h1, h2, h3, hn⟩ := rest
  refine ⟨fun b => hd ▸ h.dram b, fun b => (h.blocks b).of_count (by simp [slot]) (by rw [ht]) (fun x hx => ?_) (count b),
    fun w => ?_, fun r => (h.reservations r).congr hq ha hu hk ho, fun c => (h.charge c).congr hQ hC hl,
    fun p => PortsWithin.congr (h.within _ p) (fun p => by cases p <;> assumption), hn.trans h.pending⟩
  · rw [slot] at hx
    rcases List.mem_or_eq_of_mem_set hx with old | rfl
    · exact (h.blocks b).emptyHoldsNone x old
    · exact empty
  · have sound := h.window w
    refine ⟨he ▸ sound.size, he ▸ sound.distinct, by rw [he, hc]; exact sound.cursorWithin,
      by rw [he, hc]; exact sound.cursorPresent, fun j hj => ?_, fun x hx => ?_⟩
    · rw [he] at hj
      have ne : j ≠ i := fun e => out w (e ▸ hj)
      have same : slotAt j u = slotAt j t := by simp [slotAt, slot, List.getElem?_set_ne (Ne.symm ne)]
      rw [eligible_iff, same]
      exact (eligible_iff j t).mp (sound.eligibleEntries j hj)
    · rw [slot] at hx
      rcases List.mem_or_eq_of_mem_set hx with old | rfl
      · exact sound.pendingShows x old
      · exact pending

/-- An operation that keeps the invariants, touches no port and no entry, and gives no blocks to a slot without them. -/
theorem Keeps.tame (k : Keeps s u) (h : Tame s t) (ports : ∀ p, u.port p = t.port p)
    (entries : u.window.entries = t.window.entries)
    (noBlocks : ∀ i, (slotAt i t).blocks = [] → (slotAt i u).blocks = []) : Tame s u :=
  ⟨k.dram, k.blocks, k.window, k.reservations, k.charge, fun b hb => (h.within b hb).congr ports, k.pending,
    fun i hi => entries ▸ h.entries i hi, fun i hi => noBlocks i (h.noBlocks i hi)⟩

/-- A slot emptied: its blocks at the tail of the free list. The window must not hold it. -/
theorem tame_emptySlot {i : Nat} (h : Tame s t) (out : WindowSound s → i ∉ t.window.entries) : Tame s (emptySlot i t) := by
  have at_slot (j : Nat) : slotAt j (emptySlot i t) = if j = i ∧ i < t.store.slots.length then .reset else slotAt j t :=
    slotAt_setSlot i j .reset (returnBlocks (slotAt i t).blocks t)
  refine Keeps.tame (keeps_slot_out h out (y := .reset) rfl (fun _ => rfl) (fun e => absurd e (by decide)) (fun _ b => ?_) rfl) h
    (fun p => by cases p <;> rfl) rfl fun j hj => ?_
  · have := slotCountOf_setSlot (s := t) b (i := i) (y := .reset) (.inr rfl)
    simp only [count_ownedBlocks]
    have free : (emptySlot i t).pool.free.count b = t.pool.free.count b + (slotAt i t).blocks.count b := List.count_append ..
    have slots : slotCountOf b (emptySlot i t) = slotCountOf b (setSlot i .reset t) := rfl
    have others : titleCountOf b (emptySlot i t) = titleCountOf b t ∧ (emptySlot i t).pool.panel = t.pool.panel := ⟨rfl, rfl⟩
    have none : Slot.reset.blocks.count b = 0 := rfl
    rw [free, slots, others.1, others.2]
    omega
  · rw [at_slot]; split
    · rfl
    · exact hj

/-- A slot outside the window takes another record with the same blocks. -/
theorem tame_setSlot_out {i : Nat} {y : Slot} (h : Tame s t) (out : WindowSound s → i ∉ t.window.entries)
    (blocks : y.blocks = (slotAt i t).blocks) (notEmpty : y.state ≠ .empty)
    (pending : y.releasePending = true → y.state = .showing) : Tame s (setSlot i y t) := by
  refine Keeps.tame (keeps_slot_out h out rfl (fun e => absurd e notEmpty) pending (fun _ b => ?_) rfl) h
    (fun p => by cases p <;> rfl) rfl fun j hj => ?_
  · have count := slotCountOf_setSlot (s := t) b (i := i) (y := y) (by
      rcases Nat.lt_or_ge i t.store.slots.length with lt | ge
      · exact .inl lt
      · exact .inr (by rw [blocks, slotAt_of_ge ge]; rfl))
    rw [blocks] at count
    have others : titleCountOf b (setSlot i y t) = titleCountOf b t ∧ (setSlot i y t).pool = t.pool := ⟨rfl, rfl⟩
    simp only [count_ownedBlocks, others.1, others.2]
    omega
  · rw [slotAt_setSlot]; split
    · next e => rw [blocks, ← e.1, hj]
    · exact hj

/-- Blocks that pass between the free list, the panel image and the titles: with every block counted as before, and a table of as many
entries. -/
theorem tame_blocks (h : Tame s t) (titles : u.spool.titles.length = t.spool.titles.length)
    (count : ∀ b, u.pool.free.count b + u.pool.panel.count b + titleCountOf b u
      = t.pool.free.count b + t.pool.panel.count b + titleCountOf b t)
    (rest : coreOf u = { coreOf t with free := u.pool.free, panel := u.pool.panel, titles := u.spool.titles }) :
    Tame s u := by
  simp only [coreOf, Core.mk.injEq] at rest
  obtain ⟨hd, -, -, hs, -, he, hc, hq, ha, hu, hk, ho, hQ, hC, hl, h1, h2, h3, hn⟩ := rest
  refine h.trans ⟨hd ▸ id, fun h => h.of_count (by rw [hs]) titles (hs ▸ h.emptyHoldsNone) fun b => ?_,
    fun h => h.congr he hc hs, fun h => h.congr hq ha hu hk ho, fun h => h.congr hQ hC hl,
    fun _ h => h.congr (fun p => by cases p <;> assumption), hn, he ▸ fun _ => id, fun i => by rw [slotAt_congr hs]; exact id⟩
  have := count b
  have slots : slotCountOf b u = slotCountOf b t := by simp only [slotCountOf, hs]
  simp only [count_ownedBlocks]
  omega

/-- A title's record replaced, its blocks the same. -/
theorem tame_setTitle {i : Nat} {y : Option Title} (h : Tame s t) (same : entryBlocks y = entryBlocks (titleAt i t)) :
    Tame s (setTitle i y t) := by
  refine tame_blocks h (by simp [setTitle, onSpool]) (fun b => ?_) rfl
  rcases Nat.lt_or_ge i t.spool.titles.length with lt | ge
  · have := titleCountOf_setTitle (s := t) b (y := y) (.inl lt)
    rw [same] at this
    simp only [setTitle, onSpool, State.withSpool_pool] at this ⊢
    omega
  · have unchanged : setTitle i y t = t := by
      simp only [setTitle, onSpool, List.set_eq_of_length_le ge]; rfl
    rw [unchanged]

/-! ## Window -/

/-- The window changed without a new entry, soundly. -/
theorem tame_window {w : Window} (h : Tame s t) (sound : WindowSound t → WindowSound (t.withWindow w))
    (old : ∀ i, i ∉ t.window.entries → i ∉ w.entries) : Tame s (t.withWindow w) :=
  h.trans ⟨id, fun h => h.congr rfl rfl rfl rfl, sound, fun h => h.congr rfl rfl rfl rfl rfl, fun h => h.congr rfl rfl rfl,
    fun _ h => h.congr fun p => t.withWindow_port w p, rfl, old, fun _ => id⟩

/-- The window changed soundly. -/
theorem keeps_window {w : Window} (sound : WindowSound s → WindowSound (s.withWindow w)) : Keeps s (s.withWindow w) :=
  ⟨id, fun h => h.congr rfl rfl rfl rfl, sound, fun h => h.congr rfl rfl rfl rfl rfl, fun h => h.congr rfl rfl rfl,
    fun h p => by rw [State.withWindow_port]; exact h p, rfl⟩

/-- A new list of entries and a new cursor, slots and all else as they were: what must hold of them. -/
theorem WindowSound.withEntries (h : WindowSound s) {w : Window} (size : w.entries.length ≤ Config.windowMax)
    (distinct : w.entries.Nodup) (within : ∀ c, w.cursor = some c → c < w.entries.length)
    (present : w.entries ≠ [] → w.cursor ≠ none) (usable : ∀ i ∈ w.entries, eligible i s = true) :
    WindowSound (s.withWindow w) :=
  ⟨size, distinct, within, present, usable, h.pendingShows⟩

/-- Entries some of which are gone. -/
theorem WindowSound.sublist (h : WindowSound s) {w : Window} (sub : w.entries.Sublist s.window.entries)
    (within : ∀ c, w.cursor = some c → c < w.entries.length) (present : w.entries ≠ [] → w.cursor ≠ none) :
    WindowSound (s.withWindow w) :=
  h.withEntries (sub.length_le.trans h.size) (sub.nodup h.distinct) within present
    fun i hi => h.eligibleEntries i (sub.subset hi)

/-! ## Work in progress and its charge -/

/-- Engine, charge account and assembly changed, with the reservations and the charge kept. -/
theorem tame_work (h : Tame s t) (reservations : ReservationsSound t → ReservationsSound u) (charge : ChargeSound t → ChargeSound u)
    (rest : coreOf u = { coreOf t with
      queue := u.engine.queue, active := u.engine.active, updates := u.charge.updates, chunk := u.charge.chunk,
      cost := u.spool.assembly.map (·.cost), q := u.charge.q, capacity := u.charge.params.capacity,
      level := u.charge.level }) :
    Tame s u := by
  simp only [coreOf, Core.mk.injEq] at rest
  obtain ⟨hd, hf, hp, hs, ht, he, hc, -, -, -, -, -, -, -, -, h1, h2, h3, hn⟩ := rest
  exact h.trans ⟨hd ▸ id, fun h => h.congr hf hp hs ht, fun h => h.congr he hc hs, reservations, charge,
    fun _ h => h.congr (fun p => by cases p <;> assumption), hn, he ▸ fun _ => id,
    fun i => by rw [slotAt_congr hs]; exact id⟩

end Sys2Proof.Machine
end

