-- ==== Sys2Proof/Proofs/KeepsShared.lean ====
section
/-! PROOFS. The shared operations are tame: notices and responses, the light and the charge account, the window, slots, the update
engine, the spool and the monitor, each under hooks that are. -/

namespace Sys2Proof.Machine

variable {s t : State}

/-! ## Notices, the platform's wake, responses, link health -/

@[simp] theorem isNotice_notice (n : Notice) : (Entry.notice n).isNotice = true := rfl
@[simp] theorem isNotice_response (k : Byte) (r : Result) (e : ErrorSet) (d : List Byte) :
    (Entry.response k r e d).isNotice = false := rfl

theorem removeOldest_filter {type : Nat} : ∀ {q q' : List Entry}, removeOldest type q = some q' →
    (q'.filter Entry.isNotice).length + 1 = (q.filter Entry.isNotice).length
      ∧ q'.filter (fun e => !e.isNotice) = q.filter (fun e => !e.isNotice)
  | .notice n :: q, q', h => by
    rw [removeOldest] at h
    split at h
    · cases h; simp [List.filter_cons]
    · obtain ⟨r, hr, rfl⟩ := Option.map_eq_some_iff.mp h
      obtain ⟨h1, h2⟩ := removeOldest_filter hr
      simp [List.filter_cons, h1, h2]
  | .response k r e d :: q, q', h => by
    rw [removeOldest] at h
    · obtain ⟨r, hr, rfl⟩ := Option.map_eq_some_iff.mp h
      obtain ⟨h1, h2⟩ := removeOldest_filter hr
      simp [h1, h2]
    · exact fun n => by simp

theorem removeOldestOf_filter {started : Bool} {type : Nat} {q q' : List Entry}
    (h : removeOldestOf started type q = some q') :
    (q'.filter Entry.isNotice).length + 1 = (q.filter Entry.isNotice).length
      ∧ q'.filter (fun e => !e.isNotice) = q.filter (fun e => !e.isNotice) := by
  unfold removeOldestOf at h
  split at h
  · next e q0 =>
    obtain ⟨r, hr, rfl⟩ := Option.map_eq_some_iff.mp h
    obtain ⟨h1, h2⟩ := removeOldest_filter hr
    cases e <;> simp [List.filter_cons, h1, h2]
  · exact removeOldest_filter h

theorem unitKept_offerUnit (n : Notice) (u : PortUnit) : UnitKept u (offerUnit n u) := by
  unfold offerUnit
  split
  · next room =>
    refine ⟨by simp [outstanding], fun _ => ?_⟩
    simp only [noticeCount, List.filter_append, List.length_append] at room ⊢
    exact room
  · split
    · next q found =>
      obtain ⟨fewer, same⟩ := removeOldestOf_filter found
      refine ⟨by simp [outstanding, same], fun h => ?_⟩
      simp only [noticeCount, List.filter_append, List.length_append] at h ⊢
      have one : ([Entry.notice n].filter Entry.isNotice).length = 1 := rfl
      omega
    · exact .of_same rfl rfl rfl

theorem tame_offerTo (p : Port) (n : Notice) (h : Tame s t) : Tame s (offerTo p n t) :=
  .ite (fun _ => h) fun _ => tame_onPort p h (unitKept_offerUnit n _)

theorem tame_onPlatform (f : Platform → Platform) (h : Tame s t) : Tame s (onPlatform f t) := tame_core h rfl
theorem tame_onLight (f : Light → Light) (h : Tame s t) : Tame s (onLight f t) := tame_core h rfl
theorem tame_onWave (f : WaveTable → WaveTable) (h : Tame s t) : Tame s (onWave f t) := tame_core h rfl
theorem tame_onMonitor (f : Monitor → Monitor) (h : Tame s t) : Tame s (onMonitor f t) := tame_core h rfl
theorem tame_countStat (f : SpoolCounters → SpoolCounters) (h : Tame s t) : Tame s (countStat f t) := tame_core h rfl

theorem tame_reportState (a b : PlatformState) (c : Cause) (h : Tame s t) : Tame s (reportState a b c t) :=
  tame_offerTo .standby _ h

theorem tame_restartIdle (h : Tame s t) : Tame s (restartIdle t) := tame_onPlatform _ h

theorem tame_enterActive (raise : Bool) (c : Cause) (h : Tame s t) : Tame s (enterActive raise c t) :=
  tame_reportState _ _ c (tame_onPlatform _ h)

theorem tame_startResume (a : Bool) (c : Cause) (m : Bool) (h : Tame s t) : Tame s (startResume a c m t) :=
  tame_onPlatform _ h

theorem tame_wakeByNotice (h : Tame s t) : Tame s (wakeByNotice t) := by
  unfold wakeByNotice
  split
  · exact tame_enterActive true _ h
  · exact tame_startResume true _ false h
  · exact h

theorem tame_offerMain (b : Bool) (n : Notice) (h : Tame s t) : Tame s (offerMain b n t) := by
  unfold offerMain
  refine .ite (fun _ => h) fun _ => ?_
  exact .ite (fun _ => tame_wakeByNotice (tame_offerTo .main n h)) fun _ => tame_offerTo .main n h

theorem tame_requestTaken (p : Port) (h : Tame s t) : Tame s (requestTaken p t) := by
  unfold requestTaken
  split
  · dsimp only
    split
    · exact tame_enterActive false _ (tame_onPlatform _ h)
    · exact tame_startResume true _ true (tame_onPlatform _ h)
    · exact tame_onPlatform _ h
  · exact tame_restartIdle h

/-- The request in process becomes a response, or nothing. -/
theorem tame_respond (p : Port) (r : Result) (data : List Byte) (h : Tame s t) : Tame s (respond p r data t) := by
  unfold respond
  split
  · exact h
  · next q inProcess =>
    dsimp only
    split
    · refine tame_onPort p h ⟨?_, id⟩
      simp [outstanding]
    · have unit : queueResponse p q.packet.kind r data (onPort p (fun u => { u with inProcess := none }) t)
          = t.withPort p { t.port p with
              inProcess := none, errors := .empty
              queue := (t.port p).queue ++ [.response q.packet.kind r (t.port p).errors data] } := by
        simp only [queueResponse, onPort, State.withPort_port_same, State.withPort_withPort]
      rw [unit]
      refine tame_withPort p h ⟨?_, fun h => ?_⟩
      · simp [outstanding, inProcess]; omega
      · simpa [noticeCount] using h

theorem tame_refuse (p : Port) (r : Result) (h : Tame s t) : Tame s (refuse p r t) := tame_respond p r [] h

theorem tame_linkTest (p : Port) (h : Tame s t) : Tame s (linkTest p t) := by
  unfold linkTest
  exact .ite (fun _ => tame_offerMain _ _ (tame_onPort p h (.of_same rfl rfl rfl))) fun _ => h

theorem tame_headerFails (p : Port) (h : Tame s t) : Tame s (headerFails p t) :=
  tame_linkTest p (tame_onPort p h (.of_same rfl rfl rfl))

theorem tame_refuseChecksum (p : Port) (h : Tame s t) : Tame s (refuseChecksum p t) :=
  tame_linkTest p (tame_onPort p (tame_refuse p _ h) (.of_same rfl rfl rfl))

theorem unitKept_resetUnit (x : Transfer) (u : PortUnit) : UnitKept u (resetUnit x u) := by
  refine ⟨?_, fun _ => Nat.zero_le _⟩
  simp only [resetUnit, outstanding, Option.isSome_map, List.length_nil, List.filter_nil]
  omega

/-! ## Light and charge account -/

/-- The platform's reactions are tame. -/
structure Hooks.AllTame (k : Hooks) : Prop where
  halt : ∀ c s, Tame s (k.halt c s)
  recheck : ∀ s, Tame s (k.recheck s)

theorem Hooks.quiet_tame : Hooks.quiet.AllTame := ⟨fun _ s => .refl s, .refl⟩

variable {k : Hooks}

theorem tame_capCut (hk : k.AllTame) (h : Tame s t) : Tame s (capCut k t) := by
  unfold capCut
  refine .ite (fun _ => ?_) fun _ => h
  exact .ite (fun _ => (tame_onLight _ h).trans (hk.recheck _)) fun _ => tame_onLight _ h

theorem tame_setChargeCap (hk : k.AllTame) (h : Tame s t) : Tame s (setChargeCap k t) := tame_capCut hk (tame_onLight _ h)

theorem tame_setThermalCap (hk : k.AllTame) (fault : Bool) (h : Tame s t) : Tame s (setThermalCap k fault t) :=
  tame_capCut hk (tame_onLight _ h)

theorem rawIndex_le (c : Charge) : rawIndex c ≤ 4 := by
  unfold rawIndex
  split
  · exact Nat.le_refl 4
  · split
    · omega
    · split
      · omega
      · split <;> omega

theorem nextLevel_le {c : Charge} (h : c.level ≤ 4) : nextLevel c ≤ 4 := by
  unfold nextLevel
  split
  · exact rawIndex_le c
  · split
    · cases found : (List.range c.level).find? (improves c) with
      | none => exact h
      | some j =>
        have := List.mem_range.mp (List.mem_of_find?_eq_some found)
        simp only [Option.getD_some]
        omega
    · exact h

theorem tame_setLevel {j : Nat} (within : t.charge.level ≤ 4 → j ≤ 4) (h : Tame s t) :
    Tame s (onCharge (fun c => { c with level := j }) t) :=
  tame_work h (fun h => h.congr rfl rfl rfl rfl rfl) (fun h => ⟨h.withinFull, within h.index⟩) rfl

theorem tame_changeLevel (hk : k.AllTame) {j : Nat} (within : t.charge.level ≤ 4 → j ≤ 4) (h : Tame s t) :
    Tame s (changeLevel k j t) := by
  have level := tame_setChargeCap hk (tame_offerTo .standby
    (chargeLevelNotice (onCharge (fun c => { c with level := j }) t).charge) (tame_offerMain (decide (t.charge.level < j))
      (chargeLevelNotice (onCharge (fun c => { c with level := j }) t).charge) (tame_setLevel within h)))
  unfold changeLevel
  exact .ite (fun _ => level.trans (hk.halt _ _)) fun _ => level

theorem tame_spoolEvaluated (h : Tame s t) : Tame s (spoolEvaluated t) :=
  .ite (fun _ => tame_offerTo .radio _ (tame_core (u := onSpool _ t) h rfl)) fun _ => h

theorem tame_evaluate (hk : k.AllTame) (h : Tame s t) : Tame s (evaluate k t) :=
  tame_spoolEvaluated (.ite (fun _ => h) fun _ => tame_changeLevel hk nextLevel_le h)

/-- A new charge within the capacity. -/
theorem tame_charge {c : Charge} (h : Tame s t) (updates : c.updates = t.charge.updates) (chunk : c.chunk = t.charge.chunk)
    (sound : ChargeSound t → c.q ≤ qFull c ∧ c.level ≤ 4) : Tame s (t.withCharge c) :=
  tame_work h (fun h => h.congr rfl rfl updates chunk rfl) (fun h => ⟨(sound h).1, (sound h).2⟩) rfl

theorem tame_batiSample (hk : k.AllTame) (v : Int) (n : Nat) (test : Bool) (h : Tame s t) :
    Tame s (batiSample k v n test t) := by
  unfold batiSample
  refine .ite (fun _ => tame_evaluate hk h) fun _ => tame_evaluate hk (tame_charge h rfl rfl fun h => ⟨?_, h.index⟩)
  show (max 0 (min ((t.charge.q : Int) + v * n) (qFull t.charge))).toNat ≤ qFull t.charge
  omega

theorem ocvPerMille_le (ocv : List Nat) (v : Int) : ocvPerMille ocv v ≤ 1000 := by
  unfold ocvPerMille
  dsimp only
  split
  · omega
  · split
    · omega
    · split
      · next i found =>
        have lt := List.mem_range.mp (List.mem_of_find?_eq_some found)
        have between := List.find?_some found
        simp only [decide_eq_true_eq] at between
        have part : 100 * (v.toNat - ocv.getD i 0) / (ocv.getD (i + 1) 0 - ocv.getD i 0) ≤ 100 :=
          Nat.div_le_of_le_mul (by rw [Nat.mul_comm]; exact Nat.mul_le_mul_right _ (by omega))
        omega
      · omega

/-- The start-up estimate changes the charge and the level index, both within their ranges. -/
theorem exists_startUpEstimate (v : Int) (c : Charge) :
    ∃ q l, startUpEstimate v c = { c with q := q, level := l } ∧ q ≤ qFull c ∧ l ≤ 4 := by
  refine ⟨_, _, rfl, ?_, rawIndex_le _⟩
  generalize qFull c = full
  exact Nat.div_le_of_le_mul (by rw [Nat.mul_comm]; exact Nat.mul_le_mul_right _ (ocvPerMille_le _ v))

theorem tame_startUpEstimate (v : Int) (h : Tame s t) : Tame s (onCharge (startUpEstimate v) t) := by
  obtain ⟨q, l, estimate, within, index⟩ := exists_startUpEstimate v t.charge
  rw [onCharge, estimate]
  exact tame_charge h rfl rfl fun _ => ⟨within, index⟩

/-! ## Window -/

theorem tame_lowWater (h : Tame s t) : Tame s (lowWater t) := by
  unfold lowWater
  exact .ite (fun _ => tame_offerMain true _ (tame_core h rfl)) fun _ => tame_core h rfl

theorem tame_turnFailure (h : Tame s t) : Tame s (turnFailure t) := by
  unfold turnFailure
  split
  · next x _ =>
    refine .ite (fun held => tame_lowWater (tame_window h (fun w => ?_) fun _ => id)) fun _ => h
    have present : x ∈ t.window.entries := by simpa using held
    exact w.sublist (.refl _) (fun c e => by cases e; exact List.idxOf_lt_length_iff.mpr present) fun _ => by simp
  · exact h

theorem tame_windowUpdateEnded (r : UpdateResult) (i : Nat) (h : Tame s t) : Tame s (windowUpdateEnded r i t) := by
  unfold windowUpdateEnded
  exact .ite (fun _ => tame_core h rfl) fun _ => tame_turnFailure h

theorem tame_turnReport (h : Tame s t) : Tame s (turnReport t) := by
  unfold turnReport
  split
  · exact tame_onPlatform _ h
  · exact tame_startResume false _ false h
  · exact h

theorem removeAt_entries (i : Nat) (w : Window) : (removeAt i w).entries = w.entries.eraseIdx i := rfl

/-- The removal rule keeps the window sound. -/
theorem WindowSound.removeAt (h : WindowSound s) {i : Nat} (lt : i < s.window.entries.length) :
    WindowSound (s.withWindow (removeAt i s.window)) := by
  have shorter := List.length_eraseIdx_of_lt lt
  refine h.sublist (List.eraseIdx_sublist _ _) (fun c hc => ?_) fun some_left => ?_
  · have present := h.cursorPresent (List.ne_nil_of_length_pos (by omega))
    obtain ⟨c0, hc0⟩ := Option.ne_none_iff_exists'.mp present
    have := h.cursorWithin c0 hc0
    simp only [Machine.removeAt, hc0, Option.getD_some, ← List.length_eq_zero_iff] at hc ⊢
    split at hc
    · cases hc
    · split at hc
      · cases hc; omega
      · split at hc
        · cases hc; omega
        · cases hc; omega
  · simp only [Machine.removeAt] at some_left ⊢
    rw [if_neg some_left]
    split
    · simp
    · split <;> simp

theorem removeSlot_entries_of_nodup {i : Nat} {w : Window} (h : w.entries.Nodup) : i ∉ (removeSlot i w).entries := by
  unfold removeSlot
  split
  · rw [removeAt_entries, ← List.erase_eq_eraseIdx_of_idxOf rfl]
    exact h.not_mem_erase
  · next out => simpa using out

theorem removeSlot_entries_sub {i j : Nat} {w : Window} (h : j ∉ w.entries) : j ∉ (removeSlot i w).entries := by
  unfold removeSlot
  split
  · exact fun hj => h (List.mem_of_mem_eraseIdx hj)
  · exact h

theorem WindowSound.removeSlot (h : WindowSound s) (i : Nat) : WindowSound (s.withWindow (removeSlot i s.window)) := by
  unfold Machine.removeSlot
  split
  · next held => exact h.removeAt (List.idxOf_lt_length_iff.mpr (by simpa using held))
  · exact h.congr rfl rfl rfl

theorem forgetShown_entries (i : Nat) (w : Window) :
    (forgetShown i w).entries = w.entries ∧ (forgetShown i w).cursor = w.cursor := by
  unfold forgetShown; split <;> exact ⟨rfl, rfl⟩

theorem tame_forgetShown (i : Nat) (h : Tame s t) : Tame s (onWindow (forgetShown i) t) := by
  have same := forgetShown_entries i t.window
  exact tame_window h (fun w => w.congr same.1 same.2 rfl) fun _ => same.1 ▸ id

/-! ## Slots -/

theorem tame_renumber (h : Tame s t) : Tame s (renumber t) := by
  refine tame_mapIdx h fun i x => ?_
  split <;> exact .of_same rfl rfl rfl

theorem tame_takeStamp (i : Nat) (h : Tame s t) : Tame s (takeStamp i t) := by
  have stamped {u : State} (h : Tame s u) :
      Tame s (setSlot i { slotAt i u with stamp := some u.store.useCounter } u) :=
    tame_setSlot h (.of_same rfl rfl rfl)
  unfold takeStamp
  dsimp only
  split
  · exact tame_core (stamped (tame_renumber h)) rfl
  · exact tame_core (stamped h) rfl

theorem slotKept_raise (x : Slot) :
    SlotKept x { x with showing := x.showing + 1, state := if x.state = .ready then .showing else x.state } := by
  refine ⟨rfl, fun e => ?_, fun hx e => ?_, fun hx e => ?_⟩
  · dsimp only at e; split at e
    · exact absurd e (by decide)
    · exact e
  · by_cases ready : x.state = .ready
    · have none : x.releasePending = false := by
        rw [← Bool.not_eq_true]; exact fun p => absurd (hx p) (by rw [ready]; decide)
      simp [sourceReady, ready, none]
    · simpa [sourceReady, ready] using e
  · simp only [hx e]; decide

theorem tame_raiseShowing (i : Nat) (h : Tame s t) : Tame s (raiseShowing i t) := tame_setSlot h (slotKept_raise _)

theorem slotKept_lower (x : Slot) (none : x.releasePending = false) :
    SlotKept x { x with showing := 0, state := if x.state = .showing then .ready else x.state } := by
  refine ⟨rfl, fun e => ?_, fun _ e => ?_, fun _ e => absurd e (by simp [none])⟩
  · dsimp only at e; split at e
    · exact absurd e (by decide)
    · exact e
  · by_cases showing : x.state = .showing
    · simp [sourceReady, showing]
    · simpa [sourceReady, showing] using e

/-- A slot with release pending is not in a sound window. -/
theorem WindowSound.not_entry_of_pending (h : WindowSound s) {i : Nat} (pending : (slotAt i s).releasePending = true) :
    i ∉ s.window.entries := fun hi => by
  have := ((eligible_iff i s).mp (h.eligibleEntries i hi)).2
  simp [sourceReady, h.slot_pending i pending, pending] at this

theorem tame_lowerShowing (i : Nat) (h : Tame s t) : Tame s (lowerShowing i t) := by
  unfold lowerShowing
  refine .ite (fun _ => .ite (fun pending => ?_) fun none => ?_) fun _ => tame_setSlot h (.of_same rfl rfl rfl)
  · exact tame_emptySlot h fun w => (h.window w).not_entry_of_pending pending
  · exact tame_setSlot h (slotKept_lower _ (by simpa using none))

end Sys2Proof.Machine
end

