-- ==== Sys2Proof/Proofs/KeepsEngine.lean ====
section
/-! PROOFS. The update engine's work is tame: submission under a fresh id, the start of a scan, the end of an update with its
reservation, the consideration pass. -/

namespace Sys2Proof.Machine

variable {s t : State} {k : Hooks}

/-! ## Fresh ids (R40) -/

/-- An id that is taken after `fuel` attempts has met only ids that are taken. -/
theorem mem_of_freshId_mem {live : List Nat} : ∀ {fuel n : Nat}, freshId fuel n live ∈ live →
    ∀ j, j < fuel → idAfter^[j] n ∈ live
  | fuel + 1, n, h, j, hj => by
    rw [freshId] at h
    split at h
    · next here =>
      cases j with
      | zero => simpa using here
      | succ j =>
        rw [Function.iterate_succ_apply]
        exact mem_of_freshId_mem h j (by omega)
    · next here => exact absurd h (by simpa using here)

/-- Where the counter stands after a few ids: it wraps from 65535 to 1. -/
theorem idAfter_iterate (n : Nat) : ∀ j, j ≤ 13 → idAfter^[j] n =
    if n + j ≤ 65535 then n + j else if n ≤ 65535 then n + j - 65535 else if j = 0 then n else j
  | 0, _ => by rw [Function.iterate_zero_apply]; split_ifs <;> omega
  | j + 1, h => by
    rw [Function.iterate_succ_apply', idAfter_iterate n j (by omega), idAfter, if_neg (Nat.succ_ne_zero j)]
    split_ifs <;> omega

/-- Thirteen attempts find an id that none of twelve live records holds. -/
theorem freshId_not_mem {n : Nat} {live : List Nat} (few : live.length ≤ 12) : freshId 13 n live ∉ live := by
  intro taken
  have distinct : ((List.range 13).map (idAfter^[·] n)).Nodup := by
    refine List.nodup_range.map_on fun i hi j hj same => ?_
    rw [List.mem_range] at hi hj
    rw [idAfter_iterate n i (by omega), idAfter_iterate n j (by omega)] at same
    split_ifs at same <;> omega
  have subset : (List.range 13).map (idAfter^[·] n) ⊆ live := by
    intro x hx
    obtain ⟨j, hj, rfl⟩ := List.mem_map.mp hx
    exact mem_of_freshId_mem taken j (List.mem_range.mp hj)
  have := (List.subperm_of_subset distinct subset).length_le
  simp at this
  omega

theorem newId_not_live (h : EngineSound s) : newId s.engine ∉ liveIds s.engine := by
  refine freshId_not_mem ?_
  have := h.pendingRoom
  have := h.lanes
  simp only [liveIds, List.length_append, List.length_map, Config.queueMax, Config.laneCount] at *
  omega

/-! ## Submission (R41) -/

theorem tame_submit {o : Origin} {req : PortSet} {i : Nat} {r : Region} {m : Mode} (h : Tame s t)
    (room : queueHasRoom t.engine = true) : Tame s (submit o req i r m t) := by
  refine tame_work h (fun h => ⟨⟨?_, h.engine.lanes, ?_, h.engine.apart⟩, h.updates, h.chunk⟩)
    (fun h => h.congr rfl rfl rfl) rfl
  · have : t.engine.queue.length < Config.queueMax := by simpa [queueHasRoom] using room
    simpa [submit, onEngine] using this
  · have fresh := newId_not_live h.engine
    have old := h.engine.ids
    simp only [liveIds, submit, onEngine, State.withEngine_engine, List.map_append, List.map_cons, List.map_nil] at *
    have comm : (t.engine.queue.map (·.id) ++ [newId t.engine] ++ t.engine.active.map (·.id)).Perm
        (newId t.engine :: (t.engine.queue.map (·.id) ++ t.engine.active.map (·.id))) := by
      simp
    exact comm.nodup_iff.mpr (List.nodup_cons.mpr ⟨fresh, old⟩)

/-! ## The end of an update (R54) -/

/-- The state without the record of an id and without its reservation. -/
def withoutRecord (id : Nat) (t : State) : State :=
  { t with
    engine := { t.engine with queue := t.engine.queue.filter (fun v => v.id != id)
                              active := t.engine.active.filter (fun v => v.id != id) }
    charge := { t.charge with updates := t.charge.updates.filter (fun r => r.1 != id) } }

theorem drivingCosts_filter (id : Nat) (e : Engine) (q : List Update) :
    drivingCosts { e with queue := q, active := e.active.filter (fun v => v.id != id) }
      = (drivingCosts e).filter (fun r => r.1 != id) := by
  simp only [drivingCosts, drivingUpdates, List.filter_map, List.filter_filter, Function.comp_def, Bool.and_comm]

theorem tame_withoutRecord (id : Nat) (h : Tame s t) : Tame s (withoutRecord id t) := by
  refine tame_work h (fun h => ⟨⟨?_, ?_, ?_, h.engine.apart.filter _⟩, ?_, h.chunk⟩) (fun h => h.congr rfl rfl rfl) rfl
  · exact (List.length_filter_le ..).trans h.engine.pendingRoom
  · exact (List.length_filter_le ..).trans h.engine.lanes
  · exact ((List.filter_sublist.map _).append (List.filter_sublist.map _)).nodup h.engine.ids
  · have costs := drivingCosts_filter id t.engine (t.engine.queue.filter (fun v => v.id != id))
    exact (h.updates.filter _).trans (.of_eq costs.symm)

/-- The record of an id discarded, its reservation released. -/
theorem tame_discard (hk : k.AllTame) (id : Nat) (h : Tame s t) :
    Tame s (releaseUpdate k id (onEngine (fun e => { e with
      queue := e.queue.filter (fun v => v.id != id), active := e.active.filter (fun v => v.id != id) }) t)) := by
  have gone := tame_withoutRecord id h
  unfold releaseUpdate
  refine .ite (fun _ => tame_evaluate hk gone) fun none => ?_
  have unreserved : t.charge.updates.filter (fun r => r.1 != id) = t.charge.updates := by
    rw [List.filter_eq_self]
    intro r hr
    simp only [Bool.not_eq_true, List.any_eq_false] at none
    simpa using none r hr
  exact tame_core gone (by simp only [coreOf, withoutRecord, unreserved]; rfl)

theorem tame_applyTargets (u : Update) (r : UpdateResult) (h : Tame s t) : Tame s (applyTargets u r t) := by
  unfold applyTargets
  refine .ite (fun _ => ?_) fun _ => h
  exact tame_core (tame_dram h (wf_paintTargets u.mode u.source u.region t)) rfl

theorem tame_notifyRequesters (u : Update) (n : Notice) (h : Tame s t) : Tame s (notifyRequesters u n t) := by
  have main := tame_ite (c := u.requesters.main = true) (fun _ => tame_offerMain false n) h
  have standby := tame_ite (c := u.requesters.standby = true) (fun _ => tame_offerTo .standby n) main
  exact tame_ite (fun _ => tame_offerTo .radio n) standby

theorem tame_endUpdate (hk : k.AllTame) (u : Update) (r : UpdateResult) (tag : Word32) (h : Tame s t) :
    Tame s (endUpdate k u r tag t) := by
  have painted := tame_applyTargets u r (tame_discard hk u.id h)
  unfold endUpdate
  extract_lets s1 s2 s3 s4 s5 s6
  have lowered : Tame s s4 := .ite (fun _ => painted) fun _ => tame_lowerShowing _ painted
  have told : Tame s s5 := tame_notifyRequesters u _ lowered
  have ended : Tame s s6 := tame_ite (fun _ => tame_windowUpdateEnded r _) told
  exact tame_ite (fun _ => tame_restartIdle) ended

theorem tame_endWithTag (hk : k.AllTame) (u : Update) (r : UpdateResult) (h : Tame s t) : Tame s (endWithTag k u r t) :=
  tame_endUpdate hk u r _ h

theorem tame_sourceGone (hk : k.AllTame) (i : Nat) (tag : Word32) (h : Tame s t) : Tame s (sourceGone k i tag t) :=
  h.trans (.foldl (fun t _ => tame_endUpdate hk _ _ tag (.refl t)) _ _)

theorem tame_cancelPending (hk : k.AllTame) (h : Tame s t) : Tame s (cancelPending k t) :=
  h.trans (.foldl (fun t _ => tame_endWithTag hk _ _ (.refl t)) _ _)

/-! ## The start of a scan and the consideration pass (R45 to R48) -/

theorem overlaps_comm (a b : Region) : overlaps a b = overlaps b a := by
  simp only [overlaps]
  grind

/-- What the start rule gives: a free lane and a region apart from those of the active updates. -/
theorem canStart_engine {u : Update} (h : canStart u s = true) :
    s.engine.active.length < Config.laneCount ∧ ∀ v ∈ s.engine.active, overlaps v.region u.region = false := by
  simp only [canStart, Bool.and_eq_true, decide_eq_true_eq, List.all_eq_true, Bool.not_eq_true'] at h
  obtain ⟨⟨⟨⟨⟨⟨_, apart⟩, _⟩, lanes⟩, _⟩, _⟩, _⟩ := h
  exact ⟨lanes, fun v hv => overlaps_comm u.region v.region ▸ apart v hv⟩

/-- The ids of the live records while one of them moves from the queue to a lane. -/
theorem nodup_ids_of_started {q : List Update} {ids : List Nat} {u : Update} (h : (q.map (·.id) ++ ids).Nodup) (hu : u ∈ q) :
    ((q.filter (fun v => v.id != u.id)).map (·.id) ++ (ids ++ [u.id])).Nodup := by
  obtain ⟨hq, hids, apart⟩ := List.nodup_append.mp h
  have mem : u.id ∈ q.map (·.id) := List.mem_map_of_mem hu
  refine List.nodup_append.mpr ⟨(List.filter_sublist.map _).nodup hq, ?_, ?_⟩
  · exact List.nodup_append.mpr ⟨hids, List.nodup_singleton _, fun a ha b hb => by
      rw [List.mem_singleton.mp hb]; exact fun e => apart u.id mem a ha e.symm⟩
  · intro a ha b hb
    obtain ⟨v, hv, rfl⟩ := List.mem_map.mp ha
    obtain ⟨hv, ne⟩ := List.mem_filter.mp hv
    rcases List.mem_append.mp hb with hb | hb
    · exact apart _ (List.mem_map_of_mem hv) b hb
    · rw [List.mem_singleton.mp hb]; simpa using ne

theorem tame_startScan {u : Update} (h : Tame s t) (pending : u ∈ t.engine.queue) (can : canStart u t = true) :
    Tame s (startScan u t) := by
  obtain ⟨lane, apart⟩ := canStart_engine can
  refine tame_takeStamp _ (tame_raiseShowing _ (tame_work h (fun h => ⟨⟨?_, ?_, ?_, ?_⟩, ?_, h.chunk⟩)
    (fun h => h.congr rfl rfl rfl) rfl))
  · exact (List.length_filter_le ..).trans h.engine.pendingRoom
  · simpa [onEngine] using lane
  · have := nodup_ids_of_started h.engine.ids pending
    simpa [liveIds, onEngine] using this
  · exact List.pairwise_append.mpr ⟨h.engine.apart, List.pairwise_singleton .., fun v hv w hw => by
      rw [List.mem_singleton.mp hw]; exact apart v hv⟩
  · have := h.updates
    simpa [drivingCosts, drivingUpdates, onEngine] using this

theorem tame_decideEntry (hk : k.AllTame) {u : Update} (h : Tame s t) (pending : u ∈ t.engine.queue) :
    Tame s (decideEntry k u t) := by
  unfold decideEntry
  split
  · exact tame_endWithTag hk u _ h
  · exact tame_endWithTag hk u _ h
  · exact h
  · exact .ite (fun _ => tame_endWithTag hk u _ h) fun _ => .ite (fun can => tame_startScan h pending can) fun _ => h

theorem tame_considerEntry (hk : k.AllTame) (id : Nat) (h : Tame s t) : Tame s (considerEntry k id t) := by
  unfold considerEntry
  split
  · next found => exact tame_decideEntry hk h (List.mem_of_find?_eq_some found)
  · exact h

theorem tame_considerationPass (hk : k.AllTame) (h : Tame s t) : Tame s (considerationPass k t) :=
  h.trans (.foldl (fun t id => tame_considerEntry hk id (.refl t)) _ _)

end Sys2Proof.Machine
end

