-- ==== Sys2Proof/Proofs/KeepsTransitions.lean ====
section
/-! PROOFS. The spool's and the monitor's shared operations and the platform's transitions are tame, and with them the reactions of the
platform controller to every report. -/

namespace Sys2Proof.Machine

variable {s t : State} {k : Hooks}

/-! ## Spool -/

/-- Blocks at the end of a title's list return to the free list. -/
theorem tame_trimTitle (i : Nat) (h : Tame s t) : Tame s (trimTitle i t) := by
  unfold trimTitle
  split
  · next x found =>
    refine tame_blocks h (by simp [setTitle, onSpool, returnBlocks, onPool]) (fun b => ?_) rfl
    have lt := title_in_table found
    let kept : Title := { x with blocks := x.blocks.take (blocksFor x.received) }
    have titles := titleCountOf_setTitle (s := t) b (i := i) (y := some kept) (.inl lt)
    have parts := congrArg (List.count b) (List.take_append_drop (blocksFor x.received) x.blocks)
    rw [found] at titles
    simp only [entryBlocks, Option.map_some, Option.getD_some, List.count_append, kept] at titles parts
    simp only [titleCountOf, returnBlocks, onPool, setTitle, onSpool, List.count_append, State.withPool_pool,
      State.withPool_spool, State.withSpool_pool] at titles ⊢
    omega
  · exact h

/-- The assembly closed and its reservation released. -/
theorem tame_closeWork (hk : k.AllTame) (h : Tame s t) :
    Tame s (releaseChunk k (onSpool (fun sp => { sp with assembly := none }) t)) := by
  unfold releaseChunk
  refine .ite (fun _ => tame_evaluate hk ?_) fun none => ?_
  · exact tame_work h (fun h => ⟨h.engine.congr rfl rfl, h.updates, rfl⟩) (fun h => h.congr rfl rfl rfl) rfl
  · have unreserved : t.charge.chunk = .none := Option.not_isSome_iff_eq_none.mp none
    exact tame_work h (fun h => ⟨h.engine.congr rfl rfl, h.updates, unreserved⟩) (fun h => h.congr rfl rfl rfl) rfl

theorem tame_closeAssembly (hk : k.AllTame) (h : Tame s t) : Tame s (closeAssembly k t) := by
  unfold closeAssembly
  split
  · exact tame_closeWork hk (tame_trimTitle _ h)
  · exact h

theorem tame_dropAssembly (hk : k.AllTame) (c : DropCause) (b : Bool) (h : Tame s t) : Tame s (dropAssembly k c b t) := by
  unfold dropAssembly
  refine .ite (fun _ => ?_) fun _ => h
  have dropped := tame_countStat (fun c' =>
    match c with
    | .aged => { c' with aged := saturatingSucc c'.aged }
    | _ => { c' with abandoned := saturatingSucc c'.abandoned }) (tame_closeAssembly hk h)
  dsimp only
  split
  · exact tame_ite (fun _ => tame_offerTo .radio _) dropped
  · exact dropped

theorem tame_resetRadioPort (hk : k.AllTame) (x : Transfer) (h : Tame s t) : Tame s (resetRadioPort k x t) :=
  tame_onPort .radio (tame_core (tame_dropAssembly hk .abandoned false h) rfl) (unitKept_resetUnit x _)

theorem tame_notifyTitle (n : Notice) (h : Tame s t) : Tame s (notifyTitle n t) :=
  tame_offerTo .radio n (tame_offerMain _ n h)

theorem tame_completeTitle (i : Nat) (h : Tame s t) : Tame s (completeTitle i t) := by
  unfold completeTitle
  split
  · next found => exact tame_notifyTitle _ (tame_setTitle h (by rw [found]; rfl))
  · exact h

theorem tame_failTitle (i : Nat) (c : FailCause) (h : Tame s t) : Tame s (failTitle i c t) := by
  unfold failTitle
  split
  · next found => exact tame_notifyTitle _ (tame_setTitle h (by rw [found]; rfl))
  · exact h

theorem tame_joinVerifying (i : Nat) (x : Title) (h : Tame s t) : Tame s (joinVerifying i x t) :=
  .ite (fun _ => tame_core h rfl) fun _ => h

theorem titleAfterChunk_blocks (x : Title) (a : Assembly) (c : Nat) : (titleAfterChunk x a c).blocks = x.blocks := by
  unfold titleAfterChunk
  dsimp only
  split <;> rfl

theorem tame_endChunk (hk : k.AllTame) (p : Port) (a : Assembly) (h : Tame s t) : Tame s (endChunk k p a t) := by
  unfold endChunk
  split
  · exact h
  · next x found =>
    extract_lets t1 s1 s2 s3
    have recorded : Tame s (setTitle a.entry (some t1) t) :=
      tame_setTitle h (by rw [found]; exact titleAfterChunk_blocks x a _)
    have closed : Tame s s1 := tame_joinVerifying _ _ (tame_closeWork hk (tame_countStat _ recorded))
    have timed : Tame s s2 := tame_ite (fun _ => tame_restartIdle) closed
    have answered : Tame s s3 := (tame_respond p _ _ timed).trans (hk.recheck _)
    exact tame_ite (fun _ => tame_completeTitle _) answered

/-! ## Monitor -/

theorem tame_setChannel (c : Channel) (x : ChannelState) (h : Tame s t) : Tame s (setChannel c x t) := tame_onMonitor _ h

theorem tame_brownout (hk : k.AllTame) (h : Tame s t) : Tame s (brownout k t) := by
  unfold brownout
  split
  · exact tame_onPlatform _ h
  · exact h
  · exact h.trans (hk.halt _ _)

theorem tame_faultEffect (hk : k.AllTame) (c : Channel) (b : Bool) (h : Tame s t) : Tame s (faultEffect k c b t) := by
  unfold faultEffect
  split
  · exact tame_ite (fun _ => tame_brownout hk) h
  · exact tame_setThermalCap hk b h
  · exact .ite (fun _ => h) fun _ => (tame_considerationPass hk h).trans (hk.recheck _)
  · exact h

theorem tame_handOver (hk : k.AllTame) (c : Channel) (v : Int) (n : Nat) (b : Bool) (h : Tame s t) :
    Tame s (handOver k c v n b t) := by
  unfold handOver
  split
  · exact tame_batiSample hk v n b h
  · exact tame_onLight _ h
  · exact h

theorem tame_sampleChannel (hk : k.AllTame) (c : Channel) (raw n : Nat) (h : Tame s t) :
    Tame s (sampleChannel k c raw n t) := by
  unfold sampleChannel
  extract_lets x v test x1 s1 s2
  have recorded : Tame s s1 := tame_setChannel c _ h
  have effect : Tame s s2 :=
    tame_ite (f := fun t => faultEffect k c (!x.fault) (offerMain (!x.fault) (.monitorFault c v (!x.fault) test) t))
      (fun _ h => tame_faultEffect hk c _ (tame_offerMain _ _ h)) recorded
  exact tame_handOver hk c v n test effect

theorem tame_sequenceWith (hk : k.AllTame) (r : Readings) (n : Nat) (first : Bool) (h : Tame s t) :
    Tame s (sequenceWith k r n first t) := by
  unfold sequenceWith
  extract_lets s1 s2 s3
  have batv : Tame s s1 := tame_sampleChannel hk .batv _ n (tame_onMonitor _ h)
  have estimated : Tame s s2 := .ite (fun _ => tame_startUpEstimate _ batv) fun _ => batv
  have others : Tame s s3 := tame_sampleChannel hk .amb _ n (tame_sampleChannel hk .dtemp _ n
    (tame_sampleChannel hk .ptemp _ n (tame_sampleChannel hk .bati _ n estimated)))
  exact tame_ite (fun _ => tame_sampleChannel hk .panv _ n) others

theorem tame_useReadings (h : Tame s t) : Tame s (useReadings t) := by
  unfold useReadings
  split
  · exact tame_core h rfl
  · exact tame_core h rfl

theorem tame_changePeriod (hk : k.AllTame) (h : Tame s t) : Tame s (changePeriod k t) :=
  tame_sequenceWith hk _ _ false (tame_useReadings h)

/-! ## Transitions -/

theorem tame_suspendScrub (h : Tame s t) : Tame s (suspendScrub t) := tame_onWave _ h
theorem tame_startTimers (h : Tame s t) : Tame s (startTimers t) := tame_core h rfl
theorem tame_stopTimers (h : Tame s t) : Tame s (stopTimers t) := tame_core h rfl

theorem tame_haltingEntry (c : HaltCause) (h : Tame s t) : Tame s (haltingEntry c t) := by
  have hk := Hooks.quiet_tame
  unfold haltingEntry
  refine .ite (fun _ => h) fun _ => ?_
  refine tame_ite (fun _ => tame_changePeriod hk) ?_
  refine tame_considerationPass hk (tame_reportState _ _ _ (tame_suspendScrub (tame_resetRadioPort hk _
    (tame_onPlatform _ (tame_dropAssembly hk _ _ (tame_cancelPending hk (tame_onPlatform _ h)))))))

theorem blocksSound_of_initial {u : State} (pool : u.pool = .reset) (store : u.store = .reset)
    (titles : u.spool.titles = List.replicate Config.titleCount none) : BlocksSound u := by
  refine ⟨by rw [store]; rfl, by rw [titles]; rfl, fun x hx _ => ?_, ?_⟩
  · rw [store] at hx
    rw [List.eq_of_mem_replicate hx]; rfl
  · have noSlots : PageStore.reset.slots.flatMap (·.blocks) = [] := rfl
    have noTitles : (List.replicate Config.titleCount (none : Option Title)).flatMap (fun t => (t.map (·.blocks)).getD []) = [] :=
      rfl
    have split : List.range Config.blockCount = List.range 12 ++ (List.range 1012).map (· + 12) := by
      rw [show Config.blockCount = 12 + 1012 from rfl, List.range_add]
      simp only [Nat.add_comm]
    simp only [ownedBlocks, pool, store, titles, noSlots, noTitles, List.append_nil, Pool.reset, split]
    exact List.perm_append_comm

/-- Everything the invariants look at lost but the charge and the ports' units, as at OFF entry, restart and power-on. -/
theorem tame_wiped {u : State} (h : Tame s t) (dram : u.dram = []) (pool : u.pool = .reset) (store : u.store = .reset)
    (titles : u.spool.titles = List.replicate Config.titleCount none) (entries : u.window.entries = [])
    (cursor : u.window.cursor = none) (queue : u.engine.queue = []) (active : u.engine.active = [])
    (updates : u.charge.updates = []) (chunk : u.charge.chunk = none) (assembly : u.spool.assembly = none)
    (charge : ChargeSound t → ChargeSound u) (ports : ∀ p, UnitKept (t.port p) (u.port p))
    (pending : u.pending = t.pending) : Tame s u := by
  refine h.trans ⟨fun _ => by rw [dram]; rfl, fun _ => blocksSound_of_initial pool store titles, fun _ => ?_, fun _ => ?_,
    charge, fun b hb p => ⟨(ports p).outstanding.trans (hb p).1, (ports p).notices (hb p).2⟩, pending, ?_, ?_⟩
  · refine ⟨by simp [entries], by simp [entries], by simp [cursor], fun e => absurd entries e, by simp [entries],
      fun x hx e => ?_⟩
    rw [store] at hx
    rw [List.eq_of_mem_replicate hx] at e
    exact absurd e (by decide)
  · refine ⟨⟨by simp [queue], by simp [active], by simp [liveIds, queue, active], by simp [active]⟩, ?_, ?_⟩
    · simp [updates, drivingCosts, drivingUpdates, active]
    · simp [chunk, assembly]
  · simp [entries]
  · intro i _
    rw [slotAt, store]
    rcases Nat.lt_or_ge i Config.slotCount with lt | ge
    · rw [PageStore.reset, List.getD_replicate _ lt]; rfl
    · rw [PageStore.reset, List.getD_eq_default _ _ (by simpa using ge)]; rfl

theorem UnitKept.refl (u : PortUnit) : UnitKept u u := .of_same rfl rfl rfl

theorem UnitKept.clearCounters {u v : PortUnit} (h : UnitKept u v) : UnitKept u (Machine.clearCounters v) :=
  ⟨h.outstanding, h.notices⟩

theorem tame_loseDram (h : Tame s t) : Tame s (loseDram t) :=
  tame_wiped h rfl rfl rfl rfl rfl rfl rfl rfl rfl rfl rfl (fun h => h.congr rfl rfl rfl)
    (fun p => by cases p <;> exact .refl _) rfl

theorem tame_restartValues (h : Tame s t) : Tame s (restartValues t) :=
  tame_wiped h rfl rfl rfl rfl rfl rfl rfl rfl rfl rfl rfl (fun h => h.congr rfl rfl rfl)
    (fun p => by
      cases p with
      | main => exact (unitKept_resetUnit .idle t.portMain).clearCounters
      | standby => exact (UnitKept.refl t.portStandby).clearCounters
      | radio => exact (unitKept_resetUnit .idle t.portRadio).clearCounters) rfl

theorem tame_enterOff (h : Tame s t) : Tame s (enterOff t) := by
  have reset : Tame s (onPort .main (resetUnit .idle) t) := tame_onPort .main h (unitKept_resetUnit _ _)
  have lost := tame_stopTimers (tame_onWave (fun w => { WaveTable.reset with scrubPeriod := w.scrubPeriod })
    (tame_loseDram (tame_onPlatform (fun f => { f with
      state := .off, wakeMain := false, haltCause := none, pageDecided := false }) reset)))
  exact tame_changePeriod Hooks.quiet_tame (tame_reportState _ _ _ (tame_onMonitor _ lost))

theorem tame_decideShutdownPage (h : Tame s t) : Tame s (decideShutdownPage t) := by
  unfold decideShutdownPage
  have decided := tame_onPlatform (fun f => { f with pageDecided := true }) h
  dsimp only
  split
  · exact .ite (fun c => tame_considerationPass Hooks.quiet_tame (tame_submit decided c.2.2)) fun _ => decided
  · exact decided

theorem tame_pageCheck (h : Tame s t) : Tame s (pageCheck t) :=
  .ite (fun _ => tame_decideShutdownPage h) fun _ => h

theorem tame_haltCheckNoRestart (h : Tame s t) : Tame s (haltCheckNoRestart t) :=
  tame_ite (fun _ => tame_enterOff) (tame_pageCheck h)

theorem Hooks.haltOnly_tame : Hooks.haltOnly.AllTame :=
  ⟨fun c s => tame_haltCheckNoRestart (tame_haltingEntry c (.refl s)), fun s => tame_haltCheckNoRestart (.refl s)⟩

theorem tame_restartEvaluation (h : Tame s t) : Tame s (restartEvaluation t) := by
  unfold restartEvaluation
  refine .ite (fun _ => h) fun _ => ?_
  exact tame_setChargeCap Hooks.quiet_tame (tame_offerTo .standby _ (tame_setLevel (fun _ => rawIndex_le _) h))

theorem tame_restartNow (c : Cause) (h : Tame s t) : Tame s (restartNow c t) := by
  have values := tame_restartEvaluation (tame_onMonitor
    (fun m => allChannels.foldl (fun n c => n.set c { n.get c with pendingTest := none }) m) (tame_restartValues h))
  have told := tame_reportState .active .off c (tame_startTimers values)
  exact tame_changePeriod Hooks.haltOnly_tame (tame_offerMain false _ told)

theorem tame_tryRestart (c : Cause) (h : Tame s t) : Tame s (tryRestart c t) :=
  tame_ite (fun _ => tame_restartNow c) h

theorem tame_offEntry (h : Tame s t) : Tame s (offEntry t) :=
  .ite (fun _ => tame_tryRestart _ (tame_enterOff h)) fun _ => tame_enterOff h

theorem tame_haltCheck (h : Tame s t) : Tame s (haltCheck t) := tame_ite (fun _ => tame_offEntry) (tame_pageCheck h)

theorem tame_enterSleep (h : Tame s t) : Tame s (enterSleep t) :=
  tame_changePeriod Hooks.haltOnly_tame (tame_reportState _ _ _ (tame_suspendScrub (tame_stopTimers
    (tame_resetRadioPort Hooks.quiet_tame _ (tame_onPlatform _ h)))))

theorem tame_submitSleepPage (h : Tame s t) : Tame s (submitSleepPage t) := by
  unfold submitSleepPage
  have submitted := tame_onPlatform (fun f => { f with pageSubmitted := true }) h
  dsimp only
  split
  · exact .ite (fun room => tame_considerationPass Hooks.quiet_tame (tame_submit submitted room)) fun _ => submitted
  · exact submitted

theorem tame_sleepCheck (h : Tame s t) : Tame s (sleepCheck t) :=
  tame_ite (fun _ => tame_enterSleep) (tame_ite (fun _ => tame_submitSleepPage) h)

theorem tame_recheckNow (h : Tame s t) : Tame s (recheckNow t) := by
  unfold recheckNow
  split
  · exact tame_sleepCheck h
  · exact tame_haltCheck h
  · exact h

theorem tame_haltNow (c : HaltCause) (h : Tame s t) : Tame s (haltNow c t) :=
  .ite (fun _ => h) fun _ => tame_haltCheck (tame_haltingEntry c h)

theorem Hooks.full_tame : Hooks.full.AllTame := ⟨fun c s => tame_haltNow c (.refl s), fun s => tame_recheckNow (.refl s)⟩

end Sys2Proof.Machine
end

