-- ==== Sys2Proof/Proofs/KeepsRequests.lean ====
section
/-! PROOFS. What the requests of the page store, the window, the engine and the waveform table keep. A fill gives blocks to a slot and a
window request may bring a slot into the window; all else is tame. -/

namespace Sys2Proof.Machine

variable {s t : State}

/-! ## Page store -/

theorem WindowSound.not_entry (h : WindowSound s) {i : Nat} (unusable : sourceReady (slotAt i s) = false) :
    i ∉ s.window.entries := fun hi => by
  have := ((eligible_iff i s).mp (h.eligibleEntries i hi)).2
  rw [unusable] at this
  exact absurd this (by decide)

theorem BlocksSound.blocks_of_empty (h : BlocksSound s) {i : Nat} (empty : (slotAt i s).state = .empty) :
    (slotAt i s).blocks = [] := by
  rcases Nat.lt_or_ge i s.store.slots.length with lt | ge
  · rw [slotAt_of_lt lt] at empty ⊢
    exact h.emptyHoldsNone _ (List.getElem_mem lt) empty
  · rw [slotAt_of_ge ge]; rfl

theorem fillSlot_not_empty (blocks : List Nat) (tag : Word32) (f : Format) : (fillSlot blocks tag f).state ≠ .empty := nofun
theorem fillSlot_not_pending (blocks : List Nat) (tag : Word32) (f : Format) :
    (fillSlot blocks tag f).releasePending ≠ true := nofun

/-- A fill: the head of the free list goes to a slot without blocks that the window does not hold. -/
theorem keeps_beginFill {i : Nat} {tag : Word32} {f : Format} (h : Tame s t) (out : WindowSound s → i ∉ t.window.entries)
    (none : BlocksSound s → (slotAt i t).blocks = []) (lt : i < Config.slotCount) : Keeps s (beginFill i tag f t) := by
  refine keeps_slot_out h out rfl (fun e => absurd e (fillSlot_not_empty _ _ _))
    (fun e => absurd e (fillSlot_not_pending _ _ _)) (fun sound b => ?_) rfl
  have slots := slotCountOf_setSlot (s := t) b (i := i) (y := fillSlot (headBlocks (footprint t.pool) t) tag f)
    (.inl (by rw [(h.blocks sound).slots]; exact lt))
  have parts := congrArg (List.count b) (List.take_append_drop (footprint t.pool) t.pool.free)
  rw [none sound, List.count_append, List.count_nil] at *
  have free : (beginFill i tag f t).pool.free = t.pool.free.drop (footprint t.pool) := rfl
  have others : slotCountOf b (beginFill i tag f t)
        = slotCountOf b (setSlot i (fillSlot (headBlocks (footprint t.pool) t) tag f) t)
      ∧ titleCountOf b (beginFill i tag f t) = titleCountOf b t ∧ (beginFill i tag f t).pool.panel = t.pool.panel :=
    ⟨rfl, rfl, rfl⟩
  have filled : (fillSlot (headBlocks (footprint t.pool) t) tag f).blocks = t.pool.free.take (footprint t.pool) := rfl
  rw [filled] at slots
  rw [count_ownedBlocks, count_ownedBlocks, free, others.1, others.2.1, others.2.2]
  omega

theorem evictionOf_evictable {slots : List Nat} (h : evictionOf s = some slots) : ∀ i ∈ slots, evictable i s = true := by
  unfold evictionOf at h
  obtain ⟨n, -, rfl⟩ := Option.map_eq_some_iff.mp h
  exact fun i hi => (List.mem_filter.mp (List.mem_of_mem_take hi)).2

theorem not_entry_of_evictable {i : Nat} (h : evictable i s = true) : i ∉ s.window.entries := by
  simp only [evictable, Bool.and_eq_true, Bool.not_eq_true', List.contains_eq_mem, decide_eq_false_iff_not] at h
  exact h.1.2

theorem tame_evictOne {i : Nat} (h : Tame s t) (out : i ∉ s.window.entries) : Tame s (evictOne i t) :=
  tame_forgetShown i (tame_emptySlot h fun _ => h.entries i out)

theorem tame_evict {slots : List Nat} (h : Tame s t) (out : ∀ i ∈ slots, i ∉ s.window.entries) :
    Tame s (evict .full slots t) := by
  have emptied : ∀ {slots : List Nat} {t : State}, Tame s t → (∀ i ∈ slots, i ∉ s.window.entries) →
      Tame s (slots.foldl (fun t i => evictOne i t) t) := by
    intro slots
    induction slots with
    | nil => exact fun h _ => h
    | cons i is ih => exact fun h out => ih (tame_evictOne h (out i (by simp))) fun j hj => out j (by simp [hj])
  have told := (emptied h out).trans (.foldl (fun t (q : Nat × Word32) => tame_offerMain false (.pageEvicted q.1 q.2) (.refl t))
    (slots.map fun i => (i, (slotAt i t).tag)) _)
  exact told.trans (.foldl (fun t (q : Nat × Word32) => tame_sourceGone Hooks.full_tame q.1 q.2 (.refl t)) _ _)

theorem keeps_newFill {p : Port} {i : Nat} {tag : Word32} {f : Format} (empty : (slotAt i s).state = .empty)
    (lt : i < Config.slotCount) : Keeps s (newFill p i tag f s) := by
  have out (w : WindowSound s) : i ∉ s.window.entries := w.not_entry (by simp [sourceReady, empty])
  have filled {t : State} (h : Tame s t) : Keeps s (beginFill i tag f t) :=
    keeps_beginFill h (fun w => h.entries i (out w)) (fun b => h.noBlocks i (b.blocks_of_empty empty)) lt
  unfold newFill
  refine .ite (fun _ => (filled (.refl s)).then (tame_respond p _ _ (.refl _))) fun _ => ?_
  split
  · exact (tame_refuse p _ (.refl s)).keeps
  · next slots chosen =>
    have evicted := tame_evict (.refl s) fun i hi => not_entry_of_evictable (evictionOf_evictable chosen i hi)
    exact (filled evicted).then (tame_respond p _ _ (.refl _))

theorem keeps_pageOpen (p : Port) (a : PageOpenArgs) (s : State) : Keeps s (pageOpen p a s) := by
  have refused (r : Result) : Keeps s (refuse p r s) := (tame_refuse p r (.refl s)).keeps
  unfold pageOpen
  split
  · exact refused _
  · next f _ =>
    refine .ite (fun _ => ?_) fun _ => .ite (fun _ => refused _) fun inRange => ?_
    · split
      · exact refused _
      · next found =>
        exact keeps_newFill (by simpa using List.find?_some found) (List.mem_range.mp (List.mem_of_find?_eq_some found))
    · split
      · next empty => exact keeps_newFill empty (Nat.lt_of_not_le inRange)
      · refine .ite (fun _ => refused _) fun free => ?_
        have out : a.slot ∉ s.window.entries := by
          simp only [Bool.or_eq_true, List.contains_eq_mem, decide_eq_true_eq, not_or] at free
          exact free.1
        have reopened := tame_setSlot_out (.refl s) (fun _ => out) (y := fillSlot (slotAt a.slot s).blocks a.tag f) rfl
          (fillSlot_not_empty _ _ _) (fun e => absurd e (fillSlot_not_pending _ _ _))
        exact (tame_respond p _ _ (tame_forgetShown a.slot reopened)).keeps
      · exact refused _

theorem tame_pageDataNow (p : Port) (a : SlotBytes) (h : Tame s t) : Tame s (pageDataNow p a t) := by
  have refused (r : Result) : Tame s (refuse p r t) := tame_refuse p r h
  unfold pageDataNow
  refine .ite (fun _ => refused _) fun _ => ?_
  split
  · refine .ite (fun _ => refused _) fun _ => .ite (fun _ => refused _) fun _ => ?_
    exact tame_respond p _ _ (tame_dram (tame_setSlot h (.of_same rfl rfl rfl)) (wf_writePixels _ _ _ _))
  · exact refused _

theorem tame_pageData (p : Port) (a : SlotBytes) (h : Tame s t) : Tame s (pageData p a t) :=
  .ite (fun _ => h) fun _ => tame_pageDataNow p a h

theorem slotKept_ready {x : Slot} (filling : x.state = .filling) : SlotKept x (readySlot x) := by
  refine ⟨rfl, nofun, fun _ e => ?_, fun hx e => ?_⟩
  · simp [sourceReady, filling] at e
  · exact absurd (hx e) (by rw [filling]; decide)

theorem tame_pageClose (p : Port) (a : SlotWord) (h : Tame s t) : Tame s (pageClose p a t) := by
  have refused (r : Result) : Tame s (refuse p r t) := tame_refuse p r h
  have hk := Hooks.full_tame
  unfold pageClose
  refine .ite (fun _ => refused _) fun _ => .ite (fun _ => refused _) fun filling => .ite (fun _ => ?_) fun _ => ?_
  · rw [not_not] at filling
    exact tame_considerationPass hk (tame_respond p _ _ (tame_takeStamp _ (tame_setSlot h (slotKept_ready filling))))
  · rw [not_not] at filling
    refine tame_sourceGone hk _ _ (tame_refuse p _ (tame_emptySlot h fun w => (h.window w).not_entry ?_))
    simp [sourceReady, filling]

theorem lowWater_store (s : State) : (lowWater s).store = s.store ∧ (lowWater s).pool = s.pool
    ∧ (lowWater s).window.entries = s.window.entries := by
  simp only [lowWater, offerMain, offerTo, wakeByNotice, enterActive, startResume, reportState, onPlatform, onPort]
  split_ifs <;> (try split) <;> simp

theorem windowRelease_frame (i : Nat) (s : State) :
    (windowRelease i s).store = s.store ∧ (windowRelease i s).window.entries = (removeSlot i s.window).entries := by
  unfold windowRelease
  dsimp only
  split
  · obtain ⟨store, -, entries⟩ := lowWater_store (onWindow (fun w => forgetShown i (removeSlot i w)) s)
    exact ⟨store, entries.trans (forgetShown_entries i _).1⟩
  · exact ⟨rfl, (forgetShown_entries i _).1⟩

theorem tame_windowRelease (i : Nat) (h : Tame s t) : Tame s (windowRelease i t) := by
  have removed : Tame s (onWindow (fun w => forgetShown i (removeSlot i w)) t) := by
    have same := forgetShown_entries i (removeSlot i t.window)
    exact tame_window h (fun w => (w.removeSlot i).congr same.1 same.2 rfl) fun j hj => same.1 ▸ removeSlot_entries_sub hj
  unfold windowRelease
  exact tame_ite (fun _ => tame_lowWater) removed

/-- A release: the window lets the slot go before `f` changes it. -/
theorem tame_releaseSlot {i : Nat} {f : State → State}
    (change : ∀ {t}, Tame s t → t.store = s.store → (WindowSound s → i ∉ t.window.entries) → Tame s (f t)) :
    Tame s (releaseSlot i f s) := by
  obtain ⟨store, entries⟩ := windowRelease_frame i s
  refine tame_sourceGone Hooks.full_tame _ _ (change (tame_windowRelease i (.refl s)) store fun w => ?_)
  rw [entries]
  exact removeSlot_entries_of_nodup w.distinct

theorem tame_pageRelease (p : Port) (i : Nat) (s : State) : Tame s (pageRelease p i s) := by
  have answered {t : State} (r : Result) (h : Tame s t) : Tame s (respond p r [] t) := tame_respond p r [] h
  unfold pageRelease
  refine .ite (fun _ => answered _ (.refl s)) fun _ => .ite (fun _ => answered _ (.refl s)) fun _ =>
    .ite (fun _ => answered _ (.refl s)) fun _ => ?_
  split
  · next showing =>
    refine .ite (fun _ => answered _ (.refl s)) fun _ => answered _ (tame_releaseSlot fun h store out => ?_)
    refine tame_setSlot_out h out ?_ (by simp [showing]) fun _ => showing
    rw [slotAt_congr (congrArg PageStore.slots store)]
  · exact answered _ (tame_releaseSlot fun h _ out => tame_emptySlot h out)

theorem slotKept_withRole (r : Role) (b : Bool) (x : Slot) : SlotKept x (withRole r b x) := by
  cases r <;> exact .of_same rfl rfl rfl

theorem tame_pinRequest (p : Port) (a : Nat × Nat) {f : Role → State → State} (hf : ∀ r {t}, Tame s t → Tame s (f r t))
    (h : Tame s t) : Tame s (pinRequest p a f t) := by
  unfold pinRequest
  refine .ite (fun _ => tame_refuse p _ h) fun _ => ?_
  split
  · exact tame_refuse p _ h
  · exact .ite (fun _ => tame_respond p _ _ (hf _ h)) fun _ => tame_refuse p _ h

theorem tame_moveRole (i : Nat) (r : Role) (h : Tame s t) : Tame s (moveRole i r t) :=
  tame_mapIdx h fun _ _ => slotKept_withRole r _ _

theorem tame_dropRole (i : Nat) (r : Role) (h : Tame s t) : Tame s (dropRole i r t) :=
  tame_setSlot h (slotKept_withRole r false _)

theorem tame_applyGeometry (w n : Nat) (h : Tame s t) : Tame s (applyGeometry w n t) := by
  have pool : Tame s (t.withPool (poolWithGeometry w n t.pool)) := by
    refine tame_blocks h rfl (fun b => ?_) rfl
    have parts := congrArg (List.count b)
      (List.take_append_drop (footprint { t.pool with width := w, height := n }) (t.pool.free ++ t.pool.panel))
    simp only [List.count_append] at parts
    simp only [State.withPool_pool, poolWithGeometry]
    have titles : titleCountOf b (t.withPool (poolWithGeometry w n t.pool)) = titleCountOf b t := rfl
    simp only [poolWithGeometry] at titles
    omega
  exact tame_core (tame_dram pool (Mem.wf_blankBlocks (poolWithGeometry w n t.pool).panel)) rfl

theorem tame_geometrySetNow (p : Port) (a : Nat × Nat) (h : Tame s t) : Tame s (geometrySetNow p a t) := by
  have refused (r : Result) : Tame s (refuse p r t) := tame_refuse p r h
  exact .ite (fun _ => refused _) fun _ => .ite (fun _ => refused _) fun _ => .ite (fun _ => refused _) fun _ =>
    .ite (fun _ => refused _) fun _ => tame_respond p _ _ (tame_applyGeometry a.1 a.2 h)

theorem tame_geometrySet (p : Port) (a : Nat × Nat) (h : Tame s t) : Tame s (geometrySet p a t) :=
  .ite (fun _ => h) fun _ => tame_geometrySetNow p a h

/-! ## Window -/

/-- A window request whose change of the window is sound. -/
theorem keeps_windowRequest (p : Port) (r : Result) {f : Window → Window}
    (sound : WindowSound s → WindowSound (s.withWindow (f s.window))) : Keeps s (windowRequest p r f s) :=
  (keeps_window sound).then (tame_lowWater (tame_respond p r [] (.refl _)))

theorem keeps_windowRefusal (p : Port) (r : Result) (s : State) : Keeps s (windowRequest p r id s) :=
  keeps_windowRequest p r fun w => w.congr rfl rfl rfl

theorem nodup_of_allDistinct : ∀ {l : List Nat}, allDistinct l = true → l.Nodup
  | [], _ => .nil
  | x :: xs, h => by
    simp only [allDistinct, Bool.and_eq_true, Bool.not_eq_true', List.contains_eq_mem, decide_eq_false_iff_not] at h
    exact List.nodup_cons.mpr ⟨h.1, nodup_of_allDistinct h.2⟩

theorem keeps_windowSet (p : Port) (a : WindowSetArgs) (s : State) : Keeps s (windowSet p a s) := by
  unfold windowSet
  refine .ite (fun good => keeps_windowRequest p _ fun w => ?_) fun _ => keeps_windowRefusal p _ s
  simp only [goodWindow, Bool.and_eq_true, decide_eq_true_eq, List.all_eq_true, Bool.or_eq_true, List.isEmpty_iff] at good
  obtain ⟨⟨⟨size, usable⟩, distinct⟩, cursor⟩ := good
  refine w.withEntries size (nodup_of_allDistinct distinct) (fun c hc => ?_) (fun e => ?_) usable
  · simp only [replaceWindow, List.isEmpty_iff] at hc ⊢
    split at hc
    · cases hc
    · next some_slot => cases hc; exact cursor.resolve_left some_slot
  · simp only [replaceWindow, List.isEmpty_iff] at e ⊢
    simp [e]

/-- An addition: with the slot eligible and not yet an entry, the new window is sound. -/
theorem keeps_windowAdd (p : Port) (i : Nat) {f : Nat → Window → Option Window} (s : State)
    (sound : ∀ w, f i s.window = some w → eligible i s = true → i ∉ s.window.entries → WindowSound s →
      WindowSound (s.withWindow w)) : Keeps s (windowAdd p i f s) := by
  unfold windowAdd
  refine .ite (fun can => ?_) fun _ => keeps_windowRefusal p _ s
  simp only [addable, Bool.and_eq_true, Bool.not_eq_true', List.contains_eq_mem, decide_eq_false_iff_not] at can
  split
  · next w new => exact keeps_windowRequest p _ fun ws => sound w new can.1 can.2 ws
  · exact keeps_windowRefusal p _ s

/-- The cursor of a sound window that holds an entry. -/
theorem WindowSound.cursor_lt (h : WindowSound s) (some_entry : s.window.entries ≠ []) :
    s.window.cursor.getD 0 < s.window.entries.length := by
  obtain ⟨c, hc⟩ := Option.ne_none_iff_exists'.mp (h.cursorPresent some_entry)
  rw [hc]; exact h.cursorWithin c hc

theorem windowSound_singleton (h : WindowSound s) {i : Nat} (usable : eligible i s = true) {w : Window}
    (entries : w.entries = [i]) (cursor : w.cursor = some 0) : WindowSound (s.withWindow w) := by
  refine h.withEntries ?_ ?_ ?_ ?_ ?_ <;> simp [entries, cursor, usable, Config.windowMax]

theorem windowSound_appended {i : Nat} {w : Window} (new : appended i s.window = some w) (usable : eligible i s = true)
    (out : i ∉ s.window.entries) (h : WindowSound s) : WindowSound (s.withWindow w) := by
  unfold appended at new
  split at new
  · cases new; exact windowSound_singleton h usable rfl rfl
  · next some_entry =>
    have lt := h.cursor_lt some_entry
    split at new
    · next room =>
      cases new
      refine h.withEntries (by simpa using room) (List.nodup_append.mpr ⟨h.distinct, List.nodup_singleton _, ?_⟩)
        (fun c hc => ?_) (fun _ => h.cursorPresent some_entry) fun j hj => ?_
      · exact fun a ha b hb => by rw [List.mem_singleton.mp hb]; exact fun e => out (e ▸ ha)
      · have := h.cursorWithin c hc
        simp only [List.length_append]; omega
      · rcases List.mem_append.mp hj with hj | hj
        · exact h.eligibleEntries j hj
        · rw [List.mem_singleton.mp hj]; exact usable
    · split at new
      · next full later =>
        cases new
        have size := h.size
        refine h.withEntries ?_ (List.nodup_append.mpr ⟨h.distinct.tail, List.nodup_singleton _, ?_⟩) (fun c hc => ?_)
          (fun _ => by simp) fun j hj => ?_
        · simp only [List.length_append, List.length_tail, List.length_singleton]; omega
        · exact fun a ha b hb => by rw [List.mem_singleton.mp hb]; exact fun e => out (e ▸ List.mem_of_mem_tail ha)
        · cases hc
          simp only [List.length_append, List.length_tail, List.length_singleton]; omega
        · rcases List.mem_append.mp hj with hj | hj
          · exact h.eligibleEntries j (List.mem_of_mem_tail hj)
          · rw [List.mem_singleton.mp hj]; exact usable
      · cases new

theorem windowSound_prepended {i : Nat} {w : Window} (new : prepended i s.window = some w) (usable : eligible i s = true)
    (out : i ∉ s.window.entries) (h : WindowSound s) : WindowSound (s.withWindow w) := by
  unfold prepended at new
  split at new
  · cases new; exact windowSound_singleton h usable rfl rfl
  · next some_entry =>
    have lt := h.cursor_lt some_entry
    split at new
    · next room =>
      cases new
      refine h.withEntries (by simpa using room) (List.nodup_cons.mpr ⟨out, h.distinct⟩) (fun c hc => ?_)
        (fun _ => by simp) fun j hj => ?_
      · cases hc; simpa using lt
      · rcases List.mem_cons.mp hj with rfl | hj
        · exact usable
        · exact h.eligibleEntries j hj
    · split at new
      · next full earlier =>
        cases new
        have size := h.size
        refine h.withEntries ?_ (List.nodup_cons.mpr ⟨fun hi => out (List.mem_of_mem_dropLast hi), ?_⟩) (fun c hc => ?_)
          (fun _ => by simp) fun j hj => ?_
        · simp only [List.length_cons, List.length_dropLast]; omega
        · exact (List.dropLast_sublist _).nodup h.distinct
        · cases hc
          simp only [List.length_cons, List.length_dropLast, Config.windowMax] at *; omega
        · rcases List.mem_cons.mp hj with rfl | hj
          · exact usable
          · exact h.eligibleEntries j (List.mem_of_mem_dropLast hj)
      · cases new

theorem keeps_windowDrop (p : Port) (i : Nat) (s : State) : Keeps s (windowDrop p i s) :=
  .ite (fun _ => keeps_windowRefusal p _ s) fun _ => keeps_windowRequest p _ fun w => w.removeSlot i

theorem tame_afterTurn (b : Bool) (h : Tame s t) : Tame s (afterTurn b t) :=
  tame_lowWater (tame_ite (fun _ => tame_considerationPass Hooks.full_tame) (tame_turnReport h))

/-- The cursor moved to an entry. -/
theorem tame_cursor {w : Window} (h : Tame s t) (entries : w.entries = t.window.entries) {c : Nat} (cursor : w.cursor = some c)
    (lt : WindowSound t → c < t.window.entries.length) : Tame s (t.withWindow w) :=
  tame_window h (fun ws => ws.sublist (by rw [entries]) (fun d hd => by
    rw [cursor] at hd; cases hd; rw [entries]; exact lt ws) fun _ => by simp [cursor]) fun _ => entries ▸ id

theorem tame_replaceSource (id i : Nat) (p : Port) (h : Tame s t) : Tame s (onEngine (replaceSource id i p) t) := by
  refine tame_work h (fun h => ⟨⟨?_, h.engine.lanes, ?_, h.engine.apart⟩, h.updates, h.chunk⟩) (fun h => h.congr rfl rfl rfl) rfl
  · simpa [replaceSource, onEngine] using h.engine.pendingRoom
  · have ids : (t.engine.queue.map fun u =>
        if u.id == id then { u with source := i, requesters := addPort p u.requesters } else u).map (·.id)
        = t.engine.queue.map (·.id) := by
      rw [List.map_map]
      exact List.map_congr_left fun u _ => by simp only [Function.comp_apply]; split <;> rfl
    have := h.engine.ids
    simpa only [liveIds, replaceSource, onEngine, State.withEngine_engine, ids] using this

theorem cursorAfter_lt {d : Direction} (h : WindowSound s) (some_entry : s.window.entries ≠ [])
    (inside : ¬ atEdge d s.window = true) : cursorAfter d s.window < s.window.entries.length := by
  have := h.cursor_lt some_entry
  cases d with
  | next =>
    simp only [atEdge, decide_eq_true_eq] at inside
    simp only [cursorAfter]; omega
  | prev => simp only [cursorAfter]; omega

theorem tame_moveTurn (p : Port) {d : Direction} (h : Tame s t) (some_entry : t.window.entries ≠ [])
    (inside : ¬ atEdge d t.window = true) : Tame s (moveTurn p d t) := by
  have moved {w : Window} (entries : w.entries = t.window.entries) (cursor : w.cursor = some (cursorAfter d t.window)) :
      Tame s (t.withWindow w) := tame_cursor h entries cursor fun ws => cursorAfter_lt ws some_entry inside
  unfold moveTurn
  dsimp only
  split
  · exact tame_afterTurn true (tame_respond p _ _ (tame_replaceSource _ _ p (moved rfl rfl)))
  · refine .ite (fun room => ?_) fun _ => tame_afterTurn false (tame_refuse p _ h)
    have turned : Tame s (onWindow (fun w => { w with
        cursor := some (cursorAfter d t.window), lastTurn := some (newId t.engine) }) t) := moved rfl rfl
    exact tame_afterTurn true (tame_respond p _ _ (tame_submit turned room))

theorem tame_turn (p : Port) (d : Direction) (h : Tame s t) : Tame s (turn p d t) := by
  unfold turn
  refine .ite (fun _ => tame_afterTurn false (tame_refuse p _ h)) fun _ => ?_
  refine .ite (fun _ => tame_afterTurn false (tame_refuse p _ h)) fun some_entry => ?_
  refine .ite (fun _ => tame_afterTurn false (tame_offerMain true _ (tame_refuse p _ h))) fun inside => ?_
  exact tame_moveTurn p h some_entry inside

/-! ## Update engine -/

theorem tame_showPage (p : Port) (a : ShowArgs) (h : Tame s t) : Tame s (showPage p a t) := by
  have refused (r : Result) : Tame s (refuse p r t) := tame_refuse p r h
  unfold showPage
  refine .ite (fun _ => refused _) fun _ => ?_
  split
  · exact refused _
  · refine .ite (fun _ => refused _) fun _ => .ite (fun _ => refused _) fun _ => .ite (fun _ => refused _) fun _ =>
      .ite (fun _ => refused _) fun room => ?_
    exact tame_considerationPass Hooks.full_tame (tame_respond p _ _ (tame_submit h (by simpa using room)))

theorem tame_abort (p : Port) (id : Nat) (h : Tame s t) : Tame s (abort p id t) := by
  have hk := Hooks.full_tame
  unfold abort
  split
  · exact tame_refuse p _ h
  · split
    · exact tame_endWithTag hk _ _ (tame_respond p _ _ h)
    · exact tame_considerationPass hk (tame_endWithTag hk _ _ (tame_respond p _ _ h))
    · exact tame_refuse p _ h

theorem scanned_id_region (u : Update) (s : State) : (scanned u s).id = u.id ∧ (scanned u s).region = u.region := by
  unfold scanned
  split
  · exact ⟨rfl, rfl⟩
  · dsimp only; split <;> exact ⟨rfl, rfl⟩

theorem tame_endActive (u : Update) (r : UpdateResult) (h : Tame s t) : Tame s (endActive u r t) :=
  tame_considerationPass Hooks.full_tame (tame_endWithTag Hooks.full_tame u r h)

/-- The estimates that drive once the one SCANNING record of an id drives too. -/
theorem drivingCosts_replace {u v : Update} (id : v.id = u.id) : ∀ {active : List Update}, (active.map (·.id)).Nodup →
    u ∈ active → u.phase = .scanning → v.phase = .driving → ∀ e : Engine, e.active = active →
    (drivingCosts (replaceActive v e)).Perm (drivingCosts e ++ [(v.id, v.estimate)]) := by
  intro active nodup mem scanning driving e rfl
  have costs : ∀ l : List Update, (l.map (·.id)).Nodup → u ∈ l →
      (((l.map fun w => if w.id == v.id then v else w).filter (fun w => w.phase == .driving)).map
          fun w => (w.id, w.estimate)).Perm
        (((l.filter (fun w => w.phase == .driving)).map fun w => (w.id, w.estimate)) ++ [(v.id, v.estimate)]) := by
    intro l
    induction l with
    | nil => exact fun _ h => absurd h (by simp)
    | cons w l ih =>
      intro nodup mem
      obtain ⟨fresh, rest⟩ := List.nodup_cons.mp nodup
      by_cases same : w.id = v.id
      · have this_one : u = w := by
          rcases List.mem_cons.mp mem with here | there
          · exact here
          · exact absurd (List.mem_map.mpr ⟨u, there, id.symm.trans same.symm⟩) fresh
        have unchanged : l.map (fun w => if w.id == v.id then v else w) = l := by
          refine (List.map_congr_left fun x hx => if_neg ?_).trans (List.map_id' l)
          simpa using fun e : x.id = v.id => fresh (List.mem_map.mpr ⟨x, hx, e.trans same.symm⟩)
        have not_driving : (w.phase == .driving) = false := by rw [← this_one, scanning]; rfl
        simp only [List.map_cons, same, beq_self_eq_true, if_true, unchanged, List.filter_cons, driving, not_driving,
          Bool.false_eq_true, if_false]
        exact List.perm_append_comm (l₁ := [_])
      · have there : u ∈ l := by
          rcases List.mem_cons.mp mem with here | there
          · exact absurd (here ▸ id.symm) same
          · exact there
        have kept : (if w.id == v.id then v else w) = w := if_neg (by simpa using same)
        simp only [List.map_cons, kept, List.filter_cons]
        split
        · exact (ih rest there).cons _
        · exact ih rest there
  exact costs e.active nodup mem

theorem tame_grantScan {u v : Update} (h : Tame s t) (active : u ∈ t.engine.active) (scanning : u.phase = .scanning)
    (id : v.id = u.id) (region : v.region = u.region) : Tame s (grantScan v t) := by
  unfold grantScan
  refine .ite (fun _ => tame_evaluate Hooks.full_tame ?_) fun _ => tame_endActive v _ h
  let w : Update := { v with phase := .driving, index := 0 }
  have pointwise (x : Update) (f : Update → Nat) (same : ∀ x ∈ t.engine.active, x.id = v.id → f w = f x)
      (hx : x ∈ t.engine.active) : f (if x.id == v.id then w else x) = f x := by
    split
    · next e => exact same x hx (by simpa using e)
    · rfl
  refine tame_work h (fun h => ⟨⟨h.engine.pendingRoom, ?_, ?_, ?_⟩, ?_, h.chunk⟩) (fun h => h.congr rfl rfl rfl) rfl
  · simpa [onEngine, onCharge, replaceActive] using h.engine.lanes
  · have ids : (t.engine.active.map fun x => if x.id == v.id then w else x).map (·.id) = t.engine.active.map (·.id) := by
      rw [List.map_map]
      exact List.map_congr_left fun x hx => pointwise x (·.id) (fun x _ e => e.symm) hx
    have := h.engine.ids
    simp only [liveIds, onEngine, onCharge, replaceActive, State.withCharge_engine, State.withEngine_engine] at this ⊢
    exact ids ▸ this
  · have only (x : Update) (hx : x ∈ t.engine.active) (e : x.id = v.id) : x = u :=
      List.inj_on_of_nodup_map (List.nodup_append.mp h.engine.ids).2.1 hx active (e.trans id)
    have same (x : Update) (hx : x ∈ t.engine.active) : (if x.id == v.id then w else x).region = x.region := by
      split
      · next e => rw [only x hx (by simpa using e)]; exact region
      · rfl
    refine List.pairwise_map.mpr (h.engine.apart.imp_of_mem fun {x y} hx hy apart => ?_)
    exact (congrArg₂ overlaps (same x hx) (same y hy)).trans apart
  · have costs := drivingCosts_replace (u := u) (v := w) id (List.nodup_append.mp h.engine.ids).2.1 active scanning rfl
      t.engine rfl
    exact (h.updates.append_right _).trans costs.symm

theorem tame_finishScan {u : Update} (h : Tame s t) (active : u ∈ t.engine.active) (scanning : u.phase = .scanning) :
    Tame s (finishScan u t) := by
  obtain ⟨id, region⟩ := scanned_id_region u t
  unfold finishScan
  exact .ite (fun _ => tame_endActive _ _ h) fun _ => tame_grantScan h active scanning id region

theorem tame_endAll (us : List Update) (r : UpdateResult) (h : Tame s t) : Tame s (endAll us r t) := by
  unfold endAll
  refine .ite (fun _ => h) fun _ => tame_considerationPass Hooks.full_tame ?_
  exact h.trans (.foldl (fun t _ => tame_endWithTag Hooks.full_tame _ _ (.refl t)) _ _)

theorem tame_driveFrame (h : Tame s t) : Tame s (driveFrame t) := by
  let f : Update → Update := fun u => if u.phase == .driving then { u with index := u.index + 1 } else u
  have same {α : Type} (g : Update → α) (hg : ∀ u, g { u with index := u.index + 1 } = g u) (u : Update) : g (f u) = g u := by
    simp only [f]; split
    · exact hg u
    · rfl
  have map_same {α : Type} (g : Update → α) (hg : ∀ u, g { u with index := u.index + 1 } = g u) (l : List Update) :
      (l.map f).map g = l.map g := by
    rw [List.map_map]; exact List.map_congr_left fun u _ => same g hg u
  refine tame_work h (fun h => ⟨⟨h.engine.pendingRoom, ?_, ?_, ?_⟩, ?_, h.chunk⟩) (fun h => h.congr rfl rfl rfl) rfl
  · simpa [driveFrame, onEngine] using h.engine.lanes
  · have := h.engine.ids
    have ids := map_same (·.id) (fun _ => rfl) t.engine.active
    simp only [liveIds, driveFrame, onEngine, State.withEngine_engine] at this ⊢
    exact ids ▸ this
  · refine List.pairwise_map.mpr (h.engine.apart.imp fun {x y} apart => ?_)
    exact (congrArg₂ overlaps (same (·.region) (fun _ => rfl) x) (same (·.region) (fun _ => rfl) y)).trans apart
  · have costs : drivingCosts (driveFrame t).engine = drivingCosts t.engine := by
      simp only [drivingCosts, drivingUpdates, driveFrame, onEngine, State.withEngine_engine, List.filter_map, List.map_map]
      have driving : ((fun u : Update => u.phase == .driving) ∘ f) = fun u => u.phase == .driving :=
        funext fun u => same (fun u => u.phase == .driving) (fun _ => rfl) u
      rw [driving]
      exact List.map_congr_left fun u _ => same (fun u => (u.id, u.estimate)) (fun _ => rfl) u
    rw [costs]; exact h.updates

theorem tame_frameEvent (h : Tame s t) : Tame s (frameEvent t) := by
  have restarted : Tame s (restartFrameTimer t) := tame_core h rfl
  unfold frameEvent
  refine .ite (fun _ => tame_endAll _ _ ?_) fun _ => tame_endAll _ _ (tame_driveFrame restarted)
  exact tame_core restarted rfl

/-! ## Waveform table -/

theorem tame_waveformBegin (p : Port) (a : WaveformBeginArgs) (h : Tame s t) : Tame s (waveformBegin p a t) :=
  .ite (fun _ => tame_refuse p _ h) fun _ => .ite (fun _ => tame_refuse p _ h) fun _ => .ite (fun _ => tame_refuse p _ h)
    fun _ => tame_considerationPass Hooks.full_tame (tame_respond p _ _ (tame_onWave _ h))

theorem tame_waveformData (p : Port) (bs : List Byte) (h : Tame s t) : Tame s (waveformData p bs t) :=
  .ite (fun _ => tame_refuse p _ h) fun _ => .ite (fun _ => tame_refuse p _ h) fun _ => .ite (fun _ => tame_refuse p _ h)
    fun _ => tame_respond p _ _ (tame_onWave _ h)

theorem tame_waveformEnd (p : Port) (crc : Word32) (h : Tame s t) : Tame s (waveformEnd p crc t) :=
  .ite (fun _ => tame_refuse p _ h) fun _ => .ite
    (fun _ => tame_considerationPass Hooks.full_tame (tame_respond p _ _ (tame_onWave _ h)))
    fun _ => tame_considerationPass Hooks.full_tame (tame_refuse p _ (tame_onWave _ h))

theorem tame_scrubPassEnd (us : List Upset) (h : Tame s t) : Tame s (scrubPassEnd us t) := by
  have ended := tame_onWave (fun w => passEnded t.platform.clock { w with bytes := upsetBytes us w.bytes }) h
  exact .ite (fun _ => tame_onWave _ ended) fun _ =>
    tame_considerationPass Hooks.full_tame (tame_offerMain true _ (tame_onWave _ ended))

end Sys2Proof.Machine
end

