-- ==== Sys2Proof/Proofs/KeepsCommands.lean ====
section
/-! PROOFS. What every command keeps: the spool's requests, the platform's, the port units' own, the parameters; and the statements on
every step. -/

namespace Sys2Proof.Machine

variable {s t : State}

/-! ## Download spool -/

/-- A title entered anew, its old blocks back in the free list. -/
theorem tame_restartTitle {i : Nat} {a : ChunkBeginArgs} {policy : Policy} {x : Title} (h : Tame s t)
    (found : titleAt i t = some x) : Tame s (restartTitle i a policy x t) := by
  refine tame_blocks h (by simp [restartTitle, setTitle, onSpool, returnBlocks, onPool]) (fun b => ?_) rfl
  have titles := titleCountOf_setTitle (s := t) b (i := i) (y := some (freshTitle a policy)) (.inl (title_in_table found))
  rw [found] at titles
  have free : (restartTitle i a policy x t).pool.free.count b = t.pool.free.count b + x.blocks.count b := List.count_append ..
  have others : titleCountOf b (restartTitle i a policy x t) = titleCountOf b (setTitle i (some (freshTitle a policy)) t)
      ∧ (restartTitle i a policy x t).pool.panel = t.pool.panel := ⟨rfl, rfl⟩
  have fresh : (entryBlocks (some (freshTitle a policy))).count b = 0 := rfl
  have old : entryBlocks (some x) = x.blocks := rfl
  rw [old] at titles
  rw [free, others.1, others.2]
  omega

theorem tame_openingStep (a : ChunkBeginArgs) (h : Tame s t) : Tame s (openingStep a t).1 := by
  unfold openingStep
  split
  · exact h
  · split
    · exact h
    · split
      · split
        · next found => split
                        · exact h
                        · exact tame_restartTitle h found
        · exact h
      · split
        · exact h
        · next i free =>
          have vacant : titleAt i t = none := by simpa using List.find?_some free
          exact tame_setTitle h (by rw [vacant]; rfl)

theorem tame_prefixStep (a : ChunkBeginArgs) (h : Tame s t) : Tame s (prefixStep a t).1 := by
  unfold prefixStep
  split
  · exact h
  · split
    · exact tame_openingStep a h
    · split <;> exact h

theorem tame_misfit (p : Port) {i : Nat} {x : Title} (h : Tame s t) (found : titleAt i t = some x) :
    Tame s (misfit p i x t) := by
  have counted := tame_respond p .misfit (encWord x.id ++ encU32 x.received) (tame_countStat
    (fun c => { c with misfit := saturatingSucc c.misfit })
    (tame_setTitle (y := some { x with misfits := min (x.misfits + 1) 65535 }) h (by rw [found]; rfl)))
  unfold misfit
  dsimp only
  split
  · exact counted
  · exact tame_failTitle _ _ counted

theorem tame_refuseFull (p : Port) (x : Title) (n : Nat) (h : Tame s t) : Tame s (refuseFull p x n t) :=
  tame_offerMain false _ (tame_offerTo .radio _ (tame_refuse p _ (tame_countStat _ h)))

/-- Blocks from the head of the free list to the end of a title's list. -/
theorem tame_takeTitleBlocks {i : Nat} {x : Title} (n : Nat) (h : Tame s t) (found : titleAt i t = some x) :
    Tame s (takeTitleBlocks i x n t) := by
  refine tame_blocks h (by simp [takeTitleBlocks, setTitle, onSpool, takeFree, onPool]) (fun b => ?_) rfl
  have titles := titleCountOf_setTitle (s := t) b (i := i) (y := some { x with blocks := x.blocks ++ headBlocks n t })
    (.inl (title_in_table found))
  have parts := congrArg (List.count b) (List.take_append_drop n t.pool.free)
  have held : entryBlocks (some { x with blocks := x.blocks ++ headBlocks n t }) = x.blocks ++ t.pool.free.take n := rfl
  have others : titleCountOf b (takeTitleBlocks i x n t)
        = titleCountOf b (setTitle i (some { x with blocks := x.blocks ++ headBlocks n t }) t)
      ∧ (takeTitleBlocks i x n t).pool.free = t.pool.free.drop n ∧ (takeTitleBlocks i x n t).pool.panel = t.pool.panel :=
    ⟨rfl, rfl, rfl⟩
  have old : entryBlocks (some x) = x.blocks := rfl
  rw [found, held, old] at titles
  rw [List.count_append] at titles parts
  rw [others.1, others.2.1, others.2.2]
  omega

theorem tame_refuseHeld (p : Port) (i : Nat) (h : Tame s t) : Tame s (refuseHeld p i t) :=
  tame_refuse p _ (tame_countStat _ (tame_trimTitle i h))

theorem tame_writeTitle (i n : Nat) (bs : List Byte) (h : Tame s t) : Tame s (writeTitle i n bs t) := by
  unfold writeTitle
  split
  · exact tame_dram h (wf_writeOwner _ bs n _)
  · exact h

theorem tame_endIfCollected (p : Port) (data : Assembly → List Byte) (h : Tame s t) : Tame s (endIfCollected p data t) := by
  unfold endIfCollected
  split
  · exact .ite (fun _ => tame_endChunk Hooks.full_tame p _ h) fun _ => tame_respond p _ _ h
  · exact h

theorem tame_openAssembly (p : Port) (a : ChunkBeginArgs) (i : Nat) (x : Title) (h : Tame s t) :
    Tame s (openAssembly p a i x t) := by
  unfold openAssembly
  refine tame_endIfCollected p _ (tame_evaluate Hooks.full_tame ?_)
  have opened : Tame s { t with
      spool := { t.spool with
        assembly := some (openedAssembly a i x (chunkCost t.charge.params a.declared) t.spool.chunkAge), bare := some i }
      charge := { t.charge with chunk := some (chunkCost t.charge.params a.declared) } } :=
    tame_work h (fun h => ⟨h.engine.congr rfl rfl, h.updates, rfl⟩) (fun h => h.congr rfl rfl rfl) rfl
  have written := tame_writeTitle i x.received a.data opened
  refine tame_core written ?_
  unfold writeTitle
  simp only [titleAt, onSpool, State.withSpool_spool]
  split <;> rfl

theorem tame_chargeStep (p : Port) (a : ChunkBeginArgs) (i : Nat) (x : Title) (h : Tame s t) :
    Tame s (chargeStep p a i x t) :=
  .ite (fun _ => tame_refuseHeld p i h) fun _ => .ite (fun _ => tame_openAssembly p a i x h) fun _ =>
    tame_offerTo .radio _ (tame_core (u := onSpool (fun sp => { sp with held := true }) _) (tame_refuseHeld p i h) rfl)

theorem tame_chunkSteps (p : Port) (a : ChunkBeginArgs) {i : Nat} {x : Title} (h : Tame s t) (found : titleAt i t = some x) :
    Tame s (chunkSteps p a i x t) :=
  .ite (fun _ => tame_misfit p h found) fun _ => .ite (fun _ => tame_refuse p _ (tame_countStat _ h)) fun _ =>
    .ite (fun _ => tame_refuseFull p x _ h) fun _ => tame_chargeStep p a i x (tame_takeTitleBlocks _ h found)

theorem tame_chunkBegin (p : Port) (a : ChunkBeginArgs) (h : Tame s t) : Tame s (chunkBegin p a t) := by
  have dropped := tame_dropAssembly Hooks.full_tame .abandoned true h
  have entered := tame_prefixStep a dropped
  unfold chunkBegin
  refine .ite (fun _ => tame_refuse p _ dropped) fun _ => ?_
  split
  · next e => exact tame_refuse p _ (by rw [e] at entered; exact entered)
  · next e =>
    rw [e] at entered
    split
    · next found => exact tame_chunkSteps p a entered found
    · exact tame_refuse p _ entered

theorem writeTitle_spool (i n : Nat) (bs : List Byte) (s : State) : (writeTitle i n bs s).spool = s.spool := by
  unfold writeTitle; split <;> rfl

theorem tame_chunkMore (p : Port) (bs : List Byte) (h : Tame s t) : Tame s (chunkMore p bs t) := by
  unfold chunkMore
  split
  · exact tame_refuse p _ h
  · next a opened =>
    refine .ite (fun _ => tame_refuse p _ (tame_countStat _ (tame_closeAssembly Hooks.full_tame h))) fun _ => ?_
    have written := tame_writeTitle a.entry (a.offset + a.collected) bs h
    refine tame_endIfCollected p _ (tame_core written ?_)
    simp [coreOf, onSpool, writeTitle_spool, opened]

theorem tame_verificationEnd (i : Nat) (h : Tame s t) : Tame s (verificationEnd i t) := by
  have left : Tame s (onSpool (fun sp => { sp with verifying := sp.verifying.tail }) t) := tame_core h rfl
  unfold verificationEnd
  dsimp only
  split
  · exact .ite (fun _ => tame_completeTitle i left) fun _ => tame_failTitle i _ left
  · exact left

theorem tame_titleReadNow (p : Port) (a : TitleReadArgs) (h : Tame s t) : Tame s (titleReadNow p a t) := by
  unfold titleReadNow
  refine .ite (fun _ => tame_refuse p _ h) fun _ => ?_
  split
  · exact tame_refuse p _ h
  · exact .ite (fun _ => tame_refuse p _ h) fun _ => tame_respond p _ _ h

theorem tame_titleRead (p : Port) (a : TitleReadArgs) (h : Tame s t) : Tame s (titleRead p a t) :=
  .ite (fun _ => h) fun _ => tame_titleReadNow p a h

theorem tame_freeTitle (i : Nat) (h : Tame s t) : Tame s (freeTitle i t) := by
  refine tame_blocks h (by simp [freeTitle, setTitle, onSpool, returnBlocks, onPool]) (fun b => ?_) rfl
  have titles := titleCountOf_setTitle (s := t) b (i := i) (y := none) (.inr rfl)
  have free : (freeTitle i t).pool.free.count b = t.pool.free.count b + (entryBlocks (titleAt i t)).count b :=
    List.count_append ..
  have others : titleCountOf b (freeTitle i t) = titleCountOf b (setTitle i none t)
      ∧ (freeTitle i t).pool.panel = t.pool.panel := ⟨rfl, rfl⟩
  have none : (entryBlocks none).count b = 0 := rfl
  rw [free, others.1, others.2]
  omega

theorem tame_titleRelease (p : Port) (id : Word32) (h : Tame s t) : Tame s (titleRelease p id t) := by
  unfold titleRelease
  refine .ite (fun _ => tame_refuse p _ h) fun _ => ?_
  split
  · exact tame_refuse p _ h
  · exact tame_respond p _ _ (tame_freeTitle _ (tame_ite (fun _ => tame_dropAssembly Hooks.full_tame _ true) h))

theorem tame_titleQuery (p : Port) (id : Word32) (h : Tame s t) : Tame s (titleQuery p id t) := by
  unfold titleQuery
  refine .ite (fun _ => tame_refuse p _ h) fun _ => ?_
  split
  · exact tame_refuse p _ h
  · exact tame_respond p _ _ h

/-! ## Light, monitor, charge account -/

theorem tame_lightSet (p : Port) (a : LightSetArgs) (h : Tame s t) : Tame s (lightSet p a t) := by
  unfold lightSet
  refine .ite (fun _ => tame_refuse p _ h) fun _ => .ite (fun _ => tame_refuse p _ h) fun _ => ?_
  dsimp only
  split
  · exact tame_offerMain false _ (tame_respond p _ _ (tame_core h rfl))
  · exact tame_offerTo .standby _ (tame_respond p _ _ (tame_core h rfl))

theorem tame_lightCurve (p : Port) (d : List Nat) (h : Tame s t) : Tame s (lightCurve p d t) :=
  .ite (fun _ => tame_respond p _ _ (tame_onLight _ h)) fun _ => tame_refuse p _ h

theorem tame_lightAutoPoints (p : Port) (d : List Nat) (h : Tame s t) : Tame s (lightAutoPoints p d t) :=
  .ite (fun _ => tame_respond p _ _ (tame_onLight _ h)) fun _ => tame_refuse p _ h

theorem tame_monitorTest (p : Port) (a : MonitorTestArgs) (h : Tame s t) : Tame s (monitorTest p a t) := by
  unfold monitorTest
  split
  · exact tame_refuse p _ h
  · exact .ite (fun _ => tame_respond p _ _ (tame_setChannel _ _ h)) fun _ => tame_refuse p _ h

theorem tame_monitorConfig (p : Port) (a : MonitorConfigArgs) (h : Tame s t) : Tame s (monitorConfig p a t) := by
  unfold monitorConfig
  split
  · exact tame_refuse p _ h
  · exact .ite (fun _ => tame_respond p _ _ (tame_setChannel _ _ h)) fun _ => tame_refuse p _ h

theorem tame_chargeSet (p : Port) (v : Nat) (h : Tame s t) : Tame s (chargeSet p v t) :=
  tame_respond p _ _ (tame_evaluate Hooks.full_tame
    (tame_charge (c := setCharge v t.charge) h rfl rfl fun sound => ⟨Nat.min_le_right .., sound.index⟩))

/-- New parameters scale the charge with the capacity. -/
theorem applyChargeParams_within {c : Charge} (a : ChargeParams) (h : c.q ≤ qFull c) :
    (applyChargeParams a c).q ≤ qFull (applyChargeParams a c) := by
  simp only [applyChargeParams, qFull] at h ⊢
  split
  · next same => rw [same]; exact h
  · rcases Nat.eq_zero_or_pos c.params.capacity with zero | pos
    · rw [zero, Nat.div_zero]; exact Nat.zero_le _
    · refine Nat.div_le_of_le_mul ?_
      calc c.q * a.capacity ≤ c.params.capacity * 3600000 * a.capacity := Nat.mul_le_mul_right _ h
        _ = c.params.capacity * (a.capacity * 3600000) := by ring

theorem tame_chargeConfig (p : Port) (a : ChargeParams) (h : Tame s t) : Tame s (chargeConfig p a t) := by
  refine .ite (fun _ => tame_respond p _ _ (tame_evaluate Hooks.full_tame ?_)) fun _ => tame_refuse p _ h
  exact tame_charge (c := applyChargeParams a t.charge) h rfl rfl fun sound =>
    ⟨applyChargeParams_within a sound.withinFull, sound.index⟩

/-! ## Keys, radio supply, alarms, clock -/

theorem tame_shortPress (h : Tame s t) : Tame s (shortPress t) := by
  unfold shortPress
  split
  · exact tame_offerMain false _ h
  · exact tame_offerMain false _ (tame_enterActive true _ h)
  · exact tame_offerMain false _ (tame_startResume true _ false h)
  · exact h
  · exact tame_tryRestart _ h

theorem tame_radioPower (p : Port) (code : Nat) (h : Tame s t) : Tame s (radioPower p code t) :=
  .ite (fun _ => tame_refuse p _ h) fun _ => .ite (fun _ => tame_refuse p _ h) fun _ =>
    .ite (fun _ => tame_respond p _ _ (tame_onPlatform _ h)) fun _ =>
      .ite (fun _ => tame_respond p _ _ (tame_resetRadioPort Hooks.full_tame _ (tame_onPlatform _ h)))
        fun _ => tame_respond p _ _ h

theorem tame_alarmAction (i : Nat) (a : Alarm) (h : Tame s t) : Tame s (alarmAction i a t) := by
  unfold alarmAction
  dsimp only
  split
  · exact tame_offerMain false _ h
  · exact tame_offerMain false _ (tame_enterActive true _ h)
  · exact tame_offerMain false _ (tame_startResume true _ false h)
  · exact tame_offerTo .radio _ (tame_onPlatform _ h)
  · exact tame_offerTo .radio _ (tame_onPlatform _ h)
  · exact tame_onPlatform _ (tame_startResume false _ false h)
  · exact tame_offerTo .standby _ h
  · exact tame_offerTo .standby _ h
  · exact tame_offerTo .standby _ (tame_startResume false _ false h)
  · exact h
  · exact h

theorem tame_expireAlarm (i : Nat) (h : Tame s t) : Tame s (expireAlarm i t) := by
  unfold expireAlarm
  split
  · exact tame_alarmAction i _ (tame_onPlatform _ h)
  · exact h

theorem tame_expireIf (due : Nat → Bool) (i : Nat) (h : Tame s t) : Tame s (expireIf due i t) := by
  unfold expireIf
  split
  · exact tame_ite (fun _ => tame_expireAlarm i) h
  · exact h

theorem tame_expireAll (due : Nat → Bool) (h : Tame s t) : Tame s (expireAll due t) :=
  tame_expireIf due 2 (tame_expireIf due 1 (tame_expireIf due 0 h))

theorem tame_alarmSet (p : Port) (a : AlarmSetArgs) (h : Tame s t) : Tame s (alarmSet p a t) := by
  unfold alarmSet
  split
  · exact tame_refuse p _ h
  · exact .ite (fun _ => tame_refuse p _ h) fun _ => .ite (fun _ => tame_refuse p _ h) fun _ =>
      tame_expireIf _ _ (tame_respond p _ _ (tame_onPlatform _ h))

theorem tame_alarmClear (p : Port) (i : Nat) (h : Tame s t) : Tame s (alarmClear p i t) :=
  .ite (fun _ => tame_refuse p _ h) fun _ => tame_respond p _ _ (tame_onPlatform _ h)

theorem tame_clockSet (p : Port) (v : Nat) (h : Tame s t) : Tame s (clockSet p v t) :=
  tame_expireAll _ (tame_respond p _ _ (tame_onPlatform _ h))

/-! ## Platform requests and power-up intervals -/

theorem tame_doze (p : Port) (h : Tame s t) : Tame s (doze p t) := by
  unfold doze
  split
  · exact tame_respond p _ _ (tame_reportState _ _ _ (tame_onPlatform _ h))
  · exact tame_respond p _ _ (tame_onPlatform _ h)
  · exact tame_refuse p _ h

theorem tame_sleepRequest (p : Port) (h : Tame s t) : Tame s (sleepRequest p t) := by
  unfold sleepRequest
  split
  · exact .ite (fun _ => tame_respond p _ _ h) fun _ => tame_recheckNow (tame_respond p _ _ (tame_onPlatform _ h))
  · exact .ite (fun _ => tame_refuse p _ h) fun _ => tame_respond p _ _ h
  · exact tame_refuse p _ h

theorem tame_wakeRequest (p : Port) (h : Tame s t) : Tame s (wakeRequest p t) := by
  unfold wakeRequest
  split
  · exact tame_respond p _ _ h
  · exact tame_enterActive true _ (tame_respond p _ _ h)
  · exact .ite (fun _ => tame_respond p _ _ h) fun _ => tame_startResume true _ false (tame_respond p _ _ h)
  · exact tame_refuse p _ h

theorem tame_decideDeferred (q : Packet) (h : Tame s t) : Tame s (decideDeferred q t) := by
  have elim {α : Type} (o : Option α) {f : α → State} (hf : ∀ a, Tame s (f a)) : Tame s (o.elim t f) := by
    cases o with
    | none => exact h
    | some a => exact hf a
  unfold decideDeferred
  split
  · exact elim _ fun a => tame_pageDataNow .main a h
  · exact elim _ fun a => tame_geometrySetNow .main a h
  · exact elim _ fun a => tame_titleReadNow .main a h
  · exact h

theorem tame_carryDeferred (h : Tame s t) : Tame s (carryDeferred t) := by
  unfold carryDeferred
  split
  · refine .ite (fun _ => h) fun _ => .ite (fun _ => tame_onPort .main h ⟨?_, id⟩) fun _ => tame_decideDeferred _ h
    simp [outstanding]
  · exact h

theorem tame_completeResume (o : Onward) (h : Tame s t) : Tame s (completeResume o t) := by
  have hk := Hooks.full_tame
  unfold completeResume
  extract_lets s1 s2 s3 s4
  have started : Tame s s1 := tame_changePeriod hk (tame_startTimers (tame_onPlatform _ h))
  have timed : Tame s s2 :=
    .ite (fun _ => tame_onPlatform _ (tame_considerationPass hk (tame_onWave _ started))) fun _ => started
  have reported : Tame s s3 := tame_reportState _ _ _ timed
  have alarmed : Tame s s4 := .ite (fun _ => reported.trans
    (.foldl (fun t _ => tame_offerTo .radio _ (tame_onPlatform _ (.refl t))) _ _)) fun _ => reported
  exact tame_carryDeferred alarmed

theorem tame_completeHaltInterval (h : Tame s t) : Tame s (completeHaltInterval t) :=
  tame_carryDeferred (tame_considerationPass Hooks.full_tame (tame_startTimers (tame_onPlatform _ h)))

theorem tame_haltRequest (p : Port) (c : HaltCause) (h : Tame s t) : Tame s (haltRequest p c t) :=
  .ite (fun _ => tame_refuse p _ h) fun _ => tame_haltNow c (tame_respond p _ _ h)

theorem tame_powerOn (p : Port) (h : Tame s t) : Tame s (powerOn p t) := by
  unfold powerOn
  split
  · exact tame_refuse p _ h
  · exact .ite (fun _ => tame_restartNow _ (tame_respond p _ _ h)) fun _ => tame_refuse p _ h
  · exact tame_respond p _ _ h

theorem tame_powerOnReset (b : Bool) (r : Readings) (h : Tame s t) : Tame s (powerOnReset b r t) := by
  have values : Tame s { State.reset with inputs := t.inputs, samples := t.samples, pending := t.pending } :=
    tame_wiped h rfl rfl rfl rfl rfl rfl rfl rfl rfl rfl rfl (fun _ => ⟨Nat.zero_le _, Nat.le_refl 4⟩)
      (fun p => by cases p <;> exact ⟨Nat.zero_le _, fun _ => Nat.zero_le _⟩) rfl
  have held : Tame s (powerOnValues b t) := tame_ite (fun _ => tame_onPlatform _) values
  exact tame_setChargeCap Hooks.quiet_tame (tame_sequenceWith Hooks.quiet_tame r 0 true held)

/-! ## Port units and the taking of a request -/

theorem keeps_takeIn (p : Port) (q : Packet) (s : State) : Keeps s (onPort p (takeIn q) s) := by
  refine keeps_withPort p _ fun sound => ?_
  obtain ⟨count, notices⟩ := sound
  unfold takeIn
  split
  · next room =>
    refine ⟨?_, notices⟩
    simp only [outstanding, List.length_append, List.length_singleton] at room ⊢
    omega
  · exact ⟨count, notices⟩

theorem keeps_arrived (p : Port) (q : Packet) (s : State) : Keeps s (arrived p q s) :=
  .ite (fun _ => .refl s) fun _ => keeps_takeIn p q s

theorem tame_beginTaking {p : Port} {q : Packet} (h : Tame s t) (can : takable p q t = true) :
    Tame s (beginTaking p q t) := by
  refine tame_requestTaken p (tame_onPort p h ⟨?_, id⟩)
  simp only [takable, Bool.and_eq_true, Option.isNone_iff_eq_none, beq_iff_eq] at can
  obtain ⟨free, head⟩ := can
  obtain ⟨rest, waiting⟩ := List.head?_eq_some_iff.mp head
  simp only [outstanding, free, waiting, List.tail_cons, List.length_cons, Option.isSome_some, Option.isSome_none, if_true,
    Bool.false_eq_true, if_false]
  omega

/-- A request row keeps what its owner keeps. -/
theorem keeps_takeRequest {α : Type} (p : Port) (k : ReqKind) (m : Msg) (read : List Byte → Option α)
    {owner : α → State → State} (kept : ∀ a t, Keeps t (owner a t)) (s : State) :
    Keeps s (takeRequest p k m read owner s) := by
  unfold takeRequest
  refine .ite (fun _ => .refl s) fun _ => ?_
  have here := keeps_arrived p ⟨k.code, m⟩ s
  dsimp only
  refine .ite (fun can => ?_) fun _ => here
  have taken := here.then (tame_beginTaking (.refl _) can)
  unfold decideRequest
  refine .ite (fun _ => taken.then (tame_refuseChecksum p (.refl _))) fun _ => ?_
  refine .ite (fun _ => taken.then (tame_refuse p _ (.refl _))) fun _ => ?_
  split
  · exact taken.then (tame_refuse p _ (.refl _))
  · exact .ite (fun _ => taken.then (tame_refuse p _ (.refl _))) fun _ => taken.trans (kept _ _)

/-- A request row whose owner is tame. -/
theorem keeps_request {α : Type} (p : Port) (k : ReqKind) (m : Msg) (read : List Byte → Option α) {owner : α → State → State}
    (tame : ∀ a t, Tame t (owner a t)) (s : State) : Keeps s (takeRequest p k m read owner s) :=
  keeps_takeRequest p k m read (fun a t => (tame a t).keeps) s

theorem tame_resetSpoolSide (p : Port) (h : Tame s t) : Tame s (resetSpoolSide p t) :=
  tame_ite (fun _ h => tame_core (u := onSpool (fun sp => { sp with bare := none }) _)
    (tame_dropAssembly Hooks.full_tame .abandoned false h) rfl) h

/-- A response queued where the outstanding count has room for it. -/
theorem keeps_queueResponse {p : Port} {k : Byte} {r : Result} {data : List Byte} (h : Keeps s t)
    (room : PortsSound s → outstanding (t.port p) < Config.outstandingMax) : Keeps s (queueResponse p k r data t) := by
  unfold queueResponse onPort
  refine ⟨fun b => by simpa using h.dram b, fun b => (h.blocks b).congr ?_ ?_ ?_ ?_, fun w => (h.window w).congr ?_ ?_ ?_,
    fun c => (h.reservations c).congr ?_ ?_ ?_ ?_ ?_, fun c => (h.charge c).congr ?_ ?_ ?_, fun sound q => ?_,
    by simpa using h.pending⟩
  case refine_16 =>
    by_cases e : q = p
    · subst e
      have before := h.ports sound q
      have free := room sound
      rw [State.withPort_port_same]
      refine ⟨?_, by simpa [noticeCount] using before.2⟩
      simp only [outstanding, List.filter_append, List.length_append] at free ⊢
      simp only [List.filter_cons, isNotice_response, Bool.not_false, if_true, List.filter_nil, List.length_singleton]
      omega
    · rw [State.withPort_port_other _ _ e]; exact h.ports sound q
  all_goals simp

/-- A port whose unit has just been reset has at most the condemned request outstanding. -/
theorem outstanding_resetUnit_le (x : Transfer) (u : PortUnit) : outstanding (resetUnit x u) ≤ 1 := by
  simp only [resetUnit, outstanding, List.length_nil, List.filter_nil, Nat.zero_add, Nat.add_zero]
  exact ite_le_one le_rfl (Nat.zero_le 1)

theorem keeps_portResetNow (p : Port) (s : State) : Keeps s (portResetNow p s) := by
  let t := onPort p (fun u => countAdmitted (resetUnit (transferAfterReset u.transfer) u)) (requestTaken p s)
  have unit : t.port p = countAdmitted (resetUnit (transferAfterReset ((requestTaken p s).port p).transfer)
      ((requestTaken p s).port p)) := State.withPort_port_same _ p _
  have few : outstanding (t.port p) ≤ 1 := unit ▸ outstanding_resetUnit_le
    (transferAfterReset ((requestTaken p s).port p).transfer) ((requestTaken p s).port p)
  have reset : Tame s t := tame_onPort p (tame_requestTaken p (.refl s))
    ⟨(unitKept_resetUnit (transferAfterReset ((requestTaken p s).port p).transfer) ((requestTaken p s).port p)).outstanding, fun _ => Nat.zero_le _⟩
  have spool : Tame t (resetSpoolSide p t) := tame_resetSpoolSide p (.refl t)
  refine (keeps_queueResponse (reset.trans spool).keeps fun sound => ?_).then (tame_recheckNow (.refl _))
  have within : PortsWithin (fun q => if q = p then 1 else Config.outstandingMax) t := fun q => by
    refine ⟨?_, (reset.within _ sound q).2⟩
    dsimp only
    split
    · next e => rw [e]; exact few
    · exact (reset.within _ sound q).1
  have := (spool.within _ within p).1
  rw [if_pos rfl] at this
  exact Nat.lt_of_le_of_lt this (by decide)

theorem keeps_arrive (p : Port) (q : Packet) (s : State) : Keeps s (arrive p q s) :=
  .ite (fun _ => keeps_portResetNow p s) fun _ => keeps_takeIn p q s

theorem tame_setTransfer (p : Port) (x : Transfer) (h : Tame s t) : Tame s (setTransfer p x t) :=
  tame_onPort p h (.of_same rfl rfl rfl)

theorem tame_countersClear (p : Port) (code : Nat) (h : Tame s t) : Tame s (countersClear p code t) := by
  unfold countersClear
  split
  · exact tame_refuse p _ h
  · exact tame_respond p _ _ (tame_onPort _ h (.of_same rfl rfl rfl))

/-! ## Parameters -/

theorem tame_storeIf (p : Port) (b : Bool) {f : State → State} (hf : coreOf (f t) = coreOf t) (h : Tame s t) :
    Tame s (storeIf p b f t) :=
  .ite (fun _ => tame_respond p _ _ (tame_core h hf)) fun _ => tame_refuse p _ h

theorem tame_storeLow (p : Port) (v : Nat) {f : Window → Window} (hf : coreOf (onWindow f t) = coreOf t) (h : Tame s t) :
    Tame s (storeLow p v f t) :=
  .ite (fun _ => tame_lowWater (tame_respond p _ _ (tame_core h hf))) fun _ => tame_refuse p _ h

theorem tame_storeThreshold (p : Port) (v : Nat) (h : Tame s t) : Tame s (storeThreshold p v t) :=
  .ite (fun _ => tame_linkTest .radio (tame_linkTest .standby (tame_linkTest .main (tame_respond p _ _ (tame_core h rfl)))))
    fun _ => tame_refuse p _ h

theorem keeps_paramSet (q : Param) (p : Port) (m : Msg) {owner : Nat → State → State} (tame : ∀ v t, Tame t (owner v t))
    (s : State) : Keeps s (paramSet q p m owner s) := by
  unfold paramSet
  refine .ite (fun _ => .refl s) fun _ => keeps_request p _ m _ (fun a t => ?_) s
  exact .ite (fun _ => tame _ _) fun _ => tame_refuse p _ (.refl t)

theorem tame_paramGet (p : Port) (i : Nat) (h : Tame s t) : Tame s (paramGet p i t) := by
  unfold paramGet
  split
  · exact tame_refuse p _ h
  · exact tame_respond p _ _ h

/-! ## Every command -/

/-- What a command keeps, with the state it leaves. -/
def CommandKeeps (s : State) (o : Host.Outcome State Fault Refusal) : Prop := ∃ t, o = .next t ∧ Keeps s t

theorem CommandKeeps.next (h : Keeps s t) : CommandKeeps s (.next t) := ⟨t, rfl, h⟩

theorem keeps_tick (s : State) : Keeps s (tick s) := by
  refine (Tame.of_core ?_).keeps
  simp only [coreOf, tick, onSpool, tickSpool, Core.mk.injEq]
  refine ⟨rfl, rfl, rfl, rfl, rfl, rfl, rfl, rfl, rfl, rfl, rfl, ?_, rfl, rfl, rfl, rfl, rfl, rfl, rfl⟩
  show (s.spool.assembly.map _).map _ = _
  rw [Option.map_map]
  rfl

end Sys2Proof.Machine
end

