-- ==== Sys2Proof/Proofs/EveryStep.lean ====
section
/-! PROOFS. Every command keeps the invariants and the queue; the statements on every step. -/

namespace Sys2Proof.Machine

variable {s t : State}

theorem CommandKeeps.tame (h : Tame s t) : CommandKeeps s (.next t) := .next h.keeps

theorem CommandKeeps.tame_if {c : Prop} [Decidable c] (h : Tame s t) : CommandKeeps s (.next (if c then t else s)) :=
  .tame (.ite (fun _ => h) fun _ => .refl s)

theorem commandKeeps_request {α : Type} (p : Port) (k : ReqKind) (m : Msg) (read : List Byte → Option α)
    {owner : α → State → State} (tame : ∀ a t, Tame t (owner a t)) (s : State) :
    CommandKeeps s (.next (takeRequest p k m read owner s)) := .next (keeps_request p k m read tame s)

theorem commandKeeps_taking {α : Type} (p : Port) (k : ReqKind) (m : Msg) (read : List Byte → Option α)
    {owner : α → State → State} (kept : ∀ a t, Keeps t (owner a t)) (s : State) :
    CommandKeeps s (.next (takeRequest p k m read owner s)) := .next (keeps_takeRequest p k m read kept s)

theorem commandKeeps_paramSet (q : Param) (p : Port) (m : Msg) {owner : Nat → State → State} (tame : ∀ v t, Tame t (owner v t))
    (s : State) : CommandKeeps s (.next (paramSet q p m owner s)) := .next (keeps_paramSet q p m tame s)

/-- A parameter that is stored, or refused, with nothing done besides. -/
theorem commandKeeps_storeIf (q : Param) (p : Port) (m : Msg) {ok : Nat → State → Bool} {f : Nat → State → State}
    (same : ∀ v t, coreOf (f v t) = coreOf t) (s : State) :
    CommandKeeps s (.next (paramSet q p m (fun v t => storeIf p (ok v t) (f v) t) s)) :=
  commandKeeps_paramSet q p m (fun v t => tame_storeIf p _ (same v t) (.refl t)) s

/-! ## The rows that are no plain request -/

theorem commandKeeps_rampTick (s : State) : CommandKeeps s (execRampTick s) := by
  refine .tame_if ?_
  exact tame_ite (fun _ => tame_recheckNow) (tame_core (.refl s) rfl)

theorem commandKeeps_pwmPeriodStart (line : LightLine) (s : State) : CommandKeeps s (execPwmPeriodStart line s) := by
  cases line <;> exact .tame (tame_onLight _ (.refl s))

theorem commandKeeps_keyRelease (s : State) : CommandKeeps s (execKeyRelease s) := by
  refine .tame ?_
  have released : Tame s (releaseKey s) := tame_onPlatform _ (.refl s)
  split
  · exact tame_recheckNow (tame_shortPress released)
  · exact released
  · exact .refl s

theorem commandKeeps_radioRow (p : Port) (other : Nat) (m : Msg) (s : State) :
    CommandKeeps s (.next (radioRow p other m s)) :=
  .next (.ite (fun _ => .refl s) fun _ => keeps_request p _ m _ (fun c t => tame_recheckNow (tame_radioPower p c (.refl t))) s)

theorem commandKeeps_portReset (p : Port) (m : Msg) (s : State) : CommandKeeps s (execPortReset p m s) :=
  .next (.ite (fun _ => .ite (fun _ => keeps_portResetNow p s) fun _ => .refl s)
    fun _ => keeps_request p _ m _ (fun _ t => tame_respond p _ _ (.refl t)) s)

theorem commandKeeps_unknownRequest (p : Port) (kind : Byte) (m : Msg) (s : State) :
    CommandKeeps s (execUnknownRequest p kind m s) := by
  refine .next (.ite (fun _ => .refl s) fun _ => ?_)
  dsimp only
  refine .ite (fun can => ?_) fun _ => keeps_arrived p _ s
  refine (keeps_arrived p _ s).then ((tame_beginTaking (.refl _) can).trans ?_)
  exact .ite (fun _ => tame_refuseChecksum p (.refl _)) fun _ => tame_refuse p _ (.refl _)

theorem commandKeeps_selectionByte (p : Port) (b : Byte) (s : State) : CommandKeeps s (execSelectionByte p b s) :=
  .tame_if (.ite (fun _ => tame_setTransfer p _ (.refl s)) fun _ =>
    .ite (fun _ => tame_setTransfer p _ (.refl s)) fun _ => tame_headerFails p (.refl s))

theorem commandKeeps_packetArrived (p : Port) (q : Packet) (s : State) : CommandKeeps s (execPacketArrived p q s) :=
  .next (.ite (fun _ => (tame_setTransfer p _ (.refl s)).keeps.trans (keeps_arrive p q _)) fun _ => .refl s)

theorem commandKeeps_csRise (p : Port) (n : Nat) (s : State) : CommandKeeps s (execCsRise p n s) :=
  .tame_if (.ite (fun _ => tame_onPort p (.refl s) (.of_same rfl rfl rfl)) fun _ => tame_setTransfer p _ (.refl s))

/-- A unit that has lost the head of its queue. -/
theorem unitKept_tail {u v : PortUnit} (waiting : v.waiting = u.waiting) (inProcess : v.inProcess = u.inProcess)
    (queue : v.queue = u.queue.tail) : UnitKept u v := by
  have shorter (f : Entry → Bool) : (v.queue.filter f).length ≤ (u.queue.filter f).length := by
    rw [queue]; exact ((List.tail_sublist u.queue).filter f).length_le
  refine ⟨?_, fun h => (shorter _).trans h⟩
  have := shorter (fun e => !e.isNotice)
  simp only [outstanding, waiting, inProcess]
  omega

theorem commandKeeps_packetSent (p : Port) (s : State) : CommandKeeps s (execPacketSent p s) := by
  refine .tame_if ?_
  split
  · exact tame_onPort p (.refl s) (unitKept_tail rfl rfl rfl)
  · exact tame_setTransfer p _ (.refl s)
  · exact .refl s

theorem commandKeeps_scanComplete (id : Nat) (s : State) : CommandKeeps s (execScanComplete id s) := by
  refine .tame ?_
  split
  · next u found =>
    have matched := List.find?_some found
    simp only [Bool.and_eq_true, beq_iff_eq] at matched
    exact tame_recheckNow (tame_finishScan (.refl s) (List.mem_of_find?_eq_some found) matched.2)
  · exact .refl s

theorem commandKeeps_verificationEnd (s : State) : CommandKeeps s (execVerificationEnd s) := by
  refine .tame ?_
  split
  · exact tame_recheckNow (tame_verificationEnd _ (.refl s))
  · exact .refl s

theorem commandKeeps_resumeComplete (s : State) : CommandKeeps s (execResumeComplete s) := by
  refine .tame ?_
  split
  · exact tame_recheckNow (tame_completeResume _ (.refl s))
  · exact .refl s

theorem commandKeeps_haltIntervalComplete (s : State) : CommandKeeps s (execHaltIntervalComplete s) := by
  refine .tame ?_
  split
  · exact tame_recheckNow (tame_completeHaltInterval (.refl s))
  · exact .refl s

/-! ## Every command -/

/-- Every command ends in a state with the same queue that keeps each invariant. -/
theorem commandKeeps_exec (c : Instr) (s : State) : CommandKeeps s (exec c s) := by
  cases c with
  | pageOpen p m =>
    exact commandKeeps_taking p _ m _ (fun a t => (keeps_pageOpen p a t).then (tame_recheckNow (.refl _))) s
  | pageData p m => exact commandKeeps_request p _ m _ (fun a t => tame_pageData p a (.refl t)) s
  | pageClose p m => exact commandKeeps_request p _ m _ (fun a t => tame_recheckNow (tame_pageClose p a (.refl t))) s
  | pageRelease p m => exact commandKeeps_request p _ m _ (fun i t => tame_recheckNow (tame_pageRelease p i t)) s
  | pagePin p m =>
    exact commandKeeps_request p _ m _ (fun a t => tame_pinRequest p a (fun r {_} h => tame_moveRole a.1 r h) (.refl t)) s
  | pageUnpin p m =>
    exact commandKeeps_request p _ m _ (fun a t => tame_pinRequest p a (fun r {_} h => tame_dropRole a.1 r h) (.refl t)) s
  | geometrySet p m => exact commandKeeps_request p _ m _ (fun a t => tame_geometrySet p a (.refl t)) s
  | windowSet p m => exact commandKeeps_taking p _ m _ (fun a t => keeps_windowSet p a t) s
  | windowAppend p m =>
    exact commandKeeps_taking p _ m _ (fun i t => keeps_windowAdd p i t fun _ new usable out sound =>
      windowSound_appended new usable out sound) s
  | windowPrepend p m =>
    exact commandKeeps_taking p _ m _ (fun i t => keeps_windowAdd p i t fun _ new usable out sound =>
      windowSound_prepended new usable out sound) s
  | windowDrop p m => exact commandKeeps_taking p _ m _ (fun i t => keeps_windowDrop p i t) s
  | turnNext p m => exact commandKeeps_request p _ m _ (fun _ t => tame_recheckNow (tame_turn p _ (.refl t))) s
  | turnPrev p m => exact commandKeeps_request p _ m _ (fun _ t => tame_recheckNow (tame_turn p _ (.refl t))) s
  | showPage p m => exact commandKeeps_request p _ m _ (fun a t => tame_recheckNow (tame_showPage p a (.refl t))) s
  | abort p m => exact commandKeeps_request p _ m _ (fun i t => tame_recheckNow (tame_abort p i (.refl t))) s
  | scanComplete id => exact commandKeeps_scanComplete id s
  | frameEvent => exact .tame_if (tame_recheckNow (tame_frameEvent (.refl s)))
  | waveformBegin p m =>
    exact commandKeeps_request p _ m _ (fun a t => tame_recheckNow (tame_waveformBegin p a (.refl t))) s
  | waveformData p m => exact commandKeeps_request p _ m _ (fun a t => tame_waveformData p a (.refl t)) s
  | waveformEnd p m => exact commandKeeps_request p _ m _ (fun a t => tame_recheckNow (tame_waveformEnd p a (.refl t))) s
  | scrubTimerExpiry => exact .tame_if (tame_onWave _ (.refl s))
  | scrubPassEnd us => exact .tame_if (tame_recheckNow (tame_scrubPassEnd us (.refl s)))
  | chunkBegin p m => exact commandKeeps_request p _ m _ (fun a t => tame_recheckNow (tame_chunkBegin p a (.refl t))) s
  | chunkMore p m => exact commandKeeps_request p _ m _ (fun a t => tame_recheckNow (tame_chunkMore p a (.refl t))) s
  | verificationEnd => exact commandKeeps_verificationEnd s
  | chunkAgingExpiry => exact .tame_if (tame_recheckNow (tame_dropAssembly Hooks.full_tame _ _ (.refl s)))
  | titleRead p m => exact commandKeeps_request p _ m _ (fun a t => tame_titleRead p a (.refl t)) s
  | titleRelease p m => exact commandKeeps_request p _ m _ (fun a t => tame_recheckNow (tame_titleRelease p a (.refl t))) s
  | titleQuery p m => exact commandKeeps_request p _ m _ (fun a t => tame_titleQuery p a (.refl t)) s
  | spoolStatsClear p m => exact commandKeeps_request p _ m _ (fun _ t => tame_respond p _ _ (tame_countStat _ (.refl t))) s
  | lightSet p m => exact commandKeeps_request p _ m _ (fun a t => tame_lightSet p a (.refl t)) s
  | lightCurve p m => exact commandKeeps_request p _ m _ (fun a t => tame_lightCurve p a (.refl t)) s
  | lightAutoPoints p m => exact commandKeeps_request p _ m _ (fun a t => tame_lightAutoPoints p a (.refl t)) s
  | rampTick => exact commandKeeps_rampTick s
  | monitorTest p m => exact commandKeeps_request p _ m _ (fun a t => tame_monitorTest p a (.refl t)) s
  | monitorConfig p m => exact commandKeeps_request p _ m _ (fun a t => tame_monitorConfig p a (.refl t)) s
  | conversionSequence r => exact .tame (tame_recheckNow (tame_sequenceWith Hooks.full_tame r _ _ (.refl s)))
  | chargeSet p m => exact commandKeeps_request p _ m _ (fun a t => tame_recheckNow (tame_chargeSet p a (.refl t))) s
  | chargeConfig p m => exact commandKeeps_request p _ m _ (fun a t => tame_recheckNow (tame_chargeConfig p a (.refl t))) s
  | doze p m => exact commandKeeps_request p _ m _ (fun _ t => tame_doze p (.refl t)) s
  | sleep p m => exact commandKeeps_request p _ m _ (fun _ t => tame_sleepRequest p (.refl t)) s
  | wakeMain p m => exact commandKeeps_request p _ m _ (fun _ t => tame_wakeRequest p (.refl t)) s
  | resumeComplete => exact commandKeeps_resumeComplete s
  | powerOff p m => exact commandKeeps_request p _ m _ (fun _ t => tame_haltRequest p _ (.refl t)) s
  | restart p m => exact commandKeeps_request p _ m _ (fun _ t => tame_haltRequest p _ (.refl t)) s
  | haltIntervalComplete => exact commandKeeps_haltIntervalComplete s
  | powerOn p m => exact commandKeeps_request p _ m _ (fun _ t => tame_powerOn p (.refl t)) s
  | powerOnReset b r => exact .tame (tame_powerOnReset b r (.refl s))
  | idleTimerExpiry => exact .tame_if (tame_recheckNow (tame_core (.refl s) rfl))
  | keyPress => exact .tame_if (tame_onPlatform _ (.refl s))
  | keyRelease => exact commandKeeps_keyRelease s
  | keyHoldExpiry => exact .tame_if (tame_haltNow _ (tame_onPlatform _ (.refl s)))
  | radioPowerOn p m => exact commandKeeps_radioRow p _ m s
  | radioPowerOff p m => exact commandKeeps_radioRow p _ m s
  | clockSecond => exact .tame (tame_expireAll _ (tame_onPlatform _ (.refl s)))
  | clockSet p m => exact commandKeeps_request p _ m _ (fun v t => tame_clockSet p v (.refl t)) s
  | alarmSet p m => exact commandKeeps_request p _ m _ (fun a t => tame_alarmSet p a (.refl t)) s
  | alarmClear p m => exact commandKeeps_request p _ m _ (fun a t => tame_alarmClear p a (.refl t)) s
  | alarmExpiry i => exact .tame (tame_expireAlarm i (.refl s))
  | portReset p m => exact commandKeeps_portReset p m s
  | countersClear p m => exact commandKeeps_request p _ m _ (fun a t => tame_countersClear p a (.refl t)) s
  | paramSetAheadLow p m =>
    exact commandKeeps_paramSet .aheadLow p m
      (fun v t => tame_storeLow (f := fun w => { w with aheadLow := v }) p v rfl (.refl t)) s
  | paramSetBehindLow p m => exact commandKeeps_paramSet _ p m (fun v t => tame_storeLow p v rfl (.refl t)) s
  | paramSetLinkErrorThreshold p m => exact commandKeeps_paramSet _ p m (fun v t => tame_storeThreshold p v (.refl t)) s
  | paramSetSpoolLimit p m | paramSetTurnMode p m | paramSetGhostLimit p m | paramSetFrameRate p m
  | paramSetScrubPeriod p m | paramSetChunkAge p m | paramSetTitleWake p m | paramSetRampStep p m
  | paramSetAutoDeadband p m | paramSetPwmFrequency p m | paramSetPolarityCool p m | paramSetPolarityWarm p m
  | paramSetSleepDelay p m =>
    refine commandKeeps_storeIf _ p m ?_ s
    exact fun _ _ => rfl
  | paramGet p m => exact commandKeeps_request p _ m _ (fun i t => tame_paramGet p i (.refl t)) s
  | pageStatus p m | windowQuery p m | updateStatus p m | waveformStatus p m | titleList p m | spoolStats p m
  | lightQuery p m | monitorStatus p m | chargeQuery p m | status p m =>
    exact commandKeeps_request p _ m _ (fun _ t => tame_respond p _ _ (.refl t)) s
  | unknownRequest p kind m => exact commandKeeps_unknownRequest p kind m s
  | selectionByte p b => exact commandKeeps_selectionByte p b s
  | headerFailure p h => exact .tame_if (tame_headerFails p (.refl s))
  | packetArrived p q => exact commandKeeps_packetArrived p q s
  | csRise p n => exact commandKeeps_csRise p n s
  | packetSent p => exact commandKeeps_packetSent p s
  | pwmPeriodStart line => exact commandKeeps_pwmPeriodStart line s
  | headerGood p h => exact .tame_if (tame_setTransfer p _ (.refl s))
  | entryFirstByteSent p => exact .tame_if (tame_onPort p (.refl s) (.of_same rfl rfl rfl))

/-! ## Every step -/

/-- A step keeps what the state with the taken command out of its queue keeps. -/
theorem step_keeps (h : step s = .next t) : ∃ rest, Keeps { s with pending := rest } t := by
  unfold step at h
  split at h
  · next empty =>
    cases h
    exact ⟨s.pending, keeps_tick s⟩
  · next c rest front =>
    obtain ⟨u, ends, kept⟩ := commandKeeps_exec c { s with pending := rest }
    rw [ends] at h
    cases h
    exact ⟨rest, kept⟩

/-- Settles O3: every row ends in a state, with the queue it was given. -/
theorem everyCommandCompletesAndLeavesTheQueue : Obligations.EveryCommandCompletesAndLeavesTheQueue := by
  refine ⟨fun s => ?_, fun c s => ?_⟩
  · unfold step
    split
    · exact ⟨_, rfl⟩
    · next c rest _ =>
      obtain ⟨t, ends, _⟩ := commandKeeps_exec c { s with pending := rest }
      exact ⟨t, ends⟩
  · obtain ⟨t, ends, kept⟩ := commandKeeps_exec c s
    exact ⟨t, ends, kept.pending⟩

/-- Settles O6, by the case of each command. -/
theorem everyStepKeepsTheDramCanonical : Obligations.EveryStepKeepsTheDramCanonical := by
  intro s t sound h
  obtain ⟨_, kept⟩ := step_keeps h
  exact kept.dram sound

/-- Settles O7, by the case of each command. -/
theorem everyStepKeepsOneOwnerPerBlock : Obligations.EveryStepKeepsOneOwnerPerBlock := by
  intro s t sound h
  obtain ⟨_, kept⟩ := step_keeps h
  exact kept.blocks (sound.congr rfl rfl rfl rfl)

/-- Settles O8, by the case of each command. -/
theorem everyStepKeepsTheWindowSound : Obligations.EveryStepKeepsTheWindowSound := by
  intro s t sound h
  obtain ⟨_, kept⟩ := step_keeps h
  exact kept.window (sound.congr rfl rfl rfl)

/-- Settles O9, by the case of each command. -/
theorem everyStepKeepsReservationsSound : Obligations.EveryStepKeepsReservationsSound := by
  intro s t sound h
  obtain ⟨_, kept⟩ := step_keeps h
  exact kept.reservations (sound.congr rfl rfl rfl rfl rfl)

/-- Settles O10, by the case of each command. -/
theorem everyStepKeepsTheChargeInRange : Obligations.EveryStepKeepsTheChargeInRange := by
  intro s t sound h
  obtain ⟨_, kept⟩ := step_keeps h
  exact kept.charge (sound.congr rfl rfl rfl)

/-- Settles O11, by the case of each command. -/
theorem everyStepKeepsThePortShares : Obligations.EveryStepKeepsThePortShares := by
  intro s t sound h
  obtain ⟨_, kept⟩ := step_keeps h
  exact kept.ports fun p => by cases p <;> [exact sound .main; exact sound .standby; exact sound .radio]

end Sys2Proof.Machine
end

