-- ==== Sys2Proof/Proofs/Reset.lean ====
section
/-! PROOFS. A step, and the state after power-on reset. -/

namespace Sys2Proof.Machine

/-- Settles O1, by the definition of a step. -/
theorem stepTakesTheFrontCommand : Obligations.StepTakesTheFrontCommand := fun _ _ _ => rfl

/-- Settles O2: the empty queue's step is `tick`, timer by timer. -/
theorem emptyQueueLetsAMillisecondPass : Obligations.EmptyQueueLetsAMillisecondPass := by
  intro s empty
  have ticks : step s = .next (tick s) := by simp only [step, empty]
  rw [ticks]
  rfl

/-! ## Reset -/

theorem slotAt_reset (i : Nat) : slotAt i State.reset = .reset := by
  show (List.replicate Config.slotCount Slot.reset).getD i .reset = .reset
  rw [List.getD_eq_getElem?_getD, List.getElem?_replicate]
  split <;> rfl

theorem titleAt_reset (i : Nat) : titleAt i State.reset = none := by
  show (List.replicate Config.titleCount none).getD i none = none
  rw [List.getD_eq_getElem?_getD, List.getElem?_replicate]
  split <;> rfl

theorem port_reset (p : Port) : State.reset.port p = .reset := by cases p <;> rfl

/-- An empty memory reads as white pixels. -/
theorem ownerPixel_nil (blocks : List Nat) (k : Nat) : ownerPixel [] blocks k = 15#4 := by
  simp only [ownerPixel, ownerByte, Mem.read]
  split <;> rfl

theorem range_drop_of_shift (n m : Nat) : (List.range (n + m)).drop n = (List.range m).map (· + n) := by
  rw [List.range_add, List.drop_left' (List.length_range ..)]
  simp only [Nat.add_comm]

theorem free_reset : State.reset.pool.free = (List.range 1024).drop 12 := by
  simp only [State.reset, Pool.reset]
  exact (range_drop_of_shift 12 1012).symm

/-- Settles O4, item by item. -/
theorem resetHoldsThePowerOnValues : Obligations.ResetHoldsThePowerOnValues := by
  have footprint_initial : footprint State.reset.pool = 12 := by decide
  refine ⟨⟨rfl, rfl, footprint_initial, rfl, rfl, free_reset⟩, ⟨rfl, fun i => ?_⟩, ⟨rfl, rfl, rfl, rfl, rfl, rfl⟩,
    ⟨rfl, rfl, rfl, fun g member => List.eq_of_mem_replicate member, fun k => ownerPixel_nil _ k⟩, ⟨rfl, rfl, rfl⟩,
    ⟨titleAt_reset, rfl, rfl, rfl⟩, ⟨rfl, rfl, rfl, rfl, rfl⟩, ⟨rfl, rfl, rfl, rfl, rfl⟩, fun p => ?_⟩
  · rw [slotAt_reset]; rfl
  · rw [port_reset]; exact ⟨rfl, rfl, rfl, rfl⟩

/-- Settles O5: memory, pool, window, engine, charge and ports hold nothing yet. -/
theorem resetIsSound : Obligations.ResetIsSound := by
  refine ⟨rfl, blocksSound_of_initial rfl rfl rfl, ?_, ?_, ⟨Nat.zero_le _, Nat.le_refl 4⟩, fun p => ?_⟩
  · refine ⟨Nat.zero_le _, List.nodup_nil, nofun, fun absurd_entries => absurd rfl absurd_entries, nofun, fun x member pending => ?_⟩
    rw [List.eq_of_mem_replicate member] at pending
    exact absurd pending (by decide)
  · exact ⟨⟨Nat.zero_le _, Nat.zero_le _, List.nodup_nil, .nil⟩, .nil, rfl⟩
  · rw [port_reset]; exact ⟨Nat.zero_le _, Nat.zero_le _⟩

end Sys2Proof.Machine
end

