-- ==== Sys2Proof/Proofs/RequestRows.lean ====
section
/-! PROOFS. Requests at the port units: what each request row does before its owner decides (R174, R177, R178), and the statements on
unpowered ports, permissions, checks, unknown kinds and unexpected payloads. -/

namespace Sys2Proof.Machine

/-! ## The taking of a request up to the checks -/

/-- The taking of a main-port request in ACTIVE, up to the checks of R178. -/
theorem takeRequest_main_decides {α : Type} {k : ReqKind} {m : Msg} {s : State} (read : List Byte → Option α)
    (owner : α → State → State) (ready : Ready .main s) (active : s.platform.state = .active) :
    takeRequest .main k m read owner s = decideRequest .main k m read owner (mainTaken k m s) := by
  have on := ready.powered
  rw [takeRequest, if_neg (by simp [on]), if_pos (takable_of_ready ⟨k.code, m⟩ ready), arrived_of_ready _ ready]
  simp [beginTaking, requestTaken, onPort, onPlatform, State.withPlatform, active, mainTaken, takenUnit]

/-- The taking of a standby or radio request, up to the checks of R178. -/
theorem takeRequest_other_decides {α : Type} {p : Port} {k : ReqKind} {m : Msg} {s : State} (read : List Byte → Option α)
    (owner : α → State → State) (other : p ≠ .main) (ready : Ready p s) :
    takeRequest p k m read owner s = decideRequest p k m read owner (otherTaken p k m s) := by
  have on := ready.powered
  rw [takeRequest, if_neg (by simp [on]), if_pos (takable_of_ready ⟨k.code, m⟩ ready), arrived_of_ready _ ready]
  cases p with
  | main => exact absurd rfl other
  | standby => rfl
  | radio => rfl

theorem takeRequest_unpowered {α : Type} {p : Port} {k : ReqKind} {m : Msg} {s : State} (read : List Byte → Option α)
    (owner : α → State → State) (off : powered p s = false) : takeRequest p k m read owner s = s := if_pos off

/-- An answer to a standby or radio request just taken, nothing else changed. -/
theorem respond_otherTaken {p : Port} {k : ReqKind} {m : Msg} {s : State} (r : Result) (data : List Byte) (ready : Ready p s) :
    respond p r data (otherTaken p k m s) = otherAnswered p k r data s := by
  have taken := respond_other_taken (t := otherTaken p k m s) (k := k) (m := m) r data (State.withPort_port_same _ p _)
    ready.nothingWaits ready.nothingInProcess
  rw [taken, otherTaken, State.withPort_withPort]
  rfl

theorem refuse_otherTaken {p : Port} {k : ReqKind} {m : Msg} {s : State} (r : Result) (ready : Ready p s) :
    refuse p r (otherTaken p k m s) = otherAnswered p k r [] s := respond_otherTaken r [] ready

/-! ## The checks (R178) -/

section Checks

variable {α : Type} {p : Port} {k : ReqKind} {m : Msg} {read : List Byte → Option α} {owner : α → State → State} {s : State}

theorem decideRequest_of_bad_check (bad : checkFails m = true) : decideRequest p k m read owner s = refuseChecksum p s :=
  if_pos bad

theorem decideRequest_of_not_permitted (good : checkFails m = false) (no : permitted p k = false) :
    decideRequest p k m read owner s = refuse p .notPermitted s := by
  simp [decideRequest, good, no]

theorem decideRequest_of_bad_length (good : checkFails m = false) (yes : permitted p k = true) (bad : read m.payload = none) :
    decideRequest p k m read owner s = refuse p .badLength s := by
  simp [decideRequest, good, yes, bad]

end Checks

/-- A message without payload bytes has no check to fail. -/
theorem checkFails_of_empty {m : Msg} (empty : m.payload = []) : checkFails m = false := by simp [checkFails, empty]

/-- A port below its link threshold is not tested further. -/
theorem linkTest_of_below {p : Port} {s : State}
    (below : (s.port p).counters.headerFailures + (s.port p).counters.payloadFailures < s.linkThreshold) :
    linkTest p s = s := if_neg fun reached => absurd reached.1 (Nat.not_le.mpr below)

/-! ## The request rows -/

/-- The requests that have no payload fields (section 11.3). -/
def bareKinds : List ReqKind :=
  [.pageStatus, .windowQuery, .turnNext, .turnPrev, .updateStatus, .waveformStatus, .titleList, .spoolStats,
    .spoolStatsClear, .lightQuery, .monitorStatus, .chargeQuery, .doze, .sleep, .wakeMain, .powerOff, .restart, .powerOn,
    .status, .portReset]

/-- What a request row can do: the taking of its request, by an owner that accepts no payload where the kind has no payload fields;
a PORT_RESET without payload at its arrival; or nothing, where the packet is another row's and so the command is not well-formed. -/
inductive RowOutcome (i : Instr) (p : Port) (k : ReqKind) (m : Msg) (s : State) : Prop
  | taking {α : Type} (read : List Byte → Option α) (owner : α → State → State)
      (row : exec i s = .next (takeRequest p k m read owner s))
      (bare : k ∈ bareKinds → ∀ bs, bs ≠ [] → read bs = none)
  | resetNow (kind : k = .portReset) (empty : m.payload = [])
      (row : exec i s = .next (if powered p s then portResetNow p s else s))
  | otherRow (ill : i.wellFormed = false) (fields : k ∉ bareKinds) (row : exec i s = .next s)

section Rows

variable {α : Type} {i : Instr} {p : Port} {k : ReqKind} {m : Msg} {s : State}

theorem readNothing_of_payload {bs : List Byte} (some_bytes : bs ≠ []) : readNothing bs = none := by
  cases bs with
  | nil => exact absurd rfl some_bytes
  | cons => rfl

theorem rowOutcome_bare {owner : Unit → State → State} (row : exec i s = .next (takeRequest p k m readNothing owner s)) :
    RowOutcome i p k m s := .taking readNothing owner row fun _ _ => readNothing_of_payload

theorem rowOutcome_fields {read : List Byte → Option α} {owner : α → State → State}
    (row : exec i s = .next (takeRequest p k m read owner s)) (fields : k ∉ bareKinds) : RowOutcome i p k m s :=
  .taking read owner row fun bare => absurd bare fields

theorem rowOutcome_paramSet {q : Param} {owner : Nat → State → State} (row : exec i s = .next (paramSet q p m owner s))
    (request : i.request? = some (p, .paramSet, m)) (param : i.param? = some q) : RowOutcome i p .paramSet m s := by
  by_cases other : ((readParamSet m.payload).bind (fun a => paramOf a.id)).any (fun r => r != q) = true
  · refine .otherRow ?_ (by decide) (row.trans (congrArg _ (if_pos other)))
    simp [Instr.wellFormed, Instr.namesItsParam, request, param, other]
  · exact rowOutcome_fields (row.trans (congrArg _ (if_neg other))) (by decide)

theorem rowOutcome_radioRow {other : Nat} (row : exec i s = .next (radioRow p other m s))
    (ill : readOne m.payload = some other → i.operandsFit = false) : RowOutcome i p .radioPower m s := by
  by_cases not_mine : readOne m.payload = some other
  · refine .otherRow ?_ (by decide) (row.trans (congrArg _ (if_pos not_mine)))
    simp [Instr.wellFormed, ill not_mine]
  · exact rowOutcome_fields (row.trans (congrArg _ (if_neg not_mine))) (by decide)

theorem rowOutcome_portReset (p : Port) (m : Msg) (s : State) : RowOutcome (.portReset p m) p .portReset m s := by
  by_cases empty : m.payload = []
  · exact .resetNow rfl empty (congrArg _ (if_pos empty))
  · exact rowOutcome_bare (congrArg _ (if_neg empty))

end Rows

/-- Every row that carries a request does one of the three. -/
theorem rowOutcome_of_request {i : Instr} {p : Port} {k : ReqKind} {m : Msg} (request : i.request? = some (p, k, m)) (s : State) :
    RowOutcome i p k m s := by
  cases i with
  | pageOpen | pageData | pageClose | pageRelease | pagePin | pageUnpin | geometrySet | windowSet | windowAppend
  | windowPrepend | windowDrop | showPage | abort | waveformBegin | waveformData | waveformEnd | chunkBegin | chunkMore
  | titleRead | titleRelease | titleQuery | lightSet | lightCurve | lightAutoPoints | monitorTest | monitorConfig
  | chargeSet | chargeConfig | clockSet | alarmSet | alarmClear | countersClear | paramGet =>
    cases request
    exact rowOutcome_fields rfl (by decide)
  | pageStatus | windowQuery | turnNext | turnPrev | updateStatus | waveformStatus | titleList | spoolStats
  | spoolStatsClear | lightQuery | monitorStatus | chargeQuery | doze | sleep | wakeMain | powerOff | restart | powerOn
  | status =>
    cases request
    exact rowOutcome_bare rfl
  | paramSetSpoolLimit | paramSetAheadLow | paramSetBehindLow | paramSetTurnMode | paramSetGhostLimit | paramSetFrameRate
  | paramSetScrubPeriod | paramSetChunkAge | paramSetTitleWake | paramSetRampStep | paramSetAutoDeadband
  | paramSetPwmFrequency | paramSetPolarityCool | paramSetPolarityWarm | paramSetSleepDelay | paramSetLinkErrorThreshold =>
    cases request
    exact rowOutcome_paramSet rfl rfl rfl
  | radioPowerOn | radioPowerOff =>
    cases request
    exact rowOutcome_radioRow rfl fun other => by simp [Instr.operandsFit, other, radioOffCode, radioOnCode]
  | portReset =>
    cases request
    exact rowOutcome_portReset p m s
  | scanComplete | frameEvent | scrubTimerExpiry | scrubPassEnd | verificationEnd | chunkAgingExpiry | rampTick
  | conversionSequence | resumeComplete | haltIntervalComplete | powerOnReset | idleTimerExpiry | keyPress | keyRelease
  | keyHoldExpiry | clockSecond | alarmExpiry | unknownRequest | selectionByte | headerFailure | packetArrived | csRise
  | packetSent | pwmPeriodStart | headerGood | entryFirstByteSent => cases request

/-! ## The statements -/

/-- Settles O12: every row asks first whether its port is powered. -/
theorem anUnpoweredPortIgnoresItsLink : Obligations.AnUnpoweredPortIgnoresItsLink := by
  intro p s off
  refine ⟨fun i k m request => ?_, fun k m => ?_, fun b => ?_, fun h => ?_, fun h => ?_, fun q => ?_, fun n => ?_, ?_, ?_⟩
  · cases rowOutcome_of_request request s with
    | taking read owner row => rw [row, takeRequest_unpowered read owner off]
    | resetNow _ _ row => rw [row, off]; rfl
    | otherRow _ _ row => exact row
  · exact congrArg _ (if_pos (by simp [off]))
  · exact congrArg _ (if_neg (by simp [off]))
  · exact congrArg _ (if_neg (by simp [off]))
  · exact congrArg _ (if_neg (by simp [off]))
  · exact congrArg _ (if_neg (by simp [off]))
  · exact congrArg _ (if_neg (by simp [off]))
  · exact congrArg _ (if_neg (by simp [off]))
  · exact congrArg _ (if_neg (by simp [off]))

/-- PORT_RESET is permitted on every port. -/
theorem permitted_portReset (p : Port) : permitted p .portReset = true := by cases p <;> decide

/-- A CHECKSUM refusal of a main-port request just taken, below the link threshold. -/
theorem refuseChecksum_mainTaken {k : ReqKind} {m : Msg} {s : State} (ready : Ready .main s)
    (below : s.portMain.counters.headerFailures + saturatingSucc s.portMain.counters.payloadFailures < s.linkThreshold) :
    refuseChecksum .main (mainTaken k m s) =
      onPort .main (fun u => { u with
        counters := { u.counters with payloadFailures := saturatingSucc u.counters.payloadFailures } })
        (mainAnswered k .checksum [] s) := by
  rw [refuseChecksum, refuse_mainTaken _ ready]
  exact linkTest_of_below below

/-- Settles O13: a row that takes its request refuses it by the first check that fails. -/
theorem badChecksAndPermissionsAreRefused : Obligations.BadChecksAndPermissionsAreRefused := by
  refine ⟨fun i p k m s fit request ready good no => ⟨fun other => ?_, fun main active => ?_⟩,
    fun i k m s fit request ready active bad below => ?_⟩
  · cases rowOutcome_of_request request s with
    | taking read owner row =>
      rw [row, takeRequest_other_decides read owner other ready, decideRequest_of_not_permitted good no, refuse_otherTaken _ ready]
    | resetNow kind _ _ => rw [kind, permitted_portReset] at no; cases no
    | otherRow ill _ _ => rw [fit] at ill; cases ill
  · subst main
    cases rowOutcome_of_request request s with
    | taking read owner row =>
      rw [row, takeRequest_main_decides read owner ready active, decideRequest_of_not_permitted good no, refuse_mainTaken _ ready]
    | resetNow kind _ _ => rw [kind, permitted_portReset] at no; cases no
    | otherRow ill _ _ => rw [fit] at ill; cases ill
  · cases rowOutcome_of_request request s with
    | taking read owner row =>
      rw [row, takeRequest_main_decides read owner ready active, decideRequest_of_bad_check bad,
        refuseChecksum_mainTaken ready below]
      rfl
    | resetNow _ empty _ => rw [checkFails_of_empty empty] at bad; cases bad
    | otherRow ill _ _ => rw [fit] at ill; cases ill

theorem permitted_main_bare {k : ReqKind} (bare : k ∈ bareKinds) : permitted .main k = true := by
  simp only [bareKinds, List.mem_cons, List.not_mem_nil, or_false] at bare
  rcases bare with rfl | rfl | rfl | rfl | rfl | rfl | rfl | rfl | rfl | rfl | rfl | rfl | rfl | rfl | rfl | rfl | rfl | rfl
    | rfl | rfl <;> decide

/-- The taking of a packet of no kind on the main port in ACTIVE. -/
theorem exec_unknownRequest_main {kind : Byte} {m : Msg} {s : State} (unknown : kindOf kind = none) (ready : Ready .main s)
    (active : s.platform.state = .active) :
    exec (.unknownRequest .main kind m) s = .next (decideUnknown .main m { s with
      platform := { s.platform with wakeMain := false }
      portMain := { s.portMain with
        waiting := [], inProcess := some ⟨⟨kind, m⟩, false⟩
        counters := { s.portMain.counters with admitted := saturatingSucc s.portMain.counters.admitted } } }) := by
  have on := ready.powered
  refine congrArg Host.Outcome.next ?_
  rw [if_neg (by simp [unknown, on])]
  dsimp only
  rw [if_pos (takable_of_ready _ ready), arrived_of_ready _ ready]
  simp [beginTaking, requestTaken, onPort, onPlatform, State.withPlatform, active]

/-- Settles O14: the second and third checks of R178. -/
theorem unknownKindsAndBadLengthsAreRefused : Obligations.UnknownKindsAndBadLengthsAreRefused := by
  refine ⟨fun kind m s unknown ready active good => ?_, fun i k m s request ready active good payload bare => ?_⟩
  · rw [exec_unknownRequest_main unknown ready active, decideUnknown, good, if_neg Bool.false_ne_true, refuse,
      respond_of_inProcess (q := ⟨kind, m⟩) .unknownRequest [] rfl]
    have waits : s.portMain.waiting = [] := ready.nothingWaits
    have processes : s.portMain.inProcess = none := ready.nothingInProcess
    simp only [State.withPort, State.port, ← waits, ← processes]
  · cases rowOutcome_of_request request s with
    | taking read owner row none_read =>
      rw [row, takeRequest_main_decides read owner ready active,
        decideRequest_of_bad_length good (permitted_main_bare bare) (none_read bare _ payload), refuse_mainTaken _ ready]
    | resetNow _ empty _ => exact absurd empty payload
    | otherRow _ fields _ => exact absurd bare fields

end Sys2Proof.Machine
end

