-- ==== Sys2Proof/Proofs/Links.lean ====
section
/-! PROOFS. What the taking of a main-port request does to the platform, notices, link transfers, PORT_RESET and COUNTERS_CLEAR. -/

namespace Sys2Proof.Machine

/-- Settles O15: in DOZE the platform becomes ACTIVE, in SLEEP a resume starts, elsewhere only WAKE_MAIN falls. -/
theorem takingAMainRequestWakesThePlatform : Obligations.TakingAMainRequestWakesThePlatform := by
  refine fun s => ⟨fun doze => ?_, fun sleep fresh => ?_, fun not_doze not_sleep => ?_⟩
  · simp [requestTaken, onPlatform, State.withPlatform, doze, enterActive, reportState]
  · simp [requestTaken, onPlatform, State.withPlatform, sleep, startResume, fresh, Config.powerUpMs]
  · cases state : s.platform.state with
    | doze => exact absurd state not_doze
    | sleep => exact absurd state not_sleep
    | active | halting | off => simp [requestTaken, onPlatform, State.withPlatform, state]

/-! ## The notice share (R181) -/

/-- The oldest notice of a type, with none of that type before it, leaves the queue. -/
theorem removeOldest_append {type : Nat} {o : Notice} {after : List Entry} (same : o.type = type) :
    ∀ {before : List Entry}, (∀ x, .notice x ∈ before → x.type ≠ type) →
      removeOldest type (before ++ [.notice o] ++ after) = some (before ++ after)
  | [], _ => by simp [removeOldest, same]
  | .notice n :: before, others => by
    have rest := removeOldest_append same (after := after) fun x member => others x (List.mem_cons_of_mem _ member)
    have first : n.type ≠ type := others n List.mem_cons_self
    simp only [List.cons_append, removeOldest, first, if_false, rest, Option.map_some]
  | .response .. :: before, others => by
    have rest := removeOldest_append same (after := after) fun x member => others x (List.mem_cons_of_mem _ member)
    simp only [List.cons_append, removeOldest, rest, Option.map_some]

/-- A queue without a notice of the type has none to lose. -/
theorem removeOldest_none {type : Nat} : ∀ {q : List Entry}, (∀ x, .notice x ∈ q → x.type ≠ type) → removeOldest type q = none
  | [], _ => rfl
  | .notice n :: q, others => by
    have rest := removeOldest_none fun x member => others x (List.mem_cons_of_mem _ member)
    have first : n.type ≠ type := others n List.mem_cons_self
    simp only [removeOldest, first, if_false, rest, Option.map_none]
  | .response .. :: q, others => by
    have rest := removeOldest_none fun x member => others x (List.mem_cons_of_mem _ member)
    simp only [removeOldest, rest, Option.map_none]

theorem removeOldestOf_not_started (type : Nat) (q : List Entry) : removeOldestOf false type q = removeOldest type q := by
  cases q <;> rfl

theorem offerUnit_of_replaced {n : Notice} {u : PortUnit} {q : List Entry} (full : Config.noticeMax ≤ noticeCount u)
    (removed : removeOldestOf u.headStarted n.type u.queue = some q) :
    offerUnit n u = { u with queue := q ++ [.notice n] } := by
  simp only [offerUnit, Nat.not_lt.mpr full, if_false, removed]

theorem offerUnit_of_lost {n : Notice} {u : PortUnit} (full : Config.noticeMax ≤ noticeCount u)
    (kept : removeOldestOf u.headStarted n.type u.queue = none) :
    offerUnit n u = { u with errors := { u.errors with noticeLost := true } } := by
  simp only [offerUnit, Nat.not_lt.mpr full, if_false, kept]

/-- Settles O16: by what `removeOldest` finds, in the queue or past its started head. -/
theorem theNoticeShareDecidesANotice : Obligations.TheNoticeShareDecidesANotice := by
  intro n u
  refine ⟨offerUnit_of_room, fun before after o full quiet queue same others => ?_, fun full others => ?_,
    fun e before after o full started queue same others => ?_, fun e rest full started queue others => ?_⟩
  · refine offerUnit_of_replaced full ?_
    rw [quiet, queue, removeOldestOf_not_started, removeOldest_append same others]
  · refine offerUnit_of_lost full ?_
    cases queue : u.queue with
    | nil => cases u.headStarted <;> rfl
    | cons e rest =>
      rw [queue] at others
      cases u.headStarted with
      | false => exact removeOldest_none others
      | true =>
        have none_in_rest := removeOldest_none fun x member => others x (List.mem_cons_of_mem _ member)
        simp only [removeOldestOf, none_in_rest, Option.map_none]
  · have removed := removeOldest_append (after := after) same others
    refine (offerUnit_of_replaced (q := e :: (before ++ after)) full ?_).trans rfl
    rw [started, queue]
    simp only [List.cons_append, removeOldestOf, removed, Option.map_some]
  · refine offerUnit_of_lost full ?_
    rw [started, queue]
    simp only [removeOldestOf, removeOldest_none others, Option.map_none]

/-! ## WRITE and READ transfers (R174, R175, R176, R182) -/

/-- A port unit after a header failure. -/
def headerFailedUnit (u : PortUnit) : PortUnit :=
  { u with
    transfer := .discard, errors := { u.errors with header := true }
    counters := { u.counters with headerFailures := saturatingSucc u.counters.headerFailures } }

theorem headerFails_eq (p : Port) (s : State) : headerFails p s = linkTest p (s.withPort p (headerFailedUnit (s.port p))) := rfl

/-- A header failure that leaves the port below its link threshold. -/
theorem headerFails_of_below {p : Port} {s : State}
    (below : saturatingSucc (s.port p).counters.headerFailures + (s.port p).counters.payloadFailures < s.linkThreshold) :
    headerFails p s = s.withPort p (headerFailedUnit (s.port p)) := by
  rw [headerFails_eq]
  refine linkTest_of_below ?_
  rw [State.withPort_port_same, State.withPort_linkThreshold]
  exact below

/-- The header failure that reaches the threshold: the port becomes degraded and the main port is told. -/
theorem headerFails_of_reached {p : Port} {s : State}
    (reached : s.linkThreshold ≤ saturatingSucc (s.port p).counters.headerFailures + (s.port p).counters.payloadFailures)
    (sound : (s.port p).degraded = false) :
    headerFails p s = offerMain false
      (.linkDegraded p (saturatingSucc (s.port p).counters.headerFailures) (s.port p).counters.payloadFailures)
      (s.withPort p { headerFailedUnit (s.port p) with degraded := true }) := by
  rw [headerFails_eq]
  unfold linkTest
  simp only [State.withPort_port_same, State.withPort_linkThreshold]
  rw [if_pos ⟨reached, sound⟩, onPort_withPort]
  rfl

/-- Settles O17: the selection byte's three cases and the header's three. -/
theorem selectionBytesAndHeadersAreChecked : Obligations.SelectionBytesAndHeadersAreChecked := by
  refine ⟨fun p b s on idle => ?_, ?_⟩
  · have decided : exec (.selectionByte p b) s = .next (if b = writeSelection then setTransfer p .header s
        else if b = readSelection then setTransfer p .readBoundary s else headerFails p s) :=
      congrArg _ (if_pos (by simp [on, idle]))
    refine ⟨fun write => ?_, fun read => ?_, fun not_write not_read below => ?_⟩
    · rw [decided, if_pos (show b = writeSelection from write)]; rfl
    · rw [decided, if_neg (by rw [read]; decide), if_pos (show b = readSelection from read)]; rfl
    · rw [decided, if_neg (show b ≠ writeSelection from not_write),
        if_neg (show b ≠ readSelection from not_read), headerFails_of_below below]; rfl
  · intro p h s on header u failed
    have fails (bad : headerGoodCheck h = false) : exec (.headerFailure p h) s = .next (headerFails p s) :=
      congrArg _ (if_pos (by simp [on, header, bad]))
    refine ⟨fun bad below => ?_, fun bad reached sound => ?_, fun good payload => ?_⟩
    · rw [fails bad, headerFails_of_below below]; rfl
    · rw [fails bad, headerFails_of_reached reached sound]; rfl
    · have some_bytes : h.length.toNat ≠ 0 := fun zero => payload (BitVec.eq_of_toNat_eq zero)
      exact congrArg _ (if_pos (by simp [on, header, good, some_bytes]))

/-- The transfers that a rise of CS breaks. -/
theorem breaksTransfer_iff (t : Transfer) (n : Nat) : breaksTransfer t n = true ↔
    (t = .header ∧ n ≠ 0) ∨ (∃ k l, t = .body k l) ∨ t = .readEntry ∨ (t = .readBoundary ∧ n ≠ 0) ∨ t = .readFiller := by
  cases t <;> simp [breaksTransfer]

/-- Settles O19: a rise of CS by the transfer it ends, a READ by the head of the queue. -/
theorem transfersEndAndReadsRemoveEntries : Obligations.TransfersEndAndReadsRemoveEntries := by
  refine ⟨?_, fun p e rest s on queue => ⟨fun boundary => ?_, fun entry => ?_⟩⟩
  · intro p n s on u isBreak
    have decided : exec (.csRise p n) s = .next (if breaksTransfer u.transfer n then onPort p breakTransfer s
        else setTransfer p .idle s) := congrArg _ (if_pos on)
    refine ⟨fun broken => ?_, fun paused => ?_⟩
    · rw [decided, if_pos ((breaksTransfer_iff _ _).mpr broken)]; rfl
    · rw [decided, if_neg (mt (breaksTransfer_iff _ _).mp paused)]; rfl
  · exact congrArg _ (if_pos (by simp [on, boundary, queue]))
  · have sent : exec (.packetSent p) s = .next (onPort p (fun u => { u with
        transfer := .readBoundary, queue := u.queue.tail, headStarted := false }) s) := by
      refine congrArg _ ((if_pos on).trans ?_)
      simp only [entry]
    rw [sent, onPort, queue]
    rfl

/-! ## PORT_RESET and COUNTERS_CLEAR -/

theorem restartIdle_of_still {s : State} (still : s.platform.idleTimer = none) : restartIdle s = s := by
  simp only [restartIdle, onPlatform, still, Option.isSome_none, Bool.false_eq_true, if_false]
  rfl

/-- A taking that no idle timer follows, in ACTIVE. -/
theorem requestTaken_of_active {s : State} (p : Port) (active : s.platform.state = .active) (still : s.platform.idleTimer = none) :
    requestTaken p s = { s with
      platform := { s.platform with wakeMain := if p = Port.main then false else s.platform.wakeMain } } := by
  cases p with
  | main => simp [requestTaken, onPlatform, State.withPlatform, active]
  | standby | radio => exact restartIdle_of_still still

theorem dropAssembly_of_none (k : Hooks) (c : DropCause) (b : Bool) {s : State} (none_open : s.spool.assembly = none) :
    dropAssembly k c b s = s := by simp [dropAssembly, none_open]

theorem resetSpoolSide_of_none {p : Port} {s : State} (none_open : s.spool.assembly = none) :
    resetSpoolSide p s = { s with spool := { s.spool with bare := if p = Port.radio then none else s.spool.bare } } := by
  unfold resetSpoolSide
  split
  · rw [dropAssembly_of_none _ _ _ none_open]; rfl
  · rfl

/-- Settles O20: PORT_RESET step by step, COUNTERS_CLEAR by the port it names. -/
theorem portResetAndCountersClear : Obligations.PortResetAndCountersClear := by
  refine ⟨?_, fun m code s takes => ?_⟩
  · intro p m s empty on active still none_open u v w
    rw [exec_portReset_of_empty empty on]
    refine congrArg Host.Outcome.next ?_
    unfold portResetNow
    rw [requestTaken_of_active p active still, resetSpoolSide_of_none (by simpa [onPort] using none_open),
      recheckNow_of_active (by cases p <;> exact active)]
    cases p <;> rfl
  · have row : exec (.countersClear .main m) s = .next (countersClear .main code (mainTaken .countersClear m s)) :=
      congrArg _ (takeRequest_main (countersClear .main) takes)
    have cleared (q : Port) (named : portOf code = some q) : exec (.countersClear .main m) s = .next
        (respond .main .ok [] (onPort q clearCounters (mainTaken .countersClear m s))) := by
      rw [row, countersClear, named]
    have ready := takes.ready
    refine ⟨fun main => ?_, fun standby => ?_, fun radio => ?_, fun large => ?_⟩
    · rw [cleared .main (by rw [main]; rfl),
        respond_of_inProcess (q := ⟨ReqKind.countersClear.code, m⟩) .ok [] rfl]
      have waits : s.portMain.waiting = [] := ready.nothingWaits
      have processes : s.portMain.inProcess = none := ready.nothingInProcess
      simp [mainTaken, takenUnit, mainAnswered, answered, clearCounters, onPort, waits, processes]
    · rw [cleared .standby (by rw [standby]; rfl), respond_main_taken .ok [] rfl ready.nothingWaits ready.nothingInProcess]
      rfl
    · rw [cleared .radio (by rw [radio]; rfl), respond_main_taken .ok [] rfl ready.nothingWaits ready.nothingInProcess]
      rfl
    · have unnamed : portOf code = none := by
        match code, large with
        | n + 3, _ => rfl
      rw [row, countersClear, unnamed]
      exact congrArg _ (refuse_mainTaken _ ready)

end Sys2Proof.Machine
end

