-- ==== Sys2Proof/Proofs/Parameters.lean ====
section
/-! PROOFS. PARAM_SET, PARAM_GET and the requests for reports (section 11.8, R192). -/

namespace Sys2Proof.Machine

variable {k : ReqKind} {m : Msg} {s : State} {v : Nat}

/-! ## Storing a parameter -/

/-- An owner that stores an accepted value and answers OK. -/
theorem storeIf_mainTaken_of_accepted {ok : Bool} {f : State → State} (ready : Ready .main s) (accepted : ok = true)
    (ports : (f (mainTaken k m s)).portMain = takenUnit k m s.portMain) :
    storeIf .main ok f (mainTaken k m s) = { f (mainTaken k m s) with portMain := answered k .ok [] s.portMain } := by
  rw [storeIf, if_pos accepted]
  exact respond_main_taken .ok [] ports ready.nothingWaits ready.nothingInProcess

theorem storeIf_mainTaken_of_refused {ok : Bool} {f : State → State} (ready : Ready .main s) (refused : ok = false) :
    storeIf .main ok f (mainTaken k m s) = mainAnswered k .badValue [] s := by
  rw [storeIf, if_neg (by simp [refused])]
  exact refuse_mainTaken .badValue ready

theorem storeLow_mainTaken_of_accepted {f : Window → Window} (ready : Ready .main s) (accepted : within 0 15 v = true) :
    storeLow .main v f (mainTaken k m s) = lowWater (onWindow f (mainAnswered k .ok [] s)) := by
  have stored : respond .main .ok [] (onWindow f (mainTaken k m s)) = onWindow f (mainAnswered k .ok [] s) :=
    respond_main_taken .ok [] rfl ready.nothingWaits ready.nothingInProcess
  rw [storeLow, if_pos accepted, stored]

theorem storeLow_mainTaken_of_refused {f : Window → Window} (ready : Ready .main s) (refused : within 0 15 v = false) :
    storeLow .main v f (mainTaken k m s) = mainAnswered k .badValue [] s := by
  rw [storeLow, if_neg (by simp [refused])]
  exact refuse_mainTaken .badValue ready

/-! ## The sixteen parameters -/

/-- What the owner of a parameter's row does to a request just taken. -/
structure ParamOwner (q : Param) (owner : Nat → State → State) : Prop where
  row : ∀ m s, exec (paramRow q .main m) s = .next (paramSet q .main m owner s)
  stores : ∀ k m v s, Ready .main s → paramAccepts q v s →
    owner v (mainTaken k m s) = afterParam q (withParam q v (mainAnswered k .ok [] s))
  refuses : ∀ k m v s, Ready .main s → ¬ paramAccepts q v s → owner v (mainTaken k m s) = mainAnswered k .badValue [] s

/-- A parameter that is stored with nothing done besides. -/
theorem paramOwner_storeIf {q : Param} {ok : Nat → State → Bool} {f : Nat → State → State}
    (row : ∀ m s, exec (paramRow q .main m) s = .next (paramSet q .main m (fun v t => storeIf .main (ok v t) (f v) t) s))
    (decides : ∀ v s, ok v s = true ↔ paramAccepts q v s)
    (frame : ∀ k m v s, ok v (mainTaken k m s) = ok v s)
    (ports : ∀ v s, (f v s).portMain = s.portMain)
    (stored : ∀ k m v s, paramAccepts q v s → { f v (mainTaken k m s) with portMain := answered k .ok [] s.portMain } =
      afterParam q (withParam q v (mainAnswered k .ok [] s))) :
    ParamOwner q (fun v t => storeIf .main (ok v t) (f v) t) where
  row := row
  stores k m v s ready accepts := by
    have accepted : ok v (mainTaken k m s) = true := (frame k m v s).trans ((decides v s).mpr accepts)
    exact (storeIf_mainTaken_of_accepted ready accepted (ports v _)).trans (stored k m v s accepts)
  refuses k m v s ready rejects := by
    have refused : ok v (mainTaken k m s) = false :=
      (frame k m v s).trans (Bool.eq_false_iff.mpr (mt (decides v s).mp rejects))
    exact storeIf_mainTaken_of_refused ready refused

theorem paramOwner_storeLow {q : Param} {f : Nat → Window → Window}
    (row : ∀ m s, exec (paramRow q .main m) s = .next (paramSet q .main m (fun v => storeLow .main v (f v)) s))
    (decides : ∀ v s, paramAccepts q v s ↔ v ≤ 15)
    (stored : ∀ k v s, lowWater (onWindow (f v) (mainAnswered k .ok [] s)) =
      afterParam q (withParam q v (mainAnswered k .ok [] s))) :
    ParamOwner q (fun v => storeLow .main v (f v)) where
  row := row
  stores k m v s ready accepts :=
    (storeLow_mainTaken_of_accepted ready (by simpa [within] using (decides v s).mp accepts)).trans (stored k v s)
  refuses k m v s ready rejects :=
    storeLow_mainTaken_of_refused ready (by simpa [within] using mt (decides v s).mpr rejects)

theorem paramOwner_storeThreshold : ParamOwner .linkErrorThreshold (storeThreshold .main) where
  row _ _ := rfl
  stores k m v s ready accepts := by
    have accepted : within 1 65535 v = true := decide_eq_true accepts
    have stored : respond .main .ok [] ((mainTaken k m s).withThreshold v) = (mainAnswered k .ok [] s).withThreshold v :=
      respond_main_taken .ok [] rfl ready.nothingWaits ready.nothingInProcess
    rw [storeThreshold, if_pos accepted, stored]
    rfl
  refuses k m v s ready rejects := by
    have refused : ¬ within 1 65535 v = true :=
      fun accepted => rejects (of_decide_eq_true (p := 1 ≤ v ∧ v ≤ 65535) accepted)
    rw [storeThreshold, if_neg refused]
    exact refuse_mainTaken .badValue ready

theorem within_iff (lo hi v : Nat) : within lo hi v = true ↔ lo ≤ v ∧ v ≤ hi := decide_eq_true_iff

theorem within_zero_iff (hi v : Nat) : within 0 hi v = true ↔ v ≤ hi := by simp [within]

/-- The codes of the modes (section 11.4). -/
theorem modeOf_isSome_iff (v : Nat) : (modeOf v).isSome = true ↔ v ≤ 2 := by
  match v with
  | 0 | 1 | 2 => decide
  | n + 3 => simp [modeOf]

theorem polarityOf_isSome_iff (v : Nat) : (polarityOf v).isSome = true ↔ v ≤ 1 := by
  match v with
  | 0 | 1 => decide
  | n + 2 => simp [polarityOf]

theorem modeOf_getD {v : Nat} (known : v ≤ 2) (d : Mode) :
    (modeOf v).getD d = if v = 0 then .full else if v = 1 then .partially else .quick := by
  match v, known with
  | 0, _ | 1, _ | 2, _ => rfl

theorem polarityOf_getD {v : Nat} (known : v ≤ 1) (d : Polarity) :
    (polarityOf v).getD d = if v = 0 then .activeHigh else .activeLow := by
  match v, known with
  | 0, _ | 1, _ => rfl

theorem max_one (v : Nat) : max v 1 = if v = 0 then 1 else v := by split <;> omega

theorem goodSpoolLimit_iff (v : Nat) (s : State) :
    goodSpoolLimit v s = true ↔ v ≤ 939 ∧ 5 * footprint s.pool + v ≤ 1024 ∧ spoolHolding s.spool ≤ v := by
  simp only [goodSpoolLimit, Bool.and_eq_true, decide_eq_true_eq, and_assoc]
  rfl

/-- Every parameter has an owner that stores what the table accepts and refuses the rest. -/
theorem exists_paramOwner (q : Param) : ∃ owner, ParamOwner q owner := by
  cases q with
  | spoolLimit =>
    exact ⟨_, paramOwner_storeIf (f := fun v => onPool (fun b => { b with spoolLimit := v })) (fun _ _ => rfl)
      goodSpoolLimit_iff (fun _ _ _ _ => rfl) (fun _ _ => rfl) fun _ _ _ _ _ => rfl⟩
  | aheadLow =>
    exact ⟨_, paramOwner_storeLow (f := fun v w => { w with aheadLow := v }) (fun _ _ => rfl) (fun _ _ => Iff.rfl)
      fun _ _ _ => rfl⟩
  | behindLow =>
    exact ⟨_, paramOwner_storeLow (f := fun v w => { w with behindLow := v }) (fun _ _ => rfl) (fun _ _ => Iff.rfl)
      fun _ _ _ => rfl⟩
  | turnMode =>
    refine ⟨_, paramOwner_storeIf (f := fun v => onWindow (fun w => { w with turnMode := (modeOf v).getD w.turnMode }))
      (fun _ _ => rfl) (fun v _ => modeOf_isSome_iff v) (fun _ _ _ _ => rfl) (fun _ _ => rfl) fun k m v s known => ?_⟩
    simp only [onWindow, modeOf_getD known]
    rfl
  | ghostLimit =>
    exact ⟨_, paramOwner_storeIf (f := fun v => onEngine (fun e => { e with ghostLimit := v })) (fun _ _ => rfl)
      (fun v _ => within_iff 1 63 v) (fun _ _ _ _ => rfl) (fun _ _ => rfl) fun _ _ _ _ _ => rfl⟩
  | frameRate =>
    exact ⟨_, paramOwner_storeIf (f := fun v => onEngine (fun e => { e with frameRate := v })) (fun _ _ => rfl)
      (fun v _ => within_iff 50 85 v) (fun _ _ _ _ => rfl) (fun _ _ => rfl) fun _ _ _ _ _ => rfl⟩
  | scrubPeriod =>
    refine ⟨_, paramOwner_storeIf (f := fun v => onWave (withScrubPeriod v)) (fun _ _ => rfl)
      (fun v _ => within_iff 10 3600 v) (fun _ _ _ _ => rfl) (fun _ _ => rfl) fun k m v s _ => ?_⟩
    have millis : v * 1000 = 1000 * v := Nat.mul_comm v 1000
    simp only [onWave, withScrubPeriod, millis]
    rfl
  | chunkAge =>
    exact ⟨_, paramOwner_storeIf (f := fun v => onSpool (fun sp => { sp with chunkAge := v })) (fun _ _ => rfl)
      (fun v _ => within_iff 50 5000 v) (fun _ _ _ _ => rfl) (fun _ _ => rfl) fun _ _ _ _ _ => rfl⟩
  | titleWake =>
    exact ⟨_, paramOwner_storeIf (f := fun v => onSpool (fun sp => { sp with titleWake := v == 1 })) (fun _ _ => rfl)
      (fun v _ => within_zero_iff 1 v) (fun _ _ _ _ => rfl) (fun _ _ => rfl) fun _ _ _ _ _ => rfl⟩
  | rampStep =>
    refine ⟨_, paramOwner_storeIf (f := fun v => onLight (fun l => { l with rampStep := max v 1 })) (fun _ _ => rfl)
      (fun v _ => within_zero_iff 1023 v) (fun _ _ _ _ => rfl) (fun _ _ => rfl) fun k m v s _ => ?_⟩
    simp only [max_one]
    rfl
  | autoDeadband =>
    exact ⟨_, paramOwner_storeIf (f := fun v => onLight (fun l => { l with autoDeadband := v })) (fun _ _ => rfl)
      (fun v _ => within_zero_iff 1023 v) (fun _ _ _ _ => rfl) (fun _ _ => rfl) fun _ _ _ _ _ => rfl⟩
  | pwmFrequency =>
    exact ⟨_, paramOwner_storeIf (f := fun v => onLight (fun l => { l with pwmFrequency := v, pwmPending := true }))
      (fun _ _ => rfl) (fun v _ => within_iff 1000 20000 v) (fun _ _ _ _ => rfl) (fun _ _ => rfl) fun _ _ _ _ _ => rfl⟩
  | polarityCool =>
    refine ⟨_, paramOwner_storeIf (f := fun v => onLight (fun l => { l with polarityCool := (polarityOf v).getD l.polarityCool }))
      (fun _ _ => rfl) (fun v _ => polarityOf_isSome_iff v) (fun _ _ _ _ => rfl) (fun _ _ => rfl) fun k m v s known => ?_⟩
    simp only [onLight, polarityOf_getD known]
    rfl
  | polarityWarm =>
    refine ⟨_, paramOwner_storeIf (f := fun v => onLight (fun l => { l with polarityWarm := (polarityOf v).getD l.polarityWarm }))
      (fun _ _ => rfl) (fun v _ => polarityOf_isSome_iff v) (fun _ _ _ _ => rfl) (fun _ _ => rfl) fun k m v s known => ?_⟩
    simp only [onLight, polarityOf_getD known]
    rfl
  | sleepDelay =>
    exact ⟨_, paramOwner_storeIf (f := fun v => onPlatform (fun p => { p with sleepDelay := v })) (fun _ _ => rfl)
      (fun v _ => within_iff 5 3600 v) (fun _ _ _ _ => rfl) (fun _ _ => rfl) fun _ _ _ _ _ => rfl⟩
  | linkErrorThreshold => exact ⟨_, paramOwner_storeThreshold⟩

theorem paramOf_code (q : Param) : paramOf q.code = some q := by cases q <;> rfl

/-- The taking of a PARAM_SET that this parameter's row answers. -/
theorem paramSet_of_taken {q : Param} {i : Nat} {owner : Nat → State → State} (takes : MainTakes .paramSet m readParamSet ⟨i, v⟩ s)
    (mine : paramOf i = some q ∨ paramOf i = none) :
    paramSet q .main m owner s =
      if paramOf i = some q then owner v (mainTaken .paramSet m s) else refuse .main .badValue (mainTaken .paramSet m s) := by
  unfold paramSet
  rw [if_neg, takeRequest_main _ takes]
  rw [takes.fields]
  rcases mine with named | unnamed
  · simp [named]
  · simp [unnamed]

/-- Settles O21: each parameter's owner on a request just taken. -/
theorem paramSetStoresOrRefuses : Obligations.ParamSetStoresOrRefuses := by
  refine ⟨fun q v m s takes accepts => ?_, fun q i v m s takes bad => ?_⟩
  · obtain ⟨owner, rules⟩ := exists_paramOwner q
    rw [rules.row, paramSet_of_taken takes (.inl (paramOf_code q)), if_pos (paramOf_code q),
      rules.stores _ _ _ _ takes.ready accepts]
  · obtain ⟨owner, rules⟩ := exists_paramOwner q
    rcases bad with ⟨rfl, rejects⟩ | unnamed
    · rw [rules.row, paramSet_of_taken takes (.inl (paramOf_code q)), if_pos (paramOf_code q),
        rules.refuses _ _ _ _ takes.ready rejects]
    · rw [rules.row, paramSet_of_taken takes (.inr unnamed), if_neg (by rw [unnamed]; nofun), refuse_mainTaken _ takes.ready]

/-! ## Reports -/

/-- A request without payload fields passes the checks on a ready main port in ACTIVE. -/
theorem mainTakes_nothing (ready : Ready .main s) (active : s.platform.state = .active) (empty : m.payload = [])
    (allowed : permitted .main k = true) : MainTakes k m readNothing () s :=
  ⟨ready, active, checkFails_of_empty empty, allowed, by rw [empty]; rfl⟩

/-- A request that answers with a report and does nothing else. -/
theorem takeRequest_report {data : State → List Byte} (takes : MainTakes k m readNothing () s) :
    takeRequest .main k m readNothing (fun _ t => respond .main .ok (data t) t) s =
      mainAnswered k .ok (data (mainTaken k m s)) s :=
  (takeRequest_main _ takes).trans (respond_mainTaken .ok _ takes.ready)

/-- Settles O22: no report reads what the taking changes, but that of STATUS. -/
theorem reportsAnswerAndChangeNothing : Obligations.ReportsAnswerAndChangeNothing := by
  refine ⟨fun m s ready active empty => ?_, fun i m s takes => ⟨fun q named => ?_, fun unnamed => ?_⟩⟩
  · have takes {k : ReqKind} (allowed : permitted .main k = true) : MainTakes k m readNothing () s :=
      mainTakes_nothing ready active empty allowed
    refine ⟨?_, ?_, ?_, ?_, ?_, ?_, ?_, ?_, ?_, ?_⟩
    · exact congrArg _ (takeRequest_report (data := pageStatusData) (takes (by decide)))
    · exact congrArg _ (takeRequest_report (data := windowQueryData) (takes (by decide)))
    · exact congrArg _ (takeRequest_report (data := fun t => updateStatusData t.engine) (takes (by decide)))
    · exact congrArg _ (takeRequest_report (data := waveformStatusData) (takes (by decide)))
    · exact congrArg _ (takeRequest_report (data := titleListData) (takes (by decide)))
    · exact congrArg _ (takeRequest_report (data := fun t => spoolStatsData t.spool.stats) (takes (by decide)))
    · exact congrArg _ (takeRequest_report (data := lightQueryData) (takes (by decide)))
    · exact congrArg _ (takeRequest_report (data := fun t => monitorStatusData t.monitor) (takes (by decide)))
    · exact congrArg _ (takeRequest_report (data := fun t => chargeQueryData t.charge) (takes (by decide)))
    · exact congrArg _ (takeRequest_report (data := statusData) (takes (by decide)))
  · refine congrArg _ ((takeRequest_main (paramGet .main) takes).trans ?_)
    rw [paramGet, named, ← respond_mainTaken .ok _ takes.ready]
    cases q <;> rfl
  · refine congrArg _ ((takeRequest_main (paramGet .main) takes).trans ?_)
    rw [paramGet, unnamed]
    exact refuse_mainTaken .badValue takes.ready

end Sys2Proof.Machine
end

