-- ==== Sys2Proof/Proofs/PageOpen.lean ====
section
/-! PROOFS. Main-port requests that are answered in ACTIVE; PAGE_OPEN with and without an eviction (R12, R13). -/

namespace Sys2Proof.Machine

variable {k : ReqKind} {m : Msg} {s t u : State}

/-! ## The answer to a main-port request -/

/-- The response to a main-port request just taken, whatever its owner has changed elsewhere. -/
theorem respond_taken (ready : Ready .main s) (r : Result) (data : List Byte)
    (taken : t.portMain = takenUnit k m s.portMain) :
    respond .main r data t = { t with portMain := answered k r data s.portMain } :=
  respond_main_taken r data taken ready.nothingWaits ready.nothingInProcess

theorem MainTakes.taken_active {α : Type} {read : List Byte → Option α} {a : α} (takes : MainTakes k m read a s) :
    (mainTaken k m s).platform.state = .active := takes.active

theorem refuse_taken (ready : Ready .main s) (r : Result) (taken : t.portMain = takenUnit k m s.portMain) :
    refuse .main r t = { t with portMain := answered k r [] s.portMain } := respond_taken ready r [] taken

section Owners

variable {α : Type} {read : List Byte → Option α} {a : α} {owner : α → State → State}

/-- A request whose owner leaves the platform in ACTIVE ends in what the owner leaves. -/
theorem takeRequest_rechecked (takes : MainTakes k m read a s) (decides : owner a (mainTaken k m s) = u)
    (active : u.platform.state = .active) :
    takeRequest .main k m read (fun a t => recheckNow (owner a t)) s = u := by
  rw [takeRequest_main _ takes, decides, recheckNow_of_active active]

/-- A request that its owner refuses changes nothing. -/
theorem takeRequest_refused {r : Result} (takes : MainTakes k m read a s)
    (refuses : owner a (mainTaken k m s) = refuse .main r (mainTaken k m s)) :
    takeRequest .main k m read owner s = mainAnswered k r [] s := by
  rw [takeRequest_main _ takes, refuses, refuse_mainTaken r takes.ready]

theorem takeRequest_rechecked_refused {r : Result} (takes : MainTakes k m read a s)
    (refuses : owner a (mainTaken k m s) = refuse .main r (mainTaken k m s)) :
    takeRequest .main k m read (fun a t => recheckNow (owner a t)) s = mainAnswered k r [] s :=
  takeRequest_rechecked takes (refuses.trans (refuse_mainTaken r takes.ready)) takes.active

end Owners

/-- A response changes the port that answers and nothing else. -/
theorem respond_frame (p : Port) (r : Result) (data : List Byte) (s : State) :
    ∃ u, respond p r data s = s.withPort p u := by
  unfold respond
  split
  · exact ⟨s.port p, by cases p <;> rfl⟩
  · dsimp only
    split
    · exact ⟨_, rfl⟩
    · simp only [queueResponse, onPort, State.withPort_withPort]
      exact ⟨_, rfl⟩

@[simp] theorem respond_platform (p : Port) (r : Result) (data : List Byte) (s : State) :
    (respond p r data s).platform = s.platform := by
  obtain ⟨u, e⟩ := respond_frame p r data s
  rw [e, State.withPort_platform]

/-! ## Window and page store rules -/

/-- The window forgets a slot that it shows. -/
theorem forgetShown_eq (i : Nat) (w : Window) :
    forgetShown i w = { w with shown := if w.shown = some i then none else w.shown } := by
  unfold forgetShown
  split
  · rfl
  · rfl

theorem sourceGone_of_empty (k : Hooks) (i : Nat) (tag : Word32) (none_waits : s.engine.queue = []) :
    sourceGone k i tag s = s := by simp [sourceGone, none_waits]

theorem anySlot_ne {i : Nat} (named : i < Config.slotCount) : i ≠ anySlot := by
  unfold Config.slotCount anySlot at *
  omega

theorem lowestEmpty_eq_some {i : Nat} :
    lowestEmpty s = some i ↔ (slotAt i s).state = .empty ∧ i < 24 ∧ ∀ j, j < i → (slotAt j s).state ≠ .empty := by
  simp only [lowestEmpty, List.find?_range_eq_some, List.mem_range, beq_iff_eq, Bool.not_eq_true', beq_eq_false_iff_ne]
  rfl

theorem lowestEmpty_eq_none : lowestEmpty s = none ↔ ∀ j, j < 24 → (slotAt j s).state ≠ .empty := by
  simp only [lowestEmpty, List.find?_eq_none, List.mem_range, beq_iff_eq]
  rfl

theorem hasRole_eq_true {x : Slot} : hasRole x = true ↔ x.sleepRole = true ∨ x.shutdownRole = true :=
  Bool.or_eq_true_iff

/-! ## PAGE_OPEN by its cases (R12) -/

section PageOpen

variable {p : Port} {a : PageOpenArgs} {f : Format} {i : Nat}

theorem pageOpen_of_any (known : formatOf a.format = some f) (any : a.slot = 255) (lowest : lowestEmpty s = some i) :
    pageOpen p a s = newFill p i a.tag f s := by
  simp only [pageOpen, known, any, anySlot, if_true, lowest]

theorem pageOpen_of_none_empty (known : formatOf a.format = some f) (any : a.slot = 255) (full : lowestEmpty s = none) :
    pageOpen p a s = refuse p .noSlot s := by
  simp only [pageOpen, known, any, anySlot, if_true, full]

theorem pageOpen_of_empty (known : formatOf a.format = some f) (named : a.slot < Config.slotCount)
    (empty : (slotAt a.slot s).state = .empty) : pageOpen p a s = newFill p a.slot a.tag f s := by
  simp only [pageOpen, known, anySlot_ne named, if_false, Nat.not_le.mpr named, empty]

theorem pageOpen_of_reopenable (known : formatOf a.format = some f) (named : a.slot < Config.slotCount)
    (ready : (slotAt a.slot s).state = .ready) (out : s.window.entries.contains a.slot = false)
    (free : hasRole (slotAt a.slot s) = false) : pageOpen p a s = reopen p a.slot a.tag f s := by
  simp only [pageOpen, known, anySlot_ne named, if_false, Nat.not_le.mpr named, ready, out, free, Bool.or_false,
    Bool.false_eq_true]

/-- The slot is used: being filled or shown, an entry of the window, or with a role. -/
theorem pageOpen_of_used (known : formatOf a.format = some f) (named : a.slot < Config.slotCount)
    (used : (slotAt a.slot s).state = .filling ∨ (slotAt a.slot s).state = .showing ∨ ((slotAt a.slot s).state = .ready ∧
      (s.window.entries.contains a.slot = true ∨ hasRole (slotAt a.slot s) = true))) :
    pageOpen p a s = refuse p .busy s := by
  have refused : ((slotAt a.slot s).state = .filling ∨ (slotAt a.slot s).state = .showing) ∨ (slotAt a.slot s).state = .ready ∧
      (s.window.entries.contains a.slot || hasRole (slotAt a.slot s)) = true := by
    rwa [Bool.or_eq_true_iff, or_assoc]
  rcases refused with (filling | showing) | ⟨ready, held⟩
  · simp only [pageOpen, known, anySlot_ne named, if_false, Nat.not_le.mpr named, filling]
  · simp only [pageOpen, known, anySlot_ne named, if_false, Nat.not_le.mpr named, showing]
  · simp only [pageOpen, known, anySlot_ne named, if_false, Nat.not_le.mpr named, ready, held, if_true]

theorem pageOpen_of_bad (bad : formatOf a.format = none ∨ (24 ≤ a.slot ∧ a.slot ≠ 255)) :
    pageOpen p a s = refuse p .badValue s := by
  unfold pageOpen
  split
  · rfl
  · next f known =>
    obtain ⟨large, not_any⟩ := bad.resolve_left (by rw [known]; nofun)
    rw [if_neg (show a.slot ≠ anySlot from not_any), if_pos (show Config.slotCount ≤ a.slot from large)]

theorem newFill_of_room {tag : Word32} (room : footprint s.pool ≤ s.pool.free.length) :
    newFill p i tag f s = respond p .ok (encU8 i) (beginFill i tag f s) := if_pos room

end PageOpen

/-- Settles O23: by the state of the slot that the request names or finds. -/
theorem pageOpenFillsReopensOrRefuses : Obligations.PageOpenFillsReopensOrRefuses := by
  refine ⟨?_, fun m a s takes => ?_⟩
  · intro m a f i s takes known lt empty which room x
    have fills : pageOpen .main a (mainTaken .pageOpen m s) = newFill .main i a.tag f (mainTaken .pageOpen m s) := by
      rcases which with named | ⟨any, lowest⟩
      · subst named
        exact pageOpen_of_empty known lt empty
      · exact pageOpen_of_any known any (lowestEmpty_eq_some.mpr ⟨empty, lt, lowest⟩)
    refine congrArg _ (takeRequest_rechecked takes (fills.trans ?_) (by exact takes.active))
    rw [newFill_of_room (show footprint (mainTaken .pageOpen m s).pool ≤ _ from room)]
    exact respond_taken takes.ready .ok _ rfl
  · intro x y
    have refused {r : Result} (refuses : pageOpen .main a (mainTaken .pageOpen m s) = refuse .main r (mainTaken .pageOpen m s)) :
        exec (.pageOpen .main m) s = .next (mainAnswered .pageOpen r [] s) :=
      congrArg _ (takeRequest_rechecked_refused (owner := pageOpen .main) takes refuses)
    have of_known (known : (formatOf a.format).isSome = true) : ∃ f, formatOf a.format = some f := Option.isSome_iff_exists.mp known
    refine ⟨fun f known lt ready out sleep shutdown => ?_, fun known lt busy => ?_, fun known any full => ?_, fun bad => ?_⟩
    · have free : hasRole x = false := by rw [hasRole, sleep, shutdown]; rfl
      have reopens : pageOpen .main a (mainTaken .pageOpen m s) = reopen .main a.slot a.tag f (mainTaken .pageOpen m s) :=
        pageOpen_of_reopenable known lt ready out free
      refine congrArg _ (takeRequest_rechecked takes (reopens.trans ?_) (by exact takes.active))
      simp only [reopen, onWindow, forgetShown_eq]
      exact respond_taken takes.ready .ok _ rfl
    · obtain ⟨f, known⟩ := of_known known
      exact refused (pageOpen_of_used known lt (busy.imp id (Or.imp id (And.imp id (Or.imp id hasRole_eq_true.mpr)))))
    · obtain ⟨f, known⟩ := of_known known
      exact refused (pageOpen_of_none_empty known any (lowestEmpty_eq_none.mpr full))
    · exact refused (pageOpen_of_bad bad)

/-! ## The order of eviction (R9, R13) -/

/-- The use stamp that orders a slot. -/
def stampOf (s : State) (i : Nat) : Nat := (slotAt i s).stamp.getD 0

theorem mem_insertByStamp (s : State) (i j : Nat) : ∀ l : List Nat, j ∈ insertByStamp s i l ↔ j = i ∨ j ∈ l
  | [] => by simp [insertByStamp]
  | x :: l => by
    have ih := mem_insertByStamp s i j l
    unfold insertByStamp
    split
    · simp
    · simp only [List.mem_cons, ih]; tauto

theorem mem_orderByStamp (s : State) (j : Nat) : ∀ l : List Nat, j ∈ orderByStamp s l ↔ j ∈ l
  | [] => Iff.rfl
  | i :: l => by
    rw [orderByStamp, mem_insertByStamp, mem_orderByStamp s j l, List.mem_cons]

theorem mem_stampedSlots (s : State) (j : Nat) : j ∈ stampedSlots s ↔ j < 24 ∧ (slotAt j s).stamp.isSome = true := by
  rw [stampedSlots, mem_orderByStamp, List.mem_filter, List.mem_range]
  rfl

theorem insertByStamp_sorted (s : State) (i : Nat) : ∀ {l : List Nat}, l.Pairwise (fun x y => stampOf s x ≤ stampOf s y) →
    (insertByStamp s i l).Pairwise (fun x y => stampOf s x ≤ stampOf s y)
  | [], _ => by simp [insertByStamp]
  | j :: l, sorted => by
    obtain ⟨first, rest⟩ := List.pairwise_cons.mp sorted
    unfold insertByStamp
    split
    · next before =>
      refine List.pairwise_cons.mpr ⟨fun x member => ?_, sorted⟩
      rcases List.mem_cons.mp member with rfl | later
      · exact Nat.le_of_lt before
      · exact (Nat.le_of_lt before).trans (first x later)
    · next after =>
      refine List.pairwise_cons.mpr ⟨fun x member => ?_, insertByStamp_sorted s i rest⟩
      rcases (mem_insertByStamp s i x l).mp member with rfl | later
      · exact Nat.not_lt.mp after
      · exact first x later

theorem orderByStamp_sorted (s : State) : ∀ l : List Nat, (orderByStamp s l).Pairwise (fun x y => stampOf s x ≤ stampOf s y)
  | [] => .nil
  | i :: l => insertByStamp_sorted s i (orderByStamp_sorted s l)

/-- The slots an eviction may take, oldest first (R13). -/
def evictionOrder (s : State) : List Nat := (stampedSlots s).filter (fun i => evictable i s)

theorem mem_evictionOrder (s : State) (j : Nat) :
    j ∈ evictionOrder s ↔ (j < 24 ∧ (slotAt j s).stamp.isSome = true) ∧ evictable j s = true := by
  rw [evictionOrder, List.mem_filter, mem_stampedSlots]

/-- The one slot with the lowest stamp heads the order. -/
theorem evictionOrder_head {v : Nat} (member : v ∈ evictionOrder s)
    (oldest : ∀ j ∈ evictionOrder s, j ≠ v → stampOf s v < stampOf s j) : ∃ rest, evictionOrder s = v :: rest := by
  have sorted : (evictionOrder s).Pairwise (fun x y => stampOf s x ≤ stampOf s y) := (orderByStamp_sorted s _).filter _
  cases order : evictionOrder s with
  | nil => rw [order] at member; cases member
  | cons h rest =>
    rw [order] at member oldest sorted
    have head_oldest : h = v := by
      by_contra other
      rcases List.mem_cons.mp member with same | later
      · exact other same.symm
      · have below := oldest h List.mem_cons_self other
        have above := (List.pairwise_cons.mp sorted).1 v later
        omega
    exact ⟨rest, by rw [head_oldest]⟩

/-- Too few free blocks, and a slot in the order: one eviction makes the room. -/
theorem evictionOf_of_head {v : Nat} {rest : List Nat} (short : s.pool.free.length < footprint s.pool)
    (order : evictionOrder s = v :: rest) : evictionOf s = some [v] := by
  have one : (List.range ((v :: rest).length + 1)).find?
      (fun n => decide (footprint s.pool ≤ s.pool.free.length + footprint s.pool * n)) = some 1 := by
    refine List.find?_range_eq_some.mpr ⟨by simp, by simp, fun j below => ?_⟩
    have : j = 0 := by omega
    subst this
    simpa using short
  show Option.map (evictionOrder s).take ((List.range ((evictionOrder s).length + 1)).find? _) = _
  rw [order, one]
  rfl

theorem evictionOf_of_none (short : s.pool.free.length < footprint s.pool) (order : evictionOrder s = []) :
    evictionOf s = none := by
  show Option.map (evictionOrder s).take ((List.range ((evictionOrder s).length + 1)).find? _) = _
  rw [order]
  simp [short]

theorem newFill_of_no_space {p : Port} {i : Nat} {tag : Word32} {f : Format} (short : s.pool.free.length < footprint s.pool)
    (order : evictionOrder s = []) : newFill p i tag f s = refuse p .noSpace s := by
  rw [newFill, if_neg (Nat.not_le.mpr short), evictionOf_of_none short order]

theorem newFill_of_evicted {p : Port} {i : Nat} {tag : Word32} {f : Format} {slots : List Nat}
    (short : s.pool.free.length < footprint s.pool) (taken : evictionOf s = some slots) :
    newFill p i tag f s = respond p .ok (encU8 i) (beginFill i tag f (evict .full slots s)) := by
  rw [newFill, if_neg (Nat.not_le.mpr short), taken]

/-- One slot evicted in ACTIVE, no update waiting. -/
theorem evict_one {k : Hooks} {v : Nat} (active : s.platform.state = .active) (none_waits : s.engine.queue = []) :
    evict k [v] s = offerMain false (.pageEvicted v (slotAt v s).tag) (evictOne v s) := by
  show sourceGone k v _ (offerMain false (.pageEvicted v (slotAt v s).tag) (evictOne v s)) = _
  rw [sourceGone_of_empty]
  rw [offerMain_of_active (show (evictOne v s).platform.state = .active from active)]
  exact none_waits

/-- Settles O24: the order of eviction has the oldest page at its head. -/
theorem pageOpenEvictsTheOldestPage : Obligations.PageOpenEvictsTheOldestPage := by
  intro m a f s takes known lt empty short none_waits free
  have evictable_iff (j : Nat) : j < 24 ∧ evictable j (mainTaken .pageOpen m s) = true ↔ free j := by
    show j < 24 ∧ evictable j s = true ↔ free j
    simp only [evictable, hasRole, Bool.and_eq_true, beq_iff_eq, Bool.not_eq_true', Bool.or_eq_false_iff, free, and_assoc]
  have fills : pageOpen .main a (mainTaken .pageOpen m s) = newFill .main a.slot a.tag f (mainTaken .pageOpen m s) :=
    pageOpen_of_empty known lt empty
  refine ⟨?_, fun none_free => ?_⟩
  · intro v freed size stamped oldest all y
    obtain ⟨lt_v, evicts⟩ := (evictable_iff v).mpr freed
    have member : v ∈ evictionOrder (mainTaken .pageOpen m s) :=
      (mem_evictionOrder _ v).mpr ⟨⟨lt_v, stamped⟩, evicts⟩
    obtain ⟨rest, order⟩ := evictionOrder_head member fun j other ne => by
      obtain ⟨⟨lt_j, _⟩, evicts_j⟩ := (mem_evictionOrder _ j).mp other
      exact (oldest j ((evictable_iff j).mp ⟨lt_j, evicts_j⟩) ne).2
    have taken : evictionOf (mainTaken .pageOpen m s) = some [v] :=
      evictionOf_of_head short order
    refine congrArg _ (takeRequest_rechecked takes (fills.trans ?_) ?_)
    · rw [newFill_of_evicted (s := mainTaken .pageOpen m s) short taken, evict_one takes.taken_active none_waits,
        offerMain_of_active (show (evictOne v (mainTaken .pageOpen m s)).platform.state = .active from takes.active),
        offerMain_of_active (by exact takes.active)]
      simp only [evictOne, onWindow, forgetShown_eq]
      rfl
    · rw [respond_platform, offerMain_of_active (by exact takes.active)]
      exact takes.active
  · have nothing : evictionOrder (mainTaken .pageOpen m s) = [] := by
      refine List.eq_nil_iff_forall_not_mem.mpr fun j member => ?_
      obtain ⟨⟨lt_j, _⟩, evicts⟩ := (mem_evictionOrder _ j).mp member
      exact none_free j ((evictable_iff j).mp ⟨lt_j, evicts⟩)
    exact congrArg _ (takeRequest_rechecked_refused (owner := pageOpen .main) takes
      (fills.trans (newFill_of_no_space (s := mainTaken .pageOpen m s) short nothing)))

end Sys2Proof.Machine
end

