-- ==== Sys2Proof/Proofs/PageData.lean ====
section
/-! PROOFS. PAGE_DATA and its pixels (R10, R11, R14). -/

namespace Sys2Proof.Machine

variable {s : State}

/-! ## The pixels that bytes describe -/

/-- The stored value of a one-bit pixel. -/
theorem expandValue_g1 (v : Nat) : expandValue .g1 v = if v = 0 then 0#4 else 15#4 := by
  show BitVec.ofNat 4 (min v 1 * 15) = _
  split
  · next zero => subst zero; rfl
  · next some_bit => rw [Nat.min_eq_right (Nat.one_le_iff_ne_zero.mpr some_bit)]

theorem unpackByte_g4 (b : Byte) : unpackByte .g4 b = [b.extractLsb' 0 4, b.extractLsb' 4 4] := by
  revert b; decide

theorem unpackByte_g2 (b : Byte) :
    unpackByte .g2 b = (List.range 4).map (fun i => BitVec.ofNat 4 (5 * (b.toNat / 4 ^ i % 4))) := by
  refine List.map_congr_left fun i _ => ?_
  have four : 2 ^ (2 * i) = 4 ^ i := Nat.pow_mul 2 2 i
  have within_two_bits : min (b.toNat / 4 ^ i % 4) 3 = b.toNat / 4 ^ i % 4 := by omega
  show BitVec.ofNat 4 (min (b.toNat / 2 ^ (2 * i) % 4) 3 * 5) = _
  rw [four, within_two_bits, Nat.mul_comm]

theorem unpackByte_g1 (b : Byte) :
    unpackByte .g1 b = (List.range 8).map (fun i => if b.getLsbD i then 15#4 else 0#4) := by
  refine List.map_congr_left fun i _ => ?_
  have bit : b.getLsbD i = decide (b.toNat / 2 ^ i % 2 = 1) := by
    rw [BitVec.getLsbD, Nat.testBit_eq_decide_div_mod_eq]
  show expandValue .g1 (b.toNat / 2 ^ (1 * i) % 2) = _
  rw [Nat.one_mul, expandValue_g1, bit]
  rcases Nat.mod_two_eq_zero_or_one (b.toNat / 2 ^ i) with e | e <;> simp [e]

theorem expandValue_r1 (v : Byte) : expandValue .r1 v.toNat = if v = 0#8 then 0#4 else 15#4 := by
  show expandValue .g1 v.toNat = _
  rw [expandValue_g1]
  by_cases zero : v = 0#8
  · subst zero; rfl
  · rw [if_neg zero, if_neg fun e : v.toNat = 0 => zero (BitVec.eq_of_toNat_eq e)]

theorem length_unpackByte (f : Format) (b : Byte) : (unpackByte f b).length = 8 / packedBits f := by simp [unpackByte]

theorem length_unpackRuns (f : Format) : ∀ bs : List Byte, (unpackRuns f bs).length = runSum bs
  | [] | [_] => rfl
  | r :: v :: bs => by
    rw [unpackRuns, runSum, List.length_append, List.length_replicate, length_unpackRuns f bs]

/-- As many pixels as the count says. -/
theorem length_unpack (f : Format) (bs : List Byte) : (unpack f bs).length = pixelCount f bs := by
  unfold unpack pixelCount
  split
  · exact length_unpackRuns f bs
  · induction bs with
    | nil => simp
    | cons b bs ih =>
      rw [List.flatMap_cons, List.length_append, ih, length_unpackByte, List.length_cons, Nat.succ_mul, Nat.add_comm]

/-- Settles O26: byte by byte in a packed format, pair by pair in a run-length format. -/
theorem dataBytesDescribeTheirPixels : Obligations.DataBytesDescribeTheirPixels := by
  refine ⟨fun b bs => ⟨?_, ?_, ?_⟩, fun r v bs => ⟨rfl, ?_, ?_⟩, length_unpack⟩
  · show unpackByte .g4 b ++ unpack .g4 bs = _
    rw [unpackByte_g4]; rfl
  · show unpackByte .g2 b ++ unpack .g2 bs = _
    rw [unpackByte_g2]
  · show unpackByte .g1 b ++ unpack .g1 bs = _
    rw [unpackByte_g1]
  · show List.replicate _ (BitVec.ofNat 4 (min v.toNat 3 * 5)) ++ unpack .r2 bs = _
    rw [Nat.mul_comm]
  · show List.replicate _ (expandValue .r1 v.toNat) ++ unpack .r1 bs = _
    rw [expandValue_r1]

/-! ## Pixels written in a row -/

section Pixels

variable {blocks : List Nat} {mem : List Host.Cell}

/-- A pixel of the blocks lies in a byte of the blocks. -/
theorem half_lt_bytes {j : Nat} (h : j < 131072 * blocks.length) : j / 2 < Config.blockSize * blocks.length := by
  unfold Config.blockSize; omega

/-- Pixels written from `k` on leave the pixels outside as they were. -/
theorem ownerPixel_writePixels_other (distinct : blocks.Nodup) {j : Nat} (inside : j < 131072 * blocks.length) :
    ∀ (vs : List Pixel) (k : Nat) (mem : List Host.Cell), Mem.wf mem = true → k + vs.length ≤ 131072 * blocks.length →
      j < k ∨ k + vs.length ≤ j → ownerPixel (writePixels mem blocks k vs) blocks j = ownerPixel mem blocks j
  | [], _, _, _, _, _ => rfl
  | v :: vs, k, mem, wf, fits, outside => by
    rw [List.length_cons] at fits outside
    rw [writePixels, ownerPixel_writePixels_other distinct inside vs (k + 1) _ (wf_writePixel blocks k v wf) (by omega) (by omega)]
    exact ownerPixel_writePixel_other v wf distinct (half_lt_bytes (by omega)) (half_lt_bytes inside) (by omega)

/-- Pixels written from `k` on read back in their order. -/
theorem ownerPixel_writePixels_same (distinct : blocks.Nodup) :
    ∀ (vs : List Pixel) (k : Nat) (mem : List Host.Cell), Mem.wf mem = true → k + vs.length ≤ 131072 * blocks.length →
      ∀ j, j < vs.length → ownerPixel (writePixels mem blocks k vs) blocks (k + j) = vs.getD j 0
  | v :: vs, k, mem, wf, fits, j, lt => by
    rw [List.length_cons] at fits lt
    have wf' := wf_writePixel blocks k v wf
    rw [writePixels]
    cases j with
    | zero =>
      rw [ownerPixel_writePixels_other distinct (by omega) vs (k + 1) _ wf' (by omega) (.inl (by omega))]
      exact ownerPixel_writePixel_same blocks k v wf
    | succ j =>
      have rest := ownerPixel_writePixels_same distinct vs (k + 1) _ wf' (by omega) j (by omega)
      rw [List.getD_cons_succ, ← rest, Nat.succ_add_eq_add_succ]

end Pixels

/-! ## PAGE_DATA (R14) -/

theorem dramAsleep_of_active (active : s.platform.state = .active) (no_interval : s.platform.powerUp = none) :
    dramAsleep s = false := by simp [dramAsleep, active, no_interval]

/-- Data that a FILLING slot takes. -/
theorem pageDataNow_of_filling {p : Port} {a : SlotBytes} {f : Format} (named : a.slot < Config.slotCount)
    (filling : (slotAt a.slot s).state = .filling) (format : (slotAt a.slot s).format = some f)
    (pairs : isRunLength f = true → a.data.length % 2 = 0)
    (fits : (slotAt a.slot s).fill + pixelCount f a.data ≤ pageSize s.pool) :
    pageDataNow p a s = respond p .ok (encU32 ((slotAt a.slot s).fill + pixelCount f a.data))
      ((setSlot a.slot (filledSlot (slotAt a.slot s) f a.data) s).withDram
        (writePixels s.dram (slotAt a.slot s).blocks (slotAt a.slot s).fill (unpack f a.data))) := by
  have even : (isRunLength f && a.data.length % 2 == 1) = false := by
    cases runs : isRunLength f with
    | false => rfl
    | true => rw [pairs runs]; rfl
  simp only [pageDataNow, Nat.not_le.mpr named, if_false, filling, format, even, Bool.false_eq_true, Nat.not_lt.mpr fits]
  rfl

/-- Settles O25: the pixels read back as written, and no other byte of the DRAM is written. -/
theorem pageDataWritesItsPixelsOnly : Obligations.PageDataWritesItsPixelsOnly := by
  intro m a f s takes x n named filling format no_interval pairs fits y
  have awake : dramAsleep (mainTaken .pageData m s) = false := dramAsleep_of_active takes.taken_active no_interval
  have count : (unpack f a.data).length = n := length_unpack f a.data
  have written : pageData .main a (mainTaken .pageData m s) = { mainAnswered .pageData .ok (encU32 (x.fill + n)) s with
      store := { s.store with slots := s.store.slots.set a.slot y }
      dram := writePixels s.dram x.blocks x.fill (unpack f a.data) } := by
    rw [pageData, awake, if_neg Bool.false_ne_true,
      pageDataNow_of_filling (s := mainTaken .pageData m s) named filling format pairs fits]
    exact respond_taken takes.ready .ok _ rfl
  refine ⟨_, congrArg Host.Outcome.next ((takeRequest_main (pageData .main) takes).trans written), ?_⟩
  refine ⟨rfl, fun address outside => ?_, fun wf distinct inside => ⟨fun j lt => ?_, fun j lt outside => ?_⟩⟩
  · exact read_writePixels_other x.blocks address (unpack f a.data) x.fill s.dram fun k low high =>
      outside k low (count ▸ high)
  · exact ownerPixel_writePixels_same distinct _ x.fill s.dram wf (count.symm ▸ inside) j (count.symm ▸ lt)
  · exact ownerPixel_writePixels_other distinct lt _ x.fill s.dram wf (count.symm ▸ inside) (count.symm ▸ outside)

end Sys2Proof.Machine
end

