-- ==== Sys2Proof/Proofs/PageStore.lean ====
section
/-! PROOFS. PAGE_CLOSE, PAGE_RELEASE, PAGE_PIN and PAGE_UNPIN, GEOMETRY_SET (R5, R6, R15, R16, R18). -/

namespace Sys2Proof.Machine

variable {p : Port} {s : State}

/-! ## PAGE_CLOSE (R15) -/

section PageClose

variable {a : SlotWord}

theorem closesWell_iff (x : Slot) (crc : Word32) (b : Pool) : closesWell x crc b = true ↔ x.fill = pageSize b ∧ x.crc = crc := by
  simp [closesWell]

/-- A complete fill with a matching CRC. -/
theorem pageClose_of_well (named : a.slot < Config.slotCount) (filling : (slotAt a.slot s).state = .filling)
    (full : (slotAt a.slot s).fill = pageSize s.pool) (crc : (slotAt a.slot s).crc = a.word) :
    pageClose p a s =
      considerationPass .full (respond p .ok [] (takeStamp a.slot (setSlot a.slot (readySlot (slotAt a.slot s)) s))) := by
  simp only [pageClose, Nat.not_le.mpr named, if_false, filling, ne_eq, not_true, (closesWell_iff _ _ _).mpr ⟨full, crc⟩, if_true]

/-- Any other fill. -/
theorem pageClose_of_bad_image (named : a.slot < Config.slotCount) (filling : (slotAt a.slot s).state = .filling)
    (bad : (slotAt a.slot s).fill ≠ pageSize s.pool ∨ (slotAt a.slot s).crc ≠ a.word) :
    pageClose p a s = sourceGone .full a.slot (slotAt a.slot s).tag (refuse p .badImage (emptySlot a.slot s)) := by
  have not_well : ¬ closesWell (slotAt a.slot s) a.word s.pool = true := fun well =>
    bad.elim (absurd ((closesWell_iff _ _ _).mp well).1) (absurd ((closesWell_iff _ _ _).mp well).2)
  simp only [pageClose, Nat.not_le.mpr named, if_false, filling, ne_eq, not_true, not_well]
  rfl

theorem pageClose_of_not_filling (named : a.slot < Config.slotCount) (other : (slotAt a.slot s).state ≠ .filling) :
    pageClose p a s = refuse p .notReady s := by
  simp only [pageClose, Nat.not_le.mpr named, if_false, ne_eq, other, not_false_eq_true, if_true]

theorem pageClose_of_unknown (unknown : Config.slotCount ≤ a.slot) : pageClose p a s = refuse p .badValue s := if_pos unknown

/-- The stamp of a slot just set. -/
theorem takeStamp_setSlot {i : Nat} {x : Slot} (known : i < s.store.slots.length) (room : s.store.useCounter < Config.max32) :
    takeStamp i (setSlot i x s) = { s with store := { s.store with
      slots := s.store.slots.set i { x with stamp := some s.store.useCounter }, useCounter := s.store.useCounter + 1 } } := by
  rw [takeStamp_of_room (s := setSlot i x s) room, slotAt_setSlot_same x known]
  simp only [setSlot, State.withStore, List.set_set]

end PageClose

/-- Settles O27: by the slot's state and by whether the fill closes well. -/
theorem pageCloseMakesReadyOrEmpties : Obligations.PageCloseMakesReadyOrEmpties := by
  intro m a s takes none_waits x y
  have refused {r : Result} (refuses : pageClose .main a (mainTaken .pageClose m s) = refuse .main r (mainTaken .pageClose m s)) :
      exec (.pageClose .main m) s = .next (mainAnswered .pageClose r [] s) :=
    congrArg _ (takeRequest_rechecked_refused (owner := pageClose .main) takes refuses)
  refine ⟨fun named filling full crc room => ?_, fun named filling bad => ?_, fun named other => ?_, fun unknown => ?_⟩
  · have known : a.slot < s.store.slots.length := slot_in_store (by rw [show (slotAt a.slot s).state = _ from filling]; decide)
    refine congrArg _ (takeRequest_rechecked takes
      ((pageClose_of_well (s := mainTaken .pageClose m s) named filling full crc).trans ?_) (by exact takes.active))
    rw [takeStamp_setSlot (s := mainTaken .pageClose m s) known room, respond_taken takes.ready .ok [] rfl,
      considerationPass_nil _ (by exact none_waits)]
    rfl
  · refine congrArg _ (takeRequest_rechecked takes
      ((pageClose_of_bad_image (s := mainTaken .pageClose m s) named filling bad).trans ?_) (by exact takes.active))
    rw [refuse_taken takes.ready .badImage rfl, sourceGone_of_empty _ _ _ (by exact none_waits)]
    rfl
  · exact refused (pageClose_of_not_filling named other)
  · exact refused (pageClose_of_unknown unknown)

/-! ## PAGE_RELEASE (R16) -/

theorem removeSlot_of_outside {i : Nat} {w : Window} (out : w.entries.contains i = false) : removeSlot i w = w := by
  unfold removeSlot
  rw [out, if_neg Bool.false_ne_true]

/-- The release of a slot that the window does not hold: the window forgets it where it was shown. -/
theorem windowRelease_of_outside {i : Nat} (out : s.window.entries.contains i = false) :
    windowRelease i s = { s with window := { s.window with
      shown := if s.window.shown = some i then none else s.window.shown } } := by
  simp only [windowRelease, out, Bool.false_eq_true, if_false, onWindow, removeSlot_of_outside out, forgetShown_eq]
  rfl

/-- A release outside the window with no update waiting. -/
theorem releaseSlot_of_outside {i : Nat} {f : State → State} (out : s.window.entries.contains i = false)
    (none_waits : s.engine.queue = []) (frame : ∀ t, (f t).engine = t.engine) :
    releaseSlot i f s = f { s with window := { s.window with
      shown := if s.window.shown = some i then none else s.window.shown } } := by
  rw [releaseSlot, windowRelease_of_outside out, sourceGone_of_empty]
  rw [frame]
  exact none_waits

/-- Settles O28: by the state of the slot. -/
theorem pageReleaseEmptiesOrMarksTheSlot : Obligations.PageReleaseEmptiesOrMarksTheSlot := by
  intro m i s takes none_waits lt out x forgotten noRole
  let t := mainTaken .pageRelease m s
  have named : ¬ Config.slotCount ≤ i := Nat.not_le.mpr lt
  have ends {u : State} (decides : pageRelease .main i t = u) (active : u.platform.state = .active) :
      exec (.pageRelease .main m) s = .next u := congrArg _ (takeRequest_rechecked takes decides active)
  have role_iff : hasRole x = true ↔ ¬ noRole := by
    show (x.sleepRole || x.shutdownRole) = true ↔ ¬ (x.sleepRole = false ∧ x.shutdownRole = false)
    cases x.sleepRole <;> cases x.shutdownRole <;> decide
  have free (none_held : noRole) : hasRole x = false := Bool.eq_false_iff.mpr fun h => role_iff.mp h none_held
  refine ⟨fun empty => ?_, fun kept none_held => ?_, fun showing none_held fresh => ?_, fun showing none_held pending => ?_,
    fun used held => ?_⟩
  · refine ends ?_ (by exact takes.active)
    rw [pageRelease, if_neg named, if_pos (show (slotAt i t).state = .empty from empty)]
    exact respond_taken takes.ready .ok [] rfl
  · have emptied : pageRelease .main i t = respond .main .ok [] (releaseSlot i (emptySlot i) t) := by
      rcases kept with ready | filling
      · simp only [pageRelease, named, if_false, show slotAt i t = x from rfl, ready, free none_held, reduceCtorEq,
          Bool.false_eq_true]
      · simp only [pageRelease, named, if_false, show slotAt i t = x from rfl, filling, free none_held, reduceCtorEq,
          Bool.false_eq_true]
    refine ends (emptied.trans ?_) (by exact takes.active)
    rw [releaseSlot_of_outside (s := t) (f := emptySlot i) out none_waits fun _ => rfl]
    exact respond_taken takes.ready .ok [] rfl
  · have marked : pageRelease .main i t = respond .main .ok [] (releaseSlot i (setSlot i { x with releasePending := true }) t) := by
      simp only [pageRelease, named, if_false, show slotAt i t = x from rfl, showing, free none_held, reduceCtorEq, fresh,
        Bool.false_eq_true]
    refine ends (marked.trans ?_) (by exact takes.active)
    rw [releaseSlot_of_outside (s := t) (f := setSlot i { x with releasePending := true }) out none_waits fun _ => rfl]
    exact respond_taken takes.ready .ok [] rfl
  · refine ends ?_ (by exact takes.active)
    simp only [pageRelease, named, if_false, show slotAt i t = x from rfl, showing, free none_held, reduceCtorEq, pending,
      Bool.false_eq_true, if_true]
    exact respond_taken takes.ready .ok [] rfl
  · refine ends ?_ (by exact takes.active)
    rw [pageRelease, if_neg named, if_neg (show ¬ (slotAt i t).state = .empty from used),
      if_pos (show hasRole (slotAt i t) = true from role_iff.mpr held)]
    exact refuse_taken takes.ready .busy rfl

/-! ## PAGE_PIN and PAGE_UNPIN (R18) -/

section Pins

variable {k : ReqKind} {m : Msg} {i role : Nat} {r : Role} {f : Role → State → State}

theorem pinnable_iff (x : Slot) : pinnable x = true ↔ (x.state = .ready ∨ x.state = .showing) ∧ x.releasePending = false := by
  simp [pinnable]

theorem roleOf_eq_none (bad : role = 0 ∨ 2 < role) : roleOf role = none := by
  match role, bad with
  | 0, _ => rfl
  | n + 3, _ => rfl

theorem exists_roleOf (known : role = 1 ∨ role = 2) : ∃ r, roleOf role = some r := by
  rcases known with rfl | rfl <;> exact ⟨_, rfl⟩

/-- A pin request that changes a role. -/
theorem pinRequest_taken (ready : Ready .main s) (named : i < Config.slotCount) (known : roleOf role = some r)
    (can : pinnable (slotAt i s) = true) (ports : (f r (mainTaken k m s)).portMain = takenUnit k m s.portMain) :
    pinRequest .main (i, role) f (mainTaken k m s) =
      { f r (mainTaken k m s) with portMain := answered k .ok [] s.portMain } := by
  have can' : pinnable (slotAt i (mainTaken k m s)) = true := can
  simp only [pinRequest, Nat.not_le.mpr named, if_false, known, can', if_true]
  exact respond_taken ready .ok [] ports

theorem pinRequest_taken_of_not_pinnable (ready : Ready .main s) (named : i < Config.slotCount) (known : roleOf role = some r)
    (cannot : ¬ pinnable (slotAt i s) = true) :
    pinRequest .main (i, role) f (mainTaken k m s) = mainAnswered k .notReady [] s := by
  have cannot' : ¬ pinnable (slotAt i (mainTaken k m s)) = true := cannot
  simp only [pinRequest, Nat.not_le.mpr named, if_false, known, cannot']
  exact refuse_mainTaken .notReady ready

theorem pinRequest_taken_of_bad (ready : Ready .main s) (bad : 24 ≤ i ∨ role = 0 ∨ 2 < role) :
    pinRequest .main (i, role) f (mainTaken k m s) = mainAnswered k .badValue [] s := by
  unfold pinRequest
  split
  · exact refuse_mainTaken .badValue ready
  · next named =>
    simp only [roleOf_eq_none (bad.resolve_left named)]
    exact refuse_mainTaken .badValue ready

end Pins

/-- Settles O29: both requests share their checks, and differ in what they do to the roles. -/
theorem pinsMoveRoles : Obligations.PinsMoveRoles := by
  intro m i role s x can
  have can_iff : pinnable x = true ↔ can := pinnable_iff x
  refine ⟨fun takes => ?_, fun takes => ?_⟩
  · have row : exec (.pagePin .main m) s = .next (pinRequest .main (i, role) (moveRole i) (mainTaken .pagePin m s)) :=
      congrArg _ (takeRequest_main _ takes)
    rw [row]
    refine ⟨fun named ok one => congrArg _ ?_, fun named ok two => congrArg _ ?_, fun named not_ok known => congrArg _ ?_,
      fun bad => congrArg _ (pinRequest_taken_of_bad takes.ready bad)⟩
    · exact pinRequest_taken takes.ready named (one ▸ rfl : roleOf role = some .sleepPage) (can_iff.mpr ok) rfl
    · exact pinRequest_taken takes.ready named (two ▸ rfl : roleOf role = some .shutdownPage) (can_iff.mpr ok) rfl
    · obtain ⟨r, known⟩ := exists_roleOf known
      exact pinRequest_taken_of_not_pinnable takes.ready named known (mt can_iff.mp not_ok)
  · have row : exec (.pageUnpin .main m) s = .next (pinRequest .main (i, role) (dropRole i) (mainTaken .pageUnpin m s)) :=
      congrArg _ (takeRequest_main _ takes)
    rw [row]
    refine ⟨fun named ok one => congrArg _ ?_, fun named ok two => congrArg _ ?_, fun named not_ok known => congrArg _ ?_,
      fun bad => congrArg _ (pinRequest_taken_of_bad takes.ready bad)⟩
    · exact pinRequest_taken takes.ready named (one ▸ rfl : roleOf role = some .sleepPage) (can_iff.mpr ok) rfl
    · exact pinRequest_taken takes.ready named (two ▸ rfl : roleOf role = some .shutdownPage) (can_iff.mpr ok) rfl
    · obtain ⟨r, known⟩ := exists_roleOf known
      exact pinRequest_taken_of_not_pinnable takes.ready named known (mt can_iff.mp not_ok)

/-! ## GEOMETRY_SET (R5, R6) -/

/-- The footprint as a division rounded up. -/
theorem footprint_eq (b : Pool) : footprint b = (b.width * b.height / 2 + 65535) / 65536 := by
  rw [footprint, ceilDiv, Config.blockSize, Nat.add_sub_assoc (by decide)]

theorem geometryFree_iff (s : State) : geometryFree s = true ↔
    (∀ x ∈ s.store.slots, x.state = .empty) ∧ s.engine.queue = [] ∧ s.engine.active = [] := by
  simp [geometryFree, engineIdle]

/-- Settles O30: check by check; the new panel image reads white because its blocks leave the DRAM's list. -/
theorem geometrySetLaysOutThePanel : Obligations.GeometrySetLaysOutThePanel := by
  intro m w h s takes no_interval good unused f all
  let t := mainTaken .geometrySet m s
  have awake : dramAsleep t = false := dramAsleep_of_active takes.taken_active no_interval
  have row : exec (.geometrySet .main m) s = .next (geometrySetNow .main (w, h) t) := by
    refine congrArg _ ((takeRequest_main (geometrySet .main) takes).trans ?_)
    rw [geometrySet, awake, if_neg Bool.false_ne_true]
  have refused {r : Result} (refuses : geometrySetNow .main (w, h) t = refuse .main r t) :
      exec (.geometrySet .main m) s = .next (mainAnswered .geometrySet r [] s) := by
    rw [row, refuses, refuse_mainTaken r takes.ready]
  have good_iff : goodGeometry w h = true ↔ good := decide_eq_true_iff
  have unused_iff : geometryFree t = true ↔ unused := geometryFree_iff t
  have length : t.pool.free.length + t.pool.panel.length = all.length := List.length_append.symm
  refine ⟨fun ok free small enough => ?_, fun bad => ?_, fun ok used => ?_, fun ok free large => ?_⟩
  · have sets : geometrySetNow .main (w, h) t = respond .main .ok [] (applyGeometry w h t) := by
      simp only [geometrySetNow, good_iff.mpr ok, unused_iff.mpr free, Bool.true_eq_false, if_false, length, footprint_eq]
      exact (if_neg (Nat.not_lt.mpr small)).trans (if_neg (Nat.not_lt.mpr enough))
    have pool : poolWithGeometry w h s.pool =
        { s.pool with width := w, height := h, free := all.drop f, panel := all.take f } := by
      simp only [poolWithGeometry, footprint_eq]
      rfl
    have applied : exec (.geometrySet .main m) s = .next { mainAnswered .geometrySet .ok [] s with
        pool := { s.pool with width := w, height := h, free := all.drop f, panel := all.take f }
        engine := { s.engine with ghosts := List.replicate 64 s.engine.ghostLimit }
        dram := Mem.blankBlocks (all.take f) s.dram } := by
      rw [row, sets, respond_taken takes.ready .ok [] rfl, ← pool]
      have panel : all.take f = (poolWithGeometry w h s.pool).panel := by rw [pool]
      rw [panel]
      rfl
    exact ⟨_, applied, rfl, fun address => Mem.read_blankBlocks (all.take f) address s.dram⟩
  · exact refused (if_pos (Bool.eq_false_iff.mpr (mt good_iff.mp bad)))
  · refine refused ?_
    simp only [geometrySetNow, good_iff.mpr ok, Bool.true_eq_false, if_false]
    exact if_pos (Bool.eq_false_iff.mpr (mt unused_iff.mp used))
  · refine refused ?_
    simp only [geometrySetNow, good_iff.mpr ok, unused_iff.mpr free, Bool.true_eq_false, if_false, length, footprint_eq]
    by_cases limit : 1024 < 5 * f + s.pool.spoolLimit
    · exact if_pos limit
    · exact (if_neg limit).trans (if_pos (large.resolve_left limit))

end Sys2Proof.Machine
end

