-- ==== Sys2Proof/Proofs/Window.lean ====
section
/-! PROOFS. The reading window's requests and the low-water evaluation (R23 to R28, R36). -/

namespace Sys2Proof.Machine

variable {k : ReqKind} {m : Msg} {s : State}

/-! ## Window requests -/

/-- A window request just taken: the window changed, the answer, the evaluation. -/
theorem windowRequest_taken (ready : Ready .main s) (r : Result) (f : Window → Window) :
    windowRequest .main r f (mainTaken k m s) = lowWater { mainAnswered k r [] s with window := f s.window } :=
  congrArg lowWater (respond_taken (t := onWindow f (mainTaken k m s)) ready r [] rfl)

theorem allDistinct_iff : ∀ l : List Nat, allDistinct l = true ↔ l.Nodup
  | [] => by simp [allDistinct]
  | x :: l => by simp [allDistinct, allDistinct_iff l]

/-- A slot that may be an entry (R23). -/
theorem eligible_eq_true (i : Nat) : eligible i s = true ↔ i < 24 ∧ ((slotAt i s).state = .ready ∨
    ((slotAt i s).state = .showing ∧ (slotAt i s).releasePending = false)) := by
  simp only [eligible, Bool.and_eq_true, decide_eq_true_eq, Bool.or_eq_true, beq_iff_eq, Bool.not_eq_true']
  rfl

theorem goodWindow_iff (a : WindowSetArgs) : goodWindow a s = true ↔
    a.slots.length ≤ 16 ∧ (∀ i ∈ a.slots, eligible i s = true) ∧ a.slots.Nodup ∧ (a.slots = [] ∨ a.cursor < a.slots.length) := by
  simp only [goodWindow, Bool.and_eq_true, decide_eq_true_eq, Bool.or_eq_true, List.all_eq_true, allDistinct_iff,
    List.isEmpty_iff, and_assoc]
  rfl

/-! ## The removal rule (R27) -/

/-- The entry that follows `before` leaves the window. -/
theorem removeSlot_of_entry {i c : Nat} {w : Window} {before after : List Nat} (entries : w.entries = before ++ i :: after)
    (first : i ∉ before) (cursor : w.cursor = some c) :
    removeSlot i w = { w with
      entries := before ++ after
      cursor := if before ++ after = [] then none
        else if before.length < c then some (c - 1)
        else if c = before.length ∧ after = [] then some (c - 1)
        else some c } := by
  have held : w.entries.contains i = true := by simp [entries]
  have index : w.entries.idxOf i = before.length := by
    rw [entries, List.idxOf_append_of_notMem first, List.idxOf_cons_self, Nat.add_zero]
  have rest : w.entries.eraseIdx before.length = before ++ after := by
    rw [entries, List.eraseIdx_append_of_length_le (Nat.le_refl _), Nat.sub_self, List.eraseIdx_cons_zero]
  have last : before.length = c ∧ c = (before ++ after).length ↔ c = before.length ∧ after = [] := by
    rw [List.length_append, ← List.length_eq_zero_iff]
    omega
  simp only [removeSlot, held, if_true, removeAt, index, rest, cursor, Option.getD_some, last]

/-- Settles O31: WINDOW_SET by its checks, WINDOW_DROP by the removal rule. -/
theorem windowSetAndDropChangeTheWindow : Obligations.WindowSetAndDropChangeTheWindow := by
  refine ⟨fun m a s takes => ?_, fun m i s takes sound => ?_⟩
  · intro can good
    have row : exec (.windowSet .main m) s = .next (windowSet .main a (mainTaken .windowSet m s)) :=
      congrArg _ (takeRequest_main (windowSet .main) takes)
    have good_iff : goodWindow a (mainTaken .windowSet m s) = true ↔ good := by
      rw [goodWindow_iff]
      simp only [eligible_eq_true]
      rfl
    refine ⟨fun ok => row.trans (congrArg _ ?_), fun bad => row.trans (congrArg _ ?_)⟩
    · rw [windowSet, if_pos (good_iff.mpr ok), windowRequest_taken takes.ready]
      simp only [replaceWindow, List.isEmpty_iff]
    · rw [windowSet, if_neg (mt good_iff.mp bad), windowRequest_taken takes.ready]
      rfl
  · have row : exec (.windowDrop .main m) s = .next (windowDrop .main i (mainTaken .windowDrop m s)) :=
      congrArg _ (takeRequest_main (windowDrop .main) takes)
    have drops (named : i < 24) : windowDrop .main i (mainTaken .windowDrop m s) =
        lowWater { mainAnswered .windowDrop .ok [] s with window := removeSlot i s.window } := by
      rw [windowDrop, if_neg (show ¬ Config.slotCount ≤ i from Nat.not_le.mpr named), windowRequest_taken takes.ready]
    refine ⟨fun before after c entries cursor => ?_, fun named out => ?_, fun unknown => row.trans (congrArg _ ?_)⟩
    · have member : i ∈ s.window.entries := by rw [entries]; simp
      have distinct := sound.distinct
      rw [entries] at distinct
      have first : i ∉ before := fun b => (List.nodup_append.mp distinct).2.2 i b i List.mem_cons_self rfl
      have named : i < 24 := ((eligible_eq_true i).mp (sound.eligibleEntries i member)).1
      rw [row, drops named, removeSlot_of_entry entries first cursor]
    · rw [row, drops named, removeSlot_of_outside (by simpa using out)]
      rfl
    · rw [windowDrop, if_pos (show Config.slotCount ≤ i from unknown), windowRequest_taken takes.ready]
      rfl

/-! ## Additions (R25, R26) -/

section Additions

variable {i c : Nat} {w : Window}

theorem appended_of_empty (empty : w.entries = []) : appended i w = some { w with entries := [i], cursor := some 0 } := if_pos empty

theorem appended_of_room (some_entry : w.entries ≠ []) (room : w.entries.length < 16) :
    appended i w = some { w with entries := w.entries ++ [i] } := (if_neg some_entry).trans (if_pos room)

theorem appended_of_full (full : w.entries.length = 16) (cursor : w.cursor = some c) :
    appended i w = if 0 < c then some { w with entries := w.entries.tail ++ [i], cursor := some (c - 1) } else none := by
  have some_entry : w.entries ≠ [] := fun e => by rw [e] at full; cases full
  have no_room : ¬ w.entries.length < Config.windowMax := by rw [full]; decide
  simp only [appended, some_entry, no_room, if_false, cursor, Option.getD_some]

theorem prepended_of_empty (empty : w.entries = []) : prepended i w = some { w with entries := [i], cursor := some 0 } := if_pos empty

theorem prepended_of_room (some_entry : w.entries ≠ []) (room : w.entries.length < 16) (cursor : w.cursor = some c) :
    prepended i w = some { w with entries := i :: w.entries, cursor := some (c + 1) } := by
  refine (if_neg some_entry).trans ((if_pos room).trans ?_)
  rw [cursor, Option.getD_some]

theorem prepended_of_full (full : w.entries.length = 16) (cursor : w.cursor = some c) :
    prepended i w = if c < 15 then some { w with entries := i :: w.entries.dropLast, cursor := some (c + 1) } else none := by
  have some_entry : w.entries ≠ [] := fun e => by rw [e] at full; cases full
  have no_room : ¬ w.entries.length < Config.windowMax := by rw [full]; decide
  simp only [prepended, some_entry, no_room, if_false, cursor, Option.getD_some]
  rfl

variable {f : Nat → Window → Option Window}

theorem addable_iff : addable i s = true ↔ i < 24 ∧ ((slotAt i s).state = .ready ∨
    ((slotAt i s).state = .showing ∧ (slotAt i s).releasePending = false)) ∧ i ∉ s.window.entries := by
  simp only [addable, Bool.and_eq_true, eligible_eq_true, Bool.not_eq_true', List.contains_eq_mem, decide_eq_false_iff_not, and_assoc]

/-- An addition that the window takes. -/
theorem windowAdd_taken (ready : Ready .main s) (can : addable i s = true) (new : f i s.window = some w) :
    windowAdd .main i f (mainTaken k m s) = lowWater { mainAnswered k .ok [] s with window := w } := by
  have can' : addable i (mainTaken k m s) = true := can
  have new' : f i (mainTaken k m s).window = some w := new
  simp only [windowAdd, can', if_true, new']
  exact windowRequest_taken ready .ok _

/-- An addition to a full window whose other end the cursor holds. -/
theorem windowAdd_taken_of_full (ready : Ready .main s) (can : addable i s = true) (full : f i s.window = none) :
    windowAdd .main i f (mainTaken k m s) = lowWater (mainAnswered k .windowFull [] s) := by
  have can' : addable i (mainTaken k m s) = true := can
  have full' : f i (mainTaken k m s).window = none := full
  simp only [windowAdd, can', if_true, full']
  exact windowRequest_taken ready .windowFull id

theorem windowAdd_taken_of_bad (ready : Ready .main s) (cannot : ¬ addable i s = true) :
    windowAdd .main i f (mainTaken k m s) = lowWater (mainAnswered k .badValue [] s) := by
  rw [windowAdd, if_neg (show ¬ addable i (mainTaken k m s) = true from cannot)]
  exact windowRequest_taken ready .badValue id

end Additions

/-- Settles O32: each end's four cases of the window, and the slots it cannot take. -/
theorem additionsAtEitherEnd : Obligations.AdditionsAtEitherEnd := by
  intro m i s sound es can
  have can_iff : addable i s = true ↔ can := addable_iff
  refine ⟨fun takes => ?_, fun takes => ?_⟩
  · have row : exec (.windowAppend .main m) s = .next (windowAdd .main i appended (mainTaken .windowAppend m s)) :=
      congrArg _ (takeRequest_main (fun i => windowAdd .main i appended) takes)
    rw [row]
    refine ⟨fun ok empty => congrArg _ ?_, fun ok some_entry room => congrArg _ ?_, fun c ok full cursor => congrArg _ ?_,
      fun ok full cursor => congrArg _ ?_, fun bad => congrArg _ (windowAdd_taken_of_bad takes.ready (mt can_iff.mp bad))⟩
    · exact windowAdd_taken takes.ready (can_iff.mpr ok) (appended_of_empty empty)
    · exact windowAdd_taken takes.ready (can_iff.mpr ok) (appended_of_room some_entry room)
    · refine windowAdd_taken takes.ready (can_iff.mpr ok) ((appended_of_full full cursor).trans ?_)
      rw [if_pos (Nat.succ_pos c), Nat.add_sub_cancel, ← List.drop_one]
    · exact windowAdd_taken_of_full takes.ready (can_iff.mpr ok) (appended_of_full full cursor)
  · have row : exec (.windowPrepend .main m) s = .next (windowAdd .main i prepended (mainTaken .windowPrepend m s)) :=
      congrArg _ (takeRequest_main (fun i => windowAdd .main i prepended) takes)
    rw [row]
    refine ⟨fun ok empty => congrArg _ ?_, fun c ok some_entry room cursor => congrArg _ ?_,
      fun c ok full cursor low => congrArg _ ?_, fun ok full cursor => congrArg _ ?_,
      fun bad => congrArg _ (windowAdd_taken_of_bad takes.ready (mt can_iff.mp bad))⟩
    · exact windowAdd_taken takes.ready (can_iff.mpr ok) (prepended_of_empty empty)
    · exact windowAdd_taken takes.ready (can_iff.mpr ok) (prepended_of_room some_entry room cursor)
    · refine windowAdd_taken takes.ready (can_iff.mpr ok) ((prepended_of_full full cursor).trans ?_)
      rw [if_pos low, List.dropLast_eq_take, full]
    · exact windowAdd_taken_of_full takes.ready (can_iff.mpr ok) (prepended_of_full full cursor)

/-! ## The low-water evaluation (R36) -/

/-- Settles O33: by whether a direction fires, then by the platform's state. -/
theorem lowWaterFiresOncePerShortfall : Obligations.LowWaterFiresOncePerShortfall := by
  intro s on w ahead behind fireA fireB tagOf s1 note s2
  have short (n low : Nat) : (!decide (n < low)) = decide (low ≤ n) := by
    rw [← decide_not]; exact decide_eq_decide.mpr Nat.not_lt
  have fires (n low : Nat) (armed : Bool) : (decide (n < low) && armed) = decide (n < low ∧ armed = true) := by
    rw [Bool.decide_and, Bool.decide_eq_true]
  have evaluates : lowWater s = if fireA ∨ fireB then offerMain true note s1 else s1 := by
    simp only [lowWater, short, fires, ← Bool.decide_or, decide_eq_true_eq]
    rfl
  refine ⟨fun noA noB => ?_, fun some_fires active => ?_, fun some_fires doze => ?_⟩
  · rw [evaluates, if_neg (not_or.mpr ⟨noA, noB⟩)]
  · rw [evaluates, if_pos some_fires, offerMain_of_active (s := s1) active]
  · rw [evaluates, if_pos some_fires, offerMain_wakes (s := s1) doze]

end Sys2Proof.Machine
end

