-- ==== Sys2Proof/Proofs/Turns.lean ====
section
/-! PROOFS. Turns while the waveform table is LOADING (R31 to R33, R44). -/

namespace Sys2Proof.Machine

variable {k : ReqKind} {m : Msg} {s t : State}

theorem turnReport_of_active (active : s.platform.state = .active) : turnReport s = s := by
  simp only [turnReport, active]

theorem afterTurn_of_active (active : s.platform.state = .active) : afterTurn false s = lowWater s := by
  rw [afterTurn, turnReport_of_active active]
  rfl

theorem afterTurn_of_loading (active : s.platform.state = .active) (loading : s.wave.state = .loading) :
    afterTurn true s = lowWater s := by
  rw [afterTurn, turnReport_of_active active]
  exact congrArg lowWater (considerationPass_loading .full loading)

/-- A low-water evaluation in ACTIVE leaves the platform as it is. -/
theorem lowWater_platform (active : s.platform.state = .active) : (lowWater s).platform = s.platform := by
  obtain ⟨a, b, u, e⟩ := lowWater_of_active active
  rw [e]

/-- A submission takes the id the engine gives. -/
theorem submit_of_newId {o : Origin} {req : PortSet} {slot id : Nat} {r : Region} {mode : Mode} (given : newId s.engine = id) :
    submit o req slot r mode s = { s with engine := { s.engine with
      queue := s.engine.queue ++ [newUpdate id o req slot r mode], nextId := if 65535 ≤ id then 1 else id + 1 } } := by
  rw [submit, onEngine, given]
  rfl

section Cases

variable {p : Port} {d : Direction}

theorem turn_of_empty (on : s.platform.state ≠ .halting) (empty : s.window.entries = []) :
    turn p d s = afterTurn false (refuse p .windowEmpty s) := by
  rw [turn, if_neg on, if_pos empty]

theorem turn_of_edge (on : s.platform.state ≠ .halting) (some_entry : s.window.entries ≠ []) (edge : atEdge d s.window = true) :
    turn p d s = afterTurn false (offerMain true (edgeNotice d s) (refuse p .edge s)) := by
  rw [turn, if_neg on, if_neg some_entry, if_pos edge]

theorem turn_of_page (on : s.platform.state ≠ .halting) (some_entry : s.window.entries ≠ []) (inside : atEdge d s.window = false) :
    turn p d s = moveTurn p d s := by
  rw [turn, if_neg on, if_neg some_entry, if_neg (by rw [inside]; nofun)]

theorem moveTurn_of_pending {id : Nat} (pending : pendingTurn s = some id) :
    moveTurn p d s = afterTurn true (respond p .queued (encU16 id)
      (onEngine (replaceSource id (s.window.entries.getD (cursorAfter d s.window) 0) p)
        (onWindow (fun w => { w with cursor := some (cursorAfter d s.window) }) s))) := by
  simp only [moveTurn, pending]

theorem moveTurn_of_room (none_pending : pendingTurn s = none) (room : s.engine.queue.length < Config.queueMax) :
    moveTurn p d s = afterTurn true (respond p .queued (encU16 (newId s.engine))
      (submit .window (onlyPort p) (s.window.entries.getD (cursorAfter d s.window) 0) (wholePanel s.pool) s.window.turnMode
        (onWindow (fun w => { w with cursor := some (cursorAfter d s.window), lastTurn := some (newId s.engine) }) s))) := by
  simp only [moveTurn, none_pending, queueHasRoom, room, decide_true, if_true]

theorem moveTurn_of_full (none_pending : pendingTurn s = none) (full : Config.queueMax ≤ s.engine.queue.length) :
    moveTurn p d s = afterTurn false (refuse p .queueFull s) := by
  simp only [moveTurn, none_pending, queueHasRoom, Nat.not_lt.mpr full, decide_false, Bool.false_eq_true, if_false]

end Cases

/-- A turn just taken that finds a page: it moves. -/
theorem turn_taken (active : s.platform.state = .active) {d : Direction} {c : Nat} (within : c < s.window.entries.length) (inside : atEdge d s.window = false) :
    turn .main d (mainTaken k m s) = moveTurn .main d (mainTaken k m s) := by
  refine turn_of_page ?_ ?_ inside
  · rw [show (mainTaken k m s).platform.state = _ from active]; decide
  · exact fun empty => absurd within (by rw [show s.window.entries = [] from empty]; exact Nat.not_lt_zero c)

/-- A request that ends in an evaluation in ACTIVE. -/
theorem takeRequest_evaluated {α : Type} {read : List Byte → Option α} {a : α} {owner : α → State → State} {u : State}
    (takes : MainTakes k m read a s) (decides : owner a (mainTaken k m s) = lowWater u) (active : u.platform.state = .active) :
    takeRequest .main k m read (fun a t => recheckNow (owner a t)) s = lowWater u :=
  takeRequest_rechecked takes decides (by rw [lowWater_platform active]; exact active)

/-- A turn that submits its update. -/
theorem turn_submits {d : Direction} {c id : Nat} (takes : MainTakes k m readNothing () s)
    (within : c < s.window.entries.length) (inside : atEdge d s.window = false) (none_pending : pendingTurn s = none)
    (room : s.engine.queue.length < 8) (fresh : id = s.engine.nextId) (new : id ∉ liveIds s.engine)
    (loading : s.wave.state = .loading) :
    takeRequest .main k m readNothing (fun _ t => recheckNow (turn .main d t)) s = lowWater { mainAnswered k .queued (encU16 id) s with
      window := { s.window with cursor := some (cursorAfter d s.window), lastTurn := some id }
      engine := { s.engine with
        queue := s.engine.queue ++ [newUpdate id .window ⟨true, false, false⟩
          (s.window.entries.getD (cursorAfter d s.window) 0) ⟨0, 0, s.pool.width, s.pool.height⟩ s.window.turnMode]
        nextId := if 65535 ≤ id then 1 else id + 1 } } := by
  have given : newId s.engine = id := (newId_of_fresh (fresh ▸ new)).trans fresh.symm
  refine takeRequest_evaluated (owner := fun _ => turn .main d) takes ?_ takes.active
  rw [turn_taken takes.active within inside, moveTurn_of_room (s := mainTaken k m s) none_pending room]
  rw [show newId (mainTaken k m s).engine = id from given, submit_of_newId (s := onWindow _ (mainTaken k m s)) given,
    respond_taken takes.ready .queued _ rfl]
  exact afterTurn_of_loading (by exact takes.active) (by exact loading)

theorem cursorAfter_next {w : Window} {c : Nat} (cursor : w.cursor = some c) : cursorAfter .next w = c + 1 := by
  simp only [cursorAfter, cursor, Option.getD_some]

theorem cursorAfter_prev {w : Window} {c : Nat} (cursor : w.cursor = some c) : cursorAfter .prev w = c - 1 := by
  simp only [cursorAfter, cursor, Option.getD_some]

theorem atEdge_next {w : Window} {c : Nat} (cursor : w.cursor = some c) : atEdge .next w = decide (w.entries.length ≤ c + 1) := by
  simp only [atEdge, cursor, Option.getD_some]

theorem atEdge_prev {w : Window} {c : Nat} (cursor : w.cursor = some c) : atEdge .prev w = (c == 0) := by
  simp only [atEdge, cursor, Option.getD_some]

/-- Settles O34: both directions submit alike, each at its own cursor. -/
theorem aTurnMovesTheCursorAndSubmits : Obligations.ATurnMovesTheCursorAndSubmits := by
  intro m c id s sound cursor none_pending room fresh new loading u after
  have within : c < s.window.entries.length := sound.cursorWithin c cursor
  refine ⟨fun takes more => congrArg Host.Outcome.next ?_, fun takes less => congrArg Host.Outcome.next ?_⟩
  · have inside : atEdge .next s.window = false := by
      rw [atEdge_next cursor, decide_eq_false_iff_not]; omega
    refine (turn_submits takes within inside none_pending room fresh new loading).trans ?_
    rw [cursorAfter_next cursor]
    rfl
  · have inside : atEdge .prev s.window = false := by
      rw [atEdge_prev cursor, beq_eq_false_iff_ne]; omega
    refine (turn_submits takes within inside none_pending room fresh new loading).trans ?_
    rw [cursorAfter_prev cursor]
    rfl

/-- The pending turn takes its new source, and the main port joins its requesters. -/
theorem replaceSource_main (id slot : Nat) (e : Engine) :
    replaceSource id slot .main e = { e with queue := e.queue.map (fun u =>
      if u.id = id then { u with source := slot, requesters := ⟨true, u.requesters.standby, u.requesters.radio⟩ } else u) } := by
  have joined (r : PortSet) : addPort .main r = ⟨true, r.standby, r.radio⟩ := by
    obtain ⟨a, b, c⟩ := r
    cases a <;> cases b <;> cases c <;> rfl
  simp only [replaceSource, joined, beq_iff_eq]

/-- Settles O35: the four cases of a turn to the next page. -/
theorem turnsCoalesceOrAreRefused : Obligations.TurnsCoalesceOrAreRefused := by
  intro m s takes sound loading es
  have on : (mainTaken .turnNext m s).platform.state ≠ .halting := by rw [takes.taken_active]; decide
  have ends {u : State} (decides : turn .main .next (mainTaken .turnNext m s) = lowWater u) (active : u.platform.state = .active) :
      exec (.turnNext .main m) s = .next (lowWater u) :=
    congrArg _ (takeRequest_evaluated (owner := fun _ => turn .main .next) takes decides active)
  refine ⟨fun c id cursor more pending => ?_, fun c cursor more none_pending full => ?_, fun c cursor last => ?_, fun empty => ?_⟩
  · have within : c < s.window.entries.length := sound.cursorWithin c cursor
    have inside : atEdge .next s.window = false := by
      rw [atEdge_next cursor, decide_eq_false_iff_not]; exact Nat.not_le.mpr more
    refine ends ?_ (by exact takes.active)
    rw [turn_taken takes.active within inside, moveTurn_of_pending (s := mainTaken .turnNext m s) pending,
      respond_taken takes.ready .queued _ rfl]
    refine (afterTurn_of_loading (by exact takes.active) (by exact loading)).trans ?_
    rw [show cursorAfter .next (mainTaken .turnNext m s).window = c + 1 from cursorAfter_next cursor]
    simp only [onEngine, replaceSource_main]
    rfl
  · have within : c < s.window.entries.length := sound.cursorWithin c cursor
    have inside : atEdge .next s.window = false := by
      rw [atEdge_next cursor, decide_eq_false_iff_not]; exact Nat.not_le.mpr more
    refine ends ?_ takes.active
    rw [turn_taken takes.active within inside, moveTurn_of_full (s := mainTaken .turnNext m s) none_pending full,
      refuse_mainTaken _ takes.ready]
    exact afterTurn_of_active takes.active
  · intro t
    have some_entry : s.window.entries ≠ [] := fun e => by
      rw [show es = [] from e] at last; cases last
    have edge : atEdge .next s.window = true := by
      rw [atEdge_next cursor, decide_eq_true_iff]; exact Nat.le_of_eq last.symm
    have entry : s.window.entries[c]? = some (es.getD c 0) := by
      rw [List.getD_eq_getElem?_getD, List.getElem?_eq_getElem (by exact last ▸ Nat.lt_succ_self c)]
      rfl
    have notice : edgeNotice .next (mainTaken .turnNext m s) = .windowEdge .next (slotAt (es.getD c 0) s).tag := by
      show Notice.windowEdge .next (entryTag (s.window.entries[s.window.cursor.getD 0]?) (mainTaken .turnNext m s)) = _
      rw [cursor, Option.getD_some, entry]
      rfl
    refine ends ?_ (by exact takes.active)
    rw [turn_of_edge on some_entry edge, notice, refuse_mainTaken _ takes.ready,
      offerMain_of_active (s := mainAnswered .turnNext .edge [] s) takes.active]
    exact afterTurn_of_active takes.active
  · refine ends ?_ takes.active
    rw [turn_of_empty on empty, refuse_mainTaken _ takes.ready]
    exact afterTurn_of_active takes.active

end Sys2Proof.Machine
end

