-- ==== Sys2Proof/Proofs/Waveform.lean ====
section
/-! PROOFS. The waveform table's load sequence and the scrub (R70 to R74). -/

namespace Sys2Proof.Machine

variable {s : State} {p : Port}

theorem strictlyAscending_of_pairwise : ∀ {l : List Int}, l.Pairwise (· < ·) → strictlyAscending l = true
  | [], _ | [_], _ => rfl
  | a :: b :: l, sorted => by
    obtain ⟨first, rest⟩ := List.pairwise_cons.mp sorted
    simp only [strictlyAscending, decide_eq_true (first b List.mem_cons_self), strictlyAscending_of_pairwise rest, Bool.and_self]

theorem goodDescriptor_of {a : WaveformBeginArgs} (some_band : 1 ≤ a.bands) (few : a.bands ≤ 8)
    (bounds : ∀ b ∈ a.bounds, -400 ≤ b ∧ b ≤ 1000) (sorted : a.bounds.Pairwise (· < ·)) (counts : ∀ n ∈ a.counts, 1 ≤ n ∧ n ≤ 127) :
    goodDescriptor a = true := by
  simp only [goodDescriptor, Bool.and_eq_true, decide_eq_true_eq, List.all_eq_true]
  exact ⟨⟨⟨⟨some_band, few⟩, bounds⟩, strictlyAscending_of_pairwise sorted⟩, counts⟩

/-- A load begins. -/
theorem waveformBegin_of_good {a : WaveformBeginArgs} (active : s.platform.state = .active) (idle : s.engine.active = [])
    (good : goodDescriptor a = true) :
    waveformBegin p a s =
      considerationPass .full (respond p .ok (encU32 (declaredSize a.counts)) (onWave (beginLoad a) s)) := by
  simp [waveformBegin, active, idle, good]

/-- No byte with a code that names no symbol. -/
theorem any_namesNoSymbol {bs : List Byte} (known : ∀ b ∈ bs, ∀ i, i < 4 → b.toNat / 4 ^ i % 4 ≠ 3) : bs.any namesNoSymbol = false := by
  simp only [List.any_eq_false, namesNoSymbol, List.any_eq_true, List.mem_range, beq_iff_eq, not_exists, not_and]
  exact known

/-- Stream bytes that the load takes. -/
theorem waveformData_of_good {bs : List Byte} {pos size : Nat} (loading : s.wave.state = .loading) (place : s.wave.loadPos = some pos)
    (declared : s.wave.declared = some size) (fits : pos + bs.length ≤ size) (known : bs.any namesNoSymbol = false) :
    waveformData p bs s = respond p .ok (encU32 (pos + bs.length)) (onWave (loadBytes bs) s) := by
  simp [waveformData, loading, place, declared, Nat.not_lt.mpr fits, known]

theorem waveformEnd_of_complete {crc : Word32} (loading : s.wave.state = .loading) (whole : s.wave.loadPos = s.wave.declared)
    (sum : s.wave.crc = some crc) :
    waveformEnd p crc s = considerationPass .full (respond p .ok [] (onWave (validTable s.platform.state crc) s)) := by
  simp [waveformEnd, loading, loadComplete, whole, sum]

theorem waveformEnd_of_bad {crc : Word32} (loading : s.wave.state = .loading)
    (bad : s.wave.loadPos ≠ s.wave.declared ∨ s.wave.crc ≠ some crc) :
    waveformEnd p crc s = considerationPass .full (refuse p .badImage (onWave (fun w => { w with state := .faulty }) s)) := by
  have incomplete : loadComplete crc s.wave = false := by
    rw [loadComplete, Bool.and_eq_false_iff, beq_eq_false_iff_ne, beq_eq_false_iff_ne]
    exact bad
  simp [waveformEnd, loading, incomplete]

/-- A table that becomes VALID in ACTIVE has its scrub waiting. -/
theorem validTable_of_active (crc : Word32) (w : WaveTable) : validTable .active crc w = { w with
    state := .valid, reference := some crc, loadPos := none, crc := none, passCount := 0, scrub := .waiting,
    scrubTimer := some (1000 * w.scrubPeriod), pass := none } := by
  rw [validTable, startScrub, if_pos (.inl rfl), Nat.mul_comm 1000]

/-- Settles O40: each request of the load by its checks. -/
theorem aWaveformLoadRunsToItsEnd : Obligations.AWaveformLoadRunsToItsEnd := by
  intro m s
  refine ⟨fun a takes idle none_waits some_band few bounds sorted counts => congrArg Host.Outcome.next ?_,
    fun bs pos size crc takes loading place declared sum fits known => congrArg Host.Outcome.next ?_,
    fun crc takes loading none_waits whole sum => congrArg Host.Outcome.next ?_,
    fun crc takes loading none_waits bad => congrArg Host.Outcome.next ?_⟩
  · have good := goodDescriptor_of some_band few bounds sorted counts
    refine takeRequest_rechecked (owner := waveformBegin .main) takes ?_ takes.active
    rw [waveformBegin_of_good (s := mainTaken .waveformBegin m s) takes.active idle good, respond_taken takes.ready .ok _ rfl]
    exact considerationPass_nil .full none_waits
  · refine (takeRequest_main (waveformData .main) takes).trans ?_
    rw [waveformData_of_good (s := mainTaken .waveformData m s) loading place declared fits (any_namesNoSymbol known),
      respond_taken takes.ready .ok _ rfl]
    simp only [onWave, loadBytes, show (mainTaken .waveformData m s).wave = s.wave from rfl, place, sum, Option.getD_some]
    rfl
  · refine takeRequest_rechecked (owner := waveformEnd .main) takes ?_ takes.active
    rw [waveformEnd_of_complete (s := mainTaken .waveformEnd m s) loading whole sum, takes.taken_active,
      respond_taken takes.ready .ok _ rfl]
    refine (considerationPass_nil .full (by exact none_waits)).trans ?_
    simp only [onWave, validTable_of_active]
    rfl
  · refine takeRequest_rechecked (owner := waveformEnd .main) takes ?_ takes.active
    rw [waveformEnd_of_bad (s := mainTaken .waveformEnd m s) loading bad, refuse_taken takes.ready .badImage rfl]
    exact considerationPass_nil .full none_waits

/-! ## The scrub (R73, R74) -/

theorem scrubExpiry_waiting {w : WaveTable} (waiting : w.scrub = .waiting) :
    scrubExpiry w = { w with scrub := .passing, pass := some ⟨0, 0⟩, scrubTimer := some (1000 * w.scrubPeriod) } := by
  simp only [scrubExpiry, waiting, startPass, Nat.mul_comm 1000]

theorem scrubExpiry_passing {w : WaveTable} (passing : w.scrub = .passing) :
    scrubExpiry w = { w with scrubTimer := some (1000 * w.scrubPeriod) } := by
  simp only [scrubExpiry, passing, Nat.mul_comm 1000]

/-- Settles O41: the expiry by the scrub's state, the end of a pass by the comparison. -/
theorem theScrubChecksTheTable : Obligations.TheScrubChecksTheTable := by
  intro s
  refine ⟨fun running waiting => ?_, fun running passing => ?_, ?_⟩
  · refine congrArg Host.Outcome.next ((if_pos running).trans ?_)
    rw [onWave, scrubExpiry_waiting waiting]
    rfl
  · refine congrArg Host.Outcome.next ((if_pos running).trans ?_)
    rw [onWave, scrubExpiry_passing passing]
    rfl
  · intro upsets passing active bytes w
    have row {u : State} (ends : scrubPassEnd upsets s = u) (on : u.platform.state = .active) :
        exec (.scrubPassEnd upsets) s = .next u :=
      congrArg Host.Outcome.next ((if_pos passing).trans (by rw [ends, recheckNow_of_active on]))
    refine ⟨fun same => row (if_pos same.symm) active, fun r reference differs none_waits => row ?_ active⟩
    have mismatch : ¬ some (crc32 bytes) = s.wave.reference := fun e => differs (Option.some.inj (e.trans reference)).symm
    refine (if_neg mismatch).trans ?_
    rw [offerMain_of_active (by exact active), considerationPass_nil _ (by exact none_waits)]
    have named : r = s.wave.reference.getD 0 := by rw [reference, Option.getD_some]
    rw [named]
    rfl

end Sys2Proof.Machine
end

