-- ==== Sys2Proof/Proofs/FrontLight.lean ====
section
/-! PROOFS. The front light's requests, the ramp tick and the outputs (R106 to R109, R112, R116 to R120). -/

namespace Sys2Proof.Machine

variable {k : ReqKind} {m : Msg} {s : State}

/-! ## LIGHT_SET (R108, R109) -/

/-- LIGHT_SET from the main port in ACTIVE: the answer, then the notice to the standby port. -/
theorem lightSet_taken {a : LightSetArgs} (ready : Ready .main s) (active : s.platform.state = .active) (warm : a.warmth ≤ 255)
    {l : Light} (targets : setTargets .main a s.monitor.amb.last s.light = l) :
    lightSet .main a (mainTaken k m s) =
      { mainAnswered k .ok (encU16 l.level ++ encU16 l.warmth ++ encFlag l.auto) s with
        light := l
        portStandby := offerUnit (.lightChanged l.level l.warmth l.auto .main) s.portStandby } := by
  have on : (mainTaken k m s).platform.state ≠ .halting := by
    rw [show (mainTaken k m s).platform.state = _ from active]; decide
  have answers : lightSet .main a (mainTaken k m s) = offerTo .standby (lightChanged .main l)
      (respond .main .ok (encU16 l.level ++ encU16 l.warmth ++ encFlag l.auto) ((mainTaken k m s).withLight l)) := by
    rw [lightSet, if_neg (Nat.not_lt.mpr warm), if_neg on, ← targets]
    rfl
  rw [answers, respond_taken ready .ok _ rfl, offerTo_standby]
  rfl

theorem lightSet_of_bad {p : Port} {a : LightSetArgs} (bad : 255 < a.warmth) : lightSet p a s = refuse p .badValue s := if_pos bad

/-! ## LIGHT_CURVE and LIGHT_AUTO_POINTS (R106, R107) -/

theorem nonDecreasing_iff : ∀ l : List Nat, nonDecreasing l = true ↔ l.Pairwise (· ≤ ·)
  | [] | [_] => by simp [nonDecreasing]
  | a :: b :: l => by
    simp only [nonDecreasing, Bool.and_eq_true, decide_eq_true_eq, nonDecreasing_iff (b :: l), List.pairwise_cons (a := a)]
    refine and_congr_left fun sorted => ⟨fun first x member => ?_, fun first => first b List.mem_cons_self⟩
    rcases List.mem_cons.mp member with rfl | later
    · exact first
    · exact first.trans ((List.pairwise_cons.mp sorted).1 x later)

theorem goodCurve_iff (d : List Nat) :
    goodCurve d = true ↔ (∀ v ∈ d, v ≤ 4095) ∧ d.head? = some 0 ∧ d.Pairwise (· ≤ ·) := by
  simp only [goodCurve, Bool.and_eq_true, List.all_eq_true, decide_eq_true_eq, beq_iff_eq, nonDecreasing_iff, and_assoc]

theorem goodPoints_iff (a : List Nat) : goodPoints a = true ↔ (∀ v ∈ a, v ≤ 1023) ∧ a.Pairwise (· ≤ ·) := by
  simp only [goodPoints, Bool.and_eq_true, List.all_eq_true, decide_eq_true_eq, nonDecreasing_iff]

/-- Settles O46: each request by its checks, LIGHT_SET by the mode it asks for. -/
theorem lightRequestsSetTheLight : Obligations.LightRequestsSetTheLight := by
  intro m s
  refine ⟨fun level warmth takes warm => ?_, fun level warmth amb takes warm manual last => ?_,
    fun a takes bad => congrArg _ (takeRequest_refused takes (lightSet_of_bad bad)), fun d takes => ?_, fun a takes => ?_⟩
  · exact congrArg Host.Outcome.next
      ((takeRequest_main (lightSet .main) takes).trans (lightSet_taken takes.ready takes.active warm rfl))
  · refine congrArg Host.Outcome.next ((takeRequest_main (lightSet .main) takes).trans
      (lightSet_taken takes.ready takes.active warm (l := { s.light with
        warmth := warmth, auto := true, autoFirst := false, autoLevel := autoCandidate s.light.points amb.toNat,
        writer := some .main }) ?_))
    simp [setTargets, manual, last, switchToAuto]
  · intro good total
    have row : exec (.lightCurve .main m) s = .next (lightCurve .main d (mainTaken .lightCurve m s)) :=
      congrArg _ (takeRequest_main (lightCurve .main) takes)
    refine ⟨fun ok => row.trans (congrArg _ ?_), fun bad => row.trans (congrArg _ ?_)⟩
    · rw [lightCurve, if_pos ((goodCurve_iff d).mpr ok)]
      exact respond_taken takes.ready .ok [] rfl
    · rw [lightCurve, if_neg (mt (goodCurve_iff d).mp bad)]
      exact refuse_mainTaken .badValue takes.ready
  · intro good
    have row : exec (.lightAutoPoints .main m) s = .next (lightAutoPoints .main a (mainTaken .lightAutoPoints m s)) :=
      congrArg _ (takeRequest_main (lightAutoPoints .main) takes)
    refine ⟨fun ok => row.trans (congrArg _ ?_), fun bad => row.trans (congrArg _ ?_)⟩
    · rw [lightAutoPoints, if_pos ((goodPoints_iff a).mpr ok)]
      exact respond_taken takes.ready .ok [] rfl
    · rw [lightAutoPoints, if_neg (mt (goodPoints_iff a).mp bad)]
      exact refuse_mainTaken .badValue takes.ready

/-! ## The ramp tick (R116, R117) -/

/-- A step towards a target, from either side. -/
theorem approach_eq (d goal v : Nat) : approach d goal v = if v ≤ goal then min (v + d) goal else max (v - d) goal := by
  unfold approach
  split <;> split <;> omega

/-- The effective target in ACTIVE. -/
theorem effectiveTarget_of_active (active : s.platform.state = .active) :
    effectiveTarget s = min (if s.light.auto = true then s.light.autoLevel else s.light.level) (min s.light.chargeCap s.light.thermalCap) := by
  simp only [effectiveTarget, active]
  rfl

theorem rampStepNow_of_active (active : s.platform.state = .active) : rampStepNow s = s.light.rampStep :=
  if_neg (by rw [active]; decide)

/-- In ACTIVE a tick changes the light and nothing else. -/
theorem exec_rampTick_of_active (active : s.platform.state = .active) (running : s.light.rampTimer.isSome = true) :
    exec .rampTick s = .next { s with light := rampedLight s } := by
  refine congrArg Host.Outcome.next ((if_pos running).trans ?_)
  show (if _ then recheckNow (s.withLight (rampedLight s)) else s.withLight (rampedLight s)) = _
  rw [recheckNow_of_active (s := s.withLight (rampedLight s)) active, ite_self]
  rfl

/-- Settles O47: the tick by whether it moves anything, the period starts by their definition. -/
theorem rampAndOutputsFollowTheLight : Obligations.RampAndOutputsFollowTheLight := by
  refine ⟨?_, fun s => ⟨rfl, rfl⟩⟩
  · intro s active running l goal r w j total
    have level : approach (rampStepNow s) (effectiveTarget s) l.rampLevel = r := by
      rw [approach_eq, rampStepNow_of_active active, effectiveTarget_of_active active]
    have warmth : approach 4 l.warmth l.rampWarmth = w := approach_eq 4 l.warmth l.rampWarmth
    have ramped : rampedLight s = if r = l.rampLevel ∧ w = l.rampWarmth then
          { l with rampLevel := r, rampWarmth := w, rampTimer := some 16 }
        else withDuties { l with rampLevel := r, rampWarmth := w, rampTimer := some 16 } := by
      rw [← level, ← warmth]
      rfl
    rw [exec_rampTick_of_active active running, ramped]
    refine ⟨fun moved => ?_, fun same_level same_warmth => ?_⟩
    · rw [if_neg fun still => moved.elim (absurd still.1) (absurd still.2)]
      rfl
    · rw [if_pos ⟨same_level, same_warmth⟩, same_level, same_warmth]

end Sys2Proof.Machine
end

