-- ==== Sys2Proof/Proofs/Titles.lean ====
section
/-! PROOFS. The end of a verification, aging, and the title requests (R81, R95, R96, R99 to R102). -/

namespace Sys2Proof.Machine

variable {s : State}

/-! ## Finding a title -/

/-- The predicate by which a title is found. -/
theorem findTitle_eq_some {id : Word32} {i : Nat} {x : Title} (lt : i < 8) (found : titleAt i s = some x) (named : x.id = id)
    (lowest : ∀ j, j < i → ∀ y, titleAt j s = some y → y.id ≠ id) : findTitle id s = some i := by
  refine List.find?_range_eq_some.mpr ⟨?_, List.mem_range.mpr lt, fun j below => ?_⟩
  · simp only [found, named, beq_self_eq_true]
  · cases held : titleAt j s with
    | none => rfl
    | some y => simpa using lowest j below y held

theorem findTitle_eq_none {id : Word32} (unknown : ∀ j, j < 8 → ∀ y, titleAt j s = some y → y.id ≠ id) : findTitle id s = none := by
  refine List.find?_eq_none.mpr fun j member => ?_
  have lt : j < 8 := List.mem_range.mp member
  cases held : titleAt j s with
  | none => simp
  | some y => simpa using unknown j lt y held

/-! ## The end of a verification (R95) -/

theorem notifyTitle_of_active {n : Notice} (active : s.platform.state = .active) :
    notifyTitle n s = { s with portMain := offerUnit n s.portMain, portRadio := offerUnit n s.portRadio } := by
  rw [notifyTitle, offerMain_of_active active, offerTo_radio]

theorem completeTitle_of_active {i : Nat} {x : Title} (active : s.platform.state = .active) (found : titleAt i s = some x) :
    completeTitle i s = { s with
      spool := { s.spool with titles := s.spool.titles.set i (some { x with state := .complete }) }
      portMain := offerUnit (.titleComplete x.id x.received) s.portMain
      portRadio := offerUnit (.titleComplete x.id x.received) s.portRadio } := by
  simp only [completeTitle, found]
  exact notifyTitle_of_active active

theorem failTitle_of_active {i : Nat} {x : Title} (c : FailCause) (active : s.platform.state = .active) (found : titleAt i s = some x) :
    failTitle i c s = { s with
      spool := { s.spool with titles := s.spool.titles.set i (some { x with state := .failed, failCause := some c }) }
      portMain := offerUnit (.titleFailed x.id c x.received) s.portMain
      portRadio := offerUnit (.titleFailed x.id c x.received) s.portRadio } := by
  simp only [failTitle, found]
  exact notifyTitle_of_active active

theorem titleBytes_zero (s : State) (x : Title) (n : Nat) :
    titleBytes s x 0 n = (List.range n).map (fun j => ownerByte s.dram x.blocks j) := by
  simp only [titleBytes, Nat.zero_add]

/-- The state with the verified title out of the list. -/
def afterVerification (s : State) : State := onSpool (fun sp => { sp with verifying := sp.verifying.tail }) s

theorem verificationEnd_of_match {i : Nat} {x : Title} (found : titleAt i s = some x)
    (same : x.crc = some (crc32 (titleBytes s x 0 x.received))) : verificationEnd i s = completeTitle i (afterVerification s) := by
  simp only [verificationEnd, found]
  exact if_pos same

theorem verificationEnd_of_mismatch {i : Nat} {x : Title} (found : titleAt i s = some x)
    (differs : x.crc ≠ some (crc32 (titleBytes s x 0 x.received))) : verificationEnd i s = failTitle i .crc (afterVerification s) := by
  simp only [verificationEnd, found]
  exact if_neg differs

/-! ## Aging (R81, R96) -/

theorem blocksFor_eq (n : Nat) : blocksFor n = (n + 65535) / 65536 := by
  rw [blocksFor, ceilDiv, Config.blockSize, Nat.add_sub_assoc (by decide)]

/-- The open assembly closed, its title's extra blocks returned, with no change of level index. -/
theorem closeAssembly_of_open (k : Hooks) {a : Assembly} {x : Title} (opened : s.spool.assembly = some a)
    (found : titleAt a.entry s = some x) (reserved : s.charge.chunk = some a.cost)
    (level : nextLevel { s.charge with chunk := none } = s.charge.level) (free : s.spool.held = false) :
    closeAssembly k s = { s with
      pool := { s.pool with free := s.pool.free ++ x.blocks.drop (blocksFor x.received) }
      spool := { s.spool with
        titles := s.spool.titles.set a.entry (some { x with blocks := x.blocks.take (blocksFor x.received) })
        assembly := none }
      charge := { s.charge with chunk := none } } := by
  simp only [closeAssembly, opened, trimTitle, found]
  rw [releaseChunk, if_pos (by exact Option.isSome_iff_exists.mpr ⟨a.cost, reserved⟩),
    evaluate_of_same k (by exact level) (by exact free)]
  rfl

theorem dropAssembly_aged {a : Assembly} {x : Title} (opened : s.spool.assembly = some a) (found : titleAt a.entry s = some x) :
    dropAssembly .full .aged true s = offerTo .radio (.chunkAged x.id .aged x.received)
      (countStat (fun c => { c with aged := saturatingSucc c.aged }) (closeAssembly .full s)) := by
  have some_open : s.spool.assembly.isSome = true := Option.isSome_iff_exists.mpr ⟨a, opened⟩
  have notice : chunkAgedNotice .aged s = some (.chunkAged x.id .aged x.received) := by
    simp only [chunkAgedNotice, opened, found, Option.map_some]
  simp only [dropAssembly, some_open, if_true, notice]

/-- Settles O44: the verification by its comparison, aging by the drop it makes. -/
theorem verificationAndAgingEndTheirWork : Obligations.VerificationAndAgingEndTheirWork := by
  refine fun s active => ⟨?_, ?_⟩
  · intro i rest x verifying found _ bytes ended
    have row {u : State} (ends : verificationEnd i s = u) (on : u.platform.state = .active) :
        exec .verificationEnd s = .next u := by
      refine congrArg Host.Outcome.next ?_
      simp only [verifying, ends]
      exact recheckNow_of_active on
    have listed : afterVerification s = { s with spool := { s.spool with verifying := rest } } := by
      rw [afterVerification, onSpool, verifying]
      rfl
    refine ⟨fun same => row ?_ active, fun differs => row ?_ active⟩
    · rw [verificationEnd_of_match found (titleBytes_zero s x _ ▸ same), listed,
        completeTitle_of_active (s := { s with spool := { s.spool with verifying := rest } }) active found]
    · rw [verificationEnd_of_mismatch found (titleBytes_zero s x _ ▸ differs), listed,
        failTitle_of_active (s := { s with spool := { s.spool with verifying := rest } }) .crc active found]
  · intro a x opened found reserved free c level k
    refine congrArg Host.Outcome.next
      ((if_pos (Option.isSome_iff_exists.mpr ⟨a, opened⟩)).trans ?_)
    rw [dropAssembly_aged opened found, closeAssembly_of_open .full opened found reserved level free, offerTo_radio,
      recheckNow_of_active (by exact active), blocksFor_eq]
    rfl

/-! ## The title requests (R99 to R102) -/

theorem titleRead_of_found {p : Port} {a : TitleReadArgs} {i : Nat} {x : Title} (awake : dramAsleep s = false) (named : a.title ≠ 0)
    (some_bytes : 1 ≤ a.length) (few : a.length ≤ 1020) (index : findTitle a.title s = some i) (found : titleAt i s = some x)
    (fits : a.offset + a.length ≤ x.received) :
    titleRead p a s = respond p .ok (titleBytes s x a.offset a.length) s := by
  have sound : ¬ (a.title = 0 ∨ a.length < 1 ∨ 1020 < a.length) := by
    rintro (zero | short | long)
    · exact named zero
    · omega
    · omega
  rw [titleRead, awake, if_neg Bool.false_ne_true, titleReadNow, if_neg sound, index, Option.bind_some, found]
  exact if_neg (Nat.not_lt.mpr fits)

/-- A title leaves the table with its blocks, its place in the verification list and the bare target. -/
theorem freeTitle_of_found {i : Nat} {x : Title} (found : titleAt i s = some x) : freeTitle i s = { s with
    pool := { s.pool with free := s.pool.free ++ x.blocks }
    spool := { s.spool with
      titles := s.spool.titles.set i none
      verifying := s.spool.verifying.filter (fun j => j != i)
      bare := if s.spool.bare = some i then none else s.spool.bare } } := by
  have held : ((titleAt i s).map (·.blocks)).getD [] = x.blocks := by rw [found]; rfl
  simp only [freeTitle, held]
  rfl

theorem titleRelease_of_found {p : Port} {id : Word32} {i : Nat} (named : id ≠ 0) (index : findTitle id s = some i)
    (none_open : ∀ a, s.spool.assembly = some a → a.entry ≠ i) : titleRelease p id s = respond p .ok [] (freeTitle i s) := by
  have elsewhere : s.spool.assembly.any (fun a => a.entry == i) = false := by
    cases opened : s.spool.assembly with
    | none => rfl
    | some a => simpa using none_open a opened
  simp only [titleRelease, named, if_false, index, dropOnTitle, elsewhere, Bool.false_eq_true]

theorem titleRelease_of_unknown {p : Port} {id : Word32} (named : id ≠ 0) (unknown : findTitle id s = none) :
    titleRelease p id s = refuse p .noTitle s := by
  simp only [titleRelease, named, if_false, unknown]

theorem titleQuery_of_found {p : Port} {id : Word32} {i : Nat} {x : Title} (named : id ≠ 0) (index : findTitle id s = some i)
    (found : titleAt i s = some x) : titleQuery p id s = respond p .ok (titleQueryData x s.spool.held) s := by
  simp only [titleQuery, named, if_false, index, Option.bind_some, found]

theorem titleQuery_of_unknown {p : Port} {id : Word32} (named : id ≠ 0) (unknown : findTitle id s = none) :
    titleQuery p id s = refuse p .noTitle s := by
  simp only [titleQuery, named, if_false, unknown, Option.bind_none]

/-- Settles O45: each title request by what `findTitle` finds. -/
theorem titleRequestsReadReleaseAndReport : Obligations.TitleRequestsReadReleaseAndReport := by
  intro m id s unknown
  refine ⟨fun i x lt found same named lowest => ⟨fun offset length takes still some_bytes few fits => ?_,
    fun takes none_open => ?_, fun takes => ?_⟩, fun takes named none_found => ?_, fun takes named none_found => ?_,
    fun takes zero => ?_, fun takes => ?_⟩
  · have index := findTitle_eq_some (s := mainTaken .titleRead m s) lt found same lowest
    refine congrArg Host.Outcome.next ((takeRequest_main (titleRead .main) takes).trans ?_)
    rw [titleRead_of_found (dramAsleep_of_active takes.taken_active still) named some_bytes few index found fits,
      respond_mainTaken .ok _ takes.ready]
    rfl
  · have index := findTitle_eq_some (s := mainTaken .titleRelease m s) lt found same lowest
    refine congrArg Host.Outcome.next (takeRequest_rechecked (owner := titleRelease .main) takes
      ((titleRelease_of_found named index none_open).trans ?_) (by exact takes.active))
    rw [freeTitle_of_found (s := mainTaken .titleRelease m s) found]
    exact respond_taken takes.ready .ok [] rfl
  · have index := findTitle_eq_some (s := otherTaken .radio .titleQuery m s) lt found same lowest
    refine congrArg Host.Outcome.next ((takeRequest_other (titleQuery .radio) takes).trans ?_)
    have cause : (x.failCause.map FailCause.code).getD 0 =
        (match x.failCause with | none => 0 | some .misfit => 1 | some .crc => 2) := by
      cases x.failCause with
      | none => rfl
      | some c => cases c <;> rfl
    rw [titleQuery_of_found named index found, respond_otherTaken .ok _ takes.ready, titleQueryData, cause]
    rfl
  · have absent := findTitle_eq_none (s := mainTaken .titleRelease m s) none_found
    exact congrArg Host.Outcome.next
      (takeRequest_rechecked_refused (owner := titleRelease .main) takes (titleRelease_of_unknown named absent))
  · have absent := findTitle_eq_none (s := mainTaken .titleQuery m s) none_found
    exact congrArg Host.Outcome.next (takeRequest_refused takes (titleQuery_of_unknown named absent))
  · exact congrArg Host.Outcome.next (takeRequest_rechecked_refused (owner := titleRelease .main) takes (if_pos zero))
  · exact congrArg Host.Outcome.next ((takeRequest_main _ takes).trans (respond_taken takes.ready .ok [] rfl))

end Sys2Proof.Machine
end

