-- ==== Sys2Proof/Proofs/Scans.lean ====
section
/-! PROOFS. The end of an update (R54 to R57), and what a scan counts and is granted (R49 to R51). -/

namespace Sys2Proof.Machine

variable {u : Update} {s t : State}

/-! ## The steps of an end (R54) -/

/-- The record leaves the queue and the lanes. -/
def leaveEngine (id : Nat) (s : State) : State :=
  onEngine (fun e => { e with
    queue := e.queue.filter (fun v => v.id != id), active := e.active.filter (fun v => v.id != id) }) s

theorem releaseUpdate_of_none (k : Hooks) {id : Nat} (unreserved : ∀ r ∈ s.charge.updates, r.1 ≠ id) :
    releaseUpdate k id s = s := by
  refine if_neg fun held => ?_
  obtain ⟨r, member, same⟩ := List.any_eq_true.mp held
  exact unreserved r member (eq_of_beq same)

/-- A reservation released, or none held, with no change of level index. -/
theorem releaseUpdate_of_same (k : Hooks) {id : Nat} (free : s.spool.held = false)
    (level : nextLevel { s.charge with updates := s.charge.updates.filter (fun r => r.1 != id) } = s.charge.level) :
    releaseUpdate k id s = { s with charge := { s.charge with updates := s.charge.updates.filter (fun r => r.1 != id) } } := by
  by_cases held : s.charge.updates.any (fun r => r.1 == id) = true
  · exact (if_pos held).trans (evaluate_of_same k (s := onCharge _ s) level free)
  · have all : s.charge.updates.filter (fun r => r.1 != id) = s.charge.updates := by
      refine List.filter_eq_self.mpr fun r member => ?_
      by_contra same
      exact held (List.any_eq_true.mpr ⟨r, member, by simpa using same⟩)
    rw [all]
    exact if_neg held

/-- An end without targets leaves panel image and ghost counters. -/
theorem applyTargets_of_unpainted {r : UpdateResult} (done : r ≠ .done) (fault : r ≠ .supplyFault) : applyTargets u r s = s :=
  if_neg fun painted => painted.elim done fault

@[simp] theorem applyTargets_platform (r : UpdateResult) : (applyTargets u r s).platform = s.platform := by
  unfold applyTargets
  split <;> rfl

/-- A SHOWING slot after its last update: READY again, or EMPTY where a release waits (R17). -/
def afterLast (x : Slot) : Slot := if x.releasePending = true then Slot.reset else { x with state := .ready, showing := 0 }

theorem lowerShowing_of_last {i : Nat} (shows : (slotAt i s).state = .showing) (last : (slotAt i s).showing = 1) :
    lowerShowing i s = { s with
      pool := { s.pool with free := if (slotAt i s).releasePending = true then s.pool.free ++ (slotAt i s).blocks else s.pool.free }
      store := { s.store with slots := s.store.slots.set i (afterLast (slotAt i s)) } } := by
  simp only [lowerShowing, last, Nat.le_refl, if_true, shows]
  by_cases waits : (slotAt i s).releasePending = true
  · simp only [afterLast, waits, if_true]
    rfl
  · simp only [afterLast, waits]
    rfl

theorem lowerShowing_of_kept {i : Nat} (shows : (slotAt i s).state = .showing) (last : (slotAt i s).showing = 1)
    (kept : (slotAt i s).releasePending = false) : lowerShowing i s = { s with
      store := { s.store with slots := s.store.slots.set i { slotAt i s with state := .ready, showing := 0 } } } := by
  have stays : ¬ (slotAt i s).releasePending = true := by rw [kept]; decide
  rw [lowerShowing_of_last shows last, afterLast, if_neg stays, if_neg stays]

@[simp] theorem lowerShowing_platform (i : Nat) : (lowerShowing i s).platform = s.platform := by
  simp only [lowerShowing]
  split
  · split <;> rfl
  · rfl

/-- A plain notice to the main port outside OFF. -/
theorem offerMain_plain {n : Notice} (on : s.platform.state ≠ .off) :
    offerMain false n s = { s with portMain := offerUnit n s.portMain } := by
  simp only [offerMain, on, if_false, offerTo, and_false]
  rfl

theorem notifyRequesters_main {n : Notice} (on : s.platform.state ≠ .off) (asker : u.requesters = ⟨true, false, false⟩) :
    notifyRequesters u n s = { s with portMain := offerUnit n s.portMain } := by
  simp only [notifyRequesters, asker, if_true]
  exact offerMain_plain on

/-! ## The whole end, for an update of the main port -/

/-- The targets applied and the slot lowered, from the state `t` in which the reservation is free. -/
def unshown (u : Update) (r : UpdateResult) (t : State) : State :=
  if u.phase = .pending then applyTargets u r t else lowerShowing u.source (applyTargets u r t)

@[simp] theorem unshown_platform (r : UpdateResult) : (unshown u r t).platform = t.platform := by
  unfold unshown
  split
  · exact applyTargets_platform r
  · exact (lowerShowing_platform _).trans (applyTargets_platform r)

/-- The steps of an end up to the notice. -/
def endedShow (u : Update) (r : UpdateResult) (tag : Word32) (t : State) : State :=
  { unshown u r t with portMain := offerUnit (updateDoneNotice u r tag) (unshown u r t).portMain }

theorem endedShow_platform (r : UpdateResult) (tag : Word32) : (endedShow u r tag t).platform = t.platform :=
  unshown_platform r

theorem notifyRequesters_of_on {r : UpdateResult} {tag : Word32} (on : t.platform.state ≠ .off)
    (asker : u.requesters = ⟨true, false, false⟩) :
    notifyRequesters u (updateDoneNotice u r tag) (unshown u r t) = endedShow u r tag t :=
  notifyRequesters_main (by rw [unshown_platform]; exact on) asker

/-- The end of a pending record paints nothing and leaves every slot. -/
theorem endedShow_of_pending {r : UpdateResult} {tag : Word32} (pending : u.phase = .pending) (done : r ≠ .done)
    (fault : r ≠ .supplyFault) :
    endedShow u r tag t = { t with portMain := offerUnit (updateDoneNotice u r tag) t.portMain } := by
  simp only [endedShow, unshown, pending, if_true, applyTargets_of_unpainted done fault]

/-- The end of a SHOW in a state that is neither DOZE nor OFF. -/
theorem endUpdate_of_show (k : Hooks) {r : UpdateResult} {tag : Word32} (asker : u.requesters = ⟨true, false, false⟩)
    (show_ : u.origin ≠ .window) (freed : releaseUpdate k u.id (leaveEngine u.id s) = t) (on : t.platform.state ≠ .off)
    (awake : t.platform.state ≠ .doze) : endUpdate k u r tag s = endedShow u r tag t := by
  have ends : endUpdate k u r tag s = if (endedShow u r tag t).platform.state = .doze then restartIdle (endedShow u r tag t)
      else endedShow u r tag t := by
    simp only [endUpdate, show_, if_false]
    rw [show releaseUpdate k u.id (onEngine _ s) = t from freed, ← unshown, notifyRequesters_of_on on asker]
  rw [ends, endedShow_platform, if_neg awake]

theorem turnFailure_eq : turnFailure s = turnTakenBack s := by
  unfold turnFailure turnTakenBack
  cases s.window.shown with
  | none => rfl
  | some x => simp only [List.contains_iff_mem]; rfl

/-- A turn that brought its page makes the source the shown slot, unless the slot is gone (R34). -/
theorem windowUpdateEnded_of_brought {r : UpdateResult} {i : Nat} (brought : r = .done ∨ r = .noChange) :
    windowUpdateEnded r i s = { s with window := { s.window with
      shown := if (slotAt i s).releasePending = true ∨ (slotAt i s).state = .empty then none else some i } } := by
  simp only [windowUpdateEnded, brought, if_true, Bool.or_eq_true, beq_iff_eq]
  rfl

/-- A turn that failed takes the cursor back (R35). -/
theorem windowUpdateEnded_of_failed {r : UpdateResult} {i : Nat} (done : r ≠ .done) (unchanged : r ≠ .noChange) :
    windowUpdateEnded r i s = turnTakenBack s :=
  (if_neg fun brought => brought.elim done unchanged).trans turnFailure_eq

theorem turnTakenBack_platform (active : s.platform.state = .active) : (turnTakenBack s).platform = s.platform := by
  unfold turnTakenBack
  split
  · split
    · exact lowWater_platform (by exact active)
    · rfl
  · rfl

theorem windowUpdateEnded_platform (r : UpdateResult) (i : Nat) (active : s.platform.state = .active) :
    (windowUpdateEnded r i s).platform = s.platform := by
  by_cases brought : r = .done ∨ r = .noChange
  · rw [windowUpdateEnded_of_brought brought]
  · rw [windowUpdateEnded_of_failed (fun h => brought (.inl h)) (fun h => brought (.inr h)), turnTakenBack_platform active]

theorem turnTakenBack_engine (active : s.platform.state = .active) : (turnTakenBack s).engine = s.engine := by
  unfold turnTakenBack
  split
  · split
    · obtain ⟨a, b, v, e⟩ := lowWater_of_active (s := { s with window := { s.window with cursor := some (s.window.entries.idxOf _) } }) active
      rw [e]
    · rfl
  · rfl

/-- What an end means for the window: nothing, unless the update was a turn. -/
def turnEnded (u : Update) (r : UpdateResult) (t : State) : State :=
  if u.origin = .window then windowUpdateEnded r u.source t else t

theorem turnEnded_of_failed {r : UpdateResult} (done : r ≠ .done) (unchanged : r ≠ .noChange) :
    turnEnded u r t = if u.origin = .window then turnTakenBack t else t := by
  rw [turnEnded, windowUpdateEnded_of_failed done unchanged]

/-- The end of a SHOW or a turn in ACTIVE. -/
theorem endUpdate_of_active (k : Hooks) {r : UpdateResult} {tag : Word32} (asker : u.requesters = ⟨true, false, false⟩)
    (freed : releaseUpdate k u.id (leaveEngine u.id s) = t) (active : t.platform.state = .active) :
    endUpdate k u r tag s = turnEnded u r (endedShow u r tag t) := by
  have active' : (endedShow u r tag t).platform.state = .active := by rw [endedShow_platform, active]
  by_cases turns : u.origin = .window
  · have ends : endUpdate k u r tag s =
        if (windowUpdateEnded r u.source (endedShow u r tag t)).platform.state = .doze then
          restartIdle (windowUpdateEnded r u.source (endedShow u r tag t))
        else windowUpdateEnded r u.source (endedShow u r tag t) := by
      simp only [endUpdate, turns, if_true]
      rw [show releaseUpdate k u.id (onEngine _ s) = t from freed, ← unshown,
        notifyRequesters_of_on (by rw [active]; decide) asker]
    rw [ends, windowUpdateEnded_platform r u.source active', active', if_neg (by decide), turnEnded, if_pos turns]
  · rw [turnEnded, if_neg turns]
    exact endUpdate_of_show k asker turns freed (by rw [active]; decide) (by rw [active]; decide)

/-! ## What a scan counts (R49, R50) -/

/-- A scan changes the mode, the count, the promotion and the tiles of its record. -/
theorem scanned_frame (u : Update) (s : State) :
    ∃ mode changed promoted tiles, scanned u s = { u with mode := mode, changed := changed, promoted := promoted, tiles := tiles } := by
  unfold scanned
  split
  · exact ⟨_, _, u.promoted, _, rfl⟩
  · dsimp only
    split
    · exact ⟨_, _, _, _, rfl⟩
    · exact ⟨_, _, u.promoted, _, rfl⟩

@[simp] theorem scanned_id : (scanned u s).id = u.id := by obtain ⟨_, _, _, _, e⟩ := scanned_frame u s; rw [e]
@[simp] theorem scanned_origin : (scanned u s).origin = u.origin := by obtain ⟨_, _, _, _, e⟩ := scanned_frame u s; rw [e]
@[simp] theorem scanned_requesters : (scanned u s).requesters = u.requesters := by obtain ⟨_, _, _, _, e⟩ := scanned_frame u s; rw [e]
@[simp] theorem scanned_source : (scanned u s).source = u.source := by obtain ⟨_, _, _, _, e⟩ := scanned_frame u s; rw [e]
@[simp] theorem scanned_phase : (scanned u s).phase = u.phase := by obtain ⟨_, _, _, _, e⟩ := scanned_frame u s; rw [e]
@[simp] theorem scanned_band : (scanned u s).band = u.band := by obtain ⟨_, _, _, _, e⟩ := scanned_frame u s; rw [e]
@[simp] theorem scanned_clamped : (scanned u s).clamped = u.clamped := by obtain ⟨_, _, _, _, e⟩ := scanned_frame u s; rw [e]
@[simp] theorem scanned_frames : (scanned u s).frames = u.frames := by obtain ⟨_, _, _, _, e⟩ := scanned_frame u s; rw [e]

/-- One of the tiles of these pixels stands at the limit. -/
theorem tilesOf_any_iff {b : Pool} {pixels : List (Nat × Nat)} {limit : Nat} {ghosts : List Nat} :
    (tilesOf b pixels).any (fun t => decide (limit ≤ ghosts.getD t 0)) = true ↔
      ∃ q ∈ pixels, tileOf b q.1 q.2 < 64 ∧ limit ≤ ghosts.getD (tileOf b q.1 q.2) 0 := by
  simp only [tilesOf, List.any_eq_true, List.mem_filter, List.mem_range, decide_eq_true_eq, beq_iff_eq]
  constructor
  · rintro ⟨_, ⟨within, q, member, rfl⟩, reached⟩
    exact ⟨q, member, within, reached⟩
  · rintro ⟨q, member, within, reached⟩
    exact ⟨_, ⟨within, q, member, rfl⟩, reached⟩

theorem scanned_full (full : u.mode = .full) : scanned u s = { u with
    changed := u.region.w * u.region.h
    tiles := (List.range Config.tileCount).filter (touchesTile s.pool u.region) } := by
  simp only [scanned, full]

theorem scanned_partially (mode : u.mode = .partially) : scanned u s =
    let pixels := changedPixels s .partially u.source u.region
    if (tilesOf s.pool pixels).any (fun t => decide (u.ghostLimit ≤ s.engine.ghosts.getD t 0)) = true then
      { u with mode := .full, promoted := true, changed := u.region.w * u.region.h, tiles := tilesOf s.pool pixels }
    else { u with changed := pixels.length, tiles := tilesOf s.pool pixels } := by
  simp only [scanned, mode, true_and]

theorem scanned_quick (mode : u.mode = .quick) : scanned u s = { u with
    changed := (changedPixels s .quick u.source u.region).length
    tiles := tilesOf s.pool (changedPixels s .quick u.source u.region) } := by
  simp only [scanned, mode, reduceCtorEq, false_and, if_false]

theorem length_changedPixels (mode : Mode) (slot : Nat) (r : Region) : (changedPixels s mode slot r).length =
    (regionPixels r).countP (fun q => decide (panelPixel s q.1 q.2 ≠ targetPixel s mode slot q.1 q.2)) := by
  rw [changedPixels, ← List.countP_eq_length_filter]
  refine List.countP_congr fun q _ => ?_
  simp only [bne_iff_ne, decide_eq_true_eq]

theorem mem_changedPixels {mode : Mode} {slot : Nat} {r : Region} {q : Nat × Nat} : q ∈ changedPixels s mode slot r ↔
    q ∈ regionPixels r ∧ panelPixel s q.1 q.2 ≠ targetPixel s mode slot q.1 q.2 := by
  simp only [changedPixels, List.mem_filter, bne_iff_ne]

/-- Settles O37: FULL, PARTIAL on both sides of the promotion test, QUICK. -/
theorem aScanCountsAndPromotes : Obligations.AScanCountsAndPromotes := by
  intro u s v differs atLimit
  have promotes : (tilesOf s.pool (changedPixels s .partially u.source u.region)).any
      (fun t => decide (u.ghostLimit ≤ s.engine.ghosts.getD t 0)) = true ↔ atLimit := by
    rw [tilesOf_any_iff]
    simp only [mem_changedPixels, and_assoc]
    rfl
  refine ⟨fun full => ?_, fun mode reached => ?_, fun mode below => ?_, fun mode => ?_⟩
  · rw [show v = _ from scanned_full full]
    exact ⟨full, rfl, rfl⟩
  · rw [show v = _ from scanned_partially mode]
    simp only [promotes.mpr reached, if_true, and_self]
  · rw [show v = _ from scanned_partially mode]
    simp only [mt promotes.mp below, mode, length_changedPixels]
    exact ⟨rfl, rfl, rfl⟩
  · rw [show v = _ from scanned_quick mode, length_changedPixels]
    exact ⟨mode, rfl, rfl⟩

/-! ## The end of a scan (R51) -/

theorem updateEstimate_eq (c : ChargeParams) (frames changed : Nat) :
    updateEstimate c frames changed = frames * (c.base + (c.perPixel * changed + 65535) / 65536) := by
  rw [updateEstimate, ceilDiv, Nat.add_sub_assoc (by decide)]

theorem grantsUpdate_iff (c : Charge) (o : Origin) (e : Nat) :
    grantsUpdate c o e = true ↔ o = .shutdownPage ∨ (floorTurn c : Int) ≤ available c - e := by
  simp only [grantsUpdate, Bool.or_eq_true, beq_iff_eq, decide_eq_true_eq]

/-- A reservation placed with no change of level index. -/
theorem placeUpdate_of_same (k : Hooks) {id e : Nat} (free : s.spool.held = false)
    (level : nextLevel { s.charge with updates := s.charge.updates ++ [(id, e)] } = s.charge.level) :
    placeUpdate k id e s = { s with charge := { s.charge with updates := s.charge.updates ++ [(id, e)] } } :=
  evaluate_of_same k (s := onCharge _ s) level free

/-- An active update of the main port ends in ACTIVE with nothing pending; no pass has anything to decide. -/
theorem endActive_of_unpainted {r : UpdateResult} (empty : s.engine.queue = []) (asker : u.requesters = ⟨true, false, false⟩)
    (active : s.platform.state = .active) (unreserved : ∀ r ∈ s.charge.updates, r.1 ≠ u.id) (started : u.phase ≠ .pending)
    (shows : (slotAt u.source s).state = .showing) (last : (slotAt u.source s).showing = 1)
    (kept : (slotAt u.source s).releasePending = false) (done : r ≠ .done) (fault : r ≠ .supplyFault) :
    endActive u r s = considerationPass .full (turnEnded u r { s with
      engine := { s.engine with active := s.engine.active.filter (fun w => w.id != u.id) }
      store := { s.store with slots := s.store.slots.set u.source { slotAt u.source s with state := .ready, showing := 0 } }
      portMain := offerUnit (updateDoneNotice u r (slotAt u.source s).tag) s.portMain }) := by
  refine congrArg (considerationPass .full) ?_
  refine (endUpdate_of_active .full asker (releaseUpdate_of_none .full (s := leaveEngine u.id s) unreserved) active).trans ?_
  refine congrArg (turnEnded u r) ?_
  rw [endedShow, unshown, if_neg started, applyTargets_of_unpainted done fault,
    lowerShowing_of_kept (s := leaveEngine u.id s) shows last kept]
  simp only [leaveEngine, onEngine, empty]
  rfl

/-- A scan that is not FULL in the end was not promoted (R50). -/
theorem scanned_promoted (partly : (scanned u s).mode ≠ .full) : (scanned u s).promoted = u.promoted := by
  cases mode : u.mode with
  | full => exact absurd (by rw [scanned_full mode]; exact mode) partly
  | partially =>
    rw [scanned_partially mode] at partly ⊢
    dsimp only at partly ⊢
    split at partly
    · exact absurd rfl partly
    · next below => rw [if_neg below]
  | quick => rw [scanned_quick mode]

/-- A turn that brought its page, whose slot has had its last update. -/
theorem turnEnded_of_brought {r : UpdateResult} {x : Slot} (lowered : slotAt u.source t = afterLast x) (brought : r = .done ∨ r = .noChange) :
    turnEnded u r t = { t with window := if u.origin = .window then
      { t.window with shown := if x.releasePending = true then none else some u.source } else t.window } := by
  by_cases turns : u.origin = .window
  · rw [turnEnded, if_pos turns, windowUpdateEnded_of_brought brought, if_pos turns, lowered, afterLast]
    by_cases waits : x.releasePending = true
    · simp only [waits, if_true]
      rfl
    · simp only [waits, if_false, reduceCtorEq, or_self]
  · rw [turnEnded, if_neg turns, if_neg turns]

theorem execScanComplete_of_found {id : Nat} (found : s.engine.active.find? (fun w => w.id == id && w.phase == .scanning) = some u) :
    execScanComplete id s = .next (recheckNow (finishScan u s)) := by
  simp only [execScanComplete, found]

theorem grantScan_of_granted (free : s.spool.held = false)
    (granted : u.origin = .shutdownPage ∨ (floorTurn s.charge : Int) ≤ available s.charge - u.estimate)
    (level : nextLevel { s.charge with updates := s.charge.updates ++ [(u.id, u.estimate)] } = s.charge.level) :
    grantScan u s = { s with
      engine := replaceActive { u with phase := .driving, index := 0 } s.engine
      charge := { s.charge with updates := s.charge.updates ++ [(u.id, u.estimate)] } } :=
  (if_pos ((grantsUpdate_iff _ _ _).mpr granted)).trans
    (placeUpdate_of_same .full (s := onEngine (replaceActive { u with phase := .driving, index := 0 }) s) free level)

theorem grantScan_of_refused (own : u.origin ≠ .shutdownPage) (poor : available s.charge - u.estimate < floorTurn s.charge) :
    grantScan u s = endActive u .lowCharge s :=
  if_neg fun granted => ((grantsUpdate_iff _ _ _).mp granted).elim own (not_le.mpr poor)

/-- With nothing pending, what follows an end in ACTIVE adds nothing. -/
theorem settled_of_nil (empty : t.engine.queue = []) (active : t.platform.state = .active) :
    recheckNow (considerationPass .full t) = t := by
  rw [considerationPass_nil .full empty, recheckNow_of_active active]

theorem settled_takenBack {turns : Prop} [Decidable turns] (empty : t.engine.queue = []) (active : t.platform.state = .active) :
    recheckNow (considerationPass .full (if turns then turnTakenBack t else t)) = if turns then turnTakenBack t else t := by
  refine settled_of_nil ?_ ?_ <;> split
  · rw [turnTakenBack_engine active, empty]
  · exact empty
  · rw [turnTakenBack_platform active, active]
  · exact active

/-- Settles O38: the grant, and the two ends of a scan that gets none. -/
theorem aScanIsGrantedOrEndsUnchanged : Obligations.AScanIsGrantedOrEndsUnchanged := by
  intro u s active free found v n e c counted
  have row : exec (.scanComplete u.id) s = .next (recheckNow (finishScan u s)) := execScanComplete_of_found found
  have scans : u.phase = .scanning := by
    have meets := List.find?_some found
    simp only [beq_self_eq_true, Bool.true_and, beq_iff_eq] at meets
    exact meets
  have estimate : estimated v s = { v with frames := n, estimate := e } := by
    rw [estimated, updateEstimate_eq, show v.band = u.band from scanned_band]
  have counts (some_pixel : counted) : finishScan u s = grantScan { v with frames := n, estimate := e } s := by
    rw [← estimate]
    exact if_neg fun unchanged => some_pixel.elim unchanged.1 (fun pixels => pixels unchanged.2)
  refine ⟨fun some_pixel grant level => ?_, ?_⟩
  · rw [row, counts some_pixel, grantScan_of_granted free (by rw [show v.origin = u.origin from scanned_origin]; exact grant)
      (by rw [show v.id = u.id from scanned_id]; exact level), recheckNow_of_active (by exact active)]
    simp only [replaceActive, beq_iff_eq, show v.id = u.id from scanned_id]
    rfl
  · intro empty origin asker unreserved shows last kept ended
    have ends (w : Update) (r : UpdateResult) (done : r ≠ .done) (fault : r ≠ .supplyFault) (same : w.source = u.source)
        (id : w.id = u.id) (ports : w.requesters = u.requesters) (phase : w.phase = u.phase) (clamped : w.clamped = u.clamped)
        (pixels : w.changed = v.changed) :
        endActive w r s = considerationPass .full (turnEnded w r (ended r w.frames w.promoted)) := by
      rw [endActive_of_unpainted empty (ports ▸ asker) active (id ▸ unreserved) (by rw [phase, scans]; decide) (same ▸ shows)
        (same ▸ last) (same ▸ kept) done fault]
      simp only [updateDoneNotice, same, id, clamped, pixels]
      rfl
    have stays : ¬ (slotAt u.source s).releasePending = true := by rw [kept]; decide
    have lowered (r : UpdateResult) (frames : Nat) (promoted : Bool) :
        slotAt u.source (ended r frames promoted) = afterLast (slotAt u.source s) :=
      (slotAt_setSlot_same _ (slot_in_store (by rw [shows]; decide))).trans (if_neg stays).symm
    refine ⟨fun none_counted => ?_, fun some_pixel poor => ?_⟩
    · have partly : v.mode ≠ .full := fun full => none_counted (.inl full)
      have none_changed : v.changed = 0 := not_not.mp fun pixels => none_counted (.inr pixels)
      have finish : finishScan u s = endActive v .noChange s := if_pos ⟨partly, none_changed⟩
      rw [row, finish, ends v .noChange (by decide) (by decide) scanned_source scanned_id scanned_requesters scanned_phase
        scanned_clamped rfl, turnEnded_of_brought (x := slotAt u.source s)
          (by rw [show v.source = u.source from scanned_source]; exact lowered _ _ _) (.inr rfl), settled_of_nil (by exact empty) (by exact active)]
      rw [show v.frames = u.frames from scanned_frames, show v.promoted = u.promoted from scanned_promoted partly,
        show v.origin = u.origin from scanned_origin, show v.source = u.source from scanned_source, if_neg stays]
    · have own : u.origin ≠ .shutdownPage := by rcases origin with o | o <;> rw [o] <;> decide
      rw [row, counts some_pixel, grantScan_of_refused (by rw [show v.origin = u.origin from scanned_origin]; exact own) poor,
        ends { v with frames := n, estimate := e } .lowCharge (by decide) (by decide) scanned_source scanned_id scanned_requesters
          scanned_phase scanned_clamped rfl, turnEnded_of_failed (by decide) (by decide)]
      rw [show v.origin = u.origin from scanned_origin]
      exact congrArg Host.Outcome.next (settled_takenBack (by exact empty) (by exact active))

end Sys2Proof.Machine
end

