-- ==== Sys2Proof/Proofs/Frames.lean ====
section
/-! PROOFS. The frame event: what it drives and how it ends updates (R52 to R56, R60). -/

namespace Sys2Proof.Machine

variable {u : Update} {s : State}

/-! ## The panel image painted (R55) -/

theorem mem_regionPixels {r : Region} {x y : Nat} : (x, y) ∈ regionPixels r ↔
    r.x ≤ x ∧ x < r.x + r.w ∧ r.y ≤ y ∧ y < r.y + r.h := by
  simp only [regionPixels, List.mem_flatMap, List.mem_map, List.mem_range, Prod.mk.injEq]
  constructor
  · rintro ⟨j, below, i, within, rfl, rfl⟩
    omega
  · rintro ⟨left, right, top, bottom⟩
    exact ⟨y - r.y, by omega, x - r.x, by omega, by omega, by omega⟩

/-- Two pixels of an image lie at one place only if they are the same pixel. -/
theorem pixelIndex_inj {width x y x' y' : Nat} (within : x < width) (within' : x' < width)
    (same : y * width + x = y' * width + x') : x = x' ∧ y = y' := by
  have column : x = x' := by
    have := congrArg (· % width) same
    simpa [Nat.mod_eq_of_lt within, Nat.mod_eq_of_lt within'] using this
  subst column
  exact ⟨rfl, Nat.eq_of_mul_eq_mul_right (Nat.zero_lt_of_lt within) (Nat.add_right_cancel same)⟩

section Paint

variable {blocks : List Nat} {width : Nat} {value : Nat → Nat → Pixel}

/-- Pixels stored one after the other, each at its place in the image. -/
def paint (blocks : List Nat) (width : Nat) (value : Nat → Nat → Pixel) (pixels : List (Nat × Nat)) (mem : List Host.Cell) :
    List Host.Cell :=
  pixels.foldl (fun m q => writePixel m blocks (q.2 * width + q.1) (value q.1 q.2)) mem

theorem read_paint_other {address : Nat} : ∀ (pixels : List (Nat × Nat)) (mem : List Host.Cell),
    (∀ q ∈ pixels, address ≠ blockAddress blocks ((q.2 * width + q.1) / 2)) →
    Mem.read (paint blocks width value pixels mem) address = Mem.read mem address
  | [], _, _ => rfl
  | q :: pixels, _, apart =>
    (read_paint_other pixels _ fun q' member => apart q' (List.mem_cons_of_mem q member)).trans
      (read_writePixel_other _ (apart q List.mem_cons_self))

theorem ownerPixel_paint (distinct : blocks.Nodup) {x y : Nat} (column : x < width)
    (inside : y * width + x < 131072 * blocks.length) : ∀ (pixels : List (Nat × Nat)) (mem : List Host.Cell), Mem.wf mem = true →
    (∀ q ∈ pixels, q.1 < width ∧ q.2 * width + q.1 < 131072 * blocks.length) →
    ownerPixel (paint blocks width value pixels mem) blocks (y * width + x) =
      if (x, y) ∈ pixels then value x y else ownerPixel mem blocks (y * width + x)
  | [], _, _, _ => rfl
  | q :: pixels, _, wf, fit => by
    obtain ⟨column', inside'⟩ := fit q List.mem_cons_self
    refine (ownerPixel_paint distinct column inside pixels _ (wf_writePixel blocks _ _ wf)
      (fun q' member => fit q' (List.mem_cons_of_mem q member))).trans ?_
    by_cases first : (x, y) = q
    · subst first
      rw [ownerPixel_writePixel_same blocks _ _ wf, if_pos List.mem_cons_self, ite_self]
    · have apart : y * width + x ≠ q.2 * width + q.1 := fun same =>
        first (Prod.ext_iff.mpr (pixelIndex_inj column column' same))
      rw [ownerPixel_writePixel_other _ wf distinct (half_lt_bytes inside') (half_lt_bytes inside) apart]
      simp only [List.mem_cons, first, false_or]

end Paint

/-- A pixel of an image lies in the image. -/
theorem pixelIndex_lt {width height x y : Nat} (column : x < width) (row : y < height) : y * width + x < width * height := by
  calc y * width + x < y * width + width := Nat.add_lt_add_left column _
    _ = (y + 1) * width := (Nat.succ_mul y width).symm
    _ ≤ height * width := Nat.mul_le_mul_right width row
    _ = width * height := Nat.mul_comm height width

/-! ## Ghost counters (R56) -/

theorem ghostsAfter_done (b : Pool) (limit : Nat) (ghosts : List Nat) : ghostsAfter b limit u .done ghosts =
    ghosts.mapIdx (fun t g => if u.mode = .full then
        if coversTile b u.region t = true then 0 else if touchesTile b u.region t = true then min (g + 1) 63 else g
      else if t ∈ u.tiles then min (g + 1) 63 else g) := by
  cases mode : u.mode <;> simp only [ghostsAfter, mode, reduceCtorEq, if_true, if_false, List.contains_iff_mem]

theorem ghostsAfter_fault (b : Pool) (limit : Nat) (ghosts : List Nat) : ghostsAfter b limit u .supplyFault ghosts =
    ghosts.mapIdx (fun t g => if touchesTile b u.region t = true then limit else g) := rfl

/-! ## Updates that end at a frame -/

/-- The only active update of the main port ends with its targets painted. -/
theorem endWithTag_of_painted {r : UpdateResult} (painted : r = .done ∨ r = .supplyFault) (empty : s.engine.queue = [])
    (only : s.engine.active = [u]) (asker : u.requesters = ⟨true, false, false⟩) (active : s.platform.state = .active)
    (free : s.spool.held = false)
    (level : nextLevel { s.charge with updates := s.charge.updates.filter (fun r => r.1 != u.id) } = s.charge.level)
    (started : u.phase ≠ .pending) (shows : (slotAt u.source s).state = .showing) (last : (slotAt u.source s).showing = 1) :
    endWithTag .full u r s = turnEnded u r { s with
      engine := { s.engine with active := [], ghosts := ghostsAfter s.pool s.engine.ghostLimit u r s.engine.ghosts }
      charge := { s.charge with updates := s.charge.updates.filter (fun r => r.1 != u.id) }
      pool := { s.pool with free :=
        if (slotAt u.source s).releasePending = true then s.pool.free ++ (slotAt u.source s).blocks else s.pool.free }
      store := { s.store with slots := s.store.slots.set u.source (afterLast (slotAt u.source s)) }
      dram := paint s.pool.panel s.pool.width (targetPixel s u.mode u.source) (regionPixels u.region) s.dram
      portMain := offerUnit (updateDoneNotice u r (slotAt u.source s).tag) s.portMain } := by
  refine (endUpdate_of_active .full asker (releaseUpdate_of_same .full (s := leaveEngine u.id s) free level) active).trans ?_
  refine congrArg (turnEnded u r) ?_
  rw [endedShow, unshown, if_neg started, applyTargets, if_pos painted]
  rw [lowerShowing_of_last (i := u.source) (by exact shows) (by exact last)]
  have none_left : [u].filter (fun v => v.id != u.id) = [] := by simp
  simp only [leaveEngine, onEngine, empty, only, none_left]
  rfl

/-- What a frame leaves before any end: the timer restarted, the bus driven, each DRIVING record one frame further. -/
def drivenFrame (s : State) : State :=
  { s with engine := { s.engine with
      frameTimer := some (1000000 / s.engine.frameRate)
      bus := (s.engine.active.filter (fun u => u.phase == .driving)).map (fun u => driveOf u s)
      active := s.engine.active.map (fun u => if u.phase = .driving then { u with index := u.index + 1 } else u) } }

theorem driveFrame_restart : driveFrame (restartFrameTimer s) = drivenFrame s := by
  simp only [driveFrame, onEngine, beq_iff_eq]
  rfl

theorem frameEvent_of_sound (sound : s.monitor.panv.fault = false) : frameEvent s =
    endAll ((drivingUpdates (drivenFrame s).engine).filter (fun u => decide (u.frames ≤ u.index))) .done (drivenFrame s) := by
  rw [← driveFrame_restart]
  exact if_neg (by rw [sound]; decide)

theorem frameEvent_of_fault (fault : s.monitor.panv.fault = true) : frameEvent s =
    endAll (s.engine.active.filter (fun u => u.phase == .driving)) .supplyFault { s with engine := { s.engine with
      frameTimer := some (1000000 / s.engine.frameRate), bus := [] } } := if_pos fault

theorem execFrameEvent_of_running (running : s.engine.frameTimer.isSome = true) :
    execFrameEvent s = .next (recheckNow (frameEvent s)) := by
  rw [execFrameEvent, if_pos running]

theorem endAll_nil (r : UpdateResult) : endAll [] r s = s := rfl

theorem endAll_one (r : UpdateResult) : endAll [u] r s = considerationPass .full (endWithTag .full u r s) := rfl

/-- Settles O39: a frame that ends no update, the last frame of the only one, and a frame with the panel supply in fault. -/
theorem aFrameDrivesAndFinishesUpdates : Obligations.AFrameDrivesAndFinishesUpdates := by
  intro s active running bus timer
  have row : exec .frameEvent s = .next (recheckNow (frameEvent s)) := execFrameEvent_of_running running
  refine ⟨fun sound more => ?_, ?_⟩
  · have none_ends : (drivingUpdates (drivenFrame s).engine).filter (fun u => decide (u.frames ≤ u.index)) = [] := by
      refine List.filter_eq_nil_iff.mpr fun u member => ?_
      obtain ⟨moved, drives⟩ := List.mem_filter.mp member
      obtain ⟨w, held, rfl⟩ := List.mem_map.mp moved
      by_cases phase : w.phase = .driving
      · have := more w held phase
        simp only [phase, if_true, decide_eq_true_eq]
        omega
      · simp [phase] at drives
    rw [row, frameEvent_of_sound sound, none_ends, endAll_nil, recheckNow_of_active (by exact active)]
    rfl
  · intro u only drives empty origin asker free c x level shows last y ended painted used forced
    have all_painted : painted (paint s.pool.panel s.pool.width (targetPixel s u.mode u.source) (regionPixels u.region) s.dram) := by
      refine ⟨fun address apart => read_paint_other _ _ apart, fun wf distinct fits right bottom x y column row => ?_⟩
      have inside {x y : Nat} (column : x < s.pool.width) (row : y < s.pool.height) :
          y * s.pool.width + x < 131072 * s.pool.panel.length := (pixelIndex_lt column row).trans_le fits
      refine (ownerPixel_paint distinct column (inside column row) _ _ wf fun q member => ?_).trans ?_
      · obtain ⟨_, within, _, above⟩ := mem_regionPixels.mp member
        exact ⟨by omega, inside (by omega) (by omega)⟩
      · simp only [mem_regionPixels]
        rfl
    have lowered (r : UpdateResult) (bus : List BusDrive) (ghost : Nat → Nat → Nat) (dram : List Host.Cell) :
        slotAt u.source (ended r bus ghost dram) = afterLast x :=
      slotAt_setSlot_same _ (slot_in_store (by rw [show (slotAt u.source s).state = _ from shows]; decide))
    refine ⟨fun sound final => ⟨_, all_painted, ?_⟩, fun fault => ⟨_, all_painted, ?_⟩⟩
    · have ends : (drivingUpdates (drivenFrame s).engine).filter (fun u => decide (u.frames ≤ u.index)) =
          [{ u with index := u.index + 1 }] := by
        simp [drivingUpdates, drivenFrame, only, drives, final]
      have moved : (drivenFrame s).engine.active = [{ u with index := u.index + 1 }] := by simp [drivenFrame, only, drives]
      have finish : endWithTag .full { u with index := u.index + 1 } .done (drivenFrame s) =
          turnEnded { u with index := u.index + 1 } .done (ended .done bus used
            (paint s.pool.panel s.pool.width (targetPixel s u.mode u.source) (regionPixels u.region) s.dram)) := by
        refine (endWithTag_of_painted (s := drivenFrame s) (.inl rfl) empty moved asker active free
          level (by rw [drives]; decide) shows last).trans ?_
        rw [ghostsAfter_done]
        rfl
      rw [row, frameEvent_of_sound sound, ends, endAll_one, finish,
        turnEnded_of_brought (u := { u with index := u.index + 1 }) (lowered _ _ _ _) (.inl rfl),
        settled_of_nil (by exact empty) (by exact active)]
    · have ends : s.engine.active.filter (fun u => u.phase == .driving) = [u] := by simp [only, drives]
      have finish : endWithTag .full u .supplyFault { s with engine := { s.engine with frameTimer := timer, bus := [] } } =
          turnEnded u .supplyFault (ended .supplyFault [] forced
            (paint s.pool.panel s.pool.width (targetPixel s u.mode u.source) (regionPixels u.region) s.dram)) :=
        endWithTag_of_painted (s := { s with engine := { s.engine with frameTimer := timer, bus := [] } }) (.inr rfl) empty only asker
          active free level (by rw [drives]; decide) shows last
      rw [row, frameEvent_of_fault fault, ends, endAll_one, finish, turnEnded_of_failed (by decide) (by decide)]
      exact congrArg Host.Outcome.next (settled_takenBack (by exact empty) (by exact active))

end Sys2Proof.Machine
end

