-- ==== Sys2Proof/Proofs/Halting.lean ====
section
/-! PROOFS. Entry to HALTING from ACTIVE (R162, R163). -/

namespace Sys2Proof.Machine

variable {c : HaltCause} {k : ReqKind} {m : Msg} {s t : State}

/-- The platform record that the steps of HALTING entry start from. -/
def haltPlatform (c : HaltCause) (f : Platform) : Platform :=
  { f with state := .halting, haltCause := some c, sleepPending := none, pageSubmitted := false, pageDecided := false,
           idleTimer := none, onward := none }

/-- A port unit that the platform has reset (R184, R185). -/
def resetPort (u : PortUnit) : PortUnit :=
  { u with transfer := .idle, waiting := [], inProcess := u.inProcess.map (fun q => { q with condemned := true }), queue := [],
           headStarted := false, errors := .empty }

/-- A waveform table whose scrub is suspended where it is VALID (R75). -/
def suspendedWave (w : WaveTable) : WaveTable :=
  if w.state = .valid then { w with scrub := .suspended, scrubTimer := none, pass := none } else w

/-- What HALTING entry from ACTIVE leaves, from the state in which the pending updates are CANCELLED. -/
def afterHalting (c : HaltCause) (t : State) : State :=
  { t with
    platform := { t.platform with alarms := t.platform.alarms.map (fun _ => none), radioSetting := false }
    wave := suspendedWave t.wave
    spool := { t.spool with bare := none }
    portStandby := offerUnit (.stateChanged .halting .active c.cause t.platform.clock) t.portStandby
    portRadio := resetPort t.portRadio }

theorem resetRadioPort_of_none (h : Hooks) (none_open : s.spool.assembly = none) :
    resetRadioPort h .idle s = { s with spool := { s.spool with bare := none }, portRadio := resetPort s.portRadio } := by
  rw [resetRadioPort, dropAssembly_of_none _ _ _ none_open]
  rfl

theorem suspendScrub_eq : suspendScrub s = { s with wave := suspendedWave s.wave } := rfl

/-- HALTING entry from ACTIVE with no assembly open, once the pending updates are gone. -/
theorem haltingEntry_of_active (active : s.platform.state = .active)
    (cancelled : cancelPending .quiet { s with platform := haltPlatform c s.platform } = t) (none_open : t.spool.assembly = none)
    (empty : t.engine.queue = []) : haltingEntry c s = afterHalting c t := by
  have start : onPlatform (fun f => { haltPlatform c f with
      powerUp := if s.platform.state = .sleep then some ⟨.halt, (f.powerUp.map (·.left)).getD Config.powerUpMs⟩ else f.powerUp }) s =
      { s with platform := haltPlatform c s.platform } := by
    rw [active]
    rfl
  have entry : ¬ (s.platform.state = .halting ∨ s.platform.state = .off) := by rw [active]; decide
  have awake : ¬ s.platform.state = .sleep := by rw [active]; decide
  simp only [haltingEntry]
  rw [if_neg entry, if_neg awake]
  refine Eq.trans (congrArg (fun e => considerationPass .quiet (reportState .halting s.platform.state c.cause (suspendScrub
    (resetRadioPort .quiet .idle (onPlatform (fun f => { f with alarms := f.alarms.map (fun _ => none), radioSetting := false })
      (dropAssembly .quiet .abandoned false (cancelPending .quiet e))))))) start) ?_
  rw [cancelled, dropAssembly_of_none _ _ _ none_open, resetRadioPort_of_none _ (by exact none_open), suspendScrub_eq,
    considerationPass_nil .quiet (by exact empty), active]
  exact offerTo_standby _ _

/-- With an update still active, HALTING neither decides its page nor goes OFF. -/
theorem haltCheck_of_busy (busy : s.engine.active ≠ []) : haltCheck s = s := by
  have running : s.engine.active.isEmpty = false := by simpa [List.isEmpty_eq_false_iff] using busy
  have page : pageCheck s = s := if_neg fun due => by simp [running] at due
  have stays : canGoOff s = false := by simp [canGoOff, engineIdle, running]
  simp only [haltCheck, page, stays, Bool.false_eq_true, if_false]

theorem haltNow_of_active (active : s.platform.state = .active)
    (cancelled : cancelPending .quiet { s with platform := haltPlatform c s.platform } = t) (none_open : t.spool.assembly = none)
    (empty : t.engine.queue = []) (busy : t.engine.active ≠ []) : haltNow c s = afterHalting c t := by
  have entry : ¬ (s.platform.state = .halting ∨ s.platform.state = .off) := by rw [active]; decide
  rw [haltNow, if_neg entry, haltingEntry_of_active active cancelled none_open empty]
  exact haltCheck_of_busy busy

/-- The same with nothing pending. -/
theorem haltNow_of_none_pending (active : s.platform.state = .active) (empty : s.engine.queue = []) (busy : s.engine.active ≠ [])
    (none_open : s.spool.assembly = none) : haltNow c s = afterHalting c { s with platform := haltPlatform c s.platform } :=
  haltNow_of_active active (by rw [cancelPending, show State.engine _ = s.engine from rfl, empty]; rfl) none_open empty busy

theorem haltRequest_of_active {p : Port} (active : s.platform.state = .active) :
    haltRequest p c s = haltNow c (respond p .ok [] s) :=
  if_neg (by rw [active]; decide)

/-- Settles O54: three causes, one entry. -/
theorem haltCausesEnterHalting : Obligations.HaltCausesEnterHalting := by
  intro m s active empty busy none_open halted f
  have request {k : ReqKind} (c : HaltCause) (takes : MainTakes k m readNothing () s) :
      takeRequest .main k m readNothing (fun _ t => haltRequest .main c t) s = halted f (mainAnswered k .ok [] s) c c.cause := by
    rw [takeRequest_main (fun _ t => haltRequest .main c t) takes, haltRequest_of_active takes.taken_active,
      respond_mainTaken _ _ takes.ready]
    exact haltNow_of_none_pending (s := mainAnswered k .ok [] s) active empty busy none_open
  refine ⟨fun takes => congrArg _ (request .powerOff takes), fun takes => congrArg _ (request .restart takes), fun pressed => ?_⟩
  refine congrArg _ ((if_pos pressed).trans ?_)
  exact haltNow_of_none_pending (s := { s with platform := { s.platform with key := .consumed, holdTimer := none } }) active empty busy
    none_open

end Sys2Proof.Machine
end

