-- ==== Sys2Proof/Proofs/Shows.lean ====
section
/-! PROOFS. SHOW, ABORT, and the ends of pending updates (R41 to R48, R57 to R61). -/

namespace Sys2Proof.Machine

variable {k : ReqKind} {m : Msg} {u : Update} {s t : State}

/-! ## One pending update -/

theorem only_leaves (u : Update) : [u].filter (fun v => v.id != u.id) = [] := by simp

/-- Records with other ids stay. -/
theorem others_stay {id : Nat} {l : List Update} (apart : ∀ v ∈ l, v.id ≠ id) : l.filter (fun v => v.id != id) = l :=
  List.filter_eq_self.mpr fun v member => by simpa using apart v member

theorem considerationPass_one (h : Hooks) (only : s.engine.queue = [u]) : considerationPass h s = decideEntry h u s := by
  simp only [considerationPass, only, List.map_cons, List.map_nil, List.foldl_cons, List.foldl_nil, considerEntry, List.find?_cons,
    beq_self_eq_true]

theorem decideEntry_of_no_table (h : Hooks) (gone : s.wave.state = .absent ∨ s.wave.state = .faulty) :
    decideEntry h u s = endWithTag h u .noWaveform s := by
  rcases gone with w | w <;> simp only [decideEntry, w]

theorem decideEntry_of_start (h : Hooks) (valid : s.wave.state = .valid) (sound : s.monitor.panv.fault = false)
    (can : canStart u s = true) : decideEntry h u s = startScan u s := by
  simp only [decideEntry, valid, sound, Bool.false_eq_true, and_false, if_false, can, if_true]

/-- A single pending entry with free lanes meets the start rule where its source is READY and the platform lets it (R46). -/
theorem canStart_of_alone (only : s.engine.queue = [u]) (idle : s.engine.active = []) (valid : s.wave.state = .valid)
    (sound : s.monitor.panv.fault = false) (ready : (slotAt u.source s).state = .ready)
    (lets : platformLets s.platform u.origin = true) : canStart u s = true := by
  simp [canStart, sourceReady, ready, idle, olderThan, only, valid, sound, lets, Config.laneCount]

theorem raiseShowing_of_ready {i : Nat} (ready : (slotAt i s).state = .ready) :
    raiseShowing i s = setSlot i { slotAt i s with state := .showing, showing := (slotAt i s).showing + 1 } s := by
  simp only [raiseShowing, ready, if_true]

/-- The record of a scan that starts now (R48, R63). -/
def scanning (u : Update) (s : State) : Update :=
  { u with phase := .scanning, band := some (bandNow s).1, clamped := (bandNow s).2, ghostLimit := s.engine.ghostLimit }

/-- The scan of the only pending entry starts from a READY slot (R17, R48). -/
theorem startScan_of_alone (only : s.engine.queue = [u]) (idle : s.engine.active = []) (ready : (slotAt u.source s).state = .ready)
    (room : s.store.useCounter < Config.max32) : startScan u s = { s with
      engine := { s.engine with queue := [], active := [scanning u s] }
      store := { s.store with
        slots := s.store.slots.set u.source { slotAt u.source s with
          state := .showing, showing := (slotAt u.source s).showing + 1, stamp := some s.store.useCounter }
        useCounter := s.store.useCounter + 1 } } := by
  have known : u.source < s.store.slots.length := slot_in_store (by rw [ready]; decide)
  simp only [startScan, onEngine, only, idle, only_leaves, List.nil_append]
  rw [raiseShowing_of_ready (by exact ready)]
  exact takeStamp_setSlot known room

theorem considerationPass_starts (h : Hooks) (only : s.engine.queue = [u]) (idle : s.engine.active = [])
    (valid : s.wave.state = .valid) (sound : s.monitor.panv.fault = false) (ready : (slotAt u.source s).state = .ready)
    (lets : platformLets s.platform u.origin = true) (room : s.store.useCounter < Config.max32) : considerationPass h s = { s with
      engine := { s.engine with queue := [], active := [scanning u s] }
      store := { s.store with
        slots := s.store.slots.set u.source { slotAt u.source s with
          state := .showing, showing := (slotAt u.source s).showing + 1, stamp := some s.store.useCounter }
        useCounter := s.store.useCounter + 1 } } := by
  rw [considerationPass_one h only, decideEntry_of_start h valid sound (canStart_of_alone only idle valid sound ready lets),
    startScan_of_alone only idle ready room]

/-- A pending record of the main port ends in ACTIVE: it leaves the engine and its port is told. -/
theorem endUpdate_of_pending (h : Hooks) {r : UpdateResult} {tag : Word32} (pending : u.phase = .pending)
    (asker : u.requesters = ⟨true, false, false⟩) (active : s.platform.state = .active)
    (unreserved : ∀ e ∈ s.charge.updates, e.1 ≠ u.id) (done : r ≠ .done) (fault : r ≠ .supplyFault) :
    endUpdate h u r tag s =
      turnEnded u r { leaveEngine u.id s with portMain := offerUnit (updateDoneNotice u r tag) s.portMain } := by
  rw [endUpdate_of_active h asker (releaseUpdate_of_none h (s := leaveEngine u.id s) unreserved) active,
    endedShow_of_pending pending done fault]
  rfl

theorem turnEnded_of_show {r : UpdateResult} (show_ : u.origin ≠ .window) : turnEnded u r t = t := if_neg show_

/-- The only pending record leaves an engine whose active records have other ids. -/
theorem leaveEngine_of_only (only : s.engine.queue = [u]) (apart : ∀ v ∈ s.engine.active, v.id ≠ u.id) :
    leaveEngine u.id s = { s with engine := { s.engine with queue := [] } } := by
  simp only [leaveEngine, onEngine, only, only_leaves, others_stay apart]
  rfl

/-! ## SHOW (R42) -/

section Show

variable {p : Port} {a : ShowArgs} {mode : Mode}

theorem isEmptyRegion_iff (r : Region) : isEmptyRegion r = true ↔ r.w = 0 ∨ r.h = 0 := by
  simp only [isEmptyRegion, Bool.or_eq_true, beq_iff_eq]

theorem showable_iff (x : Slot) : showable x = true ↔ x.state ≠ .empty ∧ ¬ (x.state = .showing ∧ x.releasePending = true) := by
  simp [showable, imp_iff_not_or]

/-- What a SHOW is decided by once slot, mode and region are good. -/
theorem showPage_of_good (named : a.slot < 24) (known : modeOf a.mode = some mode)
    (some_pixel : ¬ isEmptyRegion (showRegion s.pool a.region) = true) (on : s.platform.state ≠ .halting) :
    showPage p a s =
      if showable (slotAt a.slot s) = false then refuse p .notReady s
      else if queueHasRoom s.engine = false then refuse p .queueFull s
      else considerationPass .full (respond p .queued (encU16 (newId s.engine))
        (submit .main (onlyPort p) a.slot (showRegion s.pool a.region) mode s)) := by
  have slot : ¬ Config.slotCount ≤ a.slot := Nat.not_le.mpr named
  simp only [showPage, slot, if_false, known, some_pixel, on, Bool.false_eq_true]

theorem showPage_of_bad (bad : 24 ≤ a.slot ∨ modeOf a.mode = none ∨ isEmptyRegion (showRegion s.pool a.region) = true) :
    showPage p a s = refuse p .badValue s := by
  simp only [showPage]
  split
  · rfl
  · next named =>
    cases known : modeOf a.mode with
    | none => rfl
    | some mode =>
      have empty : isEmptyRegion (showRegion s.pool a.region) = true := by
        rcases bad with slot | code | empty
        · exact absurd slot named
        · rw [known] at code; cases code
        · exact empty
      simp only [empty, if_true]

end Show

/-! ## ABORT (R58) -/

theorem abort_of_pending {p : Port} {id : Nat} (live : liveRecord id s.engine = some u) (pending : u.phase = .pending) :
    abort p id s = endWithTag .full u .aborted (respond p .ok [] s) := by
  simp only [abort, live, pending]

theorem abort_of_driving {p : Port} {id : Nat} (live : liveRecord id s.engine = some u) (drives : u.phase = .driving) :
    abort p id s = refuse p .busy s := by
  simp only [abort, live, drives]

theorem abort_of_unknown {p : Port} {id : Nat} (unknown : liveRecord id s.engine = none) : abort p id s = refuse p .badValue s := by
  simp only [abort, unknown]

/-- A SHOW answered QUEUED, before its pass. -/
def queuedShow (u : Update) (s : State) : State :=
  { mainAnswered .showPage .queued (encU16 u.id) s with
    engine := { s.engine with queue := s.engine.queue ++ [u], nextId := if 65535 ≤ u.id then 1 else u.id + 1 } }

theorem find_none_of_unknown {id : Nat} (unknown : ∀ v ∈ s.engine.queue ++ s.engine.active, v.id ≠ id) :
    liveRecord id s.engine = none :=
  List.find?_eq_none.mpr fun v member => by simpa using unknown v member

theorem not_live_active {id : Nat} {e : Engine} (new : id ∉ liveIds e) : ∀ v ∈ e.active, v.id ≠ id := fun v member same =>
  new (List.mem_append_right _ (List.mem_map.mpr ⟨v, member, same⟩))

theorem sourceGone_of_only (h : Hooks) {i : Nat} {tag : Word32} (only : s.engine.queue = [u]) (source : u.source = i) :
    sourceGone h i tag s = endUpdate h u .sourceGone tag s := by
  simp only [sourceGone, only, List.filter_cons, source, beq_self_eq_true, if_true, List.filter_nil, List.foldl_cons, List.foldl_nil]

/-- The release of the source of the only pending record ends it SOURCE_GONE before the answer (R29, R59). -/
theorem releaseSlot_of_source {i : Nat} (active : s.platform.state = .active) (out : s.window.entries.contains i = false)
    (only : s.engine.queue = [u]) (source : u.source = i) (pending : u.phase = .pending) (asker : u.requesters = ⟨true, false, false⟩)
    (apart : ∀ v ∈ s.engine.active, v.id ≠ u.id) (unreserved : ∀ e ∈ s.charge.updates, e.1 ≠ u.id) :
    releaseSlot i (emptySlot i) s = turnEnded u .sourceGone { s with
      pool := { s.pool with free := s.pool.free ++ (slotAt i s).blocks }
      store := { s.store with slots := s.store.slots.set i Slot.reset }
      window := { s.window with shown := if s.window.shown = some i then none else s.window.shown }
      engine := { s.engine with queue := [] }
      portMain := offerUnit (updateDoneNotice u .sourceGone (slotAt i s).tag) s.portMain } := by
  rw [releaseSlot, windowRelease_of_outside out, sourceGone_of_only .full (by exact only) source, endUpdate_of_pending .full pending asker (by exact active) (by exact unreserved)
    (by decide) (by decide), leaveEngine_of_only (by exact only) (by exact apart)]
  rfl

/-- PAGE_RELEASE of a READY slot without a role. -/
theorem pageRelease_of_ready {p : Port} {i : Nat} (named : i < 24) (ready : (slotAt i s).state = .ready)
    (free : hasRole (slotAt i s) = false) : pageRelease p i s = respond p .ok [] (releaseSlot i (emptySlot i) s) := by
  have slot : ¬ Config.slotCount ≤ i := Nat.not_le.mpr named
  simp only [pageRelease, slot, if_false, ready, free, reduceCtorEq, Bool.false_eq_true]

/-- HALTING entry cancels the only pending SHOW (R61). -/
theorem cancelPending_of_only (h : Hooks) (only : s.engine.queue = [u]) (pending : u.phase = .pending)
    (asker : u.requesters = ⟨true, false, false⟩) (show_ : u.origin = .main) (halting : s.platform.state = .halting)
    (apart : ∀ v ∈ s.engine.active, v.id ≠ u.id) (unreserved : ∀ e ∈ s.charge.updates, e.1 ≠ u.id) :
    cancelPending h s = { s with
      engine := { s.engine with queue := [] }
      portMain := offerUnit (updateDoneNotice u .cancelled (slotAt u.source s).tag) s.portMain } := by
  rw [cancelPending, only, List.foldl_cons, List.foldl_nil, endWithTag,
    endUpdate_of_show h asker (by rw [show_]; decide) (releaseUpdate_of_none h (s := leaveEngine u.id s) unreserved)
      (by exact halting ▸ by decide) (by exact halting ▸ by decide),
    endedShow_of_pending pending (by decide) (by decide), leaveEngine_of_only only apart]

/-- Settles O36: each request to its answer, each pending update to its end. -/
theorem showSubmitsAndAbortEnds : Obligations.ShowSubmitsAndAbortEnds := by
  refine ⟨?_, ?_, ?_⟩
  · intro m a mode s takes x id r usable u next
    have region : showRegion s.pool a.region = r := by
      cases named : a.region with
      | none => simp only [r, named]; rfl
      | some q =>
        simp only [r, named, showRegion, normalise, ceilDiv]
        rfl
    have row (t : State) (decides : showPage .main a (mainTaken .showPage m s) = t) (active : t.platform.state = .active) :
        exec (.showPage .main m) s = .next t := congrArg _ (takeRequest_rechecked (owner := showPage .main) takes decides active)
    have good {mode : Mode} (named : a.slot < 24) (known : modeOf a.mode = some mode) (wide : r.w ≠ 0) (high : r.h ≠ 0) :=
      showPage_of_good (p := .main) (s := mainTaken .showPage m s) named known
        (by rw [isEmptyRegion_iff, show showRegion (mainTaken .showPage m s).pool a.region = r from region]
            exact fun empty => empty.elim wide high) (by rw [takes.taken_active]; decide)
    have submits (named : a.slot < 24) (known : modeOf a.mode = some mode) (wide : r.w ≠ 0) (high : r.h ≠ 0) (can : usable)
        (room : s.engine.queue.length < 8) (new : id ∉ liveIds s.engine) :
        showPage .main a (mainTaken .showPage m s) = considerationPass .full (queuedShow u s) := by
      have given : newId s.engine = id := newId_of_fresh new
      rw [good named known wide high, show showable (slotAt a.slot (mainTaken .showPage m s)) = true from (showable_iff x).mpr can,
        if_neg (by decide), show queueHasRoom (mainTaken .showPage m s).engine = true from decide_eq_true room, if_neg (by decide),
        show newId (mainTaken .showPage m s).engine = id from given,
        show showRegion (mainTaken .showPage m s).pool a.region = r from region, submit_of_newId (by exact given),
        respond_taken takes.ready .queued _ rfl]
      rfl
    refine ⟨fun named known wide high can room new loading => ?_,
      fun named known wide high ready empty idle valid sound room => ?_,
      fun named known wide high can empty new gone unreserved => ?_, fun named known wide high can full => ?_,
      fun named known wide high cannot => ?_, fun bad => ?_⟩
    · exact row _ ((submits named known wide high can room new).trans (considerationPass_loading .full (by exact loading)))
        (by exact takes.active)
    · have new : id ∉ liveIds s.engine := by simp [liveIds, empty, idle]
      have can : usable := by
        constructor
        · rw [ready]; decide
        · rw [ready]; exact fun shows => by cases shows.1
      have only : (queuedShow u s).engine.queue = [u] := by simp [queuedShow, empty]
      have lets : platformLets (queuedShow u s).platform u.origin = true := by
        simp only [platformLets, show (queuedShow u s).platform.state = .active from takes.active]
      refine row _ ((submits named known wide high can (by rw [empty]; decide) new).trans ((considerationPass_starts .full only
        (by exact idle) (by exact valid) (by exact sound) (by exact ready) lets (by exact room)).trans ?_)) (by exact takes.active)
      simp only [queuedShow, empty]
      rfl
    · have only : (queuedShow u s).engine.queue = [u] := by simp [queuedShow, empty]
      refine row _ ((submits named known wide high can (by rw [empty]; decide) new).trans ?_) (by exact takes.active)
      rw [considerationPass_one .full only, decideEntry_of_no_table .full (by exact gone), endWithTag,
        endUpdate_of_pending .full rfl rfl (by exact takes.active) (by exact unreserved) (by decide) (by decide),
        leaveEngine_of_only only (by exact not_live_active (e := s.engine) new),
        turnEnded_of_show (by exact fun turns => Origin.noConfusion turns)]
      simp only [queuedShow, empty]
      rfl
    · obtain ⟨mode, known⟩ := Option.isSome_iff_exists.mp known
      refine row _ ?_ (by exact takes.active)
      rw [good named known wide high, show showable (slotAt a.slot (mainTaken .showPage m s)) = true from (showable_iff x).mpr can,
        if_neg (by decide), show queueHasRoom (mainTaken .showPage m s).engine = false from decide_eq_false (Nat.not_lt.mpr full),
        if_pos rfl, refuse_mainTaken _ takes.ready]
    · obtain ⟨mode, known⟩ := Option.isSome_iff_exists.mp known
      refine row _ ?_ (by exact takes.active)
      rw [good named known wide high,
        show showable (slotAt a.slot (mainTaken .showPage m s)) = false from Bool.eq_false_iff.mpr (mt (showable_iff x).mp cannot),
        if_pos rfl, refuse_mainTaken _ takes.ready]
    · refine row _ ?_ (by exact takes.active)
      refine (showPage_of_bad (s := mainTaken .showPage m s) ?_).trans (refuse_mainTaken _ takes.ready)
      rw [isEmptyRegion_iff, show showRegion (mainTaken .showPage m s).pool a.region = r from region]
      exact bad
  · intro m id u s takes t
    have row (t : State) (decides : abort .main id (mainTaken .abort m s) = t) (active : t.platform.state = .active) :
        exec (.abort .main m) s = .next t := congrArg _ (takeRequest_rechecked (owner := abort .main) takes decides active)
    refine ⟨fun live pending show_ asker unreserved => ?_, fun live drives => ?_, fun unknown => ?_⟩
    · have same : u.id = id := by simpa using List.find?_some live
      refine row _ ?_ (by exact takes.active)
      rw [abort_of_pending (by exact live) pending, respond_mainTaken _ _ takes.ready, endWithTag,
        endUpdate_of_pending .full pending asker (by exact takes.active) (by exact unreserved) (by decide) (by decide),
        turnEnded_of_show (by rw [show_]; decide), updateDoneNotice, same]
      rfl
    · exact row _ ((abort_of_driving (by exact live) drives).trans (refuse_mainTaken _ takes.ready)) (by exact takes.active)
    · exact row _ ((abort_of_unknown (find_none_of_unknown (s := mainTaken .abort m s) unknown)).trans
        (refuse_mainTaken _ takes.ready)) (by exact takes.active)
  · intro m u s only pending asker apart unreserved done
    refine ⟨fun i takes named out source origin ready sleepless shutdownless => ?_, fun takes show_ busy none_open => ?_⟩
    · intro t gone
      have free : hasRole (slotAt i s) = false := by rw [hasRole, sleepless, shutdownless]; rfl
      have decides : pageRelease .main i (mainTaken .pageRelease m s) =
          respond .main .ok [] (if u.origin = .window then turnTakenBack gone else gone) := by
        rw [pageRelease_of_ready named (by exact ready) (by exact free),
          releaseSlot_of_source takes.taken_active out only source pending asker apart unreserved,
          turnEnded_of_failed (by decide) (by decide)]
        rfl
      refine congrArg _ (takeRequest_rechecked (owner := pageRelease .main) takes decides ?_)
      rw [respond_platform]
      split
      · rw [turnTakenBack_platform (by exact takes.active)]
        exact takes.active
      · exact takes.active
    · intro t
      refine congrArg Host.Outcome.next ?_
      rw [takeRequest_main (fun _ t => haltRequest .main .powerOff t) takes, haltRequest_of_active takes.taken_active,
        respond_mainTaken _ _ takes.ready]
      exact haltNow_of_active (s := t) takes.active (cancelPending_of_only .quiet only pending asker show_ rfl apart unreserved)
        none_open rfl busy

end Sys2Proof.Machine
end

