-- ==== Sys2Proof/Proofs/KeyAndAlarms.lean ====
section
/-! PROOFS. The power key, the radio supply, the clock and the alarms (R168 to R172). -/

namespace Sys2Proof.Machine

variable {k : ReqKind} {m : Msg} {s t : State}

/-! ## The key and the radio supply (R168, R169) -/

theorem shortPress_of_active (active : s.platform.state = .active) :
    shortPress s = { s with portMain := offerUnit .key s.portMain } := by
  simp only [shortPress, active]
  exact offerMain_plain (by rw [active]; decide)

/-- A short press in DOZE brings ACTIVE first. -/
theorem shortPress_of_doze (doze : s.platform.state = .doze) : shortPress s = { s with
    platform := { s.platform with
      state := .active, sleepPending := none, pageSubmitted := false, idleTimer := none, wakeMain := true }
    portMain := offerUnit .key s.portMain
    portStandby := offerUnit (.stateChanged .active .doze .key s.platform.clock) s.portStandby } := by
  have raised : enterActive true .key s = { s with
      platform := { s.platform with
        state := .active, sleepPending := none, pageSubmitted := false, idleTimer := none, wakeMain := true }
      portStandby := offerUnit (.stateChanged .active .doze .key s.platform.clock) s.portStandby } := by
    simp only [enterActive, onPlatform, reportState, offerTo_standby, Bool.or_true]
    rfl
  simp only [shortPress, doze, raised]
  exact offerMain_plain (by exact fun off => PlatformState.noConfusion off)

theorem execKeyRelease_of_pressed (pressed : s.platform.key = .pressed) :
    execKeyRelease s = .next (recheckNow (shortPress (releaseKey s))) := by
  simp only [execKeyRelease, pressed]

theorem execKeyRelease_of_consumed (consumed : s.platform.key = .consumed) : execKeyRelease s = .next (releaseKey s) := by
  simp only [execKeyRelease, consumed]

section Radio

variable {other code : Nat}

/-- A RADIO_POWER of this row, taken in ACTIVE. -/
theorem radioRow_takes (takes : MainTakes .radioPower m readOne code s) (own : code ≠ other)
    (decides : radioPower .main code (mainTaken .radioPower m s) = t) (active : t.platform.state = .active) :
    radioRow .main other m s = t := by
  rw [radioRow, takes.fields, if_neg fun same => own (Option.some.inj same)]
  exact takeRequest_rechecked (owner := radioPower .main) takes decides active

theorem radioPower_of_on {p : Port} (active : s.platform.state = .active) :
    radioPower p 1 s = respond p .ok [] (onPlatform (fun f => { f with radioSetting := true }) s) := by
  simp only [radioPower, radioOnCode, Nat.lt_irrefl, if_false, active, ne_eq, not_true_eq_false, if_true]

theorem radioPower_of_off {p : Port} (active : s.platform.state = .active) (on : s.platform.radioSetting = true) :
    radioPower p 0 s = respond p .ok [] (radioOff s) := by
  simp [radioPower, radioOnCode, active, on]

theorem radioPower_of_off_already {p : Port} (active : s.platform.state = .active) (off : s.platform.radioSetting = false) :
    radioPower p 0 s = respond p .ok [] s := by
  simp [radioPower, radioOnCode, active, off]

theorem radioPower_of_unknown {p : Port} (unknown : 2 ≤ code) : radioPower p code s = refuse p .badValue s := if_pos unknown

end Radio

/-- Settles O59: the key by its state, RADIO_POWER by its code. -/
theorem keyAndRadioPower : Obligations.KeyAndRadioPower := by
  intro m s f released
  refine ⟨fun up => congrArg _ (if_pos up), fun pressed active => ?_, fun pressed doze => ?_,
    fun consumed => execKeyRelease_of_consumed consumed, fun takes => congrArg Host.Outcome.next ?_,
    fun takes on none_open => congrArg Host.Outcome.next ?_, fun takes off => congrArg Host.Outcome.next ?_, fun code unknown takes => congrArg Host.Outcome.next ?_⟩
  · refine (execKeyRelease_of_pressed pressed).trans ?_
    rw [shortPress_of_active (by exact active), recheckNow_of_active (by exact active)]
    rfl
  · refine (execKeyRelease_of_pressed pressed).trans ?_
    rw [shortPress_of_doze (by exact doze), recheckNow_of_active rfl]
    rfl
  · refine radioRow_takes takes (by decide) ?_ (by exact takes.active)
    rw [radioPower_of_on takes.taken_active, respond_taken takes.ready _ _ rfl]
    rfl
  · refine radioRow_takes takes (by decide) ?_ (by exact takes.active)
    rw [radioPower_of_off takes.taken_active on, radioOff, resetRadioPort_of_none _ (by exact none_open),
      respond_taken takes.ready _ _ rfl]
    rfl
  · refine radioRow_takes takes (by decide) ?_ (by exact takes.active)
    rw [radioPower_of_off_already takes.taken_active off, respond_mainTaken _ _ takes.ready]
  · refine radioRow_takes takes (by unfold radioOffCode; omega) ?_ (by exact takes.active)
    rw [radioPower_of_unknown unknown, refuse_mainTaken _ takes.ready]

/-! ## Alarms (R170 to R172) -/

/-- No alarm is due: no slot expires. -/
theorem expireIf_of_none {due : Nat → Bool} {i : Nat} (none_due : ∀ a, some a ∈ s.platform.alarms → due a.time = false) :
    expireIf due i s = s := by
  unfold expireIf
  cases held : alarmAt i s with
  | none => rfl
  | some a =>
    have member : some a ∈ s.platform.alarms := by
      rw [alarmAt, List.getD_eq_getElem?_getD] at held
      cases found : s.platform.alarms[i]? with
      | none => rw [found] at held; cases held
      | some b =>
        rw [found, Option.getD_some] at held
        exact held ▸ List.mem_of_getElem? found
    simp only [none_due a member, Bool.false_eq_true, if_false]

theorem expireAll_of_none {due : Nat → Bool} (none_due : ∀ a, some a ∈ s.platform.alarms → due a.time = false) :
    expireAll due s = s := by
  simp only [expireAll, expireIf_of_none none_due]

/-- The state after an alarm's expiry in ACTIVE (R172). -/
def alarmed (i : Nat) (a : Alarm) (s : State) : State :=
  let e := { s.platform with alarms := s.platform.alarms.set i none }
  match a.action with
  | .wakeMain => { s with platform := e, portMain := offerUnit (.alarm i a.action a.time) s.portMain }
  | .radioOn => { s with platform := { e with radioSetting := true }, portRadio := offerUnit (.alarm i a.action a.time) s.portRadio }
  | .notifyStandby => { s with platform := e, portStandby := offerUnit (.alarm i a.action a.time) s.portStandby }

theorem expireAlarm_of_active {i : Nat} {a : Alarm} (active : s.platform.state = .active) (held : alarmAt i s = some a) :
    expireAlarm i s = alarmed i a s := by
  have active' : (setAlarm i none s).platform.state = .active := active
  simp only [expireAlarm, held, alarmAction, alarmed]
  cases action : a.action with
  | wakeMain => simp only [active']; exact offerMain_plain (by rw [active']; decide)
  | radioOn => simp only [active', offerTo_radio]; rfl
  | notifyStandby => simp only [active', offerTo_standby]; rfl

theorem alarmActionOf_code (action : AlarmAction) : alarmActionOf action.code = some action := by cases action <;> rfl

theorem alarmActionOf_unknown : ∀ {code : Nat}, 2 < code → alarmActionOf code = none
  | _ + 3, _ => rfl

theorem alarmSet_of_good {p : Port} {i time : Nat} {action : AlarmAction} (named : i ≤ 2) (on : s.platform.state ≠ .halting) :
    alarmSet p ⟨i, time, action.code⟩ s = expireIf (fun t => decide (t ≤ s.platform.clock)) i
      (respond p .ok [] (setAlarm i (some ⟨time, action⟩) s)) := by
  simp only [alarmSet, alarmActionOf_code, Nat.not_lt.mpr named, if_false, on]

theorem alarmSet_of_bad {p : Port} {a : AlarmSetArgs} (bad : 2 < a.slot ∨ 2 < a.action) : alarmSet p a s = refuse p .badValue s := by
  cases known : alarmActionOf a.action with
  | none => simp only [alarmSet, known]
  | some action =>
    have slot : 2 < a.slot := bad.resolve_right fun unknown => by rw [alarmActionOf_unknown unknown] at known; cases known
    simp only [alarmSet, known, slot, if_true]

theorem expireIf_of_held {due : Nat → Bool} {i : Nat} {a : Alarm} (held : alarmAt i s = some a) :
    expireIf due i s = if due a.time = true then expireAlarm i s else s := by
  simp only [expireIf, held]

theorem alarmAt_set {i : Nat} {a : Option Alarm} (within : i < s.platform.alarms.length) : alarmAt i (setAlarm i a s) = a := by
  simp [alarmAt, setAlarm, onPlatform, State.withPlatform, within]

theorem alarmClear_of_named {p : Port} {i : Nat} (named : i ≤ 2) : alarmClear p i s = respond p .ok [] (setAlarm i none s) :=
  if_neg (Nat.not_lt.mpr named)

theorem alarmClear_of_unknown {p : Port} {i : Nat} (unknown : 2 < i) : alarmClear p i s = refuse p .badValue s := if_pos unknown

/-- Settles O60: the clock, the expiry, the alarm requests. -/
theorem clockAndAlarms : Obligations.ClockAndAlarms := by
  intro m s f g none_ next expired
  have alarmed_eq (i : Nat) (a : Alarm) (f : Platform) (t : State) : alarmed i a { t with platform := f } = expired i a f t := by
    obtain ⟨time, action⟩ := a
    cases action <;> rfl
  refine ⟨fun none_due => congrArg Host.Outcome.next (expireAll_of_none ?_), fun v takes none_due => congrArg Host.Outcome.next ?_,
    fun i a active held => congrArg Host.Outcome.next ((expireAlarm_of_active active held).trans (alarmed_eq i a f s)),
    fun i time action named three takes => ?_, fun i time action bad takes => congrArg Host.Outcome.next ?_, fun i takes => ?_⟩
  · exact fun a member => beq_eq_false_iff_ne.mpr (none_due a member)
  · rw [takeRequest_main (clockSet .main) takes, clockSet, respond_taken takes.ready _ _ rfl]
    exact expireAll_of_none fun a member => decide_eq_false (none_due a member)
  · have set_ : exec (.alarmSet .main m) s = .next (expireIf (fun t => decide (t ≤ f.clock)) i
        { mainAnswered .alarmSet .ok [] s with platform := { g with alarms := f.alarms.set i (some ⟨time, action⟩) } }) := by
      refine congrArg Host.Outcome.next ?_
      rw [takeRequest_main (alarmSet .main) takes, alarmSet_of_good named (by rw [takes.taken_active]; decide),
        respond_taken takes.ready _ _ rfl]
      rfl
    have held : alarmAt i { mainAnswered .alarmSet .ok [] s with
        platform := { g with alarms := f.alarms.set i (some ⟨time, action⟩) } } = some ⟨time, action⟩ :=
      alarmAt_set (s := s) (show i < f.alarms.length by omega)
    refine ⟨fun later => ?_, fun due => ?_⟩
    · rw [set_, expireIf_of_held held, if_neg (by simpa using later)]
    · rw [set_, expireIf_of_held held, if_pos (by simpa using due), expireAlarm_of_active (by exact takes.active) held,
        ← alarmed_eq]
      cases action <;> simp only [alarmed, List.set_set, f] <;> rfl
  · rw [takeRequest_main (alarmSet .main) takes, alarmSet_of_bad bad, refuse_mainTaken _ takes.ready]
  · refine ⟨fun named => congrArg Host.Outcome.next ?_, fun unknown => congrArg Host.Outcome.next ?_⟩
    · rw [takeRequest_main (alarmClear .main) takes, alarmClear_of_named named, respond_taken takes.ready _ _ rfl]
      rfl
    · rw [takeRequest_main (alarmClear .main) takes, alarmClear_of_unknown unknown, refuse_mainTaken _ takes.ready]

end Sys2Proof.Machine
end

