-- ==== Sys2Proof/Proofs/Sleep.lean ====
section
/-! PROOFS. DOZE, SLEEP and WAKE_MAIN, and the entry to SLEEP (R155 to R159). -/

namespace Sys2Proof.Machine

variable {k : ReqKind} {m : Msg} {s t : State}

/-- A restarting event touches the idle timer alone. -/
theorem restartIdle_frame (s : State) : ∃ left, restartIdle s = { s with platform := { s.platform with idleTimer := left } } := by
  refine ⟨if s.platform.idleTimer.isSome then idleFull s.platform else s.platform.idleTimer, ?_⟩
  simp only [restartIdle, onPlatform]
  split <;> rfl

theorem idleFull_eq (f : Platform) : idleFull f = some (1000 * f.sleepDelay) := by rw [idleFull, Nat.mul_comm]

/-! ## The sleep check (R159) -/

theorem sleepDue_of_busy (busy : s.engine.active ≠ []) : sleepDue s = false := by
  have running : s.engine.active.isEmpty = false := by simpa [List.isEmpty_eq_false_iff] using busy
  simp [sleepDue, isQuiet, engineIdle, running]

/-- With an update active the reader is not quiet. -/
theorem recheckNow_of_busy_doze (doze : s.platform.state = .doze) (busy : s.engine.active ≠ []) : recheckNow s = s := by
  simp only [recheckNow, doze, sleepCheck, sleepDue_of_busy busy, Bool.false_and, Bool.false_eq_true, if_false]

/-- No slot holds the role of the sleep page. -/
theorem roleSlot_sleepPage_eq_none (none_holds : ∀ i, i < 24 → (slotAt i s).sleepRole = false) : roleSlot .sleepPage s = none := by
  refine List.find?_eq_none.mpr fun i member => ?_
  simp only [none_holds i (List.mem_range.mp member), Bool.false_eq_true, not_false_eq_true]

theorem sleepDue_of_quiet (doze : s.platform.state = .doze) (waits : s.platform.sleepPending.isSome = true)
    (empty : s.engine.queue = []) (idle : s.engine.active = []) (none_open : s.spool.assembly = none)
    (verified : s.spool.verifying = []) (dark : s.light.rampLevel = 0) : sleepDue s = true := by
  simp [sleepDue, isQuiet, engineIdle, doze, waits, empty, idle, none_open, verified, dark]

/-- The sleep check of a quiet reader without a sleep page: SLEEP at once. -/
theorem sleepCheck_of_quiet (due : sleepDue s = true) (none_holds : ∀ i, i < 24 → (slotAt i s).sleepRole = false) :
    ∃ submitted, sleepCheck s = enterSleep { s with platform := { s.platform with pageSubmitted := submitted } } := by
  have page : submitSleepPage s = { s with platform := { s.platform with pageSubmitted := true } } := by
    simp only [submitSleepPage, roleSlot_sleepPage_eq_none none_holds]
    rfl
  cases submitted : s.platform.pageSubmitted with
  | true =>
    refine ⟨true, ?_⟩
    have same : { s with platform := { s.platform with pageSubmitted := true } } = s := by rw [← submitted]
    rw [same]
    simp only [sleepCheck, due, submitted, Bool.not_true, Bool.and_false, Bool.false_eq_true, if_false, if_true]
  | false =>
    refine ⟨true, ?_⟩
    have still : sleepDue { s with platform := { s.platform with pageSubmitted := true } } = true := due
    simp only [sleepCheck, due, submitted, Bool.not_false, Bool.and_true, if_true, page, still]

/-- Entry to SLEEP with no assembly open. -/
theorem enterSleep_of_none_open {c : SleepCause} (pending : s.platform.sleepPending = some c) (none_open : s.spool.assembly = none) :
    enterSleep s = changePeriod .haltOnly { s with
      platform := { s.platform with
        state := .sleep, sleepPending := none, pageSubmitted := false, idleTimer := none, radioSetting := false }
      engine := { s.engine with frameTimer := none, bus := [] }
      light := { s.light with rampTimer := none, coolOut := .reset, warmOut := .reset }
      wave := suspendedWave s.wave
      spool := { s.spool with bare := none }
      portStandby := offerUnit (.stateChanged .sleep .doze c.cause s.platform.clock) s.portStandby
      portRadio := resetPort s.portRadio } := by
  simp only [enterSleep, pending, Option.map_some, Option.getD_some]
  rw [resetRadioPort_of_none _ (by exact none_open), suspendScrub_eq, reportState, offerTo_standby]
  rfl

/-- Settles O53: the expiry sets the sleep pending, and the check enters SLEEP. -/
theorem aQuietDozeEntersSleep : Obligations.AQuietDozeEntersSleep := by
  intro s doze running empty idle none_open verified dark none_holds
  have due : sleepDue (setSleepPending .idle s) = true := sleepDue_of_quiet doze rfl empty idle none_open verified dark
  obtain ⟨submitted, entered⟩ := sleepCheck_of_quiet due none_holds
  refine congrArg Host.Outcome.next ((if_pos running).trans ?_)
  have check : recheckNow (setSleepPending .idle s) = sleepCheck (setSleepPending .idle s) := by
    simp only [recheckNow, show (setSleepPending .idle s).platform.state = .doze from doze]
  rw [check, entered]
  exact enterSleep_of_none_open (c := .idle) rfl none_open

/-! ## DOZE, SLEEP and WAKE_MAIN (R155, R156, R158) -/

section Requests

variable {p : Port}

theorem doze_of_active (active : s.platform.state = .active) : doze p s = respond p .ok [] (enterDoze s) := by
  simp only [doze, active]

theorem sleepRequest_of_active (active : s.platform.state = .active) : sleepRequest p s = refuse p .notNow s := by
  simp only [sleepRequest, active]

theorem sleepRequest_of_doze (doze : s.platform.state = .doze) (none_pending : s.platform.sleepPending = none) :
    sleepRequest p s = recheckNow (respond p .ok [] (setSleepPending .sleepRequest s)) := by
  simp only [sleepRequest, doze, none_pending, Option.isSome_none, Bool.false_eq_true, if_false]

theorem wakeRequest_of_active (active : s.platform.state = .active) : wakeRequest p s = respond p .ok [] s := by
  simp only [wakeRequest, active]

theorem wakeRequest_of_doze (doze : s.platform.state = .doze) :
    wakeRequest p s = enterActive true .wakeRequest (respond p .ok [] s) := by
  simp only [wakeRequest, doze]

end Requests

/-- Settles O52: each request in its state. -/
theorem dozeSleepAndWakeMoveThePlatform : Obligations.DozeSleepAndWakeMoveThePlatform := by
  intro m s f
  refine ⟨fun takes => congrArg Host.Outcome.next ?_, fun takes => congrArg Host.Outcome.next ?_,
    fun takes => congrArg Host.Outcome.next ?_, fun takes dozes none_pending busy => congrArg Host.Outcome.next ?_, ?_,
    fun dozes running busy => congrArg Host.Outcome.next ((if_pos running).trans (recheckNow_of_busy_doze dozes busy))⟩
  · rw [takeRequest_main (fun _ => doze .main) takes, doze_of_active takes.taken_active, enterDoze, reportState, offerTo_standby,
      respond_taken takes.ready _ _ rfl]
    simp only [onPlatform, idleFull_eq]
    rfl
  · rw [takeRequest_main (fun _ => sleepRequest .main) takes, sleepRequest_of_active takes.taken_active,
      refuse_mainTaken _ takes.ready]
  · rw [takeRequest_main (fun _ => wakeRequest .main) takes, wakeRequest_of_active takes.taken_active,
      respond_mainTaken _ _ takes.ready]
  · obtain ⟨left, restarted⟩ := restartIdle_frame s
    have platform : (otherTaken .standby .sleep m s).platform = { f with idleTimer := left } := by
      rw [otherTaken, restarted, State.withPort_platform]
    rw [takeRequest_other (fun _ => sleepRequest .standby) takes, sleepRequest_of_doze (by rw [platform]; exact dozes)
      (by rw [platform]; exact none_pending), respond_other_taken (k := .sleep) (m := m) (u := s.portStandby) .ok [] rfl
      takes.ready.nothingWaits takes.ready.nothingInProcess, otherTaken, otherAnswered, restarted]
    exact recheckNow_of_busy_doze dozes busy
  · intro takes dozes t
    refine congrArg Host.Outcome.next ?_
    obtain ⟨left, restarted⟩ := restartIdle_frame s
    have platform : (otherTaken .standby .wakeMain m s).platform = { f with idleTimer := left } := by
      rw [otherTaken, restarted, State.withPort_platform]
    rw [takeRequest_other (fun _ => wakeRequest .standby) takes, wakeRequest_of_doze (by rw [platform]; exact dozes),
      respond_otherTaken _ _ takes.ready, enterActive, reportState, offerTo_standby]
    simp only [onPlatform, Bool.or_true, t, otherAnswered, restarted]
    rfl

end Sys2Proof.Machine
end

