-- ==== Sys2Proof/Proofs/ChargeAndSamples.lean ====
section
/-! PROOFS. The charge requests (R149 to R151), and the samples of a conversion sequence (R124, R126, R128). -/

namespace Sys2Proof.Machine

variable {k : Hooks} {s t : State}

/-! ## CHARGE_SET and CHARGE_CONFIG (R149 to R151) -/

theorem ascendingNats_iff : ∀ l : List Nat, ascendingNats l = true ↔ l.Pairwise (· < ·)
  | [] => by simp [ascendingNats]
  | [_] => by simp [ascendingNats]
  | a :: b :: l => by
    rw [ascendingNats, Bool.and_eq_true, decide_eq_true_eq, ascendingNats_iff (b :: l), List.pairwise_cons (a := a) (l := b :: l)]
    refine ⟨fun ⟨below, sorted⟩ => ⟨fun x member => ?_, sorted⟩, fun ⟨below, sorted⟩ => ⟨below b List.mem_cons_self, sorted⟩⟩
    rcases List.mem_cons.mp member with rfl | member
    · exact below
    · exact below.trans ((List.pairwise_cons.mp sorted).1 x member)

theorem goodChargeParams_iff (a : ChargeParams) : goodChargeParams a = true ↔
    500 ≤ a.capacity ∧ a.capacity ≤ 6000 ∧ 1 ≤ a.shutdown ∧ a.shutdown ≤ a.turn ∧ a.turn ≤ a.light ∧ a.light ≤ a.radio
      ∧ a.radio ≤ 999 ∧ a.hysteresis ≤ 200 ∧ (∀ v ∈ a.ocv, v ≤ 5000) ∧ a.ocv.Pairwise (· < ·) := by
  simp only [goodChargeParams, goodFloor, Bool.and_eq_true, decide_eq_true_eq, List.all_eq_true, ascendingNats_iff]
  constructor
  · rintro ⟨⟨⟨⟨⟨⟨⟨⟨capacity, radio⟩, light⟩, turn⟩, shutdown⟩, order⟩, hysteresis⟩, values⟩, sorted⟩
    exact ⟨by omega, by omega, by omega, by omega, by omega, by omega, by omega, by omega, values, sorted⟩
  · rintro ⟨low, high, shutdown, turn, light, radio, most, hysteresis, values, sorted⟩
    exact ⟨⟨⟨⟨⟨⟨⟨⟨by omega, by omega⟩, by omega⟩, by omega⟩, by omega⟩, by omega⟩, hysteresis⟩, values⟩, sorted⟩

/-- A change of the account that leaves the level index. -/
theorem evaluate_onCharge {f : Charge → Charge} (level : nextLevel (f s.charge) = (f s.charge).level) (free : s.spool.held = false) :
    evaluate k (onCharge f s) = { s with charge := f s.charge } := evaluate_of_same k (s := onCharge f s) level free

theorem chargeSet_of_same {p : Port} {v : Nat} (free : s.spool.held = false)
    (level : nextLevel (setCharge v s.charge) = s.charge.level) : chargeSet p v s =
      respond p .ok (encCharge (setCharge v s.charge).q ++ encCharge (available (setCharge v s.charge)) ++ encU8 s.charge.level)
        { s with charge := setCharge v s.charge } := by
  rw [chargeSet, evaluate_onCharge (f := setCharge v) level free]
  rfl

theorem chargeConfig_of_same {p : Port} {a : ChargeParams} (good : goodChargeParams a = true) (free : s.spool.held = false)
    (level : nextLevel (applyChargeParams a s.charge) = s.charge.level) : chargeConfig p a s =
      respond p .ok (encCharge (applyChargeParams a s.charge).q ++ encCharge (qFull (applyChargeParams a s.charge))
        ++ encCharge (available (applyChargeParams a s.charge)) ++ encU8 s.charge.level)
        { s with charge := applyChargeParams a s.charge } := by
  rw [chargeConfig, if_pos good, evaluate_onCharge (f := applyChargeParams a) level free]
  rfl

/-- Settles O50: both requests leave the level index, so that their evaluation changes nothing. -/
theorem chargeRequestsSetTheAccount : Obligations.ChargeRequestsSetTheAccount := by
  intro m s free
  refine ⟨fun v takes => ?_, fun a takes => ?_⟩
  · intro c level
    refine congrArg Host.Outcome.next (takeRequest_rechecked (owner := chargeSet .main) takes ?_ (by exact takes.active))
    rw [chargeSet_of_same (s := mainTaken .chargeSet m s) free level]
    exact respond_taken takes.ready .ok _ rfl
  · intro good c
    have good_iff : goodChargeParams a = true ↔ good := goodChargeParams_iff a
    refine ⟨fun sound level => ?_, fun unsound => ?_⟩
    · refine congrArg Host.Outcome.next (takeRequest_rechecked (owner := chargeConfig .main) takes ?_ (by exact takes.active))
      rw [chargeConfig_of_same (s := mainTaken .chargeConfig m s) (good_iff.mpr sound) free level]
      exact respond_taken takes.ready .ok _ rfl
    · exact congrArg Host.Outcome.next (takeRequest_rechecked_refused (owner := chargeConfig .main) takes
        (if_neg (mt good_iff.mp unsound)))

/-! ## The samples of a sequence (R124, R128) -/

/-- What the hand-over of a value changes where no level index does: the account for BATI, the light for AMB. -/
def handed (c : Channel) (v : Int) (n : Nat) (s : State) : State :=
  match c with
  | .bati => { s with charge := integrated v n s.charge }
  | .amb => { s with light := lightAfterAmb v s.light }
  | _ => s

/-- A candidate that is not the first after auto mode began (R112). -/
theorem ambSample_eq {v : Int} {l : Light} (taken : l.autoFirst = false) : ambSample v.toNat l = lightAfterAmb v l := by
  by_cases auto : l.auto = true
  · by_cases far : l.autoDeadband < levelGap (autoCandidate l.points v.toNat) l.autoLevel
    · have far' := far
      rw [levelGap] at far'
      simp only [ambSample, lightAfterAmb, taken, auto, far, far', decide_true, Bool.or_true, if_true, and_self]
    · have far' := far
      rw [levelGap] at far'
      simp only [ambSample, lightAfterAmb, taken, auto, far, far', decide_false, Bool.or_false, Bool.false_eq_true, if_true, if_false,
        and_false]
  · refine (if_neg auto).trans ?_
    rw [lightAfterAmb, if_neg fun moved => auto moved.1]

theorem batiSample_converted (v : Int) (n : Nat) : batiSample k v n false s = evaluate k (onCharge (integrated v n) s) := by
  unfold batiSample integrated
  rw [if_neg Bool.false_ne_true]

theorem handOver_eq {c : Channel} {v : Int} {n : Nat} (level : c = .bati → nextLevel (integrated v n s.charge) = s.charge.level)
    (free : s.spool.held = false) (taken : s.light.autoFirst = false) : handOver k c v n false s = handed c v n s := by
  cases c with
  | bati =>
    refine (batiSample_converted v n).trans ?_
    exact evaluate_onCharge (f := integrated v n) (level rfl) free
  | amb => exact congrArg (fun l => { s with light := l }) (ambSample_eq taken)
  | batv | ptemp | dtemp | panv => rfl

/-- One steady sample: the record, then the hand-over. -/
def steadyStep (c : Channel) (r : Readings) (n : Nat) (s : State) : State :=
  handed c (convert c (s.monitor.get c) (readingOf r c).toNat) n
    (setChannel c (steadySample c (s.monitor.get c) (readingOf r c)) s)

theorem sampleChannel_steady {c : Channel} {r : Readings} {n : Nat} (steady : Steady c (s.monitor.get c) (readingOf r c))
    (level : c = .bati → nextLevel (integrated (convert c (s.monitor.get c) (readingOf r c).toNat) n s.charge) = s.charge.level)
    (free : s.spool.held = false) (taken : s.light.autoFirst = false) :
    sampleChannel k c (readingOf r c).toNat n s = steadyStep c r n s :=
  (sampleChannel_of_steady k c (readingOf r c) n steady).trans (handOver_eq level free taken)

/-! ## A run of samples -/

theorem get_set_same (m : Monitor) (c : Channel) (x : ChannelState) : (m.set c x).get c = x := by cases c <;> rfl

theorem get_set_other {c d : Channel} (m : Monitor) (x : ChannelState) (other : d ≠ c) : (m.set c x).get d = m.get d := by
  cases c <;> cases d <;> simp_all [Monitor.get, Monitor.set]

theorem handed_monitor (c : Channel) (v : Int) (n : Nat) : (handed c v n s).monitor = s.monitor := by cases c <;> rfl
theorem handed_spool (c : Channel) (v : Int) (n : Nat) : (handed c v n s).spool = s.spool := by cases c <;> rfl
theorem handed_platform (c : Channel) (v : Int) (n : Nat) : (handed c v n s).platform = s.platform := by cases c <;> rfl
theorem handed_autoFirst (c : Channel) (v : Int) (n : Nat) : (handed c v n s).light.autoFirst = s.light.autoFirst := by
  cases c <;> rfl

/-- The samples of these channels, one after the other. -/
def samples (k : Hooks) (r : Readings) (n : Nat) (cs : List Channel) (s : State) : State :=
  cs.foldl (fun t c => sampleChannel k c (readingOf r c).toNat n t) s

/-- The steady samples of these channels, one after the other. -/
def steadySteps (r : Readings) (n : Nat) (cs : List Channel) (s : State) : State := cs.foldl (fun t c => steadyStep c r n t) s

/-- These channels are steady under these readings, and the hand-over of BATI and AMB changes no level index and begins no auto
mode. -/
structure SteadyRun (r : Readings) (n : Nat) (cs : List Channel) (s : State) : Prop where
  steady : ∀ c ∈ cs, Steady c (s.monitor.get c) (readingOf r c)
  level : .bati ∈ cs → nextLevel (integrated (convert .bati s.monitor.bati r.bati.toNat) n s.charge) = s.charge.level
  free : s.spool.held = false
  taken : s.light.autoFirst = false

theorem SteadyRun.step {r : Readings} {n : Nat} {c : Channel} {cs : List Channel} (run : SteadyRun r n (c :: cs) s)
    (once : c ∉ cs) : SteadyRun r n cs (steadyStep c r n s) where
  steady d member := by
    have other : d ≠ c := fun same => once (same ▸ member)
    rw [steadyStep, handed_monitor]
    exact get_set_other s.monitor _ other ▸ run.steady d (List.mem_cons_of_mem c member)
  level member := by
    have level := run.level (List.mem_cons_of_mem c member)
    cases c with
    | bati => exact absurd member once
    | batv | ptemp | dtemp | amb | panv => exact level
  free := by rw [steadyStep, handed_spool]; exact run.free
  taken := by rw [steadyStep, handed_autoFirst]; exact run.taken

theorem samples_of_steady {r : Readings} {n : Nat} : ∀ {cs : List Channel} {s : State}, cs.Nodup → SteadyRun r n cs s →
    samples k r n cs s = steadySteps r n cs s
  | [], _, _, _ => rfl
  | c :: cs, s, distinct, run => by
    obtain ⟨once, distinct⟩ := List.nodup_cons.mp distinct
    have first : sampleChannel k c (readingOf r c).toNat n s = steadyStep c r n s :=
      sampleChannel_steady (run.steady c List.mem_cons_self) (fun bati => by subst bati; exact run.level List.mem_cons_self)
        run.free run.taken
    rw [samples, List.foldl_cons, first]
    exact samples_of_steady distinct (run.step once)

theorem steadySteps_platform (r : Readings) (n : Nat) : ∀ (cs : List Channel) (s : State),
    (steadySteps r n cs s).platform = s.platform
  | [], _ => rfl
  | c :: cs, s => (steadySteps_platform r n cs (steadyStep c r n s)).trans (handed_platform c _ n)

theorem panvConverted_of_up (state : s.platform.state = .active ∨ s.platform.state = .doze ∨ s.platform.state = .halting)
    (no_interval : s.platform.powerUp = none) : panvConverted s = true := by
  rcases state with e | e | e <;> simp [panvConverted, e, no_interval]

/-- A sequence after the first, with the panel supply up before PANV: the six channels in their order. -/
theorem sequenceWith_of_up {r : Readings} {n : Nat}
    (up : panvConverted (samples k r n [.batv, .bati, .ptemp, .dtemp, .amb] (startPeriod s)) = true) :
    sequenceWith k r n false s = samples k r n allChannels (startPeriod s) := if_pos up

/-- The next period in a state with the panel supply up. -/
theorem startPeriod_of_up (state : s.platform.state = .active ∨ s.platform.state = .doze ∨ s.platform.state = .halting) :
    startPeriod s = { s with monitor := { s.monitor with period := 250, elapsed := 0 } } := by
  rcases state with e | e | e <;> simp only [startPeriod, onMonitor, e] <;> rfl

/-- A sequence with steady readings in a state with the panel supply up. -/
theorem sequenceWith_of_steady {r : Readings} {n : Nat} (awake : s.platform.state = .active ∨ s.platform.state = .doze)
    (no_interval : s.platform.powerUp = none) (steady : SteadyReadings r n s) :
    sequenceWith k r n false s = steadyAfter r n s := by
  have state := awake.imp_right (Or.inl (b := s.platform.state = .halting))
  have run : SteadyRun r n allChannels { s with monitor := { s.monitor with period := 250, elapsed := 0 } } := by
    refine ⟨fun c _ => ?_, fun _ => steady.level, steady.notHeld, steady.candidateTaken⟩
    cases c with
    | batv => exact steady.batv
    | bati => exact steady.bati
    | ptemp => exact steady.ptemp
    | dtemp => exact steady.dtemp
    | amb => exact steady.amb
    | panv => exact steady.panv
  have first_five : SteadyRun r n [.batv, .bati, .ptemp, .dtemp, .amb]
      { s with monitor := { s.monitor with period := 250, elapsed := 0 } } :=
    ⟨fun c _ => run.steady c (by cases c <;> decide), fun _ => steady.level, steady.notHeld, steady.candidateTaken⟩
  rw [sequenceWith_of_up, startPeriod_of_up state, samples_of_steady (by decide) run]
  · simp only [steadySteps, allChannels, List.foldl_cons, List.foldl_nil, steadyStep, handed, setChannel, onMonitor, Monitor.get,
      Monitor.set, readingOf, State.withMonitor, steadyAfter, steadyMonitor]
  · rw [startPeriod_of_up state, samples_of_steady (by decide) first_five]
    refine panvConverted_of_up ?_ ?_ <;> rw [steadySteps_platform]
    · exact state
    · exact no_interval

/-- Settles O49. -/
theorem aSteadySequenceConvertsAndIntegrates : Obligations.ASteadySequenceConvertsAndIntegrates := by
  intro r s active no_interval steady
  refine congrArg Host.Outcome.next ?_
  rw [sequenceWith_of_steady (.inl active) no_interval steady]
  exact recheckNow_of_active active

end Sys2Proof.Machine
end

