-- ==== Sys2Proof/Proofs/Monitor.lean ====
section
/-! PROOFS. MONITOR_TEST, MONITOR_CONFIG, the limit check, and a sequence in which one channel changes its fault state
(R126 to R131). -/

namespace Sys2Proof.Machine

variable {k : Hooks} {s t : State} {r : Readings} {n : Nat} {c : Channel}

/-! ## MONITOR_TEST and MONITOR_CONFIG (R130, R131) -/

section Requests

variable {p : Port} {i : Nat}

theorem inRange_iff (q : Int × Int) (v : Int) : inRange q v = true ↔ q.1 ≤ v ∧ v ≤ q.2 := decide_eq_true_iff

theorem monitorTest_of_channel {v : Int} (known : channelOf i = some c) : monitorTest p ⟨i, v⟩ s =
    if inRange (channelRange c) v = true then
      respond p .ok [] (setChannel c { s.monitor.get c with pendingTest := some v } s)
    else refuse p .badValue s := by
  simp only [monitorTest, known]

theorem monitorConfig_of_channel {a : MonitorConfigArgs} (known : channelOf a.channel = some c) : monitorConfig p a s =
    if goodLimits c a = true then respond p .ok [] (setChannel c (configured c a (s.monitor.get c)) s)
    else refuse p .badValue s := by
  simp only [monitorConfig, known]

theorem hasLimits_of_ne (limited : c ≠ .amb) : hasLimits c = true := by simp [hasLimits, limited]

theorem goodLimits_iff {a : MonitorConfigArgs} (limited : c ≠ .amb) : goodLimits c a = true ↔
    (channelRange c).1 ≤ a.low ∧ a.low ≤ a.high ∧ a.high ≤ (channelRange c).2 := by
  simp only [goodLimits, hasLimits_of_ne limited, Bool.not_true, Bool.false_or, Bool.and_eq_true, inRange_iff, decide_eq_true_eq]
  omega

end Requests

/-! ## The limit check (R126) -/

/-- The run points away from the fault flag: the value lies outside the limits of a sound channel, or within those of a faulty one. -/
theorem runPoints_iff (x : ChannelState) (v : Int) : runPoints x v = true ↔ ¬ ((v < x.low ∨ x.high < v) ↔ x.fault = true) := by
  have outside : outsideLimits x v = true ↔ (v < x.low ∨ x.high < v) := by
    simp only [outsideLimits, Bool.or_eq_true, decide_eq_true_eq]
  rw [← outside, runPoints]
  cases outsideLimits x v <;> cases x.fault <;> decide

theorem faultChanges_iff (limited : c ≠ .amb) (x : ChannelState) (v : Int) :
    faultChanges c x v = true ↔ runPoints x v = true ∧ debounce c ≤ x.run + 1 := by
  simp only [faultChanges, hasLimits_of_ne limited, Bool.true_and, Bool.and_eq_true, decide_eq_true_eq]

theorem checkLimits_of_steady (limited : c ≠ .amb) {x : ChannelState} {v : Int} (still : ¬ runPoints x v = true) :
    checkLimits c x v = { x with run := 0 } := by
  have same : ¬ faultChanges c x v = true := fun h => still ((faultChanges_iff limited x v).mp h).1
  rw [checkLimits, if_pos (hasLimits_of_ne limited), if_neg same, if_neg still]

theorem checkLimits_of_running (limited : c ≠ .amb) {x : ChannelState} {v : Int} (points : runPoints x v = true)
    (short : x.run + 1 < debounce c) : checkLimits c x v = { x with run := x.run + 1 } := by
  have same : ¬ faultChanges c x v = true := fun h => Nat.not_le.mpr short ((faultChanges_iff limited x v).mp h).2
  rw [checkLimits, if_pos (hasLimits_of_ne limited), if_neg same, if_pos points]

theorem checkLimits_of_turn (limited : c ≠ .amb) {x : ChannelState} {v : Int} (points : runPoints x v = true)
    (due : debounce c ≤ x.run + 1) : checkLimits c x v = { x with fault := !x.fault, run := 0 } := by
  rw [checkLimits, if_pos (hasLimits_of_ne limited), if_pos ((faultChanges_iff limited x v).mpr ⟨points, due⟩)]

/-! ## The sample that turns a fault flag (R127) -/

/-- A plain or wake-class notice to the main port in ACTIVE and HALTING. -/
theorem offerMain_of_on {b : Bool} {note : Notice} (on : s.platform.state = .active ∨ s.platform.state = .halting) :
    offerMain b note s = { s with portMain := offerUnit note s.portMain } := by
  rcases on with e | e
  · exact offerMain_of_active e
  · cases b <;> simp [offerMain, e, offerTo, onPort, wakeByNotice, State.port, State.withPort]

/-- The channel's flag turned and the main port told. -/
def faultTold (c : Channel) (r : Readings) (s : State) : State :=
  let x := s.monitor.get c
  let raw := readingOf r c
  { s with
    monitor := s.monitor.set c { steadySample c x raw with fault := !x.fault, run := 0 }
    portMain := offerUnit (.monitorFault c (convert c x raw.toNat) (!x.fault) false) s.portMain }

/-- A channel whose value turns its fault flag at this sample. -/
structure Turning (c : Channel) (r : Readings) (x : ChannelState) : Prop where
  limited : c ≠ .amb
  noTest : x.pendingTest = none
  outside : (convert c x (readingOf r c).toNat < x.low ∨ x.high < convert c x (readingOf r c).toNat) ↔ x.fault = false
  due : debounce c ≤ x.run + 1

theorem sampleChannel_of_turning (turning : Turning c r (s.monitor.get c))
    (on : s.platform.state = .active ∨ s.platform.state = .halting) : sampleChannel k c (readingOf r c).toNat n s =
      handOver k c (convert c (s.monitor.get c) (readingOf r c).toNat) n false
        (faultEffect k c (!(s.monitor.get c).fault) (faultTold c r s)) := by
  obtain ⟨limited, noTest, outside, due⟩ := turning
  have value : sampleValue c (s.monitor.get c) (readingOf r c).toNat = convert c (s.monitor.get c) (readingOf r c).toNat := by
    simp only [sampleValue, noTest]
  have record : recordSample c (s.monitor.get c) (readingOf r c).toNat = steadySample c (s.monitor.get c) (readingOf r c) := by
    simp only [recordSample, steadySample, value, noTest, Option.isSome_none, Bool.false_eq_true, if_false]
  have points : runPoints (steadySample c (s.monitor.get c) (readingOf r c)) (convert c (s.monitor.get c) (readingOf r c).toNat) = true := by
    rw [runPoints_iff]
    show ¬ ((convert c (s.monitor.get c) (readingOf r c).toNat < (s.monitor.get c).low ∨
      (s.monitor.get c).high < convert c (s.monitor.get c) (readingOf r c).toNat) ↔ (s.monitor.get c).fault = true)
    rw [outside]
    cases (s.monitor.get c).fault <;> decide
  have turns : faultChanges c (steadySample c (s.monitor.get c) (readingOf r c)) (convert c (s.monitor.get c) (readingOf r c).toNat) = true :=
    (faultChanges_iff limited _ _).mpr ⟨points, due⟩
  simp only [sampleChannel, value, record, turns, if_true, checkLimits_of_turn limited points due, noTest, Option.isSome_none]
  rw [offerMain_of_on (by exact on)]
  rfl

/-! ## The sequence around it -/

theorem steadySteps_get_other {d : Channel} : ∀ {cs : List Channel} (s : State), d ∉ cs →
    (steadySteps r n cs s).monitor.get d = s.monitor.get d
  | [], _, _ => rfl
  | c :: cs, s, absent => by
    have other : d ≠ c := fun same => absent (same ▸ List.mem_cons_self)
    refine (steadySteps_get_other (steadyStep c r n s) fun member => absent (List.mem_cons_of_mem c member)).trans ?_
    rw [steadyStep, handed_monitor]
    exact get_set_other s.monitor _ other

/-- The state in which the samples of a sequence begin with the panel supply up. -/
def begun (s : State) : State := { s with monitor := { s.monitor with period := 250, elapsed := 0 } }

theorem begun_get (d : Channel) : (begun s).monitor.get d = s.monitor.get d := by cases d <;> rfl

theorem samples_append_cons (before after : List Channel) : samples k r n (before ++ c :: after) s =
    samples k r n after (sampleChannel k c (readingOf r c).toNat n (samples k r n before s)) := by
  rw [samples, List.foldl_append, List.foldl_cons]
  rfl

/-- The samples before and after the one that turns a fault flag are steady. -/
theorem sequenceWith_of_turning {before after : List Channel} (split : [.batv, .bati, .ptemp, .dtemp, .amb] = before ++ c :: after)
    (others : OthersSteady c r s) (on : s.platform.state = .active ∨ s.platform.state = .halting)
    (turn : sampleChannel k c (readingOf r c).toNat s.monitor.period (steadySteps r s.monitor.period before (begun s)) = t)
    (monitor : ∀ d, d ≠ c → t.monitor.get d = (steadySteps r s.monitor.period before (begun s)).monitor.get d)
    (charge : .bati ∈ after → t.charge = s.charge) (free : t.spool.held = false) (taken : t.light.autoFirst = false)
    (on' : t.platform.state = .active ∨ t.platform.state = .halting) (no_interval : t.platform.powerUp = none) :
    sequenceWith k r s.monitor.period false s = steadySteps r s.monitor.period (after ++ [.panv]) t := by
  have all : allChannels = before ++ c :: (after ++ [.panv]) := by
    rw [← List.cons_append, ← List.append_assoc, ← split]; rfl
  have distinct : (before ++ c :: (after ++ [.panv])).Nodup := by rw [← all]; decide
  obtain ⟨distinct_before, distinct_rest, apart⟩ := List.nodup_append.mp distinct
  obtain ⟨once, distinct_after⟩ := List.nodup_cons.mp distinct_rest
  have run_before : SteadyRun r s.monitor.period before (begun s) :=
    ⟨fun d member => begun_get d ▸ others.steady d (apart d member c List.mem_cons_self), fun _ => others.level, others.notHeld,
      others.candidateTaken⟩
  have kept (d : Channel) (member : d ∈ after ++ [.panv]) : d ≠ c ∧ t.monitor.get d = s.monitor.get d := by
    have other : d ≠ c := fun same => once (same ▸ member)
    have absent : d ∉ before := fun early => apart d early d (List.mem_cons_of_mem c member) rfl
    exact ⟨other, (monitor d other).trans ((steadySteps_get_other (begun s) absent).trans (begun_get d))⟩
  have run_after : SteadyRun r s.monitor.period (after ++ [.panv]) t := by
    refine ⟨fun d member => ?_, fun member => ?_, free, taken⟩
    · obtain ⟨other, same⟩ := kept d member
      exact same ▸ others.steady d other
    · have later : .bati ∈ after := (List.mem_append.mp member).resolve_right (by decide)
      have same : t.monitor.bati = s.monitor.bati := (kept .bati member).2
      rw [same, charge later]
      exact others.level
  have five (cs : List Channel) (part : SteadyRun r s.monitor.period cs t) (nodup : cs.Nodup) :
      samples k r s.monitor.period (before ++ c :: cs) (begun s) = steadySteps r s.monitor.period cs t := by
    rw [samples_append_cons, samples_of_steady distinct_before run_before, turn, samples_of_steady nodup part]
  have run_five : SteadyRun r s.monitor.period after t :=
    ⟨fun d member => run_after.steady d (List.mem_append_left _ member),
      fun member => run_after.level (List.mem_append_left _ member), free, taken⟩
  have start : startPeriod s = begun s := startPeriod_of_up (on.imp_right .inr)
  rw [sequenceWith_of_up, start, all, five _ run_after distinct_after]
  rw [start, split, five _ run_five (List.nodup_append.mp distinct_after).1]
  refine panvConverted_of_up ?_ ?_ <;> rw [steadySteps_platform]
  · exact on'.imp_right .inr
  · exact no_interval

/-- PANV turns its flag last. -/
theorem sequenceWith_of_turning_panv (others : OthersSteady .panv r s) (on : s.platform.state = .active)
    (no_interval : s.platform.powerUp = none) (turn : sampleChannel k .panv r.panv.toNat s.monitor.period
      (steadySteps r s.monitor.period [.batv, .bati, .ptemp, .dtemp, .amb] (begun s)) = t) :
    sequenceWith k r s.monitor.period false s = t := by
  have run : SteadyRun r s.monitor.period [.batv, .bati, .ptemp, .dtemp, .amb] (begun s) :=
    ⟨fun d member => begun_get d ▸ others.steady d fun same => absurd (same ▸ member) (by decide), fun _ => others.level,
      others.notHeld, others.candidateTaken⟩
  have start : startPeriod s = begun s := startPeriod_of_up (.inl on)
  have all : allChannels = [.batv, .bati, .ptemp, .dtemp, .amb] ++ .panv :: [] := rfl
  rw [sequenceWith_of_up, start, all, samples_append_cons, samples_of_steady (by decide) run]
  · exact turn
  · rw [start, samples_of_steady (by decide) run]
    refine panvConverted_of_up ?_ ?_ <;> rw [steadySteps_platform]
    · exact .inl on
    · exact no_interval

/-- The light under a new thermal cap (R114, R115). -/
def thermalCut (cap : Nat) (l : Light) : Light :=
  let e := min l.chargeCap cap
  let total := totalDuty l.curve e
  if e < l.rampLevel then { l with
      thermalCap := cap, rampLevel := e, warmDuty := total * l.rampWarmth / 255, coolDuty := total - total * l.rampWarmth / 255 }
  else { l with thermalCap := cap }

theorem thermalCut_autoFirst (cap : Nat) (l : Light) : (thermalCut cap l).autoFirst = l.autoFirst := by
  simp only [thermalCut]
  split <;> rfl

theorem setThermalCap_of_active (fault : Bool) (active : s.platform.state = .active) :
    setThermalCap .full fault s = { s with light := thermalCut (if fault = true then 256 else 1023) s.light } := by
  unfold setThermalCap
  generalize (if fault = true then 256 else 1023) = cap
  unfold capCut
  by_cases cut : min s.light.chargeCap cap < s.light.rampLevel
  · refine (if_pos cut).trans ?_
    rw [thermalCut, if_pos cut]
    refine (ite_eq_right_iff.mpr fun _ => recheckNow_of_active (by exact active)).trans rfl
  · refine (if_neg cut).trans ?_
    rw [thermalCut, if_neg cut]
    rfl

/-- In HALTING with an update active the platform's check does nothing. -/
theorem recheckNow_of_busy_halting (halting : s.platform.state = .halting) (busy : s.engine.active ≠ []) : recheckNow s = s := by
  simp only [recheckNow, halting]
  exact haltCheck_of_busy busy

/-! ### The steady steps, channel by channel -/

@[simp] theorem steadySteps_nil : steadySteps r n [] s = s := rfl
@[simp] theorem steadySteps_cons (cs : List Channel) : steadySteps r n (c :: cs) s = steadySteps r n cs (steadyStep c r n s) := rfl

@[simp] theorem steadyStep_batv : steadyStep .batv r n s =
    { s with monitor := { s.monitor with batv := steadySample .batv s.monitor.batv r.batv } } := rfl
@[simp] theorem steadyStep_bati : steadyStep .bati r n s = { s with
    monitor := { s.monitor with bati := steadySample .bati s.monitor.bati r.bati }
    charge := integrated (convert .bati s.monitor.bati r.bati.toNat) n s.charge } := rfl
@[simp] theorem steadyStep_ptemp : steadyStep .ptemp r n s =
    { s with monitor := { s.monitor with ptemp := steadySample .ptemp s.monitor.ptemp r.ptemp } } := rfl
@[simp] theorem steadyStep_dtemp : steadyStep .dtemp r n s =
    { s with monitor := { s.monitor with dtemp := steadySample .dtemp s.monitor.dtemp r.dtemp } } := rfl
@[simp] theorem steadyStep_amb : steadyStep .amb r n s = { s with
    monitor := { s.monitor with amb := steadySample .amb s.monitor.amb r.amb }
    light := lightAfterAmb (convert .amb s.monitor.amb r.amb.toNat) s.light } := rfl
@[simp] theorem steadyStep_panv : steadyStep .panv r n s =
    { s with monitor := { s.monitor with panv := steadySample .panv s.monitor.panv r.panv } } := rfl

/-- Settles O48: the requests, the limit check, then the sequence by the channel that turns its flag. -/
theorem monitorRequestsAndDebounce : Obligations.MonitorRequestsAndDebounce := by
  refine ⟨?_, ?_, ?_⟩
  · intro m c i s known range x
    refine ⟨fun v takes => ⟨fun inside => ?_, fun outside => ?_⟩,
      fun gain offset low high takes limited => ⟨fun least order most => ?_, fun bad => ?_⟩⟩
    · refine congrArg Host.Outcome.next ?_
      rw [takeRequest_main (monitorTest .main) takes, monitorTest_of_channel known, if_pos ((inRange_iff _ _).mpr inside),
        respond_taken takes.ready _ _ rfl]
      rfl
    · have not_inside : ¬ inRange (channelRange c) v = true := fun h => by
        obtain ⟨least, most⟩ := (inRange_iff _ _).mp h
        exact outside.elim (not_lt.mpr least) (not_lt.mpr most)
      refine congrArg Host.Outcome.next ?_
      rw [takeRequest_main (monitorTest .main) takes, monitorTest_of_channel known, if_neg not_inside, refuse_mainTaken _ takes.ready]
    · refine congrArg Host.Outcome.next ?_
      rw [takeRequest_main (monitorConfig .main) takes, monitorConfig_of_channel known,
        if_pos ((goodLimits_iff limited).mpr ⟨least, order, most⟩), respond_taken takes.ready _ _ rfl]
      simp only [configured, hasLimits_of_ne limited, if_true]
      rfl
    · refine congrArg Host.Outcome.next ?_
      rw [takeRequest_main (monitorConfig .main) takes, monitorConfig_of_channel known,
        if_neg fun good => bad ((goodLimits_iff limited).mp good), refuse_mainTaken _ takes.ready]
  · intro c x v limited n outside
    have count : n = debounce c := by
      cases c with
      | amb => exact absurd rfl limited
      | batv | bati | ptemp | dtemp | panv => rfl
    refine ⟨fun still => checkLimits_of_steady limited fun points => (runPoints_iff x v).mp points still,
      fun points short => checkLimits_of_running limited ((runPoints_iff x v).mpr points) (count ▸ short),
      fun points due => checkLimits_of_turn limited ((runPoints_iff x v).mpr points) (count ▸ due)⟩
  · intro c r s no_interval limited others x raw v noTest outside due entering after base
    have turning : Turning c r (s.monitor.get c) := ⟨limited, noTest, outside, due⟩
    let n := s.monitor.period
    have turns (cs : List Channel) (first : c ∉ cs) (on : s.platform.state = .active ∨ s.platform.state = .halting) :
        sampleChannel .full c raw.toNat n (steadySteps r n cs (begun s)) = handOver .full c v n false
          (faultEffect .full c entering (faultTold c r (steadySteps r n cs (begun s)))) := by
      have same : (steadySteps r n cs (begun s)).monitor.get c = x := (steadySteps_get_other _ first).trans (begun_get c)
      have turned := sampleChannel_of_turning (k := .full) (n := n) (s := steadySteps r n cs (begun s)) (by rw [same]; exact turning)
        (by rw [steadySteps_platform]; exact on)
      rw [same] at turned
      exact turned
    refine ⟨fun active channel => congrArg Host.Outcome.next ?_, fun active channel => ?_,
      fun active channel empty => congrArg Host.Outcome.next ?_, fun active channel leaves => congrArg Host.Outcome.next ?_,
      fun active channel enters empty busy none_open => congrArg Host.Outcome.next ?_,
      fun halting channel enters busy => congrArg Host.Outcome.next ?_⟩
    · rcases channel with rfl | rfl
      · have turn := (turns [.batv] (by decide) (.inl active)).trans (handOver_eq
          (s := faultTold .bati r (steadySteps r n [.batv] (begun s))) (fun _ => others.level) others.notHeld others.candidateTaken)
        rw [sequenceWith_of_turning (before := [.batv]) (after := [.ptemp, .dtemp, .amb]) rfl others (.inl active) turn
          (fun d other => get_set_other _ _ other) (fun late => absurd late (by decide)) others.notHeld others.candidateTaken
          (.inl active) no_interval, recheckNow_of_active (by rw [steadySteps_platform]; exact active)]
        simp [handed, faultTold, begun, Monitor.set, Monitor.get, readingOf, base, after, steadyAfter, steadyMonitor, x, raw, v, entering, n]
      · rw [sequenceWith_of_turning (before := [.batv, .bati]) (after := [.dtemp, .amb]) rfl others (.inl active)
          (turns [.batv, .bati] (by decide) (.inl active))
          (fun d other => get_set_other _ _ other) (fun late => absurd late (by decide)) others.notHeld others.candidateTaken
          (.inl active) no_interval, recheckNow_of_active (by rw [steadySteps_platform]; exact active)]
        simp [handOver, faultEffect, faultTold, begun, Monitor.set, Monitor.get, readingOf, base, after, steadyAfter, steadyMonitor, x, raw, v, entering, n]
    · intro cap e total cut
      subst channel
      refine congrArg Host.Outcome.next ?_
      have turn := (turns [.batv, .bati, .ptemp] (by decide) (.inl active)).trans
        (setThermalCap_of_active (s := faultTold .dtemp r (steadySteps r n [.batv, .bati, .ptemp] (begun s))) entering active)
      rw [sequenceWith_of_turning (before := [.batv, .bati, .ptemp]) (after := [.amb]) rfl others (.inl active) turn
        (fun d other => get_set_other _ _ other) (fun late => absurd late (by decide)) others.notHeld
        ((thermalCut_autoFirst _ _).trans others.candidateTaken) (.inl active) no_interval,
        recheckNow_of_active (by rw [steadySteps_platform]; exact active)]
      simp [faultTold, begun, Monitor.set, Monitor.get, readingOf, base, after, steadyAfter, steadyMonitor, x, raw, v, entering, n, cut, total, e, cap, thermalCut]
    · subst channel
      have turn := turns [.batv, .bati, .ptemp, .dtemp, .amb] (by decide) (.inl active)
      have effect : faultEffect .full .panv entering (faultTold .panv r (steadySteps r n [.batv, .bati, .ptemp, .dtemp, .amb] (begun s))) =
          faultTold .panv r (steadySteps r n [.batv, .bati, .ptemp, .dtemp, .amb] (begun s)) := by
        refine ite_eq_left_iff.mpr fun _ => ?_
        rw [considerationPass_nil .full (by exact empty)]
        exact recheckNow_of_active (by exact active)
      rw [sequenceWith_of_turning_panv others active no_interval (turn.trans effect), recheckNow_of_active (by exact active)]
      simp [faultTold, begun, Monitor.set, Monitor.get, readingOf, base, after, steadyAfter, steadyMonitor, x, raw, v, entering, n]
    · subst channel
      have turn := turns [] (by decide) (.inl active)
      rw [leaves] at turn
      rw [sequenceWith_of_turning (before := []) (after := [.bati, .ptemp, .dtemp, .amb]) rfl others (.inl active) turn
        (fun d other => get_set_other _ _ other) (fun _ => rfl) others.notHeld others.candidateTaken
        (.inl active) no_interval, recheckNow_of_active (by rw [steadySteps_platform]; exact active)]
      simp [handOver, faultEffect, faultTold, begun, Monitor.set, Monitor.get, readingOf, base, after, steadyAfter, steadyMonitor, x, raw, v, entering, n]
    · subst channel
      have turn := turns [] (by decide) (.inl active)
      rw [enters] at turn
      have effect : faultEffect .full .batv true (faultTold .batv r (begun s)) = afterHalting .brownout
          { faultTold .batv r (begun s) with platform := haltPlatform .brownout s.platform } := by
        refine Eq.trans ?_ (haltNow_of_none_pending (s := faultTold .batv r (begun s)) active empty busy none_open)
        simp only [faultEffect, if_true, brownout, show (faultTold .batv r (begun s)).platform.state = .active from active]
        rfl
      rw [sequenceWith_of_turning (before := []) (after := [.bati, .ptemp, .dtemp, .amb]) rfl others (.inl active) (turn.trans effect)
        (fun d other => get_set_other _ _ other) (fun _ => rfl) others.notHeld others.candidateTaken
        (.inr rfl) no_interval, recheckNow_of_busy_halting rfl (by exact busy)]
      simp [faultTold, begun, Monitor.set, Monitor.get, readingOf, base, after, steadyAfter, steadyMonitor, x, raw, v, entering, afterHalting, haltPlatform, suspendedWave, resetPort,
        HaltCause.cause]
      rfl
    · subst channel
      have turn := turns [] (by decide) (.inr halting)
      rw [enters] at turn
      have effect := brownout_of_halting .full (s := faultTold .batv r (begun s)) halting
      rw [sequenceWith_of_turning (before := []) (after := [.bati, .ptemp, .dtemp, .amb]) rfl others (.inr halting) (turn.trans effect)
        (fun d other => get_set_other _ _ other) (fun _ => rfl) others.notHeld others.candidateTaken
        (.inr halting) no_interval, recheckNow_of_busy_halting (by exact halting) (by exact busy)]
      simp [faultTold, begun, Monitor.set, Monitor.get, readingOf, base, after, steadyAfter, steadyMonitor, x, raw, v, entering]
      rfl

end Sys2Proof.Machine
end

