-- ==== Sys2Proof/Proofs/OffEntry.lean ====
section
/-! PROOFS. Entry to OFF (R165): what it leaves, and the last ramp tick of HALTING (R118, R121). -/

namespace Sys2Proof.Machine

variable {s t : State}

/-! ## A sequence in OFF changes little (R124, R125) -/

/-- OFF with the blocks that lie in the DRAM at their OFF-entry values, as far as a sequence asks. -/
structure Dark (s : State) : Prop where
  off : s.platform.state = .off
  level : s.light.rampLevel = 0
  manual : s.light.auto = false
  free : s.spool.held = false

/-- The one state is the other but for the monitor, the account, the light's caps, the standby port and the readings used; the
account keeps its reservations. -/
def OffKeeps (s t : State) : Prop :=
  ∃ a b m c p i n, c.updates = s.charge.updates ∧ c.chunk = s.charge.chunk ∧ t = { s with
    light := { s.light with chargeCap := a, thermalCap := b }
    monitor := m, charge := c, portStandby := p, inputs := i, samples := n }

/-- A sequence after the first with the panel supply down: PANV is not converted. -/
theorem sequenceWith_of_down {k : Hooks} {r : Readings} {n : Nat}
    (down : panvConverted (samples k r n [.batv, .bati, .ptemp, .dtemp, .amb] (startPeriod s)) = false) :
    sequenceWith k r n false s = samples k r n [.batv, .bati, .ptemp, .dtemp, .amb] (startPeriod s) :=
  if_neg (by
    show ¬ panvConverted (samples k r n [.batv, .bati, .ptemp, .dtemp, .amb] (startPeriod s)) = true
    rw [down]
    decide)

theorem handOver_bati {k : Hooks} (v : Int) (n : Nat) (test : Bool) : handOver k .bati v n test s = batiSample k v n test s := rfl

theorem batiSample_test {k : Hooks} (v : Int) (n : Nat) : batiSample k v n true s = evaluate k s := by
  unfold batiSample
  rw [if_pos rfl]

namespace OffKeeps

theorem refl (s : State) : OffKeeps s s := ⟨_, _, _, _, _, _, _, rfl, rfl, rfl⟩

theorem dark (dark : Dark s) (h : OffKeeps s t) : Dark t := by
  obtain ⟨a, b, m, c, p, i, n, updates, chunk, rfl⟩ := h
  exact ⟨dark.off, dark.level, dark.manual, dark.free⟩

theorem onMonitor (f : Monitor → Monitor) (h : OffKeeps s t) : OffKeeps s (onMonitor f t) := by
  obtain ⟨a, b, m, c, p, i, n, updates, chunk, rfl⟩ := h
  exact ⟨_, _, _, _, _, _, _, updates, chunk, rfl⟩

theorem onCharge {f : Charge → Charge} (updates : ∀ c, (f c).updates = c.updates) (chunk : ∀ c, (f c).chunk = c.chunk)
    (h : OffKeeps s t) : OffKeeps s (onCharge f t) := by
  obtain ⟨a, b, m, c, p, i, n, kept, kept', rfl⟩ := h
  exact ⟨_, _, _, _, _, _, _, (updates c).trans kept, (chunk c).trans kept', rfl⟩

theorem useReadings (h : OffKeeps s t) : OffKeeps s (useReadings t) := by
  obtain ⟨a, b, m, c, p, i, n, updates, chunk, rfl⟩ := h
  unfold Machine.useReadings
  split <;> exact ⟨_, _, _, _, _, _, _, updates, chunk, rfl⟩

theorem offerMain (dark : Dark s) (w : Bool) (note : Notice) (h : OffKeeps s t) : OffKeeps s (offerMain w note t) := by
  rw [offerMain_of_off (h.dark dark).off]
  exact h

theorem offerStandby (note : Notice) (h : OffKeeps s t) : OffKeeps s (offerTo .standby note t) := by
  obtain ⟨a, b, m, c, p, i, n, updates, chunk, rfl⟩ := h
  rw [offerTo_standby]
  exact ⟨_, _, _, _, _, _, _, updates, chunk, rfl⟩

/-- A dark ramp is within every cap. -/
theorem setChargeCap (dark : Dark s) (h : OffKeeps s t) : OffKeeps s (setChargeCap .quiet t) := by
  rw [setChargeCap_of_within .quiet (by rw [(h.dark dark).level]; exact Nat.zero_le _)]
  obtain ⟨a, b, m, c, p, i, n, updates, chunk, rfl⟩ := h
  exact ⟨_, _, _, _, _, _, _, updates, chunk, rfl⟩

theorem setThermalCap (dark : Dark s) (fault : Bool) (h : OffKeeps s t) : OffKeeps s (setThermalCap .quiet fault t) := by
  have level := (h.dark dark).level
  rw [Machine.setThermalCap, capCut_of_within .quiet (by exact level ▸ Nat.zero_le _)]
  obtain ⟨a, b, m, c, p, i, n, updates, chunk, rfl⟩ := h
  exact ⟨_, _, _, _, _, _, _, updates, chunk, rfl⟩

theorem changeLevel (dark : Dark s) (j : Nat) (h : OffKeeps s t) : OffKeeps s (changeLevel .quiet j t) := by
  have changed := (((h.onCharge (f := fun c => { c with level := j }) (fun _ => rfl) fun _ => rfl).offerMain dark
    (decide (t.charge.level < j)) (chargeLevelNotice { t.charge with level := j })).offerStandby
    (chargeLevelNotice { t.charge with level := j })).setChargeCap dark
  unfold Machine.changeLevel
  dsimp only
  split
  · exact changed
  · exact changed

theorem evaluate (dark : Dark s) (h : OffKeeps s t) : OffKeeps s (evaluate .quiet t) := by
  have changed : OffKeeps s (if nextLevel t.charge = t.charge.level then t else Machine.changeLevel .quiet (nextLevel t.charge) t) := by
    split
    · exact h
    · exact h.changeLevel dark _
  unfold Machine.evaluate
  rw [spoolEvaluated_of_not_held (changed.dark dark).free]
  exact changed

theorem faultEffect (dark : Dark s) (idle : s.engine.queue = []) (c : Channel) (entering : Bool) (h : OffKeeps s t) :
    OffKeeps s (faultEffect .quiet c entering t) := by
  have off := (h.dark dark).off
  cases c with
  | batv =>
    have still : brownout .quiet t = t := by simp only [brownout, off]
    simp only [Machine.faultEffect, still, ite_self]
    exact h
  | dtemp => exact h.setThermalCap dark entering
  | panv =>
    have empty : t.engine.queue = [] := by
      obtain ⟨a, b, m, c, p, i, n, _, _, rfl⟩ := h
      exact idle
    have same : Machine.faultEffect .quiet .panv entering t = t :=
      ite_eq_left_iff.mpr fun _ => considerationPass_nil .quiet empty
    rw [same]
    exact h
  | bati | ptemp | amb => exact h

theorem handOver (dark : Dark s) (c : Channel) (v : Int) (n : Nat) (test : Bool) (h : OffKeeps s t) :
    OffKeeps s (handOver .quiet c v n test t) := by
  cases c with
  | bati =>
    rw [handOver_bati]
    cases test with
    | true => rw [batiSample_test]; exact h.evaluate dark
    | false => rw [batiSample_converted]; exact (h.onCharge (f := integrated v n) (fun _ => rfl) fun _ => rfl).evaluate dark
  | amb =>
    have manual := (h.dark dark).manual
    have same : onLight (ambSample v.toNat) t = t := by
      simp only [onLight, ambSample, manual, Bool.false_eq_true, if_false]
      rfl
    simp only [Machine.handOver, same]
    exact h
  | batv | ptemp | dtemp | panv => exact h

theorem sampleChannel (dark : Dark s) (idle : s.engine.queue = []) (c : Channel) (raw n : Nat) (h : OffKeeps s t) :
    OffKeeps s (sampleChannel .quiet c raw n t) := by
  unfold Machine.sampleChannel
  dsimp only
  refine handOver dark c _ n _ ?_
  split
  · exact ((h.onMonitor _).offerMain dark _ _).faultEffect dark idle c _
  · exact h.onMonitor _

theorem samples (dark : Dark s) (idle : s.engine.queue = []) (r : Readings) (n : Nat) : ∀ (cs : List Channel) (t : State),
    OffKeeps s t → OffKeeps s (samples .quiet r n cs t)
  | [], _, h => h
  | c :: cs, _, h => samples dark idle r n cs _ (h.sampleChannel dark idle c _ n)

/-- The sequence of a change of period made in OFF, where PANV is not converted. -/
theorem changePeriod (dark : Dark s) (idle : s.engine.queue = []) (h : OffKeeps s t) : OffKeeps s (changePeriod .quiet t) := by
  have start : OffKeeps s (startPeriod (Machine.useReadings t)) := h.useReadings.onMonitor _
  have five := samples dark idle (nextReadings t) t.monitor.elapsed [.batv, .bati, .ptemp, .dtemp, .amb] _ start
  rw [Machine.changePeriod, sequenceWith_of_down]
  · exact five
  · simp [panvConverted, (five.dark dark).off]

end OffKeeps

/-! ## OFF entry (R165) -/

/-- What OFF entry leaves. -/
structure OffEntered (s t : State) : Prop where
  platform : t.platform = { s.platform with state := .off, wakeMain := false, haltCause := none, pageDecided := false }
  pool : t.pool = .reset
  dram : t.dram = []
  store : t.store = .reset
  window : t.window = { s.window with
    entries := [], cursor := none, shown := none, lastTurn := none, aheadArmed := true, behindArmed := true }
  engine : t.engine = { s.engine with
    queue := [], active := [], nextId := 1, bus := [], frameTimer := none, ghosts := List.replicate 64 s.engine.ghostLimit }
  wave : t.wave = { WaveTable.reset with scrubPeriod := s.wave.scrubPeriod }
  spool : t.spool = { Spool.reset with chunkAge := s.spool.chunkAge, titleWake := s.spool.titleWake }
  light : t.light.level = 0 ∧ t.light.rampLevel = 0 ∧ t.light.coolDuty = 0 ∧ t.light.warmDuty = 0 ∧ t.light.auto = false
    ∧ t.light.rampTimer = none
  charge : t.charge.updates = [] ∧ t.charge.chunk = none
  portMain : t.portMain = resetPort s.portMain

/-- OFF entry up to the sequence of its change of period. -/
def offValues (s : State) : State :=
  let cause := (s.platform.haltCause.map HaltCause.cause).getD .powerOff
  s |> onPort .main (resetUnit .idle)
    |> onPlatform (fun f => { f with state := .off, wakeMain := false, haltCause := none, pageDecided := false })
    |> loseDram |> loseTable |> stopTimers |> clearTests |> reportState .off .halting cause

theorem enterOff_eq : enterOff s = changePeriod .quiet (offValues s) := rfl

theorem offValues_dark : Dark (offValues s) := by
  exact ⟨rfl, rfl, rfl, rfl⟩

theorem offEntered (s : State) : OffEntered s (enterOff s) := by
  have kept : OffKeeps (offValues s) (enterOff s) :=
    (OffKeeps.refl (offValues s)).changePeriod offValues_dark rfl
  obtain ⟨a, b, m, c, p, i, n, updates, chunk, same⟩ := kept
  rw [same]
  exact ⟨rfl, rfl, rfl, rfl, rfl, rfl, rfl, rfl, ⟨rfl, rfl, rfl, rfl, rfl, rfl⟩, ⟨updates, chunk⟩, rfl⟩

/-- HALTING with its page decided, nothing live and the light dark goes OFF at its check. -/
theorem haltCheck_goes_off {c : HaltCause} (halting : s.platform.state = .halting) (decided : s.platform.pageDecided = true)
    (empty : s.engine.queue = []) (idle : s.engine.active = []) (dark : s.light.rampLevel = 0) (cause : s.platform.haltCause = some c)
    (stays : c ≠ .restart) : haltCheck s = enterOff s := by
  have page : pageCheck s = s := if_neg fun due => by simp [decided] at due
  have can : canGoOff s = true := by simp [canGoOff, engineIdle, halting, decided, empty, idle, dark]
  have no_restart : ¬ s.platform.haltCause = some .restart := by rw [cause]; exact fun same => stays (Option.some.inj same)
  simp only [haltCheck, page, can, if_true, offEntry, no_restart, if_false]

theorem recheckNow_of_halting (halting : s.platform.state = .halting) : recheckNow s = haltCheck s := by
  simp only [recheckNow, halting]

/-- In HALTING a tick takes a light of at most 64 to 0. -/
theorem rampedLight_of_halting (halting : s.platform.state = .halting) (low : s.light.rampLevel ≤ 64) :
    (rampedLight s).rampLevel = 0 := by
  have goal : effectiveTarget s = 0 := by simp only [effectiveTarget, halting]
  have step : rampStepNow s = 64 := if_pos halting
  have level : approach 64 0 s.light.rampLevel = 0 := by simp [approach]; omega
  simp only [rampedLight, goal, step, level]
  split <;> rfl

/-- Settles O55: the tick is reported, and the check goes OFF. -/
theorem theLastRampTickEntersOff : Obligations.TheLastRampTickEntersOff := by
  intro c s halting no_interval decided empty idle running lit low cause stays
  have dark : (s.withLight (rampedLight s)).light.rampLevel = 0 := rampedLight_of_halting halting low
  have tick : exec .rampTick s = .next (enterOff (s.withLight (rampedLight s))) := by
    refine congrArg Host.Outcome.next ((if_pos running).trans ((if_pos ⟨by omega, dark⟩).trans ?_))
    rw [recheckNow_of_halting (by exact halting)]
    exact haltCheck_goes_off (s := s.withLight (rampedLight s)) halting decided empty idle dark cause stays
  have off := offEntered (s.withLight (rampedLight s))
  exact ⟨_, tick, off.platform, ⟨off.pool, off.dram, off.store⟩, off.window, off.engine, off.wave, off.spool, off.light, off.charge,
    off.portMain⟩

end Sys2Proof.Machine
end

