-- ==== Sys2Proof/Proofs/Restart.lean ====
section
/-! PROOFS. The restart (R147, R166), and the connection of the battery (R148, R167). -/

namespace Sys2Proof.Machine

variable {k : Hooks} {s t : State} {r : Readings} {n : Nat} {c : Channel}

/-! ## POWER_ON and the restart (R166) -/

/-- A channel without a pending test value (R122). -/
def untested (x : ChannelState) : ChannelState := { x with pendingTest := none }

/-- A port unit at its restart value (R185). -/
def restarted (u : PortUnit) : PortUnit := { resetPort u with counters := .zero, degraded := false }

/-- The restart up to its sequence, where the restart evaluation finds the level index unchanged. -/
def restartState (c : Cause) (s : State) : State :=
  { s with
    pool := .reset, dram := [], store := .reset, window := .reset, wave := .reset, spool := .reset
    engine := { Engine.reset with frameTimer := some (framePeriod Engine.reset.frameRate) }
    light := { Light.reset with
      chargeCap := chargeCapOf s.charge.level, thermalCap := if s.monitor.dtemp.fault = true then 256 else 1023
      rampTimer := some 16 }
    monitor := { s.monitor with
      batv := untested s.monitor.batv, bati := untested s.monitor.bati, ptemp := untested s.monitor.ptemp
      dtemp := untested s.monitor.dtemp, amb := untested s.monitor.amb, panv := untested s.monitor.panv }
    charge := { s.charge with updates := [], chunk := none }
    platform := { Platform.reset with
      state := .active, key := s.platform.key, holdTimer := s.platform.holdTimer, clock := s.platform.clock
      clockMs := s.platform.clockMs }
    portMain := offerUnit (.stateChanged .active .off c s.platform.clock) (restarted s.portMain)
    portStandby := offerUnit (.stateChanged .active .off c s.platform.clock) { s.portStandby with counters := .zero, degraded := false }
    portRadio := restarted s.portRadio
    linkThreshold := 64 }

theorem framePeriod_reset : framePeriod Engine.reset.frameRate = 11764 := by decide

theorem restartNow_of_same {cause : Cause} (same : rawIndex { s.charge with updates := [], chunk := none } = s.charge.level) :
    restartNow cause s = changePeriod .haltOnly (restartState cause s) := by
  have evaluated : restartEvaluation (clearTests (restartValues s)) = clearTests (restartValues s) := if_pos same
  unfold restartNow
  rw [evaluated, reportState, offerTo_standby]
  refine congrArg (changePeriod .haltOnly) ((offerMain_plain ?_).trans rfl)
  show PlatformState.active ≠ .off
  decide

theorem restartAllowed_iff : restartAllowed s = true ↔ floorTurn s.charge ≤ s.charge.q ∧ s.monitor.batv.fault = false := by
  simp only [restartAllowed, Bool.and_eq_true, decide_eq_true_eq, Bool.not_eq_true']

theorem powerOn_of_off {p : Port} (off : s.platform.state = .off) : powerOn p s =
    if restartAllowed s = true then restartNow .powerOn (respond p .ok [] s) else refuse p .lowCharge s := by
  simp only [powerOn, off]

theorem powerOn_of_active {p : Port} (active : s.platform.state = .active) : powerOn p s = respond p .ok [] s := by
  simp only [powerOn, active]

/-- Settles O56: in OFF by the restart conditions, in ACTIVE at once. -/
theorem powerOnRestartsFromOff : Obligations.PowerOnRestartsFromOff := by
  refine fun m s => ⟨fun takes off => ?_, fun takes => congrArg Host.Outcome.next ?_⟩
  · intro c note noTest u cleared
    obtain ⟨left, idled⟩ := restartIdle_frame s
    have row : exec (.powerOn .standby m) s = .next (powerOn .standby (otherTaken .standby .powerOn m s)) :=
      congrArg Host.Outcome.next (takeRequest_other (fun _ => powerOn .standby) takes)
    have taken_off : (otherTaken .standby .powerOn m s).platform.state = .off := by
      rw [otherTaken, idled, State.withPort_platform]
      exact off
    have allowed_iff : restartAllowed (otherTaken .standby .powerOn m s) = true ↔ floorTurn c ≤ s.charge.q ∧ s.monitor.batv.fault = false := by
      rw [restartAllowed_iff, otherTaken, idled, State.withPort_charge, State.withPort_monitor]
      rfl
    refine ⟨fun rich sound same => ?_, fun refused => ?_⟩
    · rw [row, powerOn_of_off taken_off, if_pos (allowed_iff.mpr ⟨rich, sound⟩), respond_otherTaken _ _ takes.ready, otherAnswered, idled]
      refine congrArg Host.Outcome.next (Eq.trans (restartNow_of_same same) ?_)
      rw [restartState, framePeriod_reset]
      rfl
    · have not_allowed : ¬ restartAllowed (otherTaken .standby .powerOn m s) = true := fun allowed => by
        obtain ⟨rich, sound⟩ := allowed_iff.mp allowed
        rcases refused with poor | fault
        · omega
        · rw [sound] at fault; cases fault
      rw [row, powerOn_of_off taken_off, if_neg not_allowed, refuse_otherTaken _ takes.ready]
  · rw [takeRequest_main (fun _ => powerOn .main) takes, powerOn_of_active takes.taken_active, respond_mainTaken _ _ takes.ready]

/-! ## The first sample of a channel (R122, R126) -/

/-- A channel before its first sample. -/
structure Fresh (x : ChannelState) : Prop where
  noTest : x.pendingTest = none
  converted : x.test = false
  sound : x.fault = false
  noRun : x.run = 0

/-- A channel after its first sample, which is short of every debounce count but 1. -/
def firstSample (c : Channel) (r : Readings) (x : ChannelState) : ChannelState :=
  let v := convert c x (readingOf r c).toNat
  { x with last := some v, raw := (readingOf r c).toNat, run := if c ≠ .amb ∧ (v < x.low ∨ x.high < v) then 1 else 0 }

/-- The record of a conversion, before the limit check. -/
def convertedRecord (c : Channel) (r : Readings) (x : ChannelState) : ChannelState :=
  { x with last := some (convert c x (readingOf r c).toNat), raw := (readingOf r c).toNat }

theorem recordSample_of_fresh {x : ChannelState} (fresh : Fresh x) :
    recordSample c x (readingOf r c).toNat = convertedRecord c r x := by
  obtain ⟨noTest, converted, sound, noRun⟩ := fresh
  simp only [recordSample, convertedRecord, sampleValue, noTest, converted, Option.isSome_none, Bool.false_eq_true, if_false]

theorem faultChanges_of_fresh {x : ChannelState} (fresh : Fresh x) (slow : c = .amb ∨ 2 ≤ debounce c) (v : Int) :
    faultChanges c (convertedRecord c r x) v = false := by
  rcases slow with rfl | slow
  · rfl
  · have short : ¬ debounce c ≤ (convertedRecord c r x).run + 1 := by
      rw [show (convertedRecord c r x).run = 0 from fresh.noRun]
      omega
    simp only [faultChanges, short, decide_false, Bool.and_false]

theorem checkLimits_of_fresh {x : ChannelState} (fresh : Fresh x) (slow : c = .amb ∨ 2 ≤ debounce c) :
    checkLimits c (convertedRecord c r x) (convert c x (readingOf r c).toNat) = firstSample c r x := by
  by_cases limited : c = .amb
  · subst limited
    rw [firstSample, if_neg fun h => h.1 rfl, ← fresh.noRun]
    rfl
  · have short : (convertedRecord c r x).run + 1 < debounce c := by
      rw [show (convertedRecord c r x).run = 0 from fresh.noRun]
      exact slow.resolve_left limited
    have points : runPoints (convertedRecord c r x) (convert c x (readingOf r c).toNat) = true ↔
        (convert c x (readingOf r c).toNat < x.low ∨ x.high < convert c x (readingOf r c).toNat) := by
      rw [runPoints_iff, show (convertedRecord c r x).fault = false from fresh.sound]
      simp only [Bool.false_eq_true, iff_false, not_not]
      rfl
    by_cases outside : convert c x (readingOf r c).toNat < x.low ∨ x.high < convert c x (readingOf r c).toNat
    · rw [checkLimits_of_running limited (points.mpr outside) short, firstSample, if_pos ⟨limited, outside⟩,
        show (convertedRecord c r x).run = 0 from fresh.noRun]
      rfl
    · rw [checkLimits_of_steady limited (mt points.mp outside), firstSample, if_neg fun h => outside h.2]
      rfl

theorem sampleChannel_of_fresh (fresh : Fresh (s.monitor.get c)) (slow : c = .amb ∨ 2 ≤ debounce c) :
    sampleChannel k c (readingOf r c).toNat n s = handOver k c (convert c (s.monitor.get c) (readingOf r c).toNat) n false
      (setChannel c (firstSample c r (s.monitor.get c)) s) := by
  have value : sampleValue c (s.monitor.get c) (readingOf r c).toNat = convert c (s.monitor.get c) (readingOf r c).toNat := by
    simp only [sampleValue, fresh.noTest]
  simp only [sampleChannel, value, recordSample_of_fresh fresh, faultChanges_of_fresh fresh slow, checkLimits_of_fresh fresh slow,
    fresh.noTest, Option.isSome_none, Bool.false_eq_true, if_false]

/-! ## The start-up estimate (R148) -/

theorem nextLevel_of_raw {c : Charge} (level : c.level = rawIndex c) : nextLevel c = c.level := by
  rw [nextLevel_of_le_raw (Nat.le_of_eq level), level]

/-- The integration of no interval sets the last sample alone. -/
theorem integrated_of_no_interval {c : Charge} {v : Int} (within : c.q ≤ qFull c) :
    integrated v 0 c = { c with last := ⟨v, 0, 0⟩ } := by
  have same : (max 0 (min ((c.q : Int) + v * (0 : Nat)) (qFull c))).toNat = c.q := by omega
  simp only [integrated, same, sub_self]

/-- The account after the first sequence: the estimate, and a BATI sample over no interval. -/
def estimated0 (batv bati : Int) (c : Charge) : Charge := { startUpEstimate batv c with last := ⟨bati, 0, 0⟩ }

theorem startUpEstimate_eq {v : Int} {c : Charge} {q : Nat} (estimate : qFull c * ocvPerMille c.params.ocv v / 1000 = q) :
    startUpEstimate v c = { c with q := q, level := rawIndex { c with q := q } } := by
  subst estimate
  unfold startUpEstimate
  dsimp only

/-- The raw index reads the charge, the reservations and the parameters. -/
theorem rawIndex_congr {c d : Charge} (q : c.q = d.q) (updates : c.updates = d.updates) (chunk : c.chunk = d.chunk)
    (params : c.params = d.params) : rawIndex c = rawIndex d := by
  have full : qFull c = qFull d := by rw [qFull, params, qFull]
  have free : available c = available d := by rw [available, reserved, q, updates, chunk, available, reserved]
  have floor (n : Nat) : floorOf c n = floorOf d n := by rw [floorOf, full, floorOf]
  unfold rawIndex floorShutdown floorTurn floorLight floorRadio
  rw [q, free, params, floor, floor, floor, floor]

theorem startUpEstimate_sound (v : Int) (c : Charge) : (startUpEstimate v c).q ≤ qFull (startUpEstimate v c)
    ∧ (startUpEstimate v c).level = rawIndex (startUpEstimate v c) := by
  obtain ⟨q, l, estimate, within, _⟩ := exists_startUpEstimate v c
  refine ⟨by rw [estimate]; exact within, ?_⟩
  generalize value : qFull c * ocvPerMille c.params.ocv v / 1000 = q'
  rw [startUpEstimate_eq value]
  exact rawIndex_congr rfl rfl rfl rfl

/-- One of the first samples, with its hand-over. -/
def firstStep (c : Channel) (r : Readings) (s : State) : State :=
  handed c (convert c (s.monitor.get c) (readingOf r c).toNat) 0 (setChannel c (firstSample c r (s.monitor.get c)) s)

theorem sampleChannel_first (fresh : Fresh (s.monitor.get c)) (slow : c = .amb ∨ 2 ≤ debounce c)
    (level : c = .bati → s.charge.q ≤ qFull s.charge ∧ s.charge.level = rawIndex s.charge) (free : s.spool.held = false)
    (taken : s.light.autoFirst = false) : sampleChannel k c (readingOf r c).toNat 0 s = firstStep c r s := by
  refine (sampleChannel_of_fresh fresh slow).trans (handOver_eq (fun bati => ?_) free taken)
  obtain ⟨within, raw⟩ := level bati
  have same : (setChannel c (firstSample c r (s.monitor.get c)) s).charge = s.charge := rfl
  rw [same, integrated_of_no_interval within]
  exact nextLevel_of_raw (c := { s.charge with last := _ }) raw

/-- The first samples of these channels, one after the other. -/
def firstSteps (r : Readings) (cs : List Channel) (s : State) : State := cs.foldl (fun t c => firstStep c r t) s

/-- These channels have had no sample, and the account holds its estimate. -/
structure FirstRun (cs : List Channel) (s : State) : Prop where
  fresh : ∀ c ∈ cs, Fresh (s.monitor.get c) ∧ (c = .amb ∨ 2 ≤ debounce c)
  level : .bati ∈ cs → s.charge.q ≤ qFull s.charge ∧ s.charge.level = rawIndex s.charge
  free : s.spool.held = false
  taken : s.light.autoFirst = false

theorem FirstRun.step {cs : List Channel} (run : FirstRun (c :: cs) s) (once : c ∉ cs) : FirstRun cs (firstStep c r s) where
  fresh d member := by
    have other : d ≠ c := fun same => once (same ▸ member)
    rw [firstStep, handed_monitor]
    exact get_set_other s.monitor _ other ▸ run.fresh d (List.mem_cons_of_mem c member)
  level member := by
    have level := run.level (List.mem_cons_of_mem c member)
    cases c with
    | bati => exact absurd member once
    | batv | ptemp | dtemp | amb | panv => exact level
  free := by rw [firstStep, handed_spool]; exact run.free
  taken := by rw [firstStep, handed_autoFirst]; exact run.taken

theorem samples_of_first : ∀ {cs : List Channel} {s : State}, cs.Nodup → FirstRun cs s → samples k r 0 cs s = firstSteps r cs s
  | [], _, _, _ => rfl
  | c :: cs, s, distinct, run => by
    obtain ⟨once, distinct⟩ := List.nodup_cons.mp distinct
    obtain ⟨fresh, slow⟩ := run.fresh c List.mem_cons_self
    have first : sampleChannel k c (readingOf r c).toNat 0 s = firstStep c r s :=
      sampleChannel_first fresh slow (fun bati => by subst bati; exact run.level List.mem_cons_self) run.free run.taken
    rw [samples, List.foldl_cons, first]
    exact samples_of_first distinct (run.step once)

theorem lightAfterAmb_of_manual {l : Light} {v : Int} (manual : l.auto = false) : lightAfterAmb v l = l := by
  rw [lightAfterAmb, if_neg fun moved => by rw [manual] at moved; cases moved.1]

theorem startPeriod_of_off (off : s.platform.state = .off) :
    startPeriod s = { s with monitor := { s.monitor with period := 16000, elapsed := 0 } } := by
  simp only [startPeriod, onMonitor, off]
  rfl

/-- The first sequence in OFF, PANV aside. -/
theorem sequenceWith_first (down : panvConverted (samples k r n [.bati, .ptemp, .dtemp, .amb] t) = false)
    (estimate : onCharge (startUpEstimate ((sampleChannel k .batv r.batv.toNat n (startPeriod s)).monitor.batv.last.getD 0))
      (sampleChannel k .batv r.batv.toNat n (startPeriod s)) = t) :
    sequenceWith k r n true s = samples k r n [.bati, .ptemp, .dtemp, .amb] t := by
  subst estimate
  exact if_neg fun up => Bool.false_ne_true (down.symm.trans up)

theorem firstSequence (off : s.platform.state = .off) (fresh : ∀ c, c ≠ .panv → Fresh (s.monitor.get c)) (free : s.spool.held = false)
    (taken : s.light.autoFirst = false) (manual : s.light.auto = false) : sequenceWith k r 0 true s = { s with
      monitor := {
        batv := firstSample .batv r s.monitor.batv, bati := firstSample .bati r s.monitor.bati
        ptemp := firstSample .ptemp r s.monitor.ptemp, dtemp := firstSample .dtemp r s.monitor.dtemp
        amb := firstSample .amb r s.monitor.amb, panv := s.monitor.panv, period := 16000, elapsed := 0 }
      charge := estimated0 (convert .batv s.monitor.batv r.batv.toNat) (convert .bati s.monitor.bati r.bati.toNat) s.charge } := by
  have start := startPeriod_of_off off
  have batv : sampleChannel k .batv r.batv.toNat 0 (startPeriod s) = firstStep .batv r (startPeriod s) :=
    sampleChannel_first (c := .batv) (by rw [start]; exact fresh .batv nofun) (.inr (by decide)) nofun free taken
  obtain ⟨within, raw⟩ := startUpEstimate_sound (convert .batv s.monitor.batv r.batv.toNat) s.charge
  have estimate : onCharge (startUpEstimate ((sampleChannel k .batv r.batv.toNat 0 (startPeriod s)).monitor.batv.last.getD 0))
      (sampleChannel k .batv r.batv.toNat 0 (startPeriod s)) =
      onCharge (fun _ => startUpEstimate (convert .batv s.monitor.batv r.batv.toNat) s.charge) (firstStep .batv r (startPeriod s)) := by
    have last : (firstStep .batv r (startPeriod s)).monitor.batv.last = some (convert .batv s.monitor.batv r.batv.toNat) := by
      rw [start]; rfl
    have charge : (firstStep .batv r (startPeriod s)).charge = s.charge := by rw [start]; rfl
    rw [batv, last, Option.getD_some, onCharge, charge]
    rfl
  unfold estimated0
  generalize startUpEstimate (convert .batv s.monitor.batv r.batv.toNat) s.charge = c1 at *
  have run : FirstRun [.bati, .ptemp, .dtemp, .amb] (onCharge (fun _ => c1) (firstStep .batv r (startPeriod s))) := by
    rw [start]
    refine ⟨fun c member => ?_, fun _ => ⟨within, raw⟩, free, taken⟩
    cases c with
    | batv | panv => exact absurd member (by decide)
    | bati => exact ⟨fresh .bati nofun, .inr (by decide)⟩
    | ptemp => exact ⟨fresh .ptemp nofun, .inr (by decide)⟩
    | dtemp => exact ⟨fresh .dtemp nofun, .inr (by decide)⟩
    | amb => exact ⟨fresh .amb nofun, .inl rfl⟩
  have values : firstSteps r [.bati, .ptemp, .dtemp, .amb] (onCharge (fun _ => c1) (firstStep .batv r (startPeriod s))) = { s with
      monitor := {
        batv := firstSample .batv r s.monitor.batv, bati := firstSample .bati r s.monitor.bati
        ptemp := firstSample .ptemp r s.monitor.ptemp, dtemp := firstSample .dtemp r s.monitor.dtemp
        amb := firstSample .amb r s.monitor.amb, panv := s.monitor.panv, period := 16000, elapsed := 0 }
      charge := { c1 with last := ⟨convert .bati s.monitor.bati r.bati.toNat, 0, 0⟩ } } := by
    rw [start]
    simp only [firstSteps, List.foldl_cons, List.foldl_nil, firstStep, handed, setChannel, onMonitor, onCharge, Monitor.get, Monitor.set,
      readingOf, State.withMonitor, State.withCharge, integrated_of_no_interval within, lightAfterAmb_of_manual manual]
  rw [sequenceWith_first ?_ estimate, samples_of_first (by decide) run, values]
  rw [samples_of_first (by decide) run, values]
  simp [panvConverted, off]

theorem convert_batv_reset : convert .batv (.fresh 5000 0 3350 5000) r.batv.toNat = ((r.batv.toNat * 5000 / 4096 : Nat) : Int) := by
  have within : r.batv.toNat * 5000 / 4096 ≤ 5000 := by have := r.batv.isLt; omega
  simp only [convert, clampTo, channelRange, ChannelState.fresh]
  omega

/-- The account at the connection of the battery, after the first sequence (R148). -/
theorem exists_estimated0_reset (batv bati : Int) : ∃ c, estimated0 batv bati Charge.reset = c
    ∧ c.q = 5400000 * ocvPerMille ChargeParams.reset.ocv batv ∧ c.level = rawIndex c ∧ c.updates = [] ∧ c.chunk = none
    ∧ c.params = .reset := by
  generalize estimate : ocvPerMille ChargeParams.reset.ocv batv = n
  have q : qFull Charge.reset * ocvPerMille Charge.reset.params.ocv batv / 1000 = 5400000 * n := by
    rw [show ocvPerMille Charge.reset.params.ocv batv = n from estimate, show qFull Charge.reset = 5400000000 by decide]
    omega
  refine ⟨_, rfl, ?_⟩
  rw [estimated0, startUpEstimate_eq q]
  exact ⟨rfl, rawIndex_congr rfl rfl rfl rfl, rfl, rfl, rfl⟩

theorem monitorReset_fresh (other : c ≠ .panv) : Fresh (Monitor.reset.get c) := by
  cases c with
  | panv => exact absurd rfl other
  | batv | bati | ptemp | dtemp | amb => exact ⟨rfl, rfl, rfl, rfl⟩

/-- Settles O57: the power-on values, the first sequence over them, the charge cap of the level it finds. -/
theorem powerOnResetEstimatesTheCharge : Obligations.PowerOnResetEstimatesTheCharge := by
  intro held r s v perMille sampled
  have values : powerOnValues held s = { State.reset with
      platform := { Platform.reset with
        key := if held = true then .pressed else .released, holdTimer := if held = true then some 3000 else none }
      inputs := s.inputs, samples := s.samples, pending := s.pending } := by
    cases held <;> rfl
  obtain ⟨c, account, q, level, updates, chunk, params⟩ :=
    exists_estimated0_reset (convert .batv Monitor.reset.batv r.batv.toNat) (convert .bati Monitor.reset.bati r.bati.toNat)
  have sequence : sequenceWith .quiet r 0 true (powerOnValues held s) = { powerOnValues held s with
      monitor := {
        batv := firstSample .batv r Monitor.reset.batv, bati := firstSample .bati r Monitor.reset.bati
        ptemp := firstSample .ptemp r Monitor.reset.ptemp, dtemp := firstSample .dtemp r Monitor.reset.dtemp
        amb := firstSample .amb r Monitor.reset.amb, panv := Monitor.reset.panv, period := 16000, elapsed := 0 }
      charge := c } := by
    rw [values, ← account]
    exact firstSequence rfl (fun c other => monitorReset_fresh other) rfl rfl rfl
  have capped : exec (.powerOnReset held r) s = .next { powerOnValues held s with
      monitor := {
        batv := firstSample .batv r Monitor.reset.batv, bati := firstSample .bati r Monitor.reset.bati
        ptemp := firstSample .ptemp r Monitor.reset.ptemp, dtemp := firstSample .dtemp r Monitor.reset.dtemp
        amb := firstSample .amb r Monitor.reset.amb, panv := Monitor.reset.panv, period := 16000, elapsed := 0 }
      charge := c
      light := { Light.reset with chargeCap := chargeCapOf c.level } } := by
    refine congrArg Host.Outcome.next ((congrArg (setChargeCap .quiet) sequence).trans ?_)
    rw [values]
    exact setChargeCap_of_within .quiet (Nat.zero_le _)
  rw [values] at capped
  have batv : convert .batv Monitor.reset.batv r.batv.toNat = (v : Int) := convert_batv_reset
  refine ⟨_, capped, rfl, ⟨rfl, rfl, rfl, rfl, rfl, rfl, rfl, rfl, rfl, rfl, rfl⟩, rfl, congrArg some batv,
    ⟨?_, level, updates, chunk, params⟩, rfl, ⟨rfl, rfl, rfl, rfl, rfl, rfl, rfl, rfl, rfl, rfl⟩, ⟨rfl, rfl, rfl⟩⟩
  rw [batv] at q
  exact q

end Sys2Proof.Machine
end

