-- ==== Sys2Proof/Proofs/Intervals.lean ====
section
/-! PROOFS. The power-up intervals complete (R161, R163, R164). -/

namespace Sys2Proof.Machine

variable {s t : State}

/-! ## The completion of a resume (R161) -/

/-- A resume's completion up to its sequence. -/
def resumed (o : Onward) (s : State) : State :=
  { s with
    platform := { s.platform with state := if o.toActive then .active else .doze, powerUp := none, onward := none }
    engine := { s.engine with frameTimer := some (1000000 / s.engine.frameRate) }
    light := { s.light with rampTimer := some 16 } }

/-- The sequence of a resume with steady readings at hand. -/
theorem resumeStart_of_steady {o : Onward} {r : Readings} {rest : List Readings} (listed : s.inputs = r :: rest)
    (steady : SteadyReadings r s.monitor.elapsed s) :
    resumeStart o s = steadyAfter r s.monitor.elapsed { resumed o s with inputs := rest } := by
  have start : resumeStart o s = changePeriod .full (resumed o s) := rfl
  have readings : nextReadings (resumed o s) = r := by simp only [nextReadings, resumed, listed]
  have used : useReadings (resumed o s) = { resumed o s with inputs := rest } := by simp only [useReadings, resumed, listed]
  have awake : (resumed o s).platform.state = .active ∨ (resumed o s).platform.state = .doze := by
    cases target : o.toActive <;> simp [resumed, target]
  rw [start, changePeriod, readings, used]
  exact sequenceWith_of_steady awake rfl ⟨steady.batv, steady.bati, steady.ptemp, steady.dtemp, steady.amb, steady.panv, steady.level,
    steady.notHeld, steady.candidateTaken⟩

/-- A table whose SUSPENDED scrub starts a pass (R75). -/
def resumedWave (w : WaveTable) : WaveTable :=
  if w.scrub = .suspended then { w with scrub := .passing, pass := some ⟨0, 0⟩, scrubTimer := some (1000 * w.scrubPeriod) } else w

theorem resumeScrub_eq : resumeScrub s = { s with wave := resumedWave s.wave } := by
  simp only [resumeScrub, onWave, startPass, resumedWave, Nat.mul_comm 1000]
  rfl

theorem carryDeferred_of_none (none_held : s.portMain.inProcess = none) : carryDeferred s = s := by
  simp only [carryDeferred, none_held]

theorem completeResume_of_still {o : Onward} (start : resumeStart o s = t)
    (awake : t.platform.state = .active ∨ t.platform.state = .doze) (empty : t.engine.queue = [])
    (none_held : t.portMain.inProcess = none) (no_alarm : o.radioAlarms = []) : completeResume o s =
      reportState (if o.toActive then .active else .doze) .sleep o.cause (resumeTimer o { t with wave := resumedWave t.wave }) := by
  have still : stillResumed t = true := by rcases awake with e | e <;> simp [stillResumed, e]
  have pass : considerationPass .full (resumeScrub t) = { t with wave := resumedWave t.wave } := by
    rw [resumeScrub_eq]
    exact considerationPass_nil .full empty
  simp only [completeResume, start, still, if_true, pass, no_alarm, List.foldl_nil, ite_self]
  refine carryDeferred_of_none ?_
  rw [reportState, offerTo_standby]
  exact none_held

/-- Without a sleep pending, DOZE stays. -/
theorem recheckNow_of_doze (doze : s.platform.state = .doze) (none_pending : s.platform.sleepPending = none) : recheckNow s = s := by
  have due : sleepDue s = false := by simp [sleepDue, none_pending]
  simp only [recheckNow, doze, sleepCheck, due, Bool.false_and, Bool.false_eq_true, if_false]

theorem execResumeComplete_of_resume {o : Onward} {left : Nat} (interval : s.platform.powerUp = some ⟨.resume, left⟩)
    (onward : s.platform.onward = some o) : execResumeComplete s = .next (recheckNow (completeResume o s)) := by
  simp only [execResumeComplete, interval, onward]

/-! ## The shutdown page (R164) -/

/-- The cause of the halt shows a page. -/
def showsPage (s : State) : Prop :=
  s.platform.haltCause = some .level ∨ s.platform.haltCause = some .powerOff ∨ s.platform.haltCause = some .key

theorem roleSlot_shutdownPage_eq_some {i : Nat} (named : i < 24) (role : (slotAt i s).shutdownRole = true)
    (first : ∀ j, j < i → (slotAt j s).shutdownRole = false) : roleSlot .shutdownPage s = some i := by
  refine List.find?_range_eq_some.mpr ⟨role, List.mem_range.mpr named, fun j before => ?_⟩
  simp [first j before]

theorem roleSlot_shutdownPage_eq_none (none_holds : ∀ i, i < 24 → (slotAt i s).shutdownRole = false) :
    roleSlot .shutdownPage s = none := by
  refine List.find?_eq_none.mpr fun i member => ?_
  simp only [none_holds i (List.mem_range.mp member), Bool.false_eq_true, not_false_eq_true]

/-- The page skipped (R164). -/
theorem decideShutdownPage_of_none
    (skip : ¬ showsPage s ∨ (∀ i, i < 24 → (slotAt i s).shutdownRole = false) ∨ s.wave.state ≠ .valid) :
    decideShutdownPage s = { s with platform := { s.platform with pageDecided := true } } := by
  simp only [decideShutdownPage]
  split
  · next i held =>
    refine if_neg fun ⟨shows, valid, _⟩ => ?_
    rcases skip with no_cause | none_holds | other
    · exact no_cause shows
    · rw [roleSlot_shutdownPage_eq_none none_holds] at held; cases held
    · exact other valid
  · rfl

/-- The page submitted to an empty engine starts at once (R164). -/
theorem decideShutdownPage_of_page {i : Nat} (halting : s.platform.state = .halting) (shows : showsPage s) (named : i < 24)
    (role : (slotAt i s).shutdownRole = true) (first : ∀ j, j < i → (slotAt j s).shutdownRole = false) (empty : s.engine.queue = [])
    (idle : s.engine.active = []) (valid : s.wave.state = .valid) (sound : s.monitor.panv.fault = false)
    (ready : (slotAt i s).state = .ready) (room : s.store.useCounter < Config.max32) :
    decideShutdownPage s = { s with
      platform := { s.platform with pageDecided := true }
      engine := { s.engine with
        active := [scanning (newUpdate s.engine.nextId .shutdownPage ⟨false, false, false⟩ i (wholePanel s.pool) .full) s]
        nextId := if 65535 ≤ s.engine.nextId then 1 else s.engine.nextId + 1 }
      store := { s.store with
        slots := s.store.slots.set i { slotAt i s with
          state := .showing, showing := (slotAt i s).showing + 1, stamp := some s.store.useCounter }
        useCounter := s.store.useCounter + 1 } } := by
  have given : newId s.engine = s.engine.nextId := newId_of_fresh (by simp [liveIds, empty, idle])
  have can : queueHasRoom s.engine = true := by simp [queueHasRoom, empty, Config.queueMax]
  have page : decideShutdownPage s = considerationPass .quiet (submit .shutdownPage ⟨false, false, false⟩ i (wholePanel s.pool) .full
      { s with platform := { s.platform with pageDecided := true } }) := by
    simp only [decideShutdownPage, roleSlot_shutdownPage_eq_some named role first]
    exact if_pos ⟨shows, valid, can⟩
  have lets : platformLets { s.platform with pageDecided := true } .shutdownPage = true := by simp [platformLets, halting]
  rw [page, submit_of_newId (by exact given), considerationPass_starts .quiet
    (u := newUpdate s.engine.nextId .shutdownPage ⟨false, false, false⟩ i (wholePanel s.pool) .full)
    (by simp only [empty, List.nil_append]) (by exact idle)
    (by exact valid) (by exact sound) (by exact ready) (by exact lets) (by exact room)]
  simp only [empty, scanning, newUpdate]
  rfl

/-! ## The check at the end of the halt interval -/

/-- The check of a HALTING with nothing active and its page undecided goes by the decision's outcome. -/
theorem haltCheck_of_undecided (halting : s.platform.state = .halting) (no_interval : s.platform.powerUp = none)
    (undecided : s.platform.pageDecided = false) (idle : s.engine.active = []) (decides : decideShutdownPage s = t) :
    haltCheck s = if canGoOff t then offEntry t else t := by
  have page : pageCheck s = t := (if_pos ⟨halting, no_interval, undecided, by rw [idle]; rfl⟩).trans decides
  simp only [haltCheck, page]

theorem offEntry_of_no_restart {c : HaltCause} (cause : s.platform.haltCause = some c) (stays : c ≠ .restart) :
    offEntry s = enterOff s :=
  if_neg (by rw [cause]; exact fun same => stays (Option.some.inj same))

/-- The state of a halt interval that is over, before its check. -/
def haltStarted (s : State) : State :=
  { s with
    platform := { s.platform with powerUp := none }
    engine := { s.engine with frameTimer := some (1000000 / s.engine.frameRate) }
    light := { s.light with rampTimer := some 16 } }

theorem execHaltIntervalComplete_of_halt {left : Nat} (halting : s.platform.state = .halting)
    (interval : s.platform.powerUp = some ⟨.halt, left⟩) (empty : s.engine.queue = []) (none_held : s.portMain.inProcess = none) :
    exec .haltIntervalComplete s = .next (haltCheck (haltStarted s)) := by
  have start : completeHaltInterval s = carryDeferred (considerationPass .full (haltStarted s)) := rfl
  refine congrArg Host.Outcome.next ?_
  simp only [interval]
  rw [start, considerationPass_nil .full (by exact empty), carryDeferred_of_none (by exact none_held),
    recheckNow_of_halting (by exact halting)]

/-- Settles O58: a resume by its target, the halt interval by its page. -/
theorem powerUpIntervalsComplete : Obligations.PowerUpIntervalsComplete := by
  intro s empty none_held started
  refine ⟨fun o left r rest sleeping interval onward no_alarm listed steady none_pending => ?_,
    fun left halting interval idle undecided => ?_⟩
  · intro t f wave
    have start := resumeStart_of_steady (o := o) listed steady
    have row {u : State} (completes : completeResume o s = u) (still : recheckNow u = u) : exec .resumeComplete s = .next u :=
      (execResumeComplete_of_resume interval onward).trans (congrArg Host.Outcome.next ((congrArg recheckNow completes).trans still))
    have completes (awake : (resumed o s).platform.state = .active ∨ (resumed o s).platform.state = .doze) :=
      completeResume_of_still start awake empty none_held no_alarm
    refine ⟨fun target => row ((completes (by simp [resumed, target])).trans ?_) (recheckNow_of_active rfl),
      fun target => row ((completes (by simp [resumed, target])).trans ?_) (recheckNow_of_doze rfl none_pending)⟩
    · simp only [resumeTimer, onPlatform, target, if_true, reportState, offerTo_standby, resumed, steadyAfter]
      rfl
    · simp only [resumeTimer, onPlatform, target, Bool.false_eq_true, if_false, if_true, reportState, offerTo_standby, resumed,
        steadyAfter, idleFull_eq]
      rfl
  · intro decided shows noPage
    have row := execHaltIntervalComplete_of_halt halting interval empty none_held
    have checks {t : State} (decides : decideShutdownPage (haltStarted s) = t) :=
      haltCheck_of_undecided (s := haltStarted s) halting rfl undecided idle decides
    refine ⟨fun i shows named role first valid sound ready room => ?_, fun no_page lit => ?_, fun c no_page dark cause stays => ?_⟩
    · intro u y
      have decides := decideShutdownPage_of_page (s := haltStarted s) halting shows named role first empty idle valid sound ready room
      rw [row, checks decides]
      simp only [canGoOff, engineIdle, List.isEmpty_cons, Bool.and_false, Bool.false_and, Bool.false_eq_true, if_false]
      rfl
    · have stays : canGoOff decided = false := by simp [canGoOff, decided, started, lit]
      rw [row, checks (decideShutdownPage_of_none (by exact no_page))]
      exact congrArg Host.Outcome.next (if_neg (Bool.eq_false_iff.mp stays))
    · have goes : canGoOff decided = true := by simp [canGoOff, engineIdle, decided, started, halting, empty, idle, dark]
      have off := offEntered decided
      refine ⟨enterOff decided, ?_, off.platform, ⟨off.pool, off.dram, off.store⟩, off.window, off.engine, off.wave, off.spool, off.light,
        off.charge, off.portMain⟩
      rw [row, checks (decideShutdownPage_of_none (by exact no_page))]
      exact congrArg Host.Outcome.next ((if_pos goes).trans (offEntry_of_no_restart (by exact cause) stays))

end Sys2Proof.Machine
end

