-- ==== Sys2Proof/Proofs/ChunkEnd.lean ====
section
/-! PROOFS. CHUNK_MORE and the end of a chunk (R83, R92 to R94). -/

namespace Sys2Proof.Machine

variable {k : ReqKind} {m : Msg} {s t u : State}

/-! ## A request of the radio port -/

theorem restartIdle_platform (s : State) : ∃ left, (restartIdle s).platform = { s.platform with idleTimer := left } := by
  obtain ⟨left, restarted⟩ := restartIdle_frame s
  exact ⟨left, by rw [restarted]⟩

theorem otherTaken_radio_kept (k : ReqKind) (m : Msg) (s : State) :
    (otherTaken .radio k m s).platform.state = s.platform.state
      ∧ (otherTaken .radio k m s).platform.sleepPending = s.platform.sleepPending
      ∧ (otherTaken .radio k m s).platform.clock = s.platform.clock := by
  obtain ⟨left, restarted⟩ := restartIdle_platform s
  have platform : (otherTaken .radio k m s).platform = { s.platform with idleTimer := left } := restarted
  rw [platform]
  exact ⟨rfl, rfl, rfl⟩

theorem otherTaken_radio_active (active : s.platform.state = .active) : (otherTaken .radio k m s).platform.state = .active :=
  (otherTaken_radio_kept k m s).1.trans active

/-- The answer to a radio request just taken, whatever its owner has changed elsewhere. -/
theorem respond_radio (ready : Ready .radio s) (r : Result) (data : List Byte) (taken : t.portRadio = takenUnit k m s.portRadio) :
    respond .radio r data t = { t with portRadio := answered k r data s.portRadio } :=
  respond_other_taken (p := .radio) (k := k) (m := m) (u := s.portRadio) r data taken ready.nothingWaits ready.nothingInProcess

/-- A radio request whose owner leaves the platform in ACTIVE ends in what the owner leaves. -/
theorem takeRequest_radio_rechecked {α : Type} {read : List Byte → Option α} {a : α} {owner : α → State → State}
    (takes : OtherTakes .radio k m read a s) (decides : owner a (otherTaken .radio k m s) = u) (active : u.platform.state = .active) :
    takeRequest .radio k m read (fun a t => recheckNow (owner a t)) s = u := by
  rw [takeRequest_other _ takes, decides, recheckNow_of_active active]

/-! ## Bytes in a title's blocks (R83) -/

/-- A byte of an owner without repeated blocks reads back what was stored. -/
theorem ownerByte_writeOwner_same {blocks : List Nat} (distinct : blocks.Nodup) : ∀ (bs : List Byte) (b : Nat) (d : List Host.Cell),
    Mem.wf d = true → b + bs.length ≤ 65536 * blocks.length → ∀ j, j < bs.length →
    ownerByte (writeOwner d blocks b bs) blocks (b + j) = bs.getD j 0
  | [], _, _, _, _, _, none_left => absurd none_left (Nat.not_lt_zero _)
  | x :: xs, b, d, wf, inside, j, lt => by
    rw [List.length_cons] at inside lt
    have wf' : Mem.wf (Mem.write d (blockAddress blocks b) x) = true := Mem.wf_write _ _ wf
    cases j with
    | zero =>
      have apart : ∀ i, i < xs.length → blockAddress blocks b ≠ blockAddress blocks (b + 1 + i) := fun i before same => by
        have := blockAddress_inj distinct (by simp only [Config.blockSize]; omega) (by simp only [Config.blockSize]; omega) same
        omega
      exact (read_writeOwner_other blocks _ xs (b + 1) _ apart).trans (Mem.read_write_same _ x wf)
    | succ j =>
      have rest := ownerByte_writeOwner_same distinct xs (b + 1) _ wf' (by omega) j (by omega)
      rw [writeOwner, show b + (j + 1) = b + 1 + j by omega]
      exact rest

/-! ## CHUNK_MORE (R92) -/

/-- CHUNK_MORE within the declared length: the bytes stored and counted. -/
def collectedMore (bs : List Byte) (a : Assembly) (x : Title) (s : State) : State :=
  { s with
    dram := writeOwner s.dram x.blocks (a.offset + a.collected) bs
    spool := { s.spool with assembly := some { a with collected := a.collected + bs.length } } }

section More

variable {p : Port} {a : Assembly} {x : Title} {bs : List Byte}

theorem chunkMore_of_none (none_open : s.spool.assembly = none) : chunkMore p bs s = refuse p .sequence s := by
  simp only [chunkMore, none_open]

theorem chunkMore_of_open (opened : s.spool.assembly = some a) (found : titleAt a.entry s = some x)
    (fits : a.collected + bs.length ≤ a.declared) :
    chunkMore p bs s = endIfCollected p (fun y => encU32 y.collected) (collectedMore bs a x s) := by
  simp only [chunkMore, opened, Nat.not_lt.mpr fits, if_false, writeTitle, found]
  rfl

theorem endIfCollected_of_more {data : Assembly → List Byte} (opened : s.spool.assembly = some a) (more : a.collected ≠ a.declared) :
    endIfCollected p data s = respond p .ok (data a) s := by
  simp only [endIfCollected, opened, more, if_false]

theorem endIfCollected_of_full {data : Assembly → List Byte} (opened : s.spool.assembly = some a) (full : a.collected = a.declared) :
    endIfCollected p data s = endChunk .full p a s := by
  simp only [endIfCollected, opened, full, if_true]

/-! ## The end of a chunk (R93, R94) -/

theorem completesAt_iff {last : Bool} : completesAt x last = true ↔ last = true ∨ x.total = some x.received := by
  simp [completesAt]

/-- The records of an ended chunk, with no change of level index. -/
def chunkEnded (a : Assembly) (y : Title) (s : State) : State :=
  { s with
    spool := { s.spool with
      titles := s.spool.titles.set a.entry (some y)
      assembly := none
      stats := countAccepted a.declared s.spool.stats
      verifying := if y.state = .verifying then s.spool.verifying ++ [a.entry] else s.spool.verifying }
    charge := { s.charge with chunk := none } }

theorem titleAt_chunkEnded (y : Title) (known : a.entry < s.spool.titles.length) :
    titleAt a.entry (chunkEnded a y s) = some y := by
  simp [titleAt, chunkEnded, known]

/-- The completion of the title of an ended chunk, already answered. -/
theorem completeTitle_chunkEnded {y : Title} {q : PortUnit} (active : s.platform.state = .active)
    (known : a.entry < s.spool.titles.length) (receiving : y.state = .receiving) :
    completeTitle a.entry { chunkEnded a y s with portRadio := q } = { chunkEnded a { y with state := .complete } s with
      portMain := offerUnit (.titleComplete y.id y.received) s.portMain
      portRadio := offerUnit (.titleComplete y.id y.received) q } := by
  rw [completeTitle_of_active (by exact active) (by exact titleAt_chunkEnded y known)]
  simp only [receiving, chunkEnded, reduceCtorEq, if_false, List.set_set]

/-- Steps 1 to 6 of the end of a chunk, before completion. -/
theorem endChunk_of_active (active : s.platform.state = .active) (found : titleAt a.entry s = some x) (free : s.spool.held = false)
    (reserved : s.charge.chunk = some a.cost) (level : nextLevel { s.charge with chunk := none } = s.charge.level) {y : Title}
    (after : titleAfterChunk x a s.platform.clock = y) :
    endChunk .full p a s =
      let answer := encWord y.id ++ encU32 y.received ++ encU8 (if completesPlain x a then TitleState.complete else y.state).code
      if completesPlain x a then completeTitle a.entry (respond p .ok answer (chunkEnded a y s))
      else respond p .ok answer (chunkEnded a y s) := by
  have ended : joinVerifying a.entry y (releaseChunk .full (onSpool (fun sp => { sp with assembly := none })
      (countStat (countAccepted a.declared) (setTitle a.entry (some y) s)))) = chunkEnded a y s := by
    rw [releaseChunk, if_pos (by exact Option.isSome_iff_exists.mpr ⟨a.cost, reserved⟩),
      evaluate_of_same .full (by exact level) (by exact free), joinVerifying_eq]
    rfl
  have awake : ¬ (chunkEnded a y s).platform.state = .doze := by
    rw [show (chunkEnded a y s).platform.state = .active from active]
    decide
  have still (data : List Byte) : Hooks.full.recheck (respond p .ok data (chunkEnded a y s)) =
      respond p .ok data (chunkEnded a y s) := recheckNow_of_active (by rw [respond_platform]; exact active)
  simp only [endChunk, stateAfterChunk, found, after, ended, awake, if_false, still]

/-- A title with bytes to come stays RECEIVING. -/
theorem titleAfterChunk_of_open {n : Nat} (open_ : ¬ (a.last = true ∨ x.total = some (x.received + a.declared))) :
    titleAfterChunk x a n = { x with received := x.received + a.declared, lastChunk := some n } :=
  if_neg (mt completesAt_iff.mp open_)

/-- A whole title with a title CRC waits for its verification. -/
theorem titleAfterChunk_of_checked {n : Nat} (whole : a.last = true ∨ x.total = some (x.received + a.declared))
    (crc : x.crc.isSome = true) : titleAfterChunk x a n = { x with
      received := x.received + a.declared
      lastChunk := some n
      total := some (x.total.getD (x.received + a.declared))
      state := .verifying } := by
  refine (if_pos (completesAt_iff.mpr whole)).trans ?_
  simp only [crc, if_true]

theorem titleAfterChunk_of_plain {n : Nat} (whole : a.last = true ∨ x.total = some (x.received + a.declared))
    (plain : x.crc = none) : titleAfterChunk x a n = { x with
      received := x.received + a.declared
      lastChunk := some n
      total := some (x.total.getD (x.received + a.declared)) } := by
  refine (if_pos (completesAt_iff.mpr whole)).trans ?_
  simp only [plain, Option.isSome_none, Bool.false_eq_true, if_false]

theorem completesPlain_iff : completesPlain x a = true ↔ (a.last = true ∨ x.total = some (x.received + a.declared)) ∧ x.crc = none := by
  rw [completesPlain, Bool.and_eq_true, completesAt_iff, Option.isNone_iff_eq_none]

end More

/-- Settles O43: the bytes are stored, the chunk ends, and the title goes on or completes. -/
theorem aChunkEndsWithItsLastByte : Obligations.AChunkEndsWithItsLastByte := by
  intro m bs s active takes
  refine ⟨?_, fun none_open => ?_⟩
  · intro a x opened found full receiving free reserved c level x1 n stats whole x2 ended
    let a' : Assembly := { a with collected := a.collected + bs.length }
    let b := otherTaken .radio .chunkMore m s
    let d := collectedMore bs a x b
    obtain ⟨state, _, clock⟩ := otherTaken_radio_kept .chunkMore m s
    have on : d.platform.state = .active := state.trans active
    have ends : chunkMore .radio bs b = endChunk .full .radio a' d :=
      (chunkMore_of_open (s := b) opened found (by omega)).trans (endIfCollected_of_full (a := a') rfl full)
    have row {u : State} (decides : endChunk .full .radio a' d = u) (active : u.platform.state = .active) :
        exec (.chunkMore .radio m) s = .next u :=
      congrArg Host.Outcome.next (takeRequest_radio_rechecked (owner := chunkMore .radio) takes (ends.trans decides) active)
    have shape {y : Title} (after : titleAfterChunk x a s.platform.clock = y) :=
      endChunk_of_active (p := .radio) (a := a') (s := d) on found free reserved level (clock ▸ after)
    have answers (y : Title) (data : List Byte) : respond .radio .ok data (chunkEnded a' y d) =
        { chunkEnded a' y d with portRadio := answered .chunkMore .ok data s.portRadio } := respond_radio takes.ready .ok data rfl
    have same_stats : countAccepted a.declared n = stats := rfl
    refine ⟨d.dram, fun open_ => row ?_ on, fun partial_ crc => row ?_ on, fun total_ plain quiet => row ?_ on,
      fun wf distinct inside => ownerByte_writeOwner_same distinct bs _ s.dram wf (by omega),
      fun address outside => read_writeOwner_other x.blocks address bs _ s.dram outside⟩
    · have goes_on : completesPlain x a' = false := Bool.eq_false_iff.mpr fun ends => open_ (completesPlain_iff.mp ends).1
      rw [shape (titleAfterChunk_of_open open_), goes_on]
      refine (answers _ _).trans ?_
      simp only [receiving, chunkEnded, reduceCtorEq, if_false, ended, x1]
      rfl
    · have goes_on : completesPlain x a' = false := Bool.eq_false_iff.mpr fun ends => by
        rw [(completesPlain_iff.mp ends).2] at crc
        cases crc
      rw [shape (titleAfterChunk_of_checked partial_ crc), goes_on]
      exact answers { x2 with state := .verifying } _
    · have ends : completesPlain x a' = true := completesPlain_iff.mpr ⟨total_, plain⟩
      rw [shape (titleAfterChunk_of_plain total_ plain), ends]
      exact (congrArg (completeTitle a.entry) (answers x2 _)).trans
        (completeTitle_chunkEnded (a := a') (s := d) (y := x2) on (title_in_table found) receiving)
  · exact congrArg Host.Outcome.next (takeRequest_radio_rechecked (owner := chunkMore .radio) takes
      ((chunkMore_of_none (by exact none_open)).trans (refuse_otherTaken .sequence takes.ready))
      (by exact otherTaken_radio_active (k := .chunkMore) (m := m) active))

end Sys2Proof.Machine
end

