-- ==== Sys2Proof/Proofs/ChunkBegin.lean ====
section
/-! PROOFS. CHUNK_BEGIN (R84 to R91), a chunk that goes on (R92), and HELD left at an evaluation (R98). -/

namespace Sys2Proof.Machine

variable {k : ReqKind} {m : Msg} {s t u : State} {p : Port} {a : ChunkBeginArgs} {i : Nat} {x : Title}

/-! ## The title table -/

theorem titles_set_self (found : titleAt i s = some x) : s.spool.titles.set i (some x) = s.spool.titles := by
  rw [← found, titleAt_of_lt (title_in_table found)]
  exact List.set_getElem_self _

theorem titleAt_setTitle (y : Option Title) (known : i < s.spool.titles.length) : titleAt i (setTitle i y s) = y := by
  simp [titleAt, setTitle, onSpool, known]

theorem freeEntry_eq_some (lt : i < 8) (free : titleAt i s = none) (lowest : ∀ j, j < i → titleAt j s ≠ none) :
    freeEntry s = some i := by
  refine List.find?_range_eq_some.mpr ⟨by rw [free]; rfl, List.mem_range.mpr lt, fun j below => ?_⟩
  simpa [Option.isSome_iff_ne_none] using lowest j below

/-- A title without blocks adds nothing to what the titles hold together. -/
theorem spoolHolding_setTitle_of_no_blocks (known : i < s.spool.titles.length) (free : titleAt i s = none) (bare : x.blocks = []) :
    spoolHolding (setTitle i (some x) s).spool = spoolHolding s.spool := by
  have entry : s.spool.titles[i] = none := titleAt_of_lt known ▸ free
  have same : (s.spool.titles.set i (some x)).map (fun t => (t.map (fun x => x.blocks.length)).getD 0) =
      s.spool.titles.map fun t => (t.map (fun x => x.blocks.length)).getD 0 := by
    have zero : ((s.spool.titles[i]).map fun x => x.blocks.length).getD 0 = x.blocks.length := by rw [entry, bare]; rfl
    rw [List.map_set, Option.map_some, Option.getD_some, ← zero]
    have self := List.set_getElem_self (as := s.spool.titles.map fun t => (t.map fun x => x.blocks.length).getD 0) (i := i)
      (by simpa using known)
    rwa [List.getElem_map] at self
  exact congrArg List.sum same

/-! ## The first fields of a chunk (R85, R86, R191) -/

theorem badPrefix_eq_false (known : a.form = 1 ∨ a.form = 2 ∧ a.crcPresent = false ∨ a.form = 3 ∧ a.crcPresent = false)
    (upper : a.upper = 0) : badPrefix a = false := by
  rcases known with form | ⟨form, crc⟩ | ⟨form, crc⟩
  · simp [badPrefix, form, upper, openingForm]
  · simp [badPrefix, form, upper, crc]
  · simp [badPrefix, form, upper, crc]

theorem prefixStep_of_good (good : badPrefix a = false) : prefixStep a s =
    if a.form = 1 then openingStep a s else if a.form = 2 then (s, resumingStep a s) else (s, bareStep s) := by
  rw [prefixStep, good, if_neg Bool.false_ne_true]
  rfl

/-- OPENING a new title takes the lowest free entry. -/
theorem prefixStep_of_new {policy : Policy} (form : a.form = 1) (upper : a.upper = 0) (known : policyOf a.policy = some policy)
    (named : a.title ≠ 0) (start : a.offset = 0) (fits : a.total ≤ s.pool.spoolLimit * 65536)
    (new : findTitle a.title s = none) (free : freeEntry s = some i) :
    prefixStep a s = (setTitle i (some (freshTitle a policy)) s, .title i) := by
  have sound : ¬ (a.title = 0 ∨ a.offset ≠ 0 ∨ s.pool.spoolLimit * Config.blockSize < a.total) := by
    rintro (zero | later | long)
    · exact named zero
    · exact later start
    · exact absurd fits (Nat.not_le.mpr long)
  rw [prefixStep_of_good (badPrefix_eq_false (.inl form) upper), if_pos form]
  simp only [openingStep, known, sound, if_false, new, free]

/-- A chunk goes on with the RECEIVING title of an entry: RESUMING by its id, BARE by the bare target. -/
theorem prefixStep_of_receiving (upper : a.upper = 0) (crc : a.crcPresent = false) (found : titleAt i s = some x)
    (receiving : x.state = .receiving)
    (names : a.form = 2 ∧ a.title ≠ 0 ∧ findTitle a.title s = some i ∨ a.form = 3 ∧ s.spool.bare = some i) :
    prefixStep a s = (s, .title i) := by
  have goes_on : isReceiving i s = true := by simp [isReceiving, found, receiving]
  rcases names with ⟨form, named, index⟩ | ⟨form, bare⟩
  · rw [prefixStep_of_good (badPrefix_eq_false (.inr (.inl ⟨form, crc⟩)) upper), if_neg (by omega), if_pos form]
    simp only [resumingStep, named, if_false, index, goes_on, if_true]
  · rw [prefixStep_of_good (badPrefix_eq_false (.inr (.inr ⟨form, crc⟩)) upper), if_neg (by omega), if_neg (by omega)]
    simp only [bareStep, bare, goes_on, if_true]

/-- What a chunk that goes on names, by the lowest entry of its id. -/
theorem receivingNames (lt : i < 8) (found : titleAt i s = some x)
    (names : (a.form = 2 ∧ a.title = x.id ∧ x.id ≠ 0 ∧ ∀ j, j < i → ∀ y, titleAt j s = some y → y.id ≠ x.id)
      ∨ a.form = 3 ∧ s.spool.bare = some i) :
    a.form = 2 ∧ a.title ≠ 0 ∧ findTitle a.title s = some i ∨ a.form = 3 ∧ s.spool.bare = some i :=
  names.imp_left fun ⟨form, same, named, lowest⟩ =>
    ⟨form, same ▸ named, findTitle_eq_some lt found same.symm (same ▸ lowest)⟩

theorem prefixStep_of_no_target (upper : a.upper = 0) (crc : a.crcPresent = false) (form : a.form = 3) (none_ : s.spool.bare = none) :
    prefixStep a s = (s, .refused .noTitle) := by
  rw [prefixStep_of_good (badPrefix_eq_false (.inr (.inr ⟨form, crc⟩)) upper), if_neg (by omega), if_neg (by omega)]
  simp only [bareStep, none_]

section Begin

variable (none_open : s.spool.assembly = none) (none_pending : s.platform.sleepPending = none)
  (active : s.platform.state = .active)
include none_open none_pending active

theorem chunkBegin_of_title (step : prefixStep a s = (t, .title i)) (found : titleAt i t = some x) :
    chunkBegin p a s = chunkSteps p a i x t := by
  simp only [chunkBegin, dropAssembly_of_none _ _ _ none_open, none_pending, active, Option.isSome_none, Bool.false_eq_true,
    reduceCtorEq, or_self, if_false, step, found]

theorem chunkBegin_of_refused {r : Result} (step : prefixStep a s = (s, .refused r)) : chunkBegin p a s = refuse p r s := by
  simp only [chunkBegin, dropAssembly_of_none _ _ _ none_open, none_pending, active, Option.isSome_none, Bool.false_eq_true,
    reduceCtorEq, or_self, if_false, step]

end Begin

/-! ## Misfit, length, blocks (R87 to R89) -/

theorem chunkCost_eq (c : ChargeParams) (n : Nat) : chunkCost c n = (n * c.perKib + 1023) / 1024 := by
  rw [chunkCost, ceilDiv, Nat.add_sub_assoc (by decide)]

theorem neededBlocks_eq (a : ChunkBeginArgs) (x : Title) :
    neededBlocks a x = (x.received + a.declared + 65535) / 65536 - x.blocks.length := by
  rw [neededBlocks, blocksFor_eq]

theorem badChunkLength_iff (a : ChunkBeginArgs) (x : Title) : badChunkLength a x = false ↔
    1 ≤ a.declared ∧ a.declared ≤ 4096 ∧ a.data.length ≤ a.declared ∧
      (∀ n, x.total = some n → x.received + a.declared ≤ n ∧ (a.last = true → x.received + a.declared = n)) := by
  cases total : x.total with
  | none => simp [badChunkLength, total]; omega
  | some n =>
    cases last : a.last <;> simp [badChunkLength, total, last] <;> omega

theorem blocksPass_iff (n : Nat) (s : State) :
    blocksPass n s = true ↔ n ≤ s.pool.free.length ∧ spoolHolding s.spool + n ≤ s.pool.spoolLimit := by
  simp [blocksPass, and_comm]

/-- A fresh title needs one block for any chunk. -/
theorem neededBlocks_fresh {policy : Policy} (least : 1 ≤ a.declared) (most : a.declared ≤ 4096) :
    neededBlocks a (freshTitle a policy) = 1 := by
  rw [neededBlocks_eq]
  show (0 + a.declared + 65535) / 65536 - 0 = 1
  omega

theorem badChunkLength_fresh {policy : Policy} (least : 1 ≤ a.declared) (most : a.declared ≤ 4096) (within : a.data.length ≤ a.declared)
    (total : a.total ≠ 0 → a.declared ≤ a.total ∧ (a.last = true → a.declared = a.total)) :
    badChunkLength a (freshTitle a policy) = false := by
  refine (badChunkLength_iff _ _).mpr ⟨least, most, within, fun n declared => ?_⟩
  have nonzero : a.total ≠ 0 := fun zero => by simp [freshTitle, zero] at declared
  have same : a.total = n := by simpa [freshTitle, nonzero] using declared
  show 0 + a.declared ≤ n ∧ (a.last = true → 0 + a.declared = n)
  rw [Nat.zero_add, ← same]
  exact total nonzero

/-- The state with a misfit counted. -/
def misfitCounted (i : Nat) (y : Title) (s : State) : State :=
  { s with spool := { s.spool with
      titles := s.spool.titles.set i (some y), stats := { s.spool.stats with misfit := saturatingSucc s.spool.stats.misfit } } }

theorem chunkSteps_of_misfit (form : a.form = 2) (elsewhere : a.offset ≠ x.received) : chunkSteps p a i x s = misfit p i x s :=
  if_pos ⟨form, elsewhere⟩

theorem misfit_of_lenient (lenient : x.policy = .lenient) : misfit p i x s =
    respond p .misfit (encWord x.id ++ encU32 x.received)
      (misfitCounted i { x with misfits := min (x.misfits + 1) 65535 } s) := by
  simp only [misfit, lenient]
  rfl

theorem misfit_of_strict (strict : x.policy = .strict) : misfit p i x s =
    failTitle i .misfit (respond p .misfit (encWord x.id ++ encU32 x.received)
      (misfitCounted i { x with misfits := min (x.misfits + 1) 65535 } s)) := by
  simp only [misfit, strict]
  rfl

/-- The title of a counted misfit, already answered, fails under STRICT. -/
theorem failTitle_misfitCounted {y : Title} {q : PortUnit} (active : s.platform.state = .active) (known : i < s.spool.titles.length) :
    failTitle i .misfit { misfitCounted i y s with portRadio := q } =
      { misfitCounted i { y with state := .failed, failCause := some .misfit } s with
        portMain := offerUnit (.titleFailed y.id .misfit y.received) s.portMain
        portRadio := offerUnit (.titleFailed y.id .misfit y.received) q } := by
  have found : titleAt i { misfitCounted i y s with portRadio := q } = some y := titleAt_setTitle (s := s) (some y) known
  rw [failTitle_of_active .misfit (by exact active) found]
  simp only [misfitCounted, List.set_set]

section Steps

variable (goes_on : ¬ (a.form = 2 ∧ a.offset ≠ x.received))
include goes_on

theorem chunkSteps_of_bad_length (bad : badChunkLength a x = true) : chunkSteps p a i x s =
    refuse p .badLength (countStat (fun c => { c with length := saturatingSucc c.length }) s) := by
  rw [chunkSteps, if_neg (by exact goes_on), if_pos bad]

variable (good : badChunkLength a x = false)
include good

variable {n : Nat} (count : neededBlocks a x = n)
include count

theorem chunkSteps_of_full (full : ¬ (n ≤ s.pool.free.length ∧ spoolHolding s.spool + n ≤ s.pool.spoolLimit)) :
    chunkSteps p a i x s = refuseFull p x n s := by
  rw [chunkSteps, if_neg (by exact goes_on), good, if_neg Bool.false_ne_true, count,
    if_pos (Bool.eq_false_iff.mpr (mt (blocksPass_iff n s).mp full))]

theorem chunkSteps_of_room (room : n ≤ s.pool.free.length ∧ spoolHolding s.spool + n ≤ s.pool.spoolLimit) :
    chunkSteps p a i x s = chargeStep p a i x (takeTitleBlocks i x n s) := by
  rw [chunkSteps, if_neg (by exact goes_on), good, if_neg Bool.false_ne_true, count, (blocksPass_iff n s).mpr room,
    if_neg (by decide)]

end Steps

/-! ## The hold and charge step (R90, R91) -/

theorem refuseFull_of_active {n : Nat}
    (refuses : refuse p .spoolFull (countStat (fun c => { c with full := saturatingSucc c.full }) s) = t)
    (active : t.platform.state = .active) : refuseFull p x n s =
    let note : Notice := .spoolFull x.id n (spoolHolding s.spool) s.pool.spoolLimit s.pool.free.length
    { t with portRadio := offerUnit note t.portRadio, portMain := offerUnit note t.portMain } := by
  simp only [refuseFull, refuses, offerTo_radio]
  exact offerMain_of_active active

/-- The title of an entry with more blocks, from the head of the free list. -/
theorem takeTitleBlocks_eq (i n : Nat) (x : Title) (s : State) : takeTitleBlocks i x n s = { s with
    pool := { s.pool with free := s.pool.free.drop n }
    spool := { s.spool with titles := s.spool.titles.set i (some { x with blocks := x.blocks ++ s.pool.free.take n }) } } := rfl

theorem trimTitle_of_found {y : Title} (found : titleAt i t = some y) : trimTitle i t = { t with
    pool := { t.pool with free := t.pool.free ++ y.blocks.drop (blocksFor y.received) }
    spool := { t.spool with titles := t.spool.titles.set i (some { y with blocks := y.blocks.take (blocksFor y.received) }) } } := by
  simp only [trimTitle, found]
  rfl

/-- The blocks taken for a refused chunk go back to the tail of the free list. -/
theorem refuseHeld_of_taken {n : Nat} (found : titleAt i s = some x) (exact_ : x.blocks.length = blocksFor x.received) :
    refuseHeld p i (takeTitleBlocks i x n s) = refuse p .held { s with
      pool := { s.pool with free := s.pool.free.drop n ++ s.pool.free.take n }
      spool := { s.spool with stats := { s.spool.stats with held := saturatingSucc s.spool.stats.held } } } := by
  have known := title_in_table found
  have longer : titleAt i (takeTitleBlocks i x n s) = some { x with blocks := x.blocks ++ s.pool.free.take n } :=
    titleAt_setTitle (s := s) _ known
  have back : trimTitle i (takeTitleBlocks i x n s) = { s with
      pool := { s.pool with free := s.pool.free.drop n ++ s.pool.free.take n } } := by
    rw [trimTitle_of_found longer, List.take_left' exact_, List.drop_left' exact_, takeTitleBlocks_eq]
    simp only [List.set_set, titles_set_self found]
  rw [refuseHeld, back]
  rfl

theorem chargeStep_of_held {n : Nat} (held : s.spool.held = true) :
    chargeStep p a i x (takeTitleBlocks i x n s) = refuseHeld p i (takeTitleBlocks i x n s) := if_pos held

theorem chargeStep_of_granted (free : s.spool.held = false)
    (grant : (floorRadio s.charge : Int) ≤ available s.charge - chunkCost s.charge.params a.declared) :
    chargeStep p a i x s = openAssembly p a i x s :=
  (if_neg (by rw [free]; decide)).trans (if_pos (decide_eq_true grant))

theorem chargeStep_of_refused {n cost : Nat} (free : s.spool.held = false) (spent : chunkCost s.charge.params a.declared = cost)
    (refused : available s.charge - cost < floorRadio s.charge) : chargeStep p a i x (takeTitleBlocks i x n s) =
      offerTo .radio (.radioHold x.id cost)
        (onSpool (fun sp => { sp with held := true }) (refuseHeld p i (takeTitleBlocks i x n s))) := by
  have params : chunkCost (takeTitleBlocks i x n s).charge.params a.declared = cost := spent
  have low : grantsChunk (takeTitleBlocks i x n s).charge cost = false :=
    decide_eq_false (Int.not_le.mpr (by exact refused))
  have unheld : (takeTitleBlocks i x n s).spool.held = false := free
  simp only [chargeStep, unheld, params, low, Bool.false_eq_true, if_false]

theorem writeTitle_of_found {y : Title} {n : Nat} {bs : List Byte} (found : titleAt i t = some y) :
    writeTitle i n bs t = { t with dram := writeOwner t.dram y.blocks n bs } := by
  simp only [writeTitle, found]
  rfl

/-- A chunk whose grant holds, with data still to come: the blocks taken, the bytes stored, the assembly open. The number of blocks
and the cost are parameters, so that no proof computes them. -/
def chunkOpened (a : ChunkBeginArgs) (i : Nat) (x : Title) (n cost : Nat) (s : State) : State :=
  let blocks := x.blocks ++ s.pool.free.take n
  { s with
    pool := { s.pool with free := s.pool.free.drop n }
    dram := writeOwner s.dram blocks x.received a.data
    spool := { s.spool with
      titles := s.spool.titles.set i (some { x with blocks := blocks })
      assembly := some (openedAssembly a i x cost s.spool.chunkAge)
      bare := some i }
    charge := { s.charge with chunk := some cost } }

section Opening

variable {n cost : Nat} (known : i < s.spool.titles.length) (free : s.spool.held = false)
  (level : nextLevel { s.charge with chunk := some cost } = s.charge.level)
include known free level

/-- The opening up to the response. -/
theorem placeChunk_opened : placeChunk .full cost (writeTitle i x.received a.data (onSpool (fun sp => { sp with
      assembly := some (openedAssembly a i x cost sp.chunkAge), bare := some i }) (takeTitleBlocks i x n s))) =
    chunkOpened a i x n cost s := by
  have longer := titleAt_setTitle (s := s) (some { x with blocks := x.blocks ++ s.pool.free.take n }) known
  rw [writeTitle_of_found (by exact longer), placeChunk, evaluate_of_same .full (by exact level) (by exact free)]
  rfl

theorem openAssembly_of_more (spent : chunkCost s.charge.params a.declared = cost) (more : a.data.length < a.declared) :
    openAssembly p a i x (takeTitleBlocks i x n s) =
      respond p .ok (encWord x.id ++ encU32 x.received ++ encU32 a.data.length) (chunkOpened a i x n cost s) := by
  have params : chunkCost (takeTitleBlocks i x n s).charge.params a.declared = cost := spent
  rw [openAssembly, params]
  exact (congrArg (endIfCollected p _) (placeChunk_opened known free level)).trans
    (endIfCollected_of_more (s := chunkOpened a i x n cost s) rfl (Nat.ne_of_lt more))

/-- A chunk that passes every step, with data still to come. -/
theorem chunkSteps_of_more (goes_on : ¬ (a.form = 2 ∧ a.offset ≠ x.received)) (good : badChunkLength a x = false)
    (count : neededBlocks a x = n) (spent : chunkCost s.charge.params a.declared = cost)
    (room : n ≤ s.pool.free.length ∧ spoolHolding s.spool + n ≤ s.pool.spoolLimit) (more : a.data.length < a.declared)
    (grant : (floorRadio s.charge : Int) ≤ available s.charge - cost) :
    chunkSteps p a i x s =
      respond p .ok (encWord x.id ++ encU32 x.received ++ encU32 a.data.length) (chunkOpened a i x n cost s) := by
  have params : chunkCost (takeTitleBlocks i x n s).charge.params a.declared = cost := spent
  rw [chunkSteps_of_room goes_on good count room, chargeStep_of_granted (by exact free) (by rw [params]; exact grant)]
  exact openAssembly_of_more known free level spent more

end Opening

theorem nodup_take_one {α : Type} (l : List α) : (l.take 1).Nodup := by cases l <;> simp

/-! ## HELD at an evaluation (R98) -/

/-- An evaluation with the level index at its raw value: HELD is left clearly above the radio floor. -/
theorem evaluate_of_held_at_zero (k : Hooks) (held : s.spool.held = true) (zero : s.charge.level = 0) (raw : rawIndex s.charge = 0) :
    (improves s.charge 0 = true → evaluate k s = { s with
        spool := { s.spool with held := false }, portRadio := offerUnit .radioResume s.portRadio })
      ∧ (improves s.charge 0 = false → evaluate k s = s) := by
  have same : nextLevel s.charge = s.charge.level := nextLevel_of_raw (zero.trans raw.symm)
  refine ⟨fun clear => ?_, fun low => ?_⟩
  · simp only [evaluate, same, if_true, spoolEvaluated, held, zero, clear, and_self, offerTo_radio]
    rfl
  · simp only [evaluate, same, if_true, spoolEvaluated, low, Bool.false_eq_true, and_false, if_false]

/-- CHARGE_SET with its evaluation at hand, at level index 0. -/
theorem exec_chargeSet_of_zero {v : Nat} (takes : MainTakes .chargeSet m readCharge v s)
    (evaluates : evaluate .full { mainTaken .chargeSet m s with charge := setCharge v s.charge } = u)
    (account : u.charge = setCharge v s.charge) (zero : s.charge.level = 0) (on : u.platform.state = .active)
    (taken : u.portMain = takenUnit .chargeSet m s.portMain) :
    exec (.chargeSet .main m) s = .next { u with
      portMain := answered .chargeSet .ok
        (encCharge (setCharge v s.charge).q ++ encCharge (available (setCharge v s.charge)) ++ encU8 0) s.portMain } := by
  refine congrArg Host.Outcome.next (takeRequest_rechecked (owner := chargeSet .main) takes ?_ (by exact on))
  have sets : onCharge (setCharge v) (mainTaken .chargeSet m s) =
      { mainTaken .chargeSet m s with charge := setCharge v s.charge } := rfl
  have report : encCharge u.charge.q ++ encCharge (available u.charge) ++ encU8 u.charge.level =
      encCharge (setCharge v s.charge).q ++ encCharge (available (setCharge v s.charge)) ++ encU8 0 := by
    rw [account, show (setCharge v s.charge).level = 0 from zero]
  rw [chargeSet, sets, evaluates, report]
  exact respond_taken takes.ready .ok _ taken

/-- Settles O42: the chunk's first fields find the title, and the first step that fails answers; else the chunk opens. -/
theorem aChunkOpensAndCollects : Obligations.AChunkOpensAndCollects := by
  intro m s active
  have awake : (otherTaken .radio .chunkBegin m s).platform.state = .active := otherTaken_radio_active active
  have row {a : ChunkBeginArgs} {u : State} (takes : OtherTakes .radio .chunkBegin m readChunkBegin a s)
      (decides : chunkBegin .radio a (otherTaken .radio .chunkBegin m s) = u) (on : u.platform.state = .active) :
      exec (.chunkBegin .radio m) s = .next u :=
    congrArg Host.Outcome.next (takeRequest_radio_rechecked (owner := chunkBegin .radio) takes decides on)
  have pending (none_pending : s.platform.sleepPending = none) :
      (otherTaken .radio .chunkBegin m s).platform.sleepPending = none :=
    (otherTaken_radio_kept .chunkBegin m s).2.1.trans none_pending
  refine ⟨?_, ?_, ?_, ?_, ?_, ?_⟩
  · intro a policy i takes none_open free none_pending form upper known named start limit unknown lt length empty lowest more few total
      blocks_free holding cost c grant level blocks t1 open1
    let b := otherTaken .radio .chunkBegin m s
    let s1 := setTitle i (some (freshTitle a policy)) b
    have in_table : i < b.spool.titles.length := by
      show i < s.spool.titles.length
      omega
    have step : prefixStep a b = (s1, .title i) := prefixStep_of_new form upper known named start limit
      (findTitle_eq_none (s := b) unknown) (freeEntry_eq_some (s := b) lt empty lowest)
    have found : titleAt i s1 = some (freshTitle a policy) := titleAt_setTitle _ in_table
    have one : neededBlocks a (freshTitle a policy) = 1 := neededBlocks_fresh (by omega) few
    have good : badChunkLength a (freshTitle a policy) = false := badChunkLength_fresh (by omega) few (by omega) total
    have room : spoolHolding s1.spool + 1 ≤ s1.pool.spoolLimit := by
      rw [spoolHolding_setTitle_of_no_blocks in_table empty rfl]
      exact holding
    have spent : chunkCost s.charge.params a.declared = cost := chunkCost_eq _ _
    clear_value cost
    have opened : chunkOpened a i (freshTitle a policy) 1 cost s1 = { b with
        pool := { s.pool with free := s.pool.free.drop 1 }
        spool := { s.spool with titles := s.spool.titles.set i (some t1), assembly := some open1, bare := some i }
        charge := c
        dram := writeOwner s.dram blocks 0 a.data } := by
      have twice (y : Option Title) : s1.spool.titles.set i y = s.spool.titles.set i y := List.set_set ..
      simp only [chunkOpened, twice]
      rfl
    refine ⟨_, row takes (((chunkBegin_of_title (by exact none_open) (pending none_pending) awake step found).trans
      ((chunkSteps_of_more (s := s1) (title_in_table found) free level (by omega) good one spent ⟨blocks_free, room⟩ more grant).trans
        (congrArg _ opened))).trans (respond_radio takes.ready .ok _ rfl)) (by exact awake), rfl, fun wf j lt => ?_,
      fun address outside => ?_⟩
    · have alone : (s.pool.free.take 1).length = 1 := by simp [blocks_free]
      have stored := ownerByte_writeOwner_same (nodup_take_one s.pool.free) a.data 0 s.dram wf (by omega) j lt
      rwa [Nat.zero_add] at stored
    · refine read_writeOwner_other blocks address a.data 0 s.dram fun j lt => ?_
      rw [Nat.zero_add]
      exact outside j lt
  · intro a i x takes none_open free none_pending upper crc lt length found receiving names more few total needed room_free holding
      cost c grant level blocks open1
    let b := otherTaken .radio .chunkBegin m s
    have step : prefixStep a b = (b, .title i) := prefixStep_of_receiving upper crc (by exact found) receiving
      (receivingNames (s := b) lt found (names.imp_left fun ⟨form, same, named, _, lowest⟩ => ⟨form, same, named, lowest⟩))
    have goes_on : ¬ (a.form = 2 ∧ a.offset ≠ x.received) := by
      rcases names with ⟨_, _, _, at_end, _⟩ | ⟨form, _⟩
      · exact fun misfit => misfit.2 at_end
      · omega
    have good : badChunkLength a x = false := (badChunkLength_iff _ _).mpr ⟨by omega, few, by omega, total⟩
    have count : neededBlocks a x = needed := neededBlocks_eq a x
    have spent : chunkCost s.charge.params a.declared = cost := chunkCost_eq _ _
    clear_value needed cost
    have opened : chunkOpened a i x needed cost b = { b with
        pool := { s.pool with free := s.pool.free.drop needed }
        spool := { s.spool with
          titles := s.spool.titles.set i (some { x with blocks := blocks }), assembly := some open1, bare := some i }
        charge := c
        dram := writeOwner s.dram blocks x.received a.data } := rfl
    exact ⟨_, row takes (((chunkBegin_of_title (by exact none_open) (pending none_pending) awake step (by exact found)).trans
      ((chunkSteps_of_more (s := b) (title_in_table found) free level goes_on good count spent ⟨room_free, holding⟩ more grant).trans
        (congrArg _ opened))).trans (respond_radio takes.ready .ok _ rfl)) (by exact awake), rfl,
      fun wf distinct inside => ownerByte_writeOwner_same distinct a.data _ s.dram wf inside,
      fun address outside => read_writeOwner_other blocks address a.data _ s.dram outside⟩
  · intro bs a x takes opened found more
    let b := otherTaken .radio .chunkMore m s
    have decides : chunkMore .radio bs b = { collectedMore bs a x b with
        portRadio := answered .chunkMore .ok (encU32 (a.collected + bs.length)) s.portRadio } :=
      ((chunkMore_of_open (s := b) opened found (Nat.le_of_lt more)).trans
        (endIfCollected_of_more (s := collectedMore bs a x b) rfl (Nat.ne_of_lt more))).trans (respond_radio takes.ready .ok _ rfl)
    refine ⟨_, congrArg Host.Outcome.next (takeRequest_radio_rechecked (owner := chunkMore .radio) takes decides
      (by exact otherTaken_radio_active (k := .chunkMore) (m := m) active)), rfl,
      fun wf distinct inside => ownerByte_writeOwner_same distinct bs _ s.dram wf inside,
      fun address outside => read_writeOwner_other x.blocks address bs _ s.dram outside⟩
  · intro a i x takes none_open none_pending upper crc lt length found receiving resuming goesOn end_ goodLength needed room n up answer
      missed misfit
    let b := otherTaken .radio .chunkBegin m s
    have begins (names : resuming ∨ a.form = 3 ∧ s.spool.bare = some i) : chunkBegin .radio a b = chunkSteps .radio a i x b :=
      chunkBegin_of_title (by exact none_open) (pending none_pending) awake
        (prefixStep_of_receiving upper crc (by exact found) receiving (receivingNames (s := b) lt found names)) (by exact found)
    have names (goes : goesOn) : resuming ∨ a.form = 3 ∧ s.spool.bare = some i := goes.imp_left And.left
    have no_misfit (goes : goesOn) : ¬ (a.form = 2 ∧ a.offset ≠ x.received) := by
      rcases goes with ⟨_, at_end⟩ | ⟨form, _⟩
      · exact fun misfit => misfit.2 at_end
      · omega
    have answers (r : Result) (data : List Byte) (sp : Spool) : respond .radio r data { b with spool := sp } = answer r data sp :=
      respond_radio takes.ready r data rfl
    have good_iff : badChunkLength a x = false ↔ goodLength := badChunkLength_iff a x
    have count : neededBlocks a x = needed := neededBlocks_eq a x
    clear_value needed
    refine ⟨fun resumes elsewhere lenient => row takes ?_ (by exact awake),
      fun resumes elsewhere strict _ => row takes ?_ (by exact awake),
      fun goes bad => row takes ?_ (by exact awake), fun goes good full => row takes ?_ (by exact awake),
      fun goes good fits exact_ => ?_⟩
    · exact (begins (.inl resumes)).trans ((chunkSteps_of_misfit resumes.1 elsewhere).trans
        ((misfit_of_lenient lenient).trans (answers _ _ _)))
    · exact (begins (.inl resumes)).trans ((chunkSteps_of_misfit resumes.1 elsewhere).trans
        ((misfit_of_strict strict).trans ((congrArg (failTitle i .misfit) (answers _ _ _)).trans
          (failTitle_misfitCounted (s := b) awake (title_in_table found)))))
    · exact (begins (names goes)).trans ((chunkSteps_of_bad_length (no_misfit goes)
        (Bool.not_eq_false _ ▸ mt good_iff.mp bad)).trans (answers _ _ _))
    · rw [begins (names goes), chunkSteps_of_full (s := b) (no_misfit goes) (good_iff.mpr good) count full]
      exact refuseFull_of_active (s := b) (answers _ _ _) awake
    · intro cost t
      have back : refuseHeld .radio i (takeTitleBlocks i x needed b) = t :=
        (refuseHeld_of_taken (by exact found) (exact_.trans (blocksFor_eq x.received).symm)).trans
          (respond_radio takes.ready .held [] rfl)
      have steps := (begins (names goes)).trans (chunkSteps_of_room (s := b) (no_misfit goes) (good_iff.mpr good) count fits)
      have spent : chunkCost s.charge.params a.declared = cost := chunkCost_eq _ _
      clear_value cost
      refine ⟨fun held => row takes (steps.trans ((chargeStep_of_held (s := b) held).trans back)) (by exact awake),
        fun free refused => row takes ?_ (by exact awake)⟩
      rw [steps, chargeStep_of_refused (s := b) free spent refused, back, offerTo_radio]
      rfl
  · intro a takes none_open none_pending upper crc form none_
    refine row takes ?_ (by exact awake)
    exact (chunkBegin_of_refused (by exact none_open) (pending none_pending) awake
      (prefixStep_of_no_target upper crc form (by exact none_))).trans (refuse_otherTaken .noTitle takes.ready)
  · intro v takes held zero c t clear raw
    have clear_iff : improves c 0 = true ↔ clear := decide_eq_true_iff
    have outcomes := evaluate_of_held_at_zero .full (s := { mainTaken .chargeSet m s with charge := c }) held zero raw
    exact ⟨fun above => exec_chargeSet_of_zero takes (outcomes.1 (clear_iff.mpr above)) rfl zero takes.active rfl,
      fun below => exec_chargeSet_of_zero takes (outcomes.2 (Bool.eq_false_iff.mpr (mt clear_iff.mp below))) rfl zero takes.active rfl⟩

end Sys2Proof.Machine
end
